-- ==== Sys2Proof/Word.lean ====
section
/-! DEFINITION. The two word types of the Snappy codec core (spec 00_scope.md R10, R12): a byte of the memory or of the
stream, and the 64-bit value of a varint. Cursors, lengths, positions and addresses are natural numbers, because every rule
computes with them exactly (R11); that they fit their register's width is the invariant of Safety.lean. -/

namespace Sys2Proof

/-- A byte is 8 bits; bit 0 is the least significant (R10). -/
abbrev Byte := BitVec 8

/-- A varint value, VALUE_IN and VALUE_OUT are 64 bits, unsigned (R12). -/
abbrev Value := BitVec 64

end Sys2Proof
end

