-- ==== Sys2Proof/Syntax.lean ====
section
/-! DEFINITION. The instruction set: one constructor per row of spec/opcode_table.json, in the table's order, with the fields
of its encoding as operands. Three kinds of words (30_encoding.md): bytes of a varint, elements of the stream, host commands. -/

namespace Sys2Proof

/-- One instruction. The operands are the raw fields of the formats (R81 to R90): a length field holds the length less its
bias, exactly as in the encoding. The bytes of a literal are not part of the term: they follow the header in the stream and
are what the element moves. -/
inductive Instr where
  /-- VARINT_CONT (Format V, R81): a varint byte that is not the last, with its 7-bit group. -/
  | varintCont (g : BitVec 7)
  /-- VARINT_LAST (Format V, R81): the last byte of a varint, with its 7-bit group. -/
  | varintLast (g : BitVec 7)
  /-- LIT0 (Format L0, R83): literal of `n + 1` bytes, `n` in the tag byte, at most 59. -/
  | lit0 (n : BitVec 6)
  /-- LIT1 (Format L1, R84): literal of `n + 1` bytes, one length byte. -/
  | lit1 (n : BitVec 8)
  /-- LIT2 (Format L2, R85): literal of `n + 1` bytes, two length bytes. -/
  | lit2 (n : BitVec 16)
  /-- LIT3 (Format L3, R86): literal of `n + 1` bytes, three length bytes. -/
  | lit3 (n : BitVec 24)
  /-- LIT4 (Format L4, R87): literal of `n + 1` bytes, four length bytes. -/
  | lit4 (n : BitVec 32)
  /-- COPY1 (Format C1, R88): `len4` is the length minus 4, `off` the 11-bit offset. -/
  | copy1 (len4 : BitVec 3) (off : BitVec 11)
  /-- COPY2 (Format C2, R89): `len1` is the length minus 1, `off` the 16-bit offset. -/
  | copy2 (len1 : BitVec 6) (off : BitVec 16)
  /-- COPY4 (Format C4, R90): `u` is not examined. -/
  | copy4 (u : BitVec 6)
  /-- MAX_ENCODED_LEN, OP = 0 (R100, R180). -/
  | maxEncodedLen
  /-- PUT_UVARINT, OP = 1 (R100, R122). -/
  | putUvarint
  /-- UVARINT, OP = 2 (R100, R123). -/
  | uvarint
  /-- ENCODE, OP = 3 (R100, R181). -/
  | encode
  /-- DECODE, OP = 4 (R100, R210). -/
  | decode
deriving DecidableEq, Repr

/-- The three places an instruction's word can stand in: the register OP (R99), the prefix of a stream or the operand of
UVARINT (R80, R81), and the element part of a stream (R80). The same byte means different things in each. -/
inductive Space where
  | command
  | varint
  | element
deriving DecidableEq, Repr

/-- The place an instruction's word stands in. -/
def Instr.space : Instr → Space
  | .varintCont _ => .varint
  | .varintLast _ => .varint
  | .lit0 _ => .element
  | .lit1 _ => .element
  | .lit2 _ => .element
  | .lit3 _ => .element
  | .lit4 _ => .element
  | .copy1 _ _ => .element
  | .copy2 _ _ => .element
  | .copy4 _ => .element
  | .maxEncodedLen => .command
  | .putUvarint => .command
  | .uvarint => .command
  | .encode => .command
  | .decode => .command

end Sys2Proof
end

