-- ==== Sys2Proof/WellFormed.lean ====
section
/-! DEFINITION. Which terms of Instr an encoding exists for. The field widths of the constructors carry every bound but one:
the tag field of LIT0 must be at most 59 (30_encoding.md R83), since 60 to 63 are the tags of LIT1 to LIT4. -/

namespace Sys2Proof

/-- An instruction is well formed when it has an encoding (R81 to R90). -/
def Instr.wf : Instr → Bool
  | .lit0 n => decide (n.toNat ≤ 59)
  | .varintCont _ => true
  | .varintLast _ => true
  | .lit1 _ => true
  | .lit2 _ => true
  | .lit3 _ => true
  | .lit4 _ => true
  | .copy1 _ _ => true
  | .copy2 _ _ => true
  | .copy4 _ => true
  | .maxEncodedLen => true
  | .putUvarint => true
  | .uvarint => true
  | .encode => true
  | .decode => true

end Sys2Proof
end

