-- ==== Sys2Proof/Decode.lean ====
section
/-! DEFINITION. The decoder, total on any bytes and rejecting by name, and the encoder, both written from 30_encoding.md
(R81 to R93, R99, R100) and spec/opcode_table.json. -/

namespace Sys2Proof

/-- Why a list of bytes is no instruction. -/
inductive DecodeError where
  /-- There is no byte at all. -/
  | noBytes
  /-- An element whose length bytes or payload bytes are missing (R84 to R89). -/
  | truncatedHeader
  /-- An OP value with no command: 5, 6, 7 (R100), or a value that is no 3-bit OP at all. -/
  | badOpcode
deriving DecidableEq, Repr

/-- What decoding answers: an instruction and the bytes after it, or a named rejection. -/
inductive Decoded where
  | ok (i : Instr) (rest : List Byte)
  | rejected (e : DecodeError)
deriving DecidableEq, Repr

/-- Format V (R81): bit 7 is the continuation bit, bits 6:0 the group. -/
def decodeVarintByte (b : Byte) : Instr :=
  if b.getLsbD 7 then .varintCont (b.extractLsb' 0 7) else .varintLast (b.extractLsb' 0 7)

/-- A literal with upper tag field `u` (R83 to R87, R91, R92): below 60 the field is the length minus 1, from 60 on one to
four little-endian length bytes follow. -/
def decodeLiteral (u : BitVec 6) (rest : List Byte) : Decoded :=
  if u.toNat < 60 then .ok (.lit0 u) rest
  else if u.toNat = 60 then
    match rest with
    | b1 :: r => .ok (.lit1 b1) r
    | _ => .rejected .truncatedHeader
  else if u.toNat = 61 then
    match rest with
    | b1 :: b2 :: r => .ok (.lit2 (b2 ++ b1)) r
    | _ => .rejected .truncatedHeader
  else if u.toNat = 62 then
    match rest with
    | b1 :: b2 :: b3 :: r => .ok (.lit3 (b3 ++ b2 ++ b1)) r
    | _ => .rejected .truncatedHeader
  else
    match rest with
    | b1 :: b2 :: b3 :: b4 :: r => .ok (.lit4 (b4 ++ b3 ++ b2 ++ b1)) r
    | _ => .rejected .truncatedHeader

/-- COPY1 (R88, R92): length minus 4 in tag bits 4:2, offset bits 10:8 in tag bits 7:5, offset bits 7:0 in the next byte. -/
def decodeCopy1 (tag : Byte) (rest : List Byte) : Decoded :=
  match rest with
  | b1 :: r => .ok (.copy1 (tag.extractLsb' 2 3) (tag.extractLsb' 5 3 ++ b1)) r
  | _ => .rejected .truncatedHeader

/-- COPY2 (R89, R92): length minus 1 in tag bits 7:2, 16-bit little-endian offset in the next two bytes. -/
def decodeCopy2 (tag : Byte) (rest : List Byte) : Decoded :=
  match rest with
  | b1 :: b2 :: r => .ok (.copy2 (tag.extractLsb' 2 6) (b2 ++ b1)) r
  | _ => .rejected .truncatedHeader

/-- An element, dispatched on the low two bits of its tag byte (R82, R93, R215). -/
def decodeElement (bytes : List Byte) : Decoded :=
  match bytes with
  | [] => .rejected .noBytes
  | tag :: rest =>
    if tag.extractLsb' 0 2 = 0#2 then decodeLiteral (tag.extractLsb' 2 6) rest
    else if tag.extractLsb' 0 2 = 1#2 then decodeCopy1 tag rest
    else if tag.extractLsb' 0 2 = 2#2 then decodeCopy2 tag rest
    else .ok (.copy4 (tag.extractLsb' 2 6)) rest

/-- The command that an OP value selects (R99, R100); 5, 6 and 7 select none. -/
def decodeCommand (op : BitVec 3) : Option Instr :=
  if op = 0#3 then some .maxEncodedLen
  else if op = 1#3 then some .putUvarint
  else if op = 2#3 then some .uvarint
  else if op = 3#3 then some .encode
  else if op = 4#3 then some .decode
  else none

/-- The decoder: bytes found in one of the three places (Syntax.lean, Space) to an instruction and the rest, or a rejection. -/
def decode (sp : Space) (bytes : List Byte) : Decoded :=
  match sp, bytes with
  | _, [] => .rejected .noBytes
  | .varint, b :: rest => .ok (decodeVarintByte b) rest
  | .command, b :: rest =>
    if b.toNat < 8 then
      match decodeCommand (b.extractLsb' 0 3) with
      | some i => .ok i rest
      | none => .rejected .badOpcode
    else .rejected .badOpcode
  | .element, b :: rest => decodeElement (b :: rest)

/-- The encoder, from the formats R81 to R90 and the codes of R100: the bytes of an instruction's header, first byte first. -/
def encode : Instr → List Byte
  | .varintCont g => [1#1 ++ g]
  | .varintLast g => [0#1 ++ g]
  | .lit0 n => [n ++ 0#2]
  | .lit1 n => [0xF0#8, n]
  | .lit2 n => [0xF4#8, n.extractLsb' 0 8, n.extractLsb' 8 8]
  | .lit3 n => [0xF8#8, n.extractLsb' 0 8, n.extractLsb' 8 8, n.extractLsb' 16 8]
  | .lit4 n => [0xFC#8, n.extractLsb' 0 8, n.extractLsb' 8 8, n.extractLsb' 16 8, n.extractLsb' 24 8]
  | .copy1 len4 off => [off.extractLsb' 8 3 ++ len4 ++ 1#2, off.extractLsb' 0 8]
  | .copy2 len1 off => [len1 ++ 2#2, off.extractLsb' 0 8, off.extractLsb' 8 8]
  | .copy4 u => [u ++ 3#2]
  | .maxEncodedLen => [0#8]
  | .putUvarint => [1#8]
  | .uvarint => [2#8]
  | .encode => [3#8]
  | .decode => [4#8]

/-- The number of header bytes of an instruction (R91): tag and payload of an element, one byte of a varint, one OP value. COPY4, to
which R91 gives no size, is its tag byte alone (R90, R224; assumption log 20). -/
def headerBytes : Instr → Nat
  | .varintCont _ => 1
  | .varintLast _ => 1
  | .lit0 _ => 1
  | .lit1 _ => 2
  | .lit2 _ => 3
  | .lit3 _ => 4
  | .lit4 _ => 5
  | .copy1 _ _ => 2
  | .copy2 _ _ => 3
  | .copy4 _ => 1
  | .maxEncodedLen => 1
  | .putUvarint => 1
  | .uvarint => 1
  | .encode => 1
  | .decode => 1

/-- The number of bytes that follow an instruction's header as its literal bytes (R83 to R87): `n + 1` for a literal. -/
def literalBytes : Instr → Nat
  | .varintCont _ => 0
  | .varintLast _ => 0
  | .lit0 n => n.toNat + 1
  | .lit1 n => n.toNat + 1
  | .lit2 n => n.toNat + 1
  | .lit3 n => n.toNat + 1
  | .lit4 n => n.toNat + 1
  | .copy1 _ _ => 0
  | .copy2 _ _ => 0
  | .copy4 _ => 0
  | .maxEncodedLen => 0
  | .putUvarint => 0
  | .uvarint => 0
  | .encode => 0
  | .decode => 0

/-- The longest header, that of LIT4 (R87). -/
def maxHeaderBytes : Nat := 5

/-- `count` bytes of the number `w`, least significant first: how opcode_table.json numbers the bits of a row. -/
def bytesOfWord : Nat → Nat → List Byte
  | 0, _ => []
  | count + 1, w => BitVec.ofNat 8 w :: bytesOfWord count (w / 256)

/-- Where a word of opcode_table.json is taken to stand. The table has three kinds of rows whose words overlap (a byte 00 is
VARINT_LAST, LIT0 and OP = 0), and a bare word has no context, so this fixes one reading for each (assumption log 18): more
than one byte is an element (only elements are longer); one byte that is an OP code, 0 to 4, is that command, since after
reset the idle core can run nothing but a command (10_state.md R35); of the other bytes the four tags F0, F4, F8, FC, every
tag of kind 3 and the tags of kind 0 below 80 are elements; and the rest (tags 80 to EC of kind 0, and kinds 1 and 2, whose
element rows are longer) are bytes of a varint. -/
def tableSpace (nbits w : Nat) : Space :=
  if nbits < 8 then .command
  else if 8 < nbits then .element
  else if w < 5 then .command
  else if w % 4 = 3 then .element
  else if w % 4 = 0 ∧ (w < 0x80 ∨ 0xF0 ≤ w) then .element
  else .varint

/-- The instruction the decoder reads from a word numbered as opcode_table.json numbers it, the bits above `nbits` being 0;
none where it refuses. -/
def decodeTableWord (nbits w : Nat) : Option Instr :=
  match decode (tableSpace nbits w) (bytesOfWord maxHeaderBytes (w % 2 ^ nbits)) with
  | .ok i _ => some i
  | .rejected _ => none

end Sys2Proof
end

