-- ==== Sys2Proof/Config.lean ====
section
/-! DEFINITION. What is fixed for one core: the two parameters the spec leaves open (00_scope.md R6), the fixed values of R5,
and the free values, for what the spec says holds no defined value. A free value is an opaque constant: nothing in Lean can
evaluate it, so every theorem holds whatever it is. -/

namespace Sys2Proof

/-- The parameters of R6: `aw`, the width in bits of an address, a length, a cursor and a table entry, and `encMaxOffset`,
the largest distance the encoder accepts for a match. -/
structure Config where
  aw : Nat
  encMaxOffset : Nat
deriving DecidableEq, Repr

/-- The ranges of R6: AW from 16 to 62, ENC_MAX_OFFSET 32767 or 32768. -/
def Config.valid (c : Config) : Bool :=
  decide (16 ≤ c.aw) && decide (c.aw ≤ 62) && (decide (c.encMaxOffset = 32767) || decide (c.encMaxOffset = 32768))

/-- The defaults of R6 (92_eei_decisions.md D4, D12). -/
def Config.default : Config := { aw := 32, encMaxOffset := 32767 }

/-- `2^AW`: the number of bytes of the memory (R7, R50) and the bound of every AW-bit register. -/
def Config.space (c : Config) : Nat := 2 ^ c.aw

namespace Config

/-- Hash multiplier (R5). -/
def hashMul : BitVec 32 := 0x1e35a7bd
/-- Smallest match-table size in entries (R5). -/
def tableMin : Nat := 256
/-- Largest match-table size in entries (R5). -/
def tableMax : Nat := 16384
/-- A source of this many bytes or fewer is one literal (R5, R183). -/
def shortInput : Nat := 4
/-- Largest offset of a COPY1 element (R5). -/
def copy1MaxOffset : Nat := 2047
/-- Length range of a COPY1 element (R5). -/
def copy1MinLen : Nat := 4
/-- Length range of a COPY1 element (R5). -/
def copy1MaxLen : Nat := 11
/-- Largest length of a COPY2 element (R5). -/
def copy2MaxLen : Nat := 64
/-- Published maximum varint lengths (R5, R23). -/
def maxVarintLen16 : Nat := 3
/-- Published maximum varint lengths (R5, R23). -/
def maxVarintLen32 : Nat := 5
/-- Published maximum varint lengths (R5, R23). -/
def maxVarintLen64 : Nat := 10
/-- The constants of `32 + n + n/6` (R5, R180). -/
def maxLenConst : Nat := 32
/-- The constants of `32 + n + n/6` (R5, R180). -/
def maxLenDiv : Nat := 6

/-- FREE VALUE. The number a register holds where the spec says it holds no defined value (10_state.md R34, R35; U2, U7),
chosen by the counter in State and by a slot number, one slot a register (assumption log 10, 17). -/
opaque freeNat : Nat → Nat → Nat

/-- FREE VALUE. What the host finds in a destination byte below the write limit after a failed or abandoned command
(60_exceptions.md R276, 70_reset_and_hazards.md R310; U1, U16), given the counter in State, the byte's index in the view and
the byte that stood there when the command ended. The hardware of the spec is the one case where this answers its third
argument (assumption log 9). -/
opaque freeByte : Nat → Nat → Byte → Byte

end Config

end Sys2Proof
end

