-- ==== Sys2Proof/Machine/State.lean ====
section
/-! DEFINITION. The state of the core (10_state.md), the host's moves, the ways a step stops, and the state after reset. -/

namespace Sys2Proof.Machine

/-- Why the machine stops with a fault. None is a failure of the spec: those are taken (60_exceptions.md R270). -/
inductive Fault where
  /-- Raised by an element's meaning, or by a step inside a command, in a state whose running command would reach outside its
  views (20_memory.md R52: this never happens; only states that no run reaches have it). Safe: the model stops. -/
  | outsideView
  /-- Raised by a step whose host move writes a memory address of `2^AW` or more, which does not exist (R50). Safe. -/
  | addressOutsideMemory
  /-- Raised by UVARINT, ENCODE or DECODE should the sequencer not be idle within its bound; R317 says every command ends.
  Safe: the model stops. -/
  | sequencerOverrun
deriving DecidableEq, Repr

/-- Why the machine refuses. -/
inductive Refusal where
  /-- Raised by exec for an instruction that has no meaning yet. Safe. -/
  | notModelled (mnemonic : String)
  /-- Raised by ENCODE and DECODE when the source and the destination view share an address: disjointness is a premise of the
  two commands and the spec says that a model refuses such a launch (20_memory.md R57, U3). Safe. -/
  | overlappingViews
deriving DecidableEq, Repr

/-- The operand registers (R21). The AW-bit ones are numbers below `2^AW` (Safety.lean). -/
structure Operands where
  op : BitVec 3
  srcBase : Nat
  srcLen : Nat
  dstBase : Nat
  dstLen : Nat
  valueIn : Value
deriving DecidableEq, Repr

/-- The response registers (R22). -/
structure Response where
  status : BitVec 4
  cause : BitVec 8
  count : Nat
  valueOut : Value
  errS : Nat
  errD : Nat
deriving DecidableEq, Repr

/-- The encoder's working registers (R24). -/
structure EncRegs where
  n : Nat
  s : Nat
  t : Nat
  lit : Nat
  s0 : Nat
  d : Nat
  tableSize : Nat
  shift : Nat
  w : BitVec 32
  h : Nat
  e : Nat
  moff : Nat
  mlen : Nat
deriving DecidableEq, Repr

/-- The decoder's working registers (R25); `s` is the program counter of the tag stream (R27). -/
structure DecRegs where
  L : Nat
  s : Nat
  d : Nat
  dLen : Nat
  tag : Byte
  kind : BitVec 2
  x : BitVec 32
  len : Nat
  off : Nat
  sEl : Nat
deriving DecidableEq, Repr

/-- The varint unit's working registers (R26). -/
structure VarRegs where
  v : Value
  sh : Nat
  i : Nat
  b : Byte
deriving DecidableEq, Repr

/-- Who reads the varint: the command UVARINT (R123), or DECODE for its length prefix (R211). -/
inductive VarintUser where
  | uvarint
  | decode
deriving DecidableEq, Repr

/-- The core's activity (R35): idle, or inside a command at one of the micro-step boundaries the spec describes (00_scope.md
R8). -/
inductive Activity where
  | idle
  /-- Any command, issued and with nothing of it done: before its entry checks (R281). -/
  | issued
  /-- PUT_UVARINT before the next byte of its output (R121, R122). -/
  | putBytes
  /-- UVARINT or DECODE's prefix before the next varint byte (R124). -/
  | varint (user : VarintUser)
  /-- DECODE between two elements (R214). -/
  | elements
  /-- ENCODE before its prefix (R182). -/
  | encodeStart
  /-- ENCODE before the next scan position (R184). -/
  | scan
deriving DecidableEq, Repr

/-- The host-visible registers by name (R21, R22, R23). -/
inductive Reg where
  | op
  | srcBase
  | srcLen
  | dstBase
  | dstLen
  | valueIn
  | status
  | cause
  | count
  | valueOut
  | errS
  | errD
  | maxVarintLen16
  | maxVarintLen32
  | maxVarintLen64
deriving DecidableEq, Repr

/-- What the host can do to the core (R9, R310, R312). Reading changes nothing and is no move. -/
inductive HostMove where
  /-- Write a register (R21). -/
  | writeReg (r : Reg) (v : Value)
  /-- Write a byte of memory (R61). -/
  | writeMem (a : Nat) (b : Byte)
  /-- Issue the command in OP and let it end: one atomic operation (R8). -/
  | issue
  /-- Issue the command in OP and watch it on its way: its micro-steps are steps of their own, so that a reset can come between
  two of them (R310). -/
  | launch
  /-- Let one step of the core pass. -/
  | wait
  /-- The reset input (R310). -/
  | reset
deriving DecidableEq, Repr

/-- The memory as (address, byte) pairs in the canonical form of Ops.lean: addresses strictly rising, no entry equal to what
an unlisted address reads as. -/
abbrev Memory := List Host.Cell

/-- The match table as (index, entry) pairs in the same canonical form; an unlisted entry is 0, "no entry" (R31). -/
abbrev Table := List (Nat × Nat)

/-- The state. `cfg`, `host` and `free` are the model's own (assumption log 1, 6, 10); the rest is 10_state.md R20, the
memory of R50 and the activity of R35. -/
structure State where
  cfg : Config
  ops : Operands
  resp : Response
  enc : EncRegs
  dec : DecRegs
  vu : VarRegs
  table : Table
  mem : Memory
  activity : Activity
  host : List HostMove
  free : Nat
deriving DecidableEq, Repr

/-- The machine right after reset (R35, R310): response registers 0, idle, memory with nothing listed. Where the spec says
"unspecified" the value is DESIGN CHOICE 0 (assumption log 2, 3, 4); the parameters have the defaults of R6. -/
def State.reset : State where
  cfg := Config.default
  ops := { op := 0, srcBase := 0, srcLen := 0, dstBase := 0, dstLen := 0, valueIn := 0 }
  resp := { status := 0, cause := 0, count := 0, valueOut := 0, errS := 0, errD := 0 }
  enc := { n := 0, s := 0, t := 0, lit := 0, s0 := 0, d := 0, tableSize := 0, shift := 0, w := 0, h := 0, e := 0,
           moff := 0, mlen := 0 }
  dec := { L := 0, s := 0, d := 0, dLen := 0, tag := 0, kind := 0, x := 0, len := 0, off := 0, sEl := 0 }
  vu := { v := 0, sh := 0, i := 0, b := 0 }
  table := []
  mem := []
  activity := .idle
  host := []
  free := 0

end Sys2Proof.Machine
end

