-- ==== Sys2Proof/Machine/Flags.lean ====
section
/-! DEFINITION. The core has no status flags (10_state.md R29): no element and no command writes one. Its only outcome record
is STATUS with CAUSE (R22); this file holds their codes (60_exceptions.md R271, R272). -/

namespace Sys2Proof.Machine

/-- The failure classes (R271). -/
inductive FailClass where
  | destTooSmall
  | corruptInput
  | unsupported
  | invalidVarint
  | incompleteVarint
  | badCommand
deriving DecidableEq, Repr

/-- The failure causes (R272), one per point of the rules at which a command can fail. -/
inductive Cause where
  | encDstLtMaxLen
  | decDstLtDeclared
  | putDstTooSmall
  | encDstOverrun
  | prefixIncomplete
  | litExtraTruncated
  | litLengthZero
  | litExceedsDst
  | litExceedsSrc
  | copyPayloadTruncated
  | copyOffsetBeforeStart
  | copyExceedsDst
  | finalLengthMismatch
  | copy4Tag
  | sourceTooLong
  | varintTooManyGroups
  | varint10thOverflow
  | varintIncomplete
  | badOpcode
  | viewWraps
deriving DecidableEq, Repr

/-- The value of STATUS for a class (R271); 0 is OK. -/
def FailClass.status : FailClass → BitVec 4
  | .destTooSmall => 1
  | .corruptInput => 2
  | .unsupported => 3
  | .invalidVarint => 4
  | .incompleteVarint => 5
  | .badCommand => 15

/-- The class of a cause (R272, column class). -/
def Cause.failClass : Cause → FailClass
  | .encDstLtMaxLen => .destTooSmall
  | .decDstLtDeclared => .destTooSmall
  | .putDstTooSmall => .destTooSmall
  | .encDstOverrun => .destTooSmall
  | .prefixIncomplete => .corruptInput
  | .litExtraTruncated => .corruptInput
  | .litLengthZero => .corruptInput
  | .litExceedsDst => .corruptInput
  | .litExceedsSrc => .corruptInput
  | .copyPayloadTruncated => .corruptInput
  | .copyOffsetBeforeStart => .corruptInput
  | .copyExceedsDst => .corruptInput
  | .finalLengthMismatch => .corruptInput
  | .copy4Tag => .unsupported
  | .sourceTooLong => .unsupported
  | .varintTooManyGroups => .invalidVarint
  | .varint10thOverflow => .invalidVarint
  | .varintIncomplete => .incompleteVarint
  | .badOpcode => .badCommand
  | .viewWraps => .badCommand

/-- The value of CAUSE for a cause (R272, column CAUSE); 0 is none. -/
def Cause.code : Cause → BitVec 8
  | .encDstLtMaxLen => 0x10
  | .decDstLtDeclared => 0x11
  | .putDstTooSmall => 0x12
  | .encDstOverrun => 0x13
  | .prefixIncomplete => 0x20
  | .litExtraTruncated => 0x21
  | .litLengthZero => 0x22
  | .litExceedsDst => 0x23
  | .litExceedsSrc => 0x24
  | .copyPayloadTruncated => 0x25
  | .copyOffsetBeforeStart => 0x26
  | .copyExceedsDst => 0x27
  | .finalLengthMismatch => 0x28
  | .copy4Tag => 0x30
  | .sourceTooLong => 0x31
  | .varintTooManyGroups => 0x40
  | .varint10thOverflow => 0x41
  | .varintIncomplete => 0x50
  | .badOpcode => 0xF0
  | .viewWraps => 0xF1

/-- STATUS after a failure (R274): the class number of the cause. -/
def Cause.status (c : Cause) : BitVec 4 := c.failClass.status

end Sys2Proof.Machine
end

