-- ==== Sys2Proof/Machine/Ops.lean ====
section
/-! DEFINITION. The named operations over memory, table and registers: reads and writes, views, the end of a command in
success and in failure (the spec's "trap entry", 60_exceptions.md R274), and the host's access to registers. -/

namespace Sys2Proof.Machine

/-! ## Sparse data in canonical form -/

/-- The value stored under a key; a key not listed holds `dflt`. -/
def cellGet {α : Type} (dflt : α) : List (Nat × α) → Nat → α
  | [], _ => dflt
  | (k, v) :: m, a => if a = k then v else cellGet dflt m a

/-- Store a value under a key, keeping the keys rising and listing no `dflt`. -/
def cellSet {α : Type} [DecidableEq α] (dflt : α) : List (Nat × α) → Nat → α → List (Nat × α)
  | [], a, b => if b = dflt then [] else [(a, b)]
  | (k, v) :: m, a, b =>
    if a < k then (if b = dflt then (k, v) :: m else (a, b) :: (k, v) :: m)
    else if a = k then (if b = dflt then m else (a, b) :: m)
    else (k, v) :: cellSet dflt m a b

/-- The canonical form: keys strictly rising, no value equal to `dflt`. -/
def cellsWf {α : Type} [DecidableEq α] (dflt : α) : List (Nat × α) → Bool
  | [] => true
  | (k, v) :: m => decide (v ≠ dflt) && m.all (fun p => decide (k < p.1)) && cellsWf dflt m

/-- Every key is below `n` and every value satisfies `p`. -/
def cellsWithin {α : Type} (n : Nat) (p : α → Bool) (m : List (Nat × α)) : Bool :=
  m.all (fun c => decide (c.1 < n) && p c.2)

/-! ## Memory (R50, R55, R56): plain bytes -/

/-- What an unlisted address reads as: DESIGN CHOICE 0, the spec gives no contents (assumption log 5). -/
def memDefault : Byte := 0

/-- `MemRead(a, 1)` (R11). -/
def readByte (m : Memory) (a : Nat) : Byte := cellGet memDefault m a

/-- `MemWrite(a, 1, b)` (R11): changes that byte and nothing else (R56). -/
def writeByte (m : Memory) (a : Nat) (b : Byte) : Memory := cellSet memDefault m a b

/-- The canonical form of a memory. -/
def Memory.wf (m : Memory) : Bool := cellsWf memDefault m

/-- Write a list of bytes at rising addresses. -/
def writeBytes (m : Memory) (a : Nat) : List Byte → Memory
  | [] => m
  | b :: bs => writeBytes (writeByte m a b) (a + 1) bs

/-- The bytes at `count` addresses from `a` on. -/
def readBytes (m : Memory) (a : Nat) : Nat → List Byte
  | 0 => []
  | count + 1 => readByte m a :: readBytes m (a + 1) count

/-! ## Match table (R31) -/

/-- `T[h]`; an entry not listed is 0, "no entry" (R31). -/
def tableGet (t : Table) (h : Nat) : Nat := cellGet 0 t h

/-- `T[h] <- e` (R11). -/
def tableSet (t : Table) (h e : Nat) : Table := cellSet 0 t h e

/-- The canonical form of a table. -/
def tableWf (t : Table) : Bool := cellsWf 0 t

/-! ## Updates of the working registers -/

/-- Change the encoder's working registers (R24). -/
def State.modEnc (f : EncRegs → EncRegs) (s : State) : State := { s with enc := f s.enc }

/-- Change the decoder's working registers (R25). -/
def State.modDec (f : DecRegs → DecRegs) (s : State) : State := { s with dec := f s.dec }

/-- Change the varint unit's working registers (R26). -/
def State.modVu (f : VarRegs → VarRegs) (s : State) : State := { s with vu := f s.vu }

/-- Change the core's activity (R35). -/
def State.setActivity (a : Activity) (s : State) : State := { s with activity := a }

/-! ## Views (R51) -/

/-- `Src(i)` (R11): byte `i` of the source view. -/
def src (s : State) (i : Nat) : Byte := readByte s.mem (s.ops.srcBase + i)

/-- `Dst(i)` (R11): byte `i` of the destination view. -/
def dst (s : State) (i : Nat) : Byte := readByte s.mem (s.ops.dstBase + i)

/-- `DstW(i, v)` (R11): write byte `i` of the destination view. -/
def dstW (s : State) (i : Nat) (b : Byte) : State := { s with mem := writeByte s.mem (s.ops.dstBase + i) b }

/-- `DstW(j, bytes[j])` for every byte of a list, increasing `j`. -/
def dstWrites (s : State) (bs : List Byte) : State := { s with mem := writeBytes s.mem s.ops.dstBase bs }

/-- The source view wraps: `SRC_BASE + SRC_LEN > 2^AW`, an exact sum (R51, R281). -/
def srcWraps (s : State) : Bool := decide (s.cfg.space < s.ops.srcBase + s.ops.srcLen)

/-- The destination view wraps: `DST_BASE + DST_LEN > 2^AW`, an exact sum (R51, R281). -/
def dstWraps (s : State) : Bool := decide (s.cfg.space < s.ops.dstBase + s.ops.dstLen)

/-- The two views share an address (R57); a view of length 0 holds no byte (R51). -/
def viewsOverlap (s : State) : Bool :=
  decide (0 < s.ops.srcLen) && decide (0 < s.ops.dstLen)
    && decide (s.ops.srcBase < s.ops.dstBase + s.ops.dstLen) && decide (s.ops.dstBase < s.ops.srcBase + s.ops.srcLen)

/-! ## What holds no defined value between commands (R34, R35): free values, trimmed to the register's width -/

/-- An AW-bit register that holds no defined value. -/
def freeCursor (c : Config) (k slot : Nat) : Nat := Config.freeNat k slot % c.space

/-- Encoder working registers that hold no defined value (R24 for the widths). -/
def freeEnc (c : Config) (k : Nat) : EncRegs where
  n := freeCursor c k 0
  s := freeCursor c k 1
  t := freeCursor c k 2
  lit := freeCursor c k 3
  s0 := freeCursor c k 4
  d := freeCursor c k 5
  tableSize := Config.freeNat k 6 % 2 ^ 15
  shift := Config.freeNat k 7 % 2 ^ 5
  w := BitVec.ofNat 32 (Config.freeNat k 8)
  h := Config.freeNat k 9 % 2 ^ 14
  e := freeCursor c k 10
  moff := freeCursor c k 11
  mlen := freeCursor c k 12

/-- Decoder working registers that hold no defined value (R25 for the widths). -/
def freeDec (c : Config) (k : Nat) : DecRegs where
  L := freeCursor c k 13
  s := freeCursor c k 14
  d := freeCursor c k 15
  dLen := freeCursor c k 16
  tag := BitVec.ofNat 8 (Config.freeNat k 17)
  kind := BitVec.ofNat 2 (Config.freeNat k 18)
  x := BitVec.ofNat 32 (Config.freeNat k 19)
  len := Config.freeNat k 20 % 2 ^ 33
  off := Config.freeNat k 21 % 2 ^ 16
  sEl := freeCursor c k 22

/-- Varint working registers that hold no defined value (R26 for the widths). -/
def freeVar (k : Nat) : VarRegs where
  v := BitVec.ofNat 64 (Config.freeNat k 23)
  sh := Config.freeNat k 24 % 2 ^ 7
  i := Config.freeNat k 25 % 2 ^ 4
  b := BitVec.ofNat 8 (Config.freeNat k 26)

/-- Operand registers that hold no defined value (R21 for the widths). -/
def freeOperands (c : Config) (k : Nat) : Operands where
  op := BitVec.ofNat 3 (Config.freeNat k 27)
  srcBase := freeCursor c k 28
  srcLen := freeCursor c k 29
  dstBase := freeCursor c k 30
  dstLen := freeCursor c k 31
  valueIn := BitVec.ofNat 64 (Config.freeNat k 32)

/-- Table entries below `count` that hold no defined value (R31, R34). -/
def freeEntries (c : Config) (k : Nat) : Nat → Table
  | 0 => []
  | i + 1 => tableSet (freeEntries c k i) i (freeCursor c k (100 + i))

/-- A match table none of whose 16384 entries holds a defined value (R31, R34). Irreducible so that no proof counts to 16384. -/
@[irreducible] def freeTable (c : Config) (k : Nat) : Table := freeEntries c k Config.tableMax

/-! ## The end of a command -/

/-- The core is idle: no working register and no table entry holds a defined value (R34; assumption log 10). -/
def toIdle (s : State) : State :=
  { s with
    enc := freeEnc s.cfg s.free
    dec := freeDec s.cfg s.free
    vu := freeVar s.free
    table := freeTable s.cfg s.free
    activity := .idle
    free := s.free + 1 }

/-- A command ends in success: STATUS and CAUSE 0, COUNT and VALUE_OUT as the command gives them, ERR_S and ERR_D 0 (R22). -/
def succeed (count : Nat) (valueOut : Value) (s : State) : State :=
  toIdle { s with resp := { status := 0, cause := 0, count := count, valueOut := valueOut, errS := 0, errD := 0 } }

/-- The destination bytes below `limit` hold any value (R276, U1; assumption log 9): each is a free value. -/
def residue (k base : Nat) : Nat → Memory → Memory
  | 0, m => m
  | j + 1, m => writeByte (residue k base j m) (base + j) (Config.freeByte k j (readByte (residue k base j m) (base + j)))

/-- `raise <Class>(<CAUSE>)` (R274), the one way a command fails: STATUS the class, CAUSE the code, COUNT and VALUE_OUT 0,
ERR_S and ERR_D as R273 says, and the core is idle. The operand registers keep their values; of memory, only destination
bytes below the command's write limit are open (R276). -/
def fail (c : Cause) (errS errD limit : Nat) (s : State) : State :=
  toIdle { s with
    resp := { status := c.status, cause := c.code, count := 0, valueOut := 0, errS := errS, errD := errD }
    mem := residue s.free s.ops.dstBase limit s.mem }

/-- A failure before any write (R276): nothing is recorded (R273) and memory is untouched. -/
def failClean (c : Cause) (s : State) : State := fail c 0 0 0 s

/-- A failure of DECODE at an element (R273): ERR_S is the offset of the element's tag byte, ERR_D the output cursor, and the
write limit is `dLen` (R276). -/
def failElement (c : Cause) (s : State) : State := fail c s.dec.sEl s.dec.d s.dec.dLen s

/-- A failure of ENCODE during emission (R273, R276): nothing recorded, write limit DST_LEN. -/
def failEncode (c : Cause) (s : State) : State := fail c 0 0 s.ops.dstLen s

/-! ## The host's register access -/

/-- What the host reads from a register (R21, R22, R23); the constant registers are hardwired 3, 5, 10. DESIGN CHOICE (assumption
log 21): one read answers the whole register, zero-extended to 64 bits, and the operand registers can be read too. The spec leaves
the access width open (92_eei_decisions.md D2) and gives the host no read of an operand register. -/
def readReg (r : Reg) (s : State) : Value :=
  match r with
  | .op => s.ops.op.setWidth 64
  | .srcBase => BitVec.ofNat 64 s.ops.srcBase
  | .srcLen => BitVec.ofNat 64 s.ops.srcLen
  | .dstBase => BitVec.ofNat 64 s.ops.dstBase
  | .dstLen => BitVec.ofNat 64 s.ops.dstLen
  | .valueIn => s.ops.valueIn
  | .status => s.resp.status.setWidth 64
  | .cause => s.resp.cause.setWidth 64
  | .count => BitVec.ofNat 64 s.resp.count
  | .valueOut => s.resp.valueOut
  | .errS => BitVec.ofNat 64 s.resp.errS
  | .errD => BitVec.ofNat 64 s.resp.errD
  | .maxVarintLen16 => BitVec.ofNat 64 Config.maxVarintLen16
  | .maxVarintLen32 => BitVec.ofNat 64 Config.maxVarintLen32
  | .maxVarintLen64 => BitVec.ofNat 64 Config.maxVarintLen64

/-- The index of a register in the register block (R21, R22, R23). -/
def Reg.index : Reg → Nat
  | .op => 0
  | .srcBase => 1
  | .srcLen => 2
  | .dstBase => 3
  | .dstLen => 4
  | .valueIn => 5
  | .status => 8
  | .cause => 9
  | .count => 10
  | .valueOut => 11
  | .errS => 12
  | .errD => 13
  | .maxVarintLen16 => 16
  | .maxVarintLen32 => 17
  | .maxVarintLen64 => 18

/-- The operand registers after a host write (R21); a write to a response or constant register is ignored (R22, R23). A
register keeps as many low bits of the written value as it has: DESIGN CHOICE, the spec only gives the widths (assumption
log 15). -/
def writeOperand (c : Config) (r : Reg) (v : Value) (o : Operands) : Operands :=
  match r with
  | .op => { o with op := v.setWidth 3 }
  | .srcBase => { o with srcBase := v.toNat % c.space }
  | .srcLen => { o with srcLen := v.toNat % c.space }
  | .dstBase => { o with dstBase := v.toNat % c.space }
  | .dstLen => { o with dstLen := v.toNat % c.space }
  | .valueIn => { o with valueIn := v }
  | .status => o
  | .cause => o
  | .count => o
  | .valueOut => o
  | .errS => o
  | .errD => o
  | .maxVarintLen16 => o
  | .maxVarintLen32 => o
  | .maxVarintLen64 => o

/-- The host writes a register (R21 to R23). -/
def writeReg (r : Reg) (v : Value) (s : State) : State := { s with ops := writeOperand s.cfg r v s.ops }

end Sys2Proof.Machine
end

