-- ==== Sys2Proof/Machine/Operands.lean ====
section
/-! DEFINITION. The operand forms: how the bytes of an element reach its meaning (30_encoding.md R91, R92), the 4-byte window
of the encoder (41_encoder_match_finder.md R152), and the bounds an element's accesses must keep (20_memory.md R52). -/

namespace Sys2Proof.Machine

/-- Header byte `j` of the element at the source cursor. A byte beyond the source view is never read (R52): 0 stands in its
place, and the element's own truncation test fires before any use of it (R217 to R220, R222, R223; assumption log 12). -/
def headerByte (s : State) (j : Nat) : Byte :=
  if s.dec.s + j < s.dec.L then src s (s.dec.s + j) else 0

/-- The header of the element at the source cursor, as long as the longest header (R87). -/
def elementHeader (s : State) : List Byte :=
  [headerByte s 0, headerByte s 1, headerByte s 2, headerByte s 3, headerByte s 4]

/-- The four source bytes from position `p` on as a little-endian word (R152, R53). -/
def windowAt (s : State) (p : Nat) : BitVec 32 :=
  src s (p + 3) ++ src s (p + 2) ++ src s (p + 1) ++ src s p

/-- The literal length of the field `x`: `zext_33(x) + 1`, from 1 to `2^32` (R221). -/
def literalLen (x : BitVec 32) : Nat := x.toNat + 1

/-- The literal length as 32-bit arithmetic sees it: 0 only for `x = 0xFFFFFFFF` (R221). -/
def literalLen32 (x : BitVec 32) : Nat := literalLen x % 2 ^ 32

/-- COPY1's length (R88, R222): 4 to 11. -/
def copy1Len (len4 : BitVec 3) : Nat := Config.copy1MinLen + len4.toNat

/-- COPY2's length (R89, R223): 1 to 64. -/
def copy2Len (len1 : BitVec 6) : Nat := 1 + len1.toNat

/-- The accesses of DECODE stay in memory: both views exist, the stream end is in the source view and the declared length in
the destination view. It holds inside every DECODE (R210, R212); a state without it is no state of a run (log 13). -/
def decoderBounds (s : State) : Bool :=
  decide (s.dec.L ≤ s.ops.srcLen) && !srcWraps s && decide (s.dec.dLen ≤ s.ops.dstLen) && !dstWraps s

/-- The same for ENCODE between two scan positions (R155, R181, R184): both views exist, and run, cursor and every recorded
position lie in the source view. -/
def encoderBounds (s : State) : Bool :=
  decide (s.enc.n ≤ s.ops.srcLen) && !srcWraps s && !dstWraps s && decide (s.enc.lit ≤ s.enc.s)
    && decide (s.enc.s ≤ s.enc.n) && s.table.all (fun c => decide (c.2 ≤ s.enc.s))

/-- The next byte of PUT_UVARINT is inside the destination view (R122). -/
def putBounds (s : State) : Bool := !dstWraps s && decide (s.vu.i < s.ops.dstLen)

/-- ENCODE before its prefix: both views exist and `n` is inside the source view (R181). -/
def encodeStartBounds (s : State) : Bool := !srcWraps s && !dstWraps s && decide (s.enc.n ≤ s.ops.srcLen)

/-- The bounds of the command in progress. -/
def busyBounds (s : State) : Bool :=
  match s.activity with
  | .idle => true
  | .issued => true
  | .putBytes => putBounds s
  | .varint .uvarint => !srcWraps s
  | .varint .decode => !srcWraps s
  | .elements => decoderBounds s
  | .encodeStart => encodeStartBounds s
  | .scan => encoderBounds s

end Sys2Proof.Machine
end

