-- ==== Sys2Proof/Machine/Varint.lean ====
section
/-! DEFINITION. The varint unit VU (40_varint.md) and DECODE's use of it for the length prefix (43_decoder_tag_interpreter.md
R211 to R213). The two varint bytes of opcode_table.json are one turn of the loop of VarintDecode (R124) each. -/

namespace Sys2Proof.Machine

/-! ## Encoding (R121) -/

/-- The loop of `VarintBytes` with its number of further turns bounded: 7 bits a byte, low-order first, bit 7 set on every byte
but the last. -/
def varintBytesFrom : Nat → Value → List Byte
  | 0, v => [v.setWidth 8]
  | turns + 1, v =>
    if 0x80 ≤ v.toNat then ((v &&& 0x7f#64) ||| 0x80#64).setWidth 8 :: varintBytesFrom turns (v >>> 7)
    else [v.setWidth 8]

/-- `VarintBytes(v)` (R121): at most ten bytes, so nine turns of the loop are enough. -/
def varintBytes (v : Value) : List Byte := varintBytesFrom 9 v

/-- `VarintLen(v)` (R121), by its thresholds. -/
def varintLen (v : Value) : Nat :=
  if v.toNat < 2 ^ 7 then 1
  else if v.toNat < 2 ^ 14 then 2
  else if v.toNat < 2 ^ 21 then 3
  else if v.toNat < 2 ^ 28 then 4
  else if v.toNat < 2 ^ 35 then 5
  else if v.toNat < 2 ^ 42 then 6
  else if v.toNat < 2 ^ 49 then 7
  else if v.toNat < 2 ^ 56 then 8
  else if v.toNat < 2 ^ 63 then 9
  else 10

/-- The entry of PUT_UVARINT (R122): the view check and the room check, before any write, then `go`. -/
def putEntry (go : State → State) (s : State) : State :=
  if dstWraps s then failClean .viewWraps s
  else if s.ops.dstLen < varintLen s.ops.valueIn then failClean .putDstTooSmall s
  else go s

/-- PUT_UVARINT after its checks (R122): the bytes at rising indices. -/
def putAll (s : State) : State := succeed (varintLen s.ops.valueIn) 0 (dstWrites s (varintBytes s.ops.valueIn))

/-- PUT_UVARINT (R122). -/
def putUvarint (s : State) : State := putEntry putAll s

/-- The start of the loop of `VarintBytes(VALUE_IN)`: `i <- 0` (R121). -/
def startPut (s : State) : State := (s.setActivity .putBytes).modVu fun r => { r with v := s.ops.valueIn, i := 0 }

/-- One turn of the loop of R121 with its byte written (R122): a byte with bit 7 set and the loop goes on, or the last byte and the
command ends. -/
def putByte (s : State) : State :=
  if 0x80 ≤ s.vu.v.toNat then
    (dstW s s.vu.i (((s.vu.v &&& 0x7f#64) ||| 0x80#64).setWidth 8)).modVu fun r => { r with v := r.v >>> 7, i := r.i + 1 }
  else succeed (s.vu.i + 1) 0 (dstW s s.vu.i (s.vu.v.setWidth 8))

/-! ## Decoding (R124) -/

/-- The start of `VarintDecode(SRC_BASE, SRC_LEN)`: `x <- 0 ; sh <- 0 ; i <- 0`. -/
def startVarint (user : VarintUser) (s : State) : State :=
  (s.setActivity (.varint user)).modVu fun r => { r with v := 0, sh := 0, i := 0 }

/-- `i == avail`: no byte left (R124). UVARINT fails as R123, DECODE as R211. -/
def varintIncomplete (s : State) : State :=
  match s.activity with
  | .varint .decode => failClean .prefixIncomplete s
  | _ => failClean .varintIncomplete s

/-- The tests at the head of the loop of R124 when they end it: the end of the view first, then the tenth byte passed. -/
def varintLoopExit (s : State) : State :=
  if s.ops.srcLen ≤ s.vu.i then varintIncomplete s else failClean .varintTooManyGroups s

/-- VARINT_CONT, a byte with bit 7 set (R124): its group enters the value, the low 64 bits kept, and the loop goes on. -/
def varintContItem (g : BitVec 7) (s : State) : State :=
  s.modVu fun r => { v := r.v ||| (g.setWidth 64 <<< r.sh), sh := r.sh + 7, i := r.i + 1, b := 1#1 ++ g }

/-- DECODE with its prefix read as `value` in `k` bytes: the destination check, a 64-bit compare (R212), and the cursors
(R213). -/
def decodePrefix (value : Value) (k : Nat) (s : State) : State :=
  if s.ops.dstLen < value.toNat then failClean .decDstLtDeclared s
  else (s.setActivity .elements).modDec fun r => { r with dLen := value.toNat, s := k, d := 0 }

/-- The varint is read: UVARINT answers it (R123), DECODE goes on with it (R211). Outside both nothing waits for it. -/
def varintDone (value : Value) (k : Nat) (s : State) : State :=
  match s.activity with
  | .varint .uvarint => succeed k value s
  | .varint .decode => decodePrefix value k s
  | _ => s

/-- VARINT_LAST, a byte with bit 7 clear (R124): as the tenth byte only 0 and 1 are legal; else the value is complete, in
`i + 1` bytes. -/
def varintLastItem (g : BitVec 7) (s : State) : State :=
  if s.vu.i = 9 ∧ 1 < g.toNat then failClean .varint10thOverflow s
  else varintDone (s.vu.v ||| (g.setWidth 64 <<< s.vu.sh)) (s.vu.i + 1)
    (s.modVu fun r => { r with v := r.v ||| (g.setWidth 64 <<< r.sh), b := 0#1 ++ g })

end Sys2Proof.Machine
end

