-- ==== Sys2Proof/Machine/Decoder.lean ====
section
/-! DEFINITION. The decoder: tag interpreter TI (43_decoder_tag_interpreter.md) and replay engine RE (44_replay_engine.md).
Each element's meaning is a function of the state whose cursor `s` stands on the element's tag byte. -/

namespace Sys2Proof.Machine

/-! ## Replay engine -/

/-- The byte moves of REPLAY_LITERAL (R251): `len` source bytes from `sp` on to destination bytes from `dp` on, in increasing
order. -/
def replayLiteral : Nat → Nat → Nat → State → State
  | 0, _, _, s => s
  | len + 1, sp, dp, s => replayLiteral len (sp + 1) (dp + 1) (dstW s dp (src s sp))

/-- One turn of COPY_REPLAY (R253): read the byte `off` places behind the cursor, write it at the cursor, then advance. -/
def copyByte (s : State) : State :=
  (dstW s s.dec.d (dst s (s.dec.d - s.dec.off))).modDec fun r => { r with d := r.d + 1 }

/-- COPY_REPLAY (R253): `len` turns, one byte at a time in increasing order; a copy may read bytes it has just written. -/
def copyReplay : Nat → State → State
  | 0, s => s
  | len + 1, s => copyReplay len (copyByte s)

/-- COPY1 and COPY2 after their operands are read (R252, R253): the offset test, the room test, then the replay. -/
def copyElement (s : State) : State :=
  if s.dec.d < s.dec.off then failElement .copyOffsetBeforeStart s
  else if s.dec.dLen < s.dec.d + s.dec.len then failElement .copyExceedsDst s
  else copyReplay s.dec.len s

/-! ## Tag interpreter -/

/-- The three length tests of a literal in their order and the replay (R221), with `len` computed: length guard, destination
room, source room; then the byte moves and the advance of both cursors. -/
def literalChecked (s : State) : State :=
  if literalLen32 s.dec.x = 0 then failElement .litLengthZero s
  else if s.dec.dLen - s.dec.d < s.dec.len then failElement .litExceedsDst s
  else if s.dec.L - s.dec.s < s.dec.len then failElement .litExceedsSrc s
  else (replayLiteral s.dec.len s.dec.s s.dec.d s).modDec fun r => { r with s := r.s + r.len, d := r.d + r.len }

/-- The common part of the literals (R221); `s` stands on the first literal byte and `x` is set. -/
def literalElement (s : State) : State := literalChecked (s.modDec fun r => { r with len := literalLen r.x })

/-- A literal whose header has `header` bytes and whose length field is `x` (R216 to R220): the extra length bytes must lie in
the source view; then `s` moves past the header. -/
def literalForm (header : Nat) (x : BitVec 32) (s : State) : State :=
  if s.dec.L < s.dec.s + header then failElement .litExtraTruncated s
  else literalElement (s.modDec fun r => { r with x := x, s := r.s + header })

/-- LITERAL, form L0 (R216): the field is in the tag byte; no truncation test, the tag byte has been read. -/
def lit0Item (n : BitVec 6) (s : State) : State :=
  literalElement (s.modDec fun r => { r with x := n.setWidth 32, s := r.s + 1 })

/-- LITERAL, form L1 (R217). -/
def lit1Item (n : BitVec 8) (s : State) : State := literalForm 2 (n.setWidth 32) s

/-- LITERAL, form L2 (R218). -/
def lit2Item (n : BitVec 16) (s : State) : State := literalForm 3 (n.setWidth 32) s

/-- LITERAL, form L3 (R219). -/
def lit3Item (n : BitVec 24) (s : State) : State := literalForm 4 (n.setWidth 32) s

/-- LITERAL, form L4 (R220). -/
def lit4Item (n : BitVec 32) (s : State) : State := literalForm 5 n s

/-- COPY1 (R222): the payload byte must lie in the source view; then length, offset and cursor, the checks and the replay. -/
def copy1Item (len4 : BitVec 3) (off : BitVec 11) (s : State) : State :=
  if s.dec.L < s.dec.s + 2 then failElement .copyPayloadTruncated s
  else copyElement (s.modDec fun r => { r with len := copy1Len len4, off := off.toNat, s := r.s + 2 })

/-- COPY2 (R223): the same with two payload bytes. -/
def copy2Item (len1 : BitVec 6) (off : BitVec 16) (s : State) : State :=
  if s.dec.L < s.dec.s + 3 then failElement .copyPayloadTruncated s
  else copyElement (s.modDec fun r => { r with len := copy2Len len1, off := off.toNat, s := r.s + 3 })

/-- COPY4 (R224): always fails at the tag byte; its upper bits and what follows are not examined. -/
def copy4Item (_u : BitVec 6) (s : State) : State := failElement .copy4Tag s

/-- The start of an element (R214): its offset is kept for ERR_S, the tag byte is read, the kind is its low two bits. -/
def fetchElement (s : State) : State :=
  s.modDec fun r => { r with sEl := r.s, tag := src s r.s, kind := (src s r.s).extractLsb' 0 2 }

/-- The end of the stream (R225): the output must have exactly the declared length; a mismatch records SRC_LEN and `d` (R273). -/
def decodeFinal (s : State) : State :=
  if s.dec.d ≠ s.dec.dLen then fail .finalLengthMismatch s.ops.srcLen s.dec.d s.dec.dLen s
  else succeed s.dec.d 0 s

/-- DECODE after its entry checks (R210, R211): `L <- SRC_LEN`, then the prefix. -/
def startDecode (s : State) : State := startVarint .decode (s.modDec fun r => { r with L := s.ops.srcLen })

end Sys2Proof.Machine
end

