-- ==== Sys2Proof/Machine/Encoder.lean ====
section
/-! DEFINITION. The encoder: match finder MF (41_encoder_match_finder.md) and match selector MS (42_encoder_emit.md). Every
micro-operation the spec names is a function of the state. An operation that raises ends the command, so the core is idle and
nothing after it runs (R11, R274): the emitting operations and what follows them look at that. -/

namespace Sys2Proof.Machine

/-- The command has ended, in success or by a raise. -/
def ended (s : State) : Bool := decide (s.activity = .idle)

/-- What follows an operation that may raise: nothing when it has raised. -/
def unlessEnded (f : State → State) (s : State) : State := if ended s then s else f s

/-! ## Writing the stream -/

/-- `DstW(d, b) ; d <- d + 1`. The bound of R192 is not proved by the spec, so each write is checked, and one at or beyond
DST_LEN fails with ENC_DST_OVERRUN (R189, 92_eei_decisions.md D22). -/
def emitByte (s : State) (b : Byte) : State :=
  if ended s then s
  else if s.enc.d < s.ops.dstLen then (dstW s s.enc.d b).modEnc fun r => { r with d := r.d + 1 }
  else failEncode .encDstOverrun s

/-- A sequence of such writes. -/
def emitBytes (s : State) (bs : List Byte) : State := bs.foldl emitByte s

/-- The raw bytes of a literal (R186): `len` source bytes from `a` on, in increasing order. -/
def emitSource : Nat → Nat → State → State
  | 0, _, s => s
  | len + 1, a, s => emitSource len (a + 1) (emitByte s (src s a))

/-- The header of a literal whose length minus 1 is `m` (R186): the shortest of the five forms. -/
def literalHeader (m : Nat) : List Byte :=
  if m < 60 then [BitVec.ofNat 8 (m <<< 2)]
  else if m < 2 ^ 8 then [0xF0#8, BitVec.ofNat 8 m]
  else if m < 2 ^ 16 then [0xF4#8, BitVec.ofNat 8 m, BitVec.ofNat 8 (m >>> 8)]
  else if m < 2 ^ 24 then [0xF8#8, BitVec.ofNat 8 m, BitVec.ofNat 8 (m >>> 8), BitVec.ofNat 8 (m >>> 16)]
  else [0xFC#8, BitVec.ofNat 8 m, BitVec.ofNat 8 (m >>> 8), BitVec.ofNat 8 (m >>> 16), BitVec.ofNat 8 (m >>> 24)]

/-- EMIT_LITERAL(a, b) (R186): source bytes `a` to `b - 1` as one literal; longer than `2^32` bytes is SOURCE_TOO_LONG. -/
def emitLiteral (a b : Nat) (s : State) : State :=
  if 2 ^ 32 ≤ (b - a) - 1 then failEncode .sourceTooLong s
  else emitSource (b - a) a (emitBytes s (literalHeader ((b - a) - 1)))

/-- The bytes of one COPY1 (R187): `((off >> 8) & 7) << 5 | (len - 4) << 2 | 1`, then the low offset byte. -/
def copy1Bytes (off len : Nat) : List Byte :=
  [BitVec.ofNat 8 ((((off >>> 8) &&& 7) <<< 5) ||| ((len - 4) <<< 2) ||| 1), BitVec.ofNat 8 (off &&& 0xff)]

/-- The bytes of one COPY2 (R187): `(len - 1) << 2 | 2`, then the offset, low byte first. -/
def copy2Bytes (off len : Nat) : List Byte :=
  [BitVec.ofNat 8 (((len - 1) <<< 2) ||| 2), BitVec.ofNat 8 (off &&& 0xff), BitVec.ofNat 8 (off >>> 8)]

/-- The test for COPY1 (R187): the remaining length is 4 to 11 and the offset below 2048. -/
def fitsCopy1 (off len : Nat) : Bool :=
  decide (Config.copy1MinLen ≤ len) && decide (len ≤ Config.copy1MaxLen) && decide (off ≤ Config.copy1MaxOffset)

/-- The length the next element of a chain covers (R187): all that remains as a COPY1, else at most 64. -/
def chainLen (off len : Nat) : Nat := if fitsCopy1 off len then len else min len Config.copy2MaxLen

/-- The bytes of the next element of a chain (R187). -/
def chainBytes (off len : Nat) : List Byte :=
  if fitsCopy1 off len then copy1Bytes off len else copy2Bytes off (min len Config.copy2MaxLen)

/-- The loop of EMIT_COPY (R187): COPY1 when it takes all that remains, else a COPY2 of at most 64, until nothing remains. -/
def emitCopyLoop : Nat → State → State
  | 0, s => s
  | turns + 1, s =>
    if ended s || decide (s.enc.mlen = 0) then s
    else emitCopyLoop turns
      (unlessEnded (fun u => u.modEnc fun r => { r with mlen := r.mlen - chainLen s.enc.moff s.enc.mlen })
        (emitBytes s (chainBytes s.enc.moff s.enc.mlen)))

/-- EMIT_COPY(moff, mlen) (R187). Every element shortens the remainder, so `mlen` turns are enough. -/
def emitCopy (s : State) : State := emitCopyLoop s.enc.mlen s

/-- The prefix (R182): `VarintBytes(zext_64(n))` at destination offset 0; the varint unit's `v` and `i` end as the loop of
R121 leaves them. -/
def emitPrefix (s : State) : State :=
  unlessEnded
    (fun u => u.modVu fun r =>
      { r with
        v := BitVec.ofNat 64 u.enc.n >>> (7 * (varintLen (BitVec.ofNat 64 u.enc.n) - 1))
        i := varintLen (BitVec.ofNat 64 u.enc.n) - 1 })
    (emitBytes (s.modEnc fun r => { r with d := 0 }) (varintBytes (BitVec.ofNat 64 s.enc.n)))

/-! ## Match finder -/

/-- The loop of TABLE_SETUP (R150): double the size while it is below 16384 and below `n`. Six doublings reach 16384. -/
def tableGeometry (n : Nat) : Nat → Nat → Nat → Nat × Nat
  | 0, size, shift => (size, shift)
  | turns + 1, size, shift =>
    if size < Config.tableMax ∧ size < n then tableGeometry n turns (size * 2) (shift - 1) else (size, shift)

/-- TABLE_SETUP (R150): size 256 and shift 24 to begin with. -/
def tableSetup (s : State) : State :=
  s.modEnc fun r =>
    { r with
      tableSize := (tableGeometry r.n 6 Config.tableMin 24).1
      shift := (tableGeometry r.n 6 Config.tableMin 24).2 }

/-- TABLE_CLEAR (R151). All entries become 0, as R311 allows ("A model may equally start each ENCODE with a fresh all-empty
table"); the entries from `tableSize` on are never read (U17; assumption log 11). -/
def tableClear (s : State) : State := { s with table := [] }

/-- WINDOW (R152). -/
def windowOp (s : State) : State := s.modEnc fun r => { r with w := windowAt s r.s }

/-- The hash of a window (R153): product truncated to 32 bits, then shifted right. -/
def hashOf (w : BitVec 32) (shift : Nat) : Nat := ((w * Config.hashMul) >>> shift).toNat

/-- HASH (R153). -/
def hashOp (s : State) : State := s.modEnc fun r => { r with h := hashOf r.w r.shift }

/-- PROBE (R154): the old entry is read first, then replaced by the biased position, at every scanned position (C1). -/
def probeOp (s : State) : State :=
  { s with enc := { s.enc with e := tableGet s.table s.enc.h }, table := tableSet s.table s.enc.h (s.enc.s + 1) }

/-- CANDIDATE (R155), what it writes: `t <- e - 1` when there is an entry. -/
def candidateOp (s : State) : State :=
  if s.enc.e = 0 then s else s.modEnc fun r => { r with t := r.e - 1 }

/-- CANDIDATE (R155), what it decides, after `candidateOp`: an entry, near enough, with the four bytes equal. -/
def isMatch (s : State) : Bool :=
  decide (s.enc.e ≠ 0) && decide (s.enc.s - s.enc.t ≤ s.cfg.encMaxOffset)
    && decide (src s s.enc.t = src s s.enc.s) && decide (src s (s.enc.t + 1) = src s (s.enc.s + 1))
    && decide (src s (s.enc.t + 2) = src s (s.enc.s + 2)) && decide (src s (s.enc.t + 3) = src s (s.enc.s + 3))

/-- The loop of EXTEND (R158), bounded by `turns`; `n` turns are enough. -/
def extendLoop : Nat → State → State
  | 0, s => s
  | turns + 1, s =>
    if s.enc.s < s.enc.n ∧ src s s.enc.s = src s s.enc.t then
      extendLoop turns (s.modEnc fun r => { r with s := r.s + 1, t := r.t + 1 })
    else s

/-- EXTEND (R158): past the four equal bytes, then as far as the bytes agree; offset and length of the match. -/
def extendOp (s : State) : State :=
  (extendLoop s.enc.n (s.modEnc fun r => { r with s0 := r.s, s := r.s + 4, t := r.t + 4 })).modEnc fun r =>
    { r with moff := r.s - r.t, mlen := r.s - r.s0 }

/-- AFTER_MATCH (R159). -/
def afterMatch (s : State) : State := s.modEnc fun r => { r with lit := r.s }

/-- NO_MATCH (R157). -/
def noMatch (s : State) : State := s.modEnc fun r => { r with s := r.s + 1 }

/-! ## Match selector -/

/-- The flush of the pending literal run (R185): nothing when it is empty. -/
def flushLiteral (upTo : Nat) (s : State) : State :=
  if s.enc.lit = upTo then s else emitLiteral s.enc.lit upTo s

/-- The match arm of R184 at (s, t): flush, EXTEND, EMIT_COPY, AFTER_MATCH. -/
def takeMatch (s : State) : State :=
  unlessEnded (fun u => unlessEnded afterMatch (emitCopy (extendOp u))) (flushLiteral s.enc.s s)

/-- The outcome of CANDIDATE (R155): the match arm or NO_MATCH (R157). -/
def scanOutcome (s : State) : State := if isMatch s then takeMatch s else noMatch s

/-- One scan position of R184: WINDOW, HASH, PROBE, CANDIDATE, then the outcome. -/
def scanPosition (s : State) : State := scanOutcome (candidateOp (probeOp (hashOp (windowOp s))))

/-- Completion (R189): COUNT is `d`. Nothing when a raise has ended the command. -/
def encodeFinish (s : State) : State := unlessEnded (fun u => succeed u.enc.d 0 u) s

/-- The scan loop's turn (R156, R184) and, at its end, the final flush (R188) and completion (R189). -/
def scanStep (s : State) : State :=
  if s.enc.s + 3 < s.enc.n then scanPosition s else encodeFinish (flushLiteral s.enc.n s)

/-- ENCODE after its prefix (R183, R184): four bytes or fewer as one literal; else the table and the start of the scan. -/
def encodeBody (s : State) : State :=
  if s.enc.n ≤ Config.shortInput then encodeFinish (if s.enc.n = 0 then s else emitLiteral 0 s.enc.n s)
  else ((tableClear (tableSetup s)).setActivity .scan).modEnc fun r => { r with s := 0, lit := 0 }

/-- ENCODE after its entry checks: `n <- SRC_LEN` (R181). -/
def startEncode (s : State) : State := (s.setActivity .encodeStart).modEnc fun r => { r with n := s.ops.srcLen }

/-- ENCODE from its prefix to the start of the scan, or for a short input to its end (R182 to R184). -/
def encodeOpen (s : State) : State := unlessEnded encodeBody (emitPrefix s)

/-- `MaxEncodedLen(n) = 32 + n + n div 6` (R180), exact. -/
def maxEncodedLength (n : Nat) : Nat := Config.maxLenConst + n + n / Config.maxLenDiv

/-- MAX_ENCODED_LEN (R180): it cannot fail and reads no memory. -/
def maxEncodedLen (s : State) : State := succeed 0 (BitVec.ofNat 64 (maxEncodedLength s.ops.srcLen)) s

end Sys2Proof.Machine
end

