-- ==== Sys2Proof/Machine/Sequencer.lean ====
section
/-! DEFINITION. The one sequencer (00_scope.md R2, R8): inside a command it runs the exact sequence of micro-steps the spec
gives, a byte of PUT_UVARINT (R122), a varint byte (R124), an element (R214, R215) or a scan position (R184) each, until the core is
idle. -/

namespace Sys2Proof.Machine

/-- The stream item the next micro-step executes, with the state it executes it in; none when the micro-step executes none
(the ends of the loops of R124 and R214, and what has no encoding: entry checks, PUT_UVARINT's bytes, the encoder, R101). -/
def fetchItem (s : State) : Option (Instr × State) :=
  match s.activity with
  | .idle => none
  | .issued => none
  | .putBytes => none
  | .varint _ => if s.vu.i < s.ops.srcLen ∧ s.vu.i < 10 then some (decodeVarintByte (src s s.vu.i), s) else none
  | .elements =>
    if s.dec.s < s.dec.L then
      match decode .element (elementHeader s) with
      | .ok i _ => some (i, fetchElement s)
      | .rejected _ => none
    else none
  | .encodeStart => none
  | .scan => none

/-- Dispatch of a stream item (R124, R215). A command is no stream item. -/
def runItem (i : Instr) (s : State) : State :=
  match i with
  | .varintCont g => varintContItem g s
  | .varintLast g => varintLastItem g s
  | .lit0 n => lit0Item n s
  | .lit1 n => lit1Item n s
  | .lit2 n => lit2Item n s
  | .lit3 n => lit3Item n s
  | .lit4 n => lit4Item n s
  | .copy1 l o => copy1Item l o s
  | .copy2 l o => copy2Item l o s
  | .copy4 u => copy4Item u s
  | .maxEncodedLen => s
  | .putUvarint => s
  | .uvarint => s
  | .encode => s
  | .decode => s

/-- A micro-step that executes no stream item: a byte of PUT_UVARINT (R122), the end of the varint loop (R124), the end of the
element loop (R225), the encoder's opening (R182, R183), a step of its scan (R184). The entry checks of an issued command can
refuse and stand in Commands.lean. -/
def sequencerStep (s : State) : State :=
  match s.activity with
  | .idle => s
  | .issued => s
  | .putBytes => putByte s
  | .varint _ => varintLoopExit s
  | .elements => decodeFinal s
  | .encodeStart => encodeOpen s
  | .scan => scanStep s

/-- One micro-step of the command in progress. -/
def microStep (s : State) : State :=
  match fetchItem s with
  | some p => runItem p.1 p.2
  | none => sequencerStep s

/-- Run the command in progress to its end, in at most `turns` micro-steps (R317: every command ends). -/
def runToIdle : Nat → State → Host.Outcome State Fault Refusal
  | 0, s => if ended s then .next s else .fault .sequencerOverrun
  | turns + 1, s => if ended s then .next s else runToIdle turns (microStep s)

/-- The rest of a command from what its entry answers. -/
def finish (turns : Nat) (o : Host.Outcome State Fault Refusal) : Host.Outcome State Fault Refusal :=
  match o with
  | .next s => runToIdle turns s
  | .fault f => .fault f
  | .refused r => .refused r

end Sys2Proof.Machine
end

