-- ==== Sys2Proof/Machine/Items.lean ====
section
/-! DEFINITION. The meanings of the stream items of opcode_table.json: the two varint bytes (40_varint.md R124) and the eight
elements (43_decoder_tag_interpreter.md R216 to R224). Every failure of the spec is taken, as a next state. An element whose
accesses would leave the views stops: no run reaches such a state (assumption log 13). -/

namespace Sys2Proof.Machine

/-- Run an element when its accesses stay in the views (R52). -/
def inBounds (item : State → State) (s : State) : Host.Outcome State Fault Refusal :=
  if decoderBounds s then .next (item s) else .fault .outsideView

/-- VARINT_CONT (R124). -/
def execVarintCont (g : BitVec 7) (s : State) : Host.Outcome State Fault Refusal := .next (varintContItem g s)

/-- VARINT_LAST (R124, R123, R211 to R213). -/
def execVarintLast (g : BitVec 7) (s : State) : Host.Outcome State Fault Refusal := .next (varintLastItem g s)

/-- LIT0 (R216, R221). -/
def execLit0 (n : BitVec 6) (s : State) : Host.Outcome State Fault Refusal := inBounds (lit0Item n) s

/-- LIT1 (R217, R221). -/
def execLit1 (n : BitVec 8) (s : State) : Host.Outcome State Fault Refusal := inBounds (lit1Item n) s

/-- LIT2 (R218, R221). -/
def execLit2 (n : BitVec 16) (s : State) : Host.Outcome State Fault Refusal := inBounds (lit2Item n) s

/-- LIT3 (R219, R221). -/
def execLit3 (n : BitVec 24) (s : State) : Host.Outcome State Fault Refusal := inBounds (lit3Item n) s

/-- LIT4 (R220, R221). -/
def execLit4 (n : BitVec 32) (s : State) : Host.Outcome State Fault Refusal := inBounds (lit4Item n) s

/-- COPY1 (R222, R252, R253). -/
def execCopy1 (len4 : BitVec 3) (off : BitVec 11) (s : State) : Host.Outcome State Fault Refusal :=
  inBounds (copy1Item len4 off) s

/-- COPY2 (R223, R252, R253). -/
def execCopy2 (len1 : BitVec 6) (off : BitVec 16) (s : State) : Host.Outcome State Fault Refusal :=
  inBounds (copy2Item len1 off) s

/-- COPY4 (R224): takes the failure UNSUPPORTED(COPY4_TAG). -/
def execCopy4 (u : BitVec 6) (s : State) : Host.Outcome State Fault Refusal := inBounds (copy4Item u) s

end Sys2Proof.Machine
end

