-- ==== Sys2Proof/Machine/Commands.lean ====
section
/-! DEFINITION. The meanings of the five host commands (30_encoding.md R100). A command is one atomic operation (00_scope.md R8):
its meaning answers the state after its completion. Every failure of the spec is taken, as a next state. A command's entry, up to
the start of its first loop, is also a micro-step of its own, for a command that is watched on its way. -/

namespace Sys2Proof.Machine

/-- OP = 5, 6 or 7 (R281): BAD_COMMAND(BAD_OPCODE). No row of opcode_table.json. -/
def badOpcode (s : State) : State := failClean .badOpcode s

/-! ## Entries -/

/-- UVARINT: the view check (R123), then the start of VarintDecode. -/
def enterUvarint (s : State) : Host.Outcome State Fault Refusal :=
  .next (if srcWraps s then failClean .viewWraps s else startVarint .uvarint s)

/-- ENCODE: the view checks, the premise of disjoint views (R57), the destination check (R181). -/
def enterEncode (s : State) : Host.Outcome State Fault Refusal :=
  if srcWraps s || dstWraps s then .next (failClean .viewWraps s)
  else if viewsOverlap s then .refused .overlappingViews
  else if s.ops.dstLen < maxEncodedLength s.ops.srcLen then .next (failClean .encDstLtMaxLen s)
  else .next (startEncode s)

/-- DECODE: the view checks (R210), the premise of disjoint views (R57). -/
def enterDecode (s : State) : Host.Outcome State Fault Refusal :=
  if srcWraps s || dstWraps s then .next (failClean .viewWraps s)
  else if viewsOverlap s then .refused .overlappingViews
  else .next (startDecode s)

/-- The entry of a command; MAX_ENCODED_LEN has no loop and is whole in it. A stream item is no command. -/
def enter (i : Instr) (s : State) : Host.Outcome State Fault Refusal :=
  match i with
  | .varintCont _ => .next s
  | .varintLast _ => .next s
  | .lit0 _ => .next s
  | .lit1 _ => .next s
  | .lit2 _ => .next s
  | .lit3 _ => .next s
  | .lit4 _ => .next s
  | .copy1 _ _ => .next s
  | .copy2 _ _ => .next s
  | .copy4 _ => .next s
  | .maxEncodedLen => .next (maxEncodedLen s)
  | .putUvarint => .next (putEntry startPut s)
  | .uvarint => enterUvarint s
  | .encode => enterEncode s
  | .decode => enterDecode s

/-- The entry of the command in OP (R99, R100), 5, 6 and 7 being none (R281): the micro-step of a command that has been issued. -/
def enterCommand (s : State) : Host.Outcome State Fault Refusal :=
  match decodeCommand s.ops.op with
  | some i => enter i s
  | none => .next (badOpcode s)

/-! ## Meanings -/

/-- MAX_ENCODED_LEN (R180). -/
def execMaxEncodedLen (s : State) : Host.Outcome State Fault Refusal := .next (maxEncodedLen s)

/-- PUT_UVARINT (R122). -/
def execPutUvarint (s : State) : Host.Outcome State Fault Refusal := .next (putUvarint s)

/-- UVARINT (R123). VarintDecode reads at most ten bytes, so eleven micro-steps are enough. -/
def execUvarint (s : State) : Host.Outcome State Fault Refusal := finish 11 (enterUvarint s)

/-- ENCODE (R181 to R189). The opening and at most one scan position for a source byte. -/
def execEncode (s : State) : Host.Outcome State Fault Refusal := finish (s.ops.srcLen + 3) (enterEncode s)

/-- DECODE (R210, R226). Each micro-step but the last consumes a source byte. -/
def execDecode (s : State) : Host.Outcome State Fault Refusal := finish (s.ops.srcLen + 2) (enterDecode s)

end Sys2Proof.Machine
end

