-- ==== Sys2Proof/Machine/Dispatch.lean ====
section
/-! DEFINITION. One arm per constructor of Instr, each one direct call of the instruction's meaning. -/

namespace Sys2Proof.Machine

def exec (i : Instr) (s : State) : Host.Outcome State Fault Refusal :=
  match i with
  | .varintCont g => Sys2Proof.Machine.execVarintCont g s
  | .varintLast g => Sys2Proof.Machine.execVarintLast g s
  | .lit0 n => Sys2Proof.Machine.execLit0 n s
  | .lit1 n => Sys2Proof.Machine.execLit1 n s
  | .lit2 n => Sys2Proof.Machine.execLit2 n s
  | .lit3 n => Sys2Proof.Machine.execLit3 n s
  | .lit4 n => Sys2Proof.Machine.execLit4 n s
  | .copy1 len4 off => Sys2Proof.Machine.execCopy1 len4 off s
  | .copy2 len1 off => Sys2Proof.Machine.execCopy2 len1 off s
  | .copy4 u => Sys2Proof.Machine.execCopy4 u s
  | .maxEncodedLen => Sys2Proof.Machine.execMaxEncodedLen s
  | .putUvarint => Sys2Proof.Machine.execPutUvarint s
  | .uvarint => Sys2Proof.Machine.execUvarint s
  | .encode => Sys2Proof.Machine.execEncode s
  | .decode => Sys2Proof.Machine.execDecode s

end Sys2Proof.Machine
end

