-- ==== Sys2Proof/Machine/HostPort.lean ====
section
/-! DEFINITION. The host's side of the machine (00_scope.md R9): the moves it makes between commands, and how one instruction
is placed so that the next step runs it. -/

namespace Sys2Proof.Machine

/-- The host writes a byte of memory (R61, R62); an address of `2^AW` or more does not exist (R50; assumption log 16). -/
def hostWriteMem (a : Nat) (b : Byte) (s : State) : Host.Outcome State Fault Refusal :=
  if a < s.cfg.space then .next { s with mem := writeByte s.mem a b } else .fault .addressOutsideMemory

/-- The host issues the command in OP (R99, R100); 5, 6 and 7 are no command (R281). -/
def issueCommand (s : State) : Host.Outcome State Fault Refusal :=
  match decodeCommand s.ops.op with
  | some i => exec i s
  | none => .next (badOpcode s)

/-- How far the command in progress may have written the destination view: `dLen` for DECODE, DST_LEN for ENCODE (R276), the length
of the varint for PUT_UVARINT (R52, R122; assumption log 9), nothing before the entry checks and in the varint loop. -/
def writeLimit (s : State) : Nat :=
  match s.activity with
  | .idle => 0
  | .issued => 0
  | .putBytes => varintLen s.ops.valueIn
  | .varint _ => 0
  | .elements => s.dec.dLen
  | .encodeStart => s.ops.dstLen
  | .scan => s.ops.dstLen

/-- The reset input (R310, R35): response registers 0, idle, operand registers, working registers and table unspecified (free
values), memory untouched but for the destination of an abandoned command, which is open below its write limit (U16). -/
def resetCore (s : State) : State :=
  toIdle { s with
    ops := freeOperands s.cfg s.free
    resp := State.reset.resp
    mem := residue s.free s.ops.dstBase (writeLimit s) s.mem }

/-- A step that lets the core go on uses up the host's `wait`, if that is its next move. -/
def useWait (s : State) : State :=
  match s.host with
  | .wait :: rest => { s with host := rest }
  | _ => s

/-- The next move of the host while the core is idle. With no move left nothing happens: "after reset the core does nothing
until the host issues a command" (R310; assumption log 6). -/
def hostStep (s : State) : Host.Outcome State Fault Refusal :=
  match s.host with
  | [] => .next s
  | .writeReg r v :: rest => .next (writeReg r v { s with host := rest })
  | .writeMem a b :: rest => hostWriteMem a b { s with host := rest }
  | .issue :: rest => issueCommand { s with host := rest }
  | .launch :: rest => .next { s with host := rest, activity := .issued }
  | .wait :: rest => .next { s with host := rest }
  | .reset :: rest => .next (resetCore { s with host := rest })

/-- One micro-step as a step (R8): the entry of an issued command, the stream item at the cursor, or the sequencer's own. -/
def commandStep (s : State) : Host.Outcome State Fault Refusal :=
  if s.activity = .issued then enterCommand s
  else if busyBounds s then
    match fetchItem s with
    | some p => exec p.1 p.2
    | none => .next (sequencerStep s)
  else .fault .outsideView

/-- A step inside a command. The host has no move then (R61) but to let time pass, and reset, which abandons the command (R310);
any other move waits until the core is idle. -/
def busyStep (s : State) : Host.Outcome State Fault Refusal :=
  match s.host with
  | .reset :: rest => .next (resetCore { s with host := rest })
  | _ => commandStep (useWait s)

/-! ## Placing one instruction (assumption log 6) -/

/-- A command: its code in OP, the core idle, and the issue as the host's next move. -/
def placeCommand (w : Nat) (s : State) : State :=
  { s with ops := { s.ops with op := BitVec.ofNat 3 w }, activity := .idle, host := .issue :: s.host }

/-- A varint byte: at address 0, as the whole source view, and the varint unit at the start of its loop. -/
def placeVarintByte (w : Nat) (s : State) : State :=
  { s with
    ops := { s.ops with srcBase := 0, srcLen := 1 }
    vu := { s.vu with v := 0, sh := 0, i := 0 }
    mem := writeByte s.mem 0 (BitVec.ofNat 8 w)
    activity := match s.activity with
      | .varint user => .varint user
      | _ => .varint .uvarint
    host := [] }

/-- An element with its literal bytes (all 0): from address 0 on, as the whole source view, the decoder at its tag byte with
nothing produced yet. The destination view stays, and its whole length is the declared length; one that wraps becomes the
empty view at 0. -/
def placeElement (i : Instr) (header : List Byte) (s : State) : State :=
  let size := min (headerBytes i + literalBytes i) (s.cfg.space - 1)
  let dstBase := if dstWraps s then 0 else s.ops.dstBase
  let dstLen := if dstWraps s then 0 else s.ops.dstLen
  { s with
    ops := { s.ops with srcBase := 0, srcLen := size, dstBase := dstBase, dstLen := dstLen }
    dec := { s.dec with L := size, s := 0, d := 0, dLen := dstLen }
    mem := writeBytes (s.mem.filter (fun c => decide (size ≤ c.1))) 0 (header.take (headerBytes i))
    activity := .elements
    host := [] }

/-- The instruction that decodeTableWord reads from the word, placed in its own kind of place; a word with no instruction
changes nothing but OP, so that the issue meets R281. -/
def placeWord (nbits w : Nat) (s : State) : State :=
  match decodeTableWord nbits w with
  | some i =>
    match i.space with
    | .command => placeCommand w s
    | .varint => placeVarintByte w s
    | .element => placeElement i (bytesOfWord maxHeaderBytes (w % 2 ^ nbits)) s
  | none => placeCommand w s

end Sys2Proof.Machine
end

