-- ==== Sys2Proof/Machine/Step.lean ====
section
/-! DEFINITION. One step of the machine. Idle, it is the host's next move, where issuing runs the whole command atomically
(00_scope.md R8); inside a command, it is one micro-step. -/

namespace Sys2Proof.Machine

def step (s : State) : Host.Outcome State Fault Refusal :=
  match s.activity with
  | .idle => hostStep s
  | _ => busyStep s

def State.withFetchWord (s : State) (nbits w : Nat) : State := placeWord nbits w s

end Sys2Proof.Machine
end

