-- ==== Sys2Proof/Machine/Listing.lean ====
section
/-! DEFINITION. The listing notation for streams (30_encoding.md R97) and its pseudo-instructions (R98): the shortest literal and
the chain of copy elements. It is text for people, nothing the core does; tests and statements are written with it. -/

namespace Sys2Proof.Machine

/-- One line of a listing (R97, R98). -/
inductive Line where
  /-- `LEN v`. -/
  | len (v : Value)
  /-- `LEN.k v`. -/
  | lenPadded (k : Nat) (v : Value)
  /-- `LIT0 b...`. -/
  | lit0 (bs : List Byte)
  /-- `LIT1 b...`. -/
  | lit1 (bs : List Byte)
  /-- `LIT2 b...`. -/
  | lit2 (bs : List Byte)
  /-- `LIT3 b...`. -/
  | lit3 (bs : List Byte)
  /-- `LIT4 b...`. -/
  | lit4 (bs : List Byte)
  /-- `LIT4.n 0x........ b...`. -/
  | lit4n (n : BitVec 32) (bs : List Byte)
  /-- `COPY1 off, len`. -/
  | copy1 (off len : Nat)
  /-- `COPY2 off, len`. -/
  | copy2 (off len : Nat)
  /-- `COPY4 u`. -/
  | copy4 (u : BitVec 6)
  /-- `.byte b...`. -/
  | byte (bs : List Byte)
  /-- `LIT b...` (R98). -/
  | lit (bs : List Byte)
  /-- `COPY off, len` (R98). -/
  | copy (off len : Nat)
deriving DecidableEq, Repr

/-- The literal element of length `m + 1` in the shortest of the five forms (R98, R186). -/
def shortestLiteral (m : Nat) : Instr :=
  if m < 60 then .lit0 (BitVec.ofNat 6 m)
  else if m < 2 ^ 8 then .lit1 (BitVec.ofNat 8 m)
  else if m < 2 ^ 16 then .lit2 (BitVec.ofNat 16 m)
  else if m < 2 ^ 24 then .lit3 (BitVec.ofNat 24 m)
  else .lit4 (BitVec.ofNat 32 m)

/-- COPY1 of an offset and a length (R88). -/
def copy1Of (off len : Nat) : Instr := .copy1 (BitVec.ofNat 3 (len - Config.copy1MinLen)) (BitVec.ofNat 11 off)

/-- COPY2 of an offset and a length (R89). -/
def copy2Of (off len : Nat) : Instr := .copy2 (BitVec.ofNat 6 (len - 1)) (BitVec.ofNat 16 off)

/-- The chain of elements for a match of length `len`, at least 1, in the closed form of the table of R187: `q` times COPY2(64),
then one last element covering the rest. -/
def copyElements (off len : Nat) : List Instr :=
  let q := (len - 1) / Config.copy2MaxLen
  let r := len - Config.copy2MaxLen * q
  List.replicate q (copy2Of off Config.copy2MaxLen) ++
    [if Config.copy1MinLen ≤ r ∧ r ≤ Config.copy1MaxLen ∧ off ≤ Config.copy1MaxOffset then copy1Of off r else copy2Of off r]

/-- The headers of a list of elements, one after the other. -/
def encodeAll (is : List Instr) : List Byte := is.flatMap encode

/-- Whether a line is one of R97's: the counts, lengths and offsets it requires. -/
def Line.legal : Line → Bool
  | .len _ => true
  | .lenPadded k v => decide (varintLen v ≤ k) && decide (k ≤ 10)
  | .lit0 bs => decide (1 ≤ bs.length) && decide (bs.length ≤ 60)
  | .lit1 bs => decide (1 ≤ bs.length) && decide (bs.length ≤ 2 ^ 8)
  | .lit2 bs => decide (1 ≤ bs.length) && decide (bs.length ≤ 2 ^ 16)
  | .lit3 bs => decide (1 ≤ bs.length) && decide (bs.length ≤ 2 ^ 24)
  | .lit4 bs => decide (1 ≤ bs.length) && decide (bs.length ≤ 2 ^ 32)
  | .lit4n _ _ => true
  | .copy1 off n => decide (Config.copy1MinLen ≤ n) && decide (n ≤ Config.copy1MaxLen)
    && decide (off ≤ Config.copy1MaxOffset)
  | .copy2 off n => decide (1 ≤ n) && decide (n ≤ Config.copy2MaxLen) && decide (off < 2 ^ 16)
  | .copy4 _ => true
  | .byte _ => true
  | .lit bs => decide (1 ≤ bs.length) && decide (bs.length ≤ 2 ^ 32)
  | .copy off n => decide (1 ≤ n) && decide (off < 2 ^ 16)

/-- A varint of `v` in `k` bytes (R97): the shortest form; when `k` is larger, bit 7 of its last byte set, bytes `80`, a `00`. -/
def paddedVarint (k : Nat) (v : Value) : List Byte :=
  if k ≤ varintLen v then varintBytes v
  else (varintBytes v).map (fun b => b ||| 0x80#8) ++ List.replicate (k - varintLen v - 1) 0x80#8 ++ [0x00#8]

/-- The bytes of a line (R97, R98). -/
def Line.bytes : Line → List Byte
  | .len v => varintBytes v
  | .lenPadded k v => paddedVarint k v
  | .lit0 bs => encode (.lit0 (BitVec.ofNat 6 (bs.length - 1))) ++ bs
  | .lit1 bs => encode (.lit1 (BitVec.ofNat 8 (bs.length - 1))) ++ bs
  | .lit2 bs => encode (.lit2 (BitVec.ofNat 16 (bs.length - 1))) ++ bs
  | .lit3 bs => encode (.lit3 (BitVec.ofNat 24 (bs.length - 1))) ++ bs
  | .lit4 bs => encode (.lit4 (BitVec.ofNat 32 (bs.length - 1))) ++ bs
  | .lit4n n bs => encode (.lit4 n) ++ bs
  | .copy1 off n => encode (copy1Of off n)
  | .copy2 off n => encode (copy2Of off n)
  | .copy4 u => encode (.copy4 u)
  | .byte bs => bs
  | .lit bs => encode (shortestLiteral (bs.length - 1)) ++ bs
  | .copy off n => encodeAll (copyElements off n)

/-- The bytes of a listing. -/
def listingBytes (lines : List Line) : List Byte := lines.flatMap Line.bytes

/-- `n` bytes, each the byte `off` places behind the end of what has been reproduced (R253); with offset 0 the byte that the
destination already holds at that place, given by `old` (R255). -/
def appendCopy (old : Nat → Byte) (off : Nat) : Nat → List Byte → List Byte
  | 0, out => out
  | n + 1, out => appendCopy old off n (out ++ [if off = 0 then old out.length else out.getD (out.length - off) 0])

/-- A copy appended to the bytes reproduced before it; none from before the start (R252). -/
def copyTo (old : Nat → Byte) (out : List Byte) (off n : Nat) : Option (List Byte) :=
  if off ≤ out.length then some (appendCopy old off n out) else none

/-- What one line appends to the bytes reproduced before it, from the meaning of its elements (R251, R253); none for a line that is
not legal, for one that is no literal and no copy, and for a copy from before the start (R252). -/
def Line.appendTo (old : Nat → Byte) (out : List Byte) (l : Line) : Option (List Byte) :=
  if l.legal then
    match l with
    | .len _ => none
    | .lenPadded _ _ => none
    | .lit0 bs => some (out ++ bs)
    | .lit1 bs => some (out ++ bs)
    | .lit2 bs => some (out ++ bs)
    | .lit3 bs => some (out ++ bs)
    | .lit4 bs => some (out ++ bs)
    | .lit4n n bs => if literalLen n = bs.length then some (out ++ bs) else none
    | .copy1 off n => copyTo old out off n
    | .copy2 off n => copyTo old out off n
    | .copy4 _ => none
    | .byte _ => none
    | .lit bs => some (out ++ bs)
    | .copy off n => copyTo old out off n
  else none

/-- The bytes that the lines of a listing reproduce, after `out`, into a destination that holds `old`. -/
def outputOf (old : Nat → Byte) : List Line → List Byte → Option (List Byte)
  | [], out => some out
  | l :: ls, out =>
    match l.appendTo old out with
    | some out' => outputOf old ls out'
    | none => none

end Sys2Proof.Machine
end

