-- ==== Sys2Proof/Safety.lean ====
section
/-! DEFINITION. The terms that statements about the machine use: registers fit their widths (10_state.md R21 to R26, R31),
memory and table are canonical, and inside a command the pointers keep the bounds the spec gives (R256, R155, R184). -/

namespace Sys2Proof.Machine

/-- The operand registers fit their widths (R21). -/
structure Operands.Fit (c : Config) (o : Operands) : Prop where
  srcBase : o.srcBase < c.space
  srcLen : o.srcLen < c.space
  dstBase : o.dstBase < c.space
  dstLen : o.dstLen < c.space

/-- The response registers fit their widths (R22). -/
structure Response.Fit (c : Config) (r : Response) : Prop where
  count : r.count < c.space
  errS : r.errS < c.space
  errD : r.errD < c.space

/-- The encoder's working registers fit their widths (R24). -/
structure EncRegs.Fit (c : Config) (r : EncRegs) : Prop where
  n : r.n < c.space
  s : r.s < c.space
  t : r.t < c.space
  lit : r.lit < c.space
  s0 : r.s0 < c.space
  d : r.d < c.space
  tableSize : r.tableSize < 2 ^ 15
  shift : r.shift < 2 ^ 5
  h : r.h < 2 ^ 14
  e : r.e < c.space
  moff : r.moff < c.space
  mlen : r.mlen < c.space

/-- The decoder's working registers fit their widths (R25). -/
structure DecRegs.Fit (c : Config) (r : DecRegs) : Prop where
  L : r.L < c.space
  s : r.s < c.space
  d : r.d < c.space
  dLen : r.dLen < c.space
  len : r.len < 2 ^ 33
  off : r.off < 2 ^ 16
  sEl : r.sEl < c.space

/-- The varint unit's working registers fit their widths (R26). -/
structure VarRegs.Fit (r : VarRegs) : Prop where
  sh : r.sh < 2 ^ 7
  i : r.i < 2 ^ 4

/-- Both views exist in memory (R51) and share no address (R57). -/
structure ViewsGood (s : State) : Prop where
  srcExists : s.ops.srcBase + s.ops.srcLen ≤ s.cfg.space
  dstExists : s.ops.dstBase + s.ops.dstLen ≤ s.cfg.space
  disjoint : viewsOverlap s = false

/-- The varint loop between two bytes (R124): `sh` is the bit position of group `i`, and no byte beyond the view or the tenth
has been read. -/
structure VarintPointers (s : State) : Prop where
  srcExists : s.ops.srcBase + s.ops.srcLen ≤ s.cfg.space
  inView : s.vu.i ≤ s.ops.srcLen
  atMostTen : s.vu.i ≤ 10
  shift : s.vu.sh = 7 * s.vu.i

/-- PUT_UVARINT between two bytes (R121, R122): the bytes written and those left make up the varint, which has room. -/
structure PutPointers (s : State) : Prop where
  dstExists : s.ops.dstBase + s.ops.dstLen ≤ s.cfg.space
  room : varintLen s.ops.valueIn ≤ s.ops.dstLen
  left : s.vu.i + varintLen s.vu.v = varintLen s.ops.valueIn

/-- DECODE between two elements (R256): `s ≤ L`, `d ≤ dLen ≤ DST_LEN`. -/
structure DecodePointers (s : State) : Prop where
  views : ViewsGood s
  streamLength : s.dec.L = s.ops.srcLen
  source : s.dec.s ≤ s.dec.L
  output : s.dec.d ≤ s.dec.dLen
  declared : s.dec.dLen ≤ s.ops.dstLen

/-- ENCODE before its prefix (R181): its entry checks have passed and `n` is set. -/
structure EncodeEntered (s : State) : Prop where
  views : ViewsGood s
  sourceLength : s.enc.n = s.ops.srcLen
  room : maxEncodedLength s.enc.n ≤ s.ops.dstLen

/-- ENCODE between two scan positions (R28, R150, R155, R181, R184): the run, the scan position and the source length are in
order, the written part is inside the view, the geometry is one of R150's, and the table holds only positions already passed. -/
structure EncodePointers (s : State) : Prop where
  views : ViewsGood s
  sourceLength : s.enc.n = s.ops.srcLen
  notShort : Config.shortInput < s.enc.n
  room : maxEncodedLength s.enc.n ≤ s.ops.dstLen
  run : s.enc.lit ≤ s.enc.s
  scan : s.enc.s ≤ s.enc.n
  written : s.enc.d ≤ s.ops.dstLen
  geometry : 18 ≤ s.enc.shift ∧ s.enc.shift ≤ 24 ∧ s.enc.tableSize = 2 ^ (32 - s.enc.shift)
  entries : cellsWithin s.enc.tableSize (fun e => decide (e ≤ s.enc.s)) s.table = true

/-- The pointers of the command in progress. -/
def BusyPointers (s : State) : Prop :=
  match s.activity with
  | .idle => True
  | .issued => True
  | .putBytes => PutPointers s
  | .varint .uvarint => VarintPointers s
  | .varint .decode => VarintPointers s ∧ ViewsGood s ∧ s.dec.L = s.ops.srcLen
  | .elements => DecodePointers s
  | .encodeStart => EncodeEntered s
  | .scan => EncodePointers s

/-- Parameters in range, every register within its width, table and memory canonical and within their bounds. -/
structure Sane (s : State) : Prop where
  cfg : s.cfg.valid = true
  ops : s.ops.Fit s.cfg
  resp : s.resp.Fit s.cfg
  enc : s.enc.Fit s.cfg
  dec : s.dec.Fit s.cfg
  vu : s.vu.Fit
  table : tableWf s.table = true
  tableFits : cellsWithin Config.tableMax (fun e => decide (e < s.cfg.space)) s.table = true
  mem : s.mem.wf = true
  memFits : cellsWithin s.cfg.space (fun _ => true) s.mem = true

/-- The invariant of the machine: what every step keeps. -/
structure Inv (s : State) : Prop where
  sane : Sane s
  busy : BusyPointers s

/-- The core has ended its command with this response and nothing else of the host's view changed but memory: the operand
registers, the parameters and the host's moves are as before, and the core is idle (R21, R274). -/
structure CommandEnds (s t : State) (r : Response) : Prop where
  resp : t.resp = r
  ops : t.ops = s.ops
  cfg : t.cfg = s.cfg
  host : t.host = s.host
  idle : t.activity = .idle

/-- The response of a success (R22): STATUS, CAUSE, ERR_S and ERR_D are 0. -/
def okResponse (count : Nat) (valueOut : Value) : Response :=
  { status := 0, cause := 0, count := count, valueOut := valueOut, errS := 0, errD := 0 }

/-- The response of a failure (R274): COUNT and VALUE_OUT are 0. -/
def failResponse (c : Cause) (errS errD : Nat) : Response :=
  { status := c.status, cause := c.code, count := 0, valueOut := 0, errS := errS, errD := errD }

/-- Every byte of memory outside the destination view's first `limit` bytes reads as before. -/
def OnlyDstWritten (s t : State) (limit : Nat) : Prop :=
  ∀ a, (a < s.ops.dstBase ∨ s.ops.dstBase + limit ≤ a) → readByte t.mem a = readByte s.mem a

/-- The header size and the field `x` of a literal (R216 to R220); none for the other instructions. -/
def literalOf : Instr → Option (Nat × BitVec 32)
  | .lit0 n => some (1, n.setWidth 32)
  | .lit1 n => some (2, n.setWidth 32)
  | .lit2 n => some (3, n.setWidth 32)
  | .lit3 n => some (4, n.setWidth 32)
  | .lit4 n => some (5, n)
  | .varintCont _ => none
  | .varintLast _ => none
  | .copy1 _ _ => none
  | .copy2 _ _ => none
  | .copy4 _ => none
  | .maxEncodedLen => none
  | .putUvarint => none
  | .uvarint => none
  | .encode => none
  | .decode => none

/-- The element size, the length and the offset of a copy (R222, R223); none for the other instructions. -/
def copyOf : Instr → Option (Nat × Nat × Nat)
  | .copy1 len4 off => some (2, 4 + len4.toNat, off.toNat)
  | .copy2 len1 off => some (3, 1 + len1.toNat, off.toNat)
  | .varintCont _ => none
  | .varintLast _ => none
  | .lit0 _ => none
  | .lit1 _ => none
  | .lit2 _ => none
  | .lit3 _ => none
  | .lit4 _ => none
  | .copy4 _ => none
  | .maxEncodedLen => none
  | .putUvarint => none
  | .uvarint => none
  | .encode => none
  | .decode => none

/-- An element has run: the decoder's registers are `dec`, the `len` destination bytes at the output cursor are `out`, every other
byte of memory and everything else in the state is as before. -/
structure ElementDone (s t : State) (dec : DecRegs) (len : Nat) (out : Nat → Byte) : Prop where
  dec : t.dec = dec
  bytes : ∀ j, j < len → dst t (s.dec.d + j) = out j
  outside : ∀ a, (a < s.ops.dstBase + s.dec.d ∨ s.ops.dstBase + s.dec.d + len ≤ a) → readByte t.mem a = readByte s.mem a
  rest : t = { s with dec := t.dec, mem := t.mem }

/-- An element has failed (R273, R274, R276): the failure's response with the offset of the element's tag byte and the output
cursor, the core idle, and no byte of memory changed but destination bytes below the declared length. -/
structure ElementFails (s t : State) (c : Cause) : Prop where
  ends : CommandEnds s t (failResponse c s.dec.sEl s.dec.d)
  outside : OnlyDstWritten s t s.dec.dLen

/-- The command fails before any write (R273, R276): nothing is recorded and memory is as before. -/
structure FailsClean (s t : State) (c : Cause) : Prop where
  ends : CommandEnds s t (failResponse c 0 0)
  mem : t.mem = s.mem

/-- The sum of the first `k` 7-bit groups of a varint, the low-order group first (R81, R124). -/
def groupSum (f : Nat → Byte) : Nat → Nat
  | 0 => 0
  | k + 1 => groupSum f k + (f k).toNat % 128 * 2 ^ (7 * k)

/-- Source bytes 0 to `k - 1` have bit 7 set, and byte `k` is in the view with bit 7 clear: a varint of `k + 1` bytes. -/
structure VarintEndsAt (s : State) (k : Nat) : Prop where
  inView : k < s.ops.srcLen
  continued : ∀ j, j < k → 128 ≤ (src s j).toNat
  last : (src s k).toNat < 128

/-- `k` steps of the machine, all of them answering a next state. -/
def StepsTo : Nat → State → State → Prop
  | 0, s, t => s = t
  | k + 1, s, t => ∃ u, step s = .next u ∧ StepsTo k u t

/-- The source view of `s` holds exactly these bytes. -/
def SourceIs (s : State) (bs : List Byte) : Prop := readBytes s.mem s.ops.srcBase s.ops.srcLen = bs

/-- A run of bytes has been written at the encoder's output cursor (R182, R186, R187): those destination bytes are `bs`, the
cursor is behind them, and every other byte of memory is as before. -/
structure Written (s t : State) (bs : List Byte) : Prop where
  cursor : t.enc.d = s.enc.d + bs.length
  bytes : ∀ j (h : j < bs.length), dst t (s.enc.d + j) = bs[j]
  outside : ∀ a, (a < s.ops.dstBase + s.enc.d ∨ s.ops.dstBase + s.enc.d + bs.length ≤ a) → readByte t.mem a = readByte s.mem a

/-- Two states hold the same bytes in source views of the same length. -/
def SameSource (s s' : State) : Prop := s.ops.srcLen = s'.ops.srcLen ∧ ∀ j, j < s.ops.srcLen → src s j = src s' j

end Sys2Proof.Machine
end

