-- ==== Sys2Proof/Certificates/Slice0/Obligations.lean ====
section
/-! DEFINITION. The statements about the model. Each docstring names the rules of spec/ it formalises; "the model's" marks what
the model chose, with its log entry. -/

open Sys2Proof Sys2Proof.Machine

/-! ## Encoding -/

/-- Decoding the encoding of any well-formed instruction gives it back, with what follows it left over (R81 to R90, R99, R100). -/
def Obligations.DecodeOfEncode : Prop :=
  ∀ (i : Instr) (rest : List Byte), i.wf = true → Sys2Proof.decode i.space (Sys2Proof.encode i ++ rest) = .ok i rest

/-- What decodes is an encoding: the bytes read are the encoding of the instruction answered, which is well formed and of the
right kind, so every word has one meaning and no bit of it is dropped. -/
def Obligations.EncodeOfDecode : Prop :=
  ∀ (sp : Space) (bytes rest : List Byte) (i : Instr), Sys2Proof.decode sp bytes = .ok i rest →
    bytes = Sys2Proof.encode i ++ rest ∧ i.wf = true ∧ i.space = sp

/-- The header size of an element by its tag byte (R91): with fewer bytes the element is rejected as truncated, with that many or
more it decodes to an element with that header. For the 64 tags of kind 3 R91 defines no size; that the decoder takes the tag byte
alone for them is the model's reading of R90 and R224 (log 20). The codes of the four kinds are the ones the spec gives from general
knowledge (R82). -/
def Obligations.HeaderSizeByTag : Prop :=
  ∀ (tag : Byte) (rest : List Byte),
    let u := tag.toNat / 4
    let size :=
      if tag.toNat % 4 = 0 then (if u < 60 then 1 else if u = 60 then 2 else if u = 61 then 3 else if u = 62 then 4 else 5)
      else if tag.toNat % 4 = 1 then 2
      else if tag.toNat % 4 = 2 then 3
      else 1
    (rest.length + 1 < size → Sys2Proof.decode .element (tag :: rest) = .rejected .truncatedHeader) ∧
    (size ≤ rest.length + 1 → ∃ i, Sys2Proof.decode .element (tag :: rest) = .ok i (rest.drop (size - 1)) ∧
      headerBytes i = size ∧ i.space = .element)

/-- The assembly of the operands from the element's bytes (R92). -/
def Obligations.OperandAssembly : Prop :=
  ∀ (b0 b1 b2 b3 b4 : Byte) (rest : List Byte),
    (b0.toNat % 4 = 0 → b0.toNat / 4 < 60 → ∃ n, Sys2Proof.decode .element (b0 :: rest) = .ok (.lit0 n) rest ∧
      n.toNat = b0.toNat / 4 ∧ literalLen (n.setWidth 32) = n.toNat + 1) ∧
    (∃ n, Sys2Proof.decode .element (0xF0#8 :: b1 :: rest) = .ok (.lit1 n) rest ∧
      n.toNat = b1.toNat ∧ literalLen (n.setWidth 32) = n.toNat + 1) ∧
    (∃ n, Sys2Proof.decode .element (0xF4#8 :: b1 :: b2 :: rest) = .ok (.lit2 n) rest ∧
      n.toNat = b1.toNat + b2.toNat * 2 ^ 8 ∧ literalLen (n.setWidth 32) = n.toNat + 1) ∧
    (∃ n, Sys2Proof.decode .element (0xF8#8 :: b1 :: b2 :: b3 :: rest) = .ok (.lit3 n) rest ∧
      n.toNat = b1.toNat + b2.toNat * 2 ^ 8 + b3.toNat * 2 ^ 16 ∧ literalLen (n.setWidth 32) = n.toNat + 1) ∧
    (∃ n, Sys2Proof.decode .element (0xFC#8 :: b1 :: b2 :: b3 :: b4 :: rest) = .ok (.lit4 n) rest ∧
      n.toNat = b1.toNat + b2.toNat * 2 ^ 8 + b3.toNat * 2 ^ 16 + b4.toNat * 2 ^ 24 ∧ literalLen n = n.toNat + 1) ∧
    (b0.toNat % 4 = 1 → ∃ l o, Sys2Proof.decode .element (b0 :: b1 :: rest) = .ok (.copy1 l o) rest ∧
      copy1Len l = 4 + b0.toNat / 4 % 8 ∧ o.toNat = b0.toNat / 32 * 2 ^ 8 + b1.toNat) ∧
    (b0.toNat % 4 = 2 → ∃ l o, Sys2Proof.decode .element (b0 :: b1 :: b2 :: rest) = .ok (.copy2 l o) rest ∧
      copy2Len l = 1 + b0.toNat / 4 ∧ o.toNat = b1.toNat + b2.toNat * 2 ^ 8)

/-- Words written out from the spec's encodings and examples decode to the instructions they stand for (R81 to R90, R100). -/
def Obligations.SampleWordsDecode : Prop :=
  Sys2Proof.decode .element [0x0C#8, 0x61#8] = .ok (.lit0 3#6) [0x61#8] ∧
  Sys2Proof.decode .element [0xEC#8] = .ok (.lit0 59#6) [] ∧
  Sys2Proof.decode .element [0xF0#8, 0x3C#8] = .ok (.lit1 60#8) [] ∧
  Sys2Proof.decode .element [0xF4#8, 0x00#8, 0x01#8] = .ok (.lit2 256#16) [] ∧
  Sys2Proof.decode .element [0xF8#8, 0x00#8, 0x00#8, 0x01#8] = .ok (.lit3 65536#24) [] ∧
  Sys2Proof.decode .element [0xFC#8, 0x01#8, 0x02#8, 0x03#8, 0x04#8] = .ok (.lit4 0x04030201#32) [] ∧
  Sys2Proof.decode .element [0x15#8, 0x01#8] = .ok (.copy1 5#3 1#11) [] ∧
  Sys2Proof.decode .element [0xE1#8, 0xFF#8] = .ok (.copy1 0#3 2047#11) [] ∧
  Sys2Proof.decode .element [0xFE#8, 0x01#8, 0x00#8] = .ok (.copy2 63#6 1#16) [] ∧
  Sys2Proof.decode .element [0x0E#8, 0x00#8, 0x08#8] = .ok (.copy2 3#6 2048#16) [] ∧
  Sys2Proof.decode .element [0x03#8] = .ok (.copy4 0#6) [] ∧
  Sys2Proof.decode .varint [0xAC#8, 0x02#8] = .ok (.varintCont 0x2C#7) [0x02#8] ∧
  Sys2Proof.decode .varint [0x02#8] = .ok (.varintLast 2#7) [] ∧
  Sys2Proof.decode .command [3#8] = .ok .encode [] ∧
  Sys2Proof.decode .command [4#8] = .ok .decode [] ∧
  Sys2Proof.decode .command [5#8] = .rejected .badOpcode

/-! ## A step -/

/-- Issuing runs the command that OP selects (R99, R100), and an OP of 5, 6 or 7 fails with BAD_COMMAND(BAD_OPCODE) and leaves
memory alone (R281). That an issue is a move in a list is the model's (log 6). -/
def Obligations.IssueRunsTheCommand : Prop :=
  ∀ (s : State) (rest : List HostMove), s.activity = .idle → s.host = .issue :: rest →
    let s' : State := { s with host := rest }
    (s.ops.op.toNat = 0 → step s = exec .maxEncodedLen s') ∧
    (s.ops.op.toNat = 1 → step s = exec .putUvarint s') ∧
    (s.ops.op.toNat = 2 → step s = exec .uvarint s') ∧
    (s.ops.op.toNat = 3 → step s = exec .encode s') ∧
    (s.ops.op.toNat = 4 → step s = exec .decode s') ∧
    (5 ≤ s.ops.op.toNat → ∃ t, step s = .next t ∧ FailsClean s' t .badOpcode)

/-- The host's moves `launch` and `wait`, the model's (log 6): an idle core takes the command up, or lets one step pass; a step
inside a command uses up a `wait` and leaves every other move but a reset for when the core is idle (R61). -/
def Obligations.LaunchAndWait : Prop :=
  (∀ (s : State) (rest : List HostMove), s.activity = .idle → s.host = .launch :: rest →
    step s = .next { s with host := rest, activity := .issued }) ∧
  (∀ (s : State) (rest : List HostMove), s.activity = .idle → s.host = .wait :: rest → step s = .next { s with host := rest }) ∧
  (∀ (s t : State), Inv s → s.activity ≠ .idle → s.host.head? ≠ some .reset → step s = .next t → t.cfg = s.cfg ∧ t.ops = s.ops ∧
    (∀ rest, s.host = .wait :: rest → t.host = rest) ∧ (s.host.head? ≠ some .wait → t.host = s.host))

/-- Between two elements of a DECODE, a step runs the element whose header stands at the source cursor (R27, R214, R215), after
its offset, tag byte and kind are noted and a `wait` of the host is used up; and so it does for the element that any header
decodes to. -/
def Obligations.StepRunsTheElement : Prop :=
  ∀ (s : State) (i : Instr), Inv s → s.activity = .elements → s.host.head? ≠ some .reset → i.space = .element →
    let s' : State :=
      { useWait s with dec := { s.dec with sEl := s.dec.s, tag := src s s.dec.s, kind := (src s s.dec.s).extractLsb' 0 2 } }
    (i.wf = true → s.dec.s + headerBytes i ≤ s.dec.L →
      readBytes s.mem (s.ops.srcBase + s.dec.s) (headerBytes i) = Sys2Proof.encode i → step s = exec i s') ∧
    (∀ rest, s.dec.s < s.dec.L → Sys2Proof.decode .element (elementHeader s) = .ok i rest → step s = exec i s')

/-- Inside the varint loop a step runs the varint byte at the cursor (R124). -/
def Obligations.StepRunsTheVarintByte : Prop :=
  ∀ (s : State) (u : VarintUser) (i : Instr) (rest : List Byte), Inv s → s.activity = .varint u →
    s.host.head? ≠ some .reset → s.vu.i < s.ops.srcLen → s.vu.i < 10 →
    Sys2Proof.decode .varint (readBytes s.mem (s.ops.srcBase + s.vu.i) 1) = .ok i rest → step s = exec i (useWait s)

/-- A reset (R310, R35): the core is idle, the six response registers read 0, the constants 3, 5 and 10; memory is untouched,
but for the destination view of an abandoned command below its write limit (that PUT_UVARINT's is the length of its varint is
deduced from R52, log 9); and with no move of the host left nothing happens. -/
def Obligations.ResetMove : Prop :=
  ∀ (s : State) (rest : List HostMove), Inv s → s.host = .reset :: rest → ∃ t, step s = .next t ∧
    t.activity = .idle ∧ t.host = rest ∧ t.cfg = s.cfg ∧ Inv t ∧
    (∀ r ∈ [Reg.status, Reg.cause, Reg.count, Reg.valueOut, Reg.errS, Reg.errD], readReg r t = 0) ∧
    readReg .maxVarintLen16 t = 3 ∧ readReg .maxVarintLen32 t = 5 ∧ readReg .maxVarintLen64 t = 10 ∧
    (s.activity = .idle → t.mem = s.mem) ∧
    (s.activity = .issued → t.mem = s.mem) ∧
    (s.activity = .putBytes → OnlyDstWritten s t (varintLen s.ops.valueIn)) ∧
    (∀ u, s.activity = .varint u → t.mem = s.mem) ∧
    (s.activity = .elements → OnlyDstWritten s t s.dec.dLen) ∧
    (s.activity = .encodeStart → OnlyDstWritten s t s.ops.dstLen) ∧
    (s.activity = .scan → OnlyDstWritten s t s.ops.dstLen) ∧
    (rest = [] → step t = .next t)

/-- A reset during a command abandons it (R310): a command that is launched and reset `k` micro-steps later, wherever that finds it
and also if it has ended by then, leaves the core idle, all response registers 0 and every byte of memory outside its destination
view as it was, and for a command that writes nothing all of memory. ENCODE and DECODE with views that share no address (R57).
Between which micro-steps a reset can come is the model's (log 7). -/
def Obligations.ResetAbandonsACommand : Prop :=
  ∀ (s : State) (k : Nat) (rest : List HostMove), Sane s → s.activity = .idle →
    s.host = .launch :: (List.replicate k .wait ++ .reset :: rest) →
    (s.ops.op = 3 ∨ s.ops.op = 4 → viewsOverlap s = false) →
    ∃ t, StepsTo (k + 2) s t ∧ t.activity = .idle ∧ t.host = rest ∧ t.cfg = s.cfg ∧ Inv t ∧
      (∀ r ∈ [Reg.status, Reg.cause, Reg.count, Reg.valueOut, Reg.errS, Reg.errD], readReg r t = 0) ∧
      OnlyDstWritten s t s.ops.dstLen ∧ (s.ops.op ≠ 1 → s.ops.op ≠ 3 → s.ops.op ≠ 4 → t.mem = s.mem)

/-- The state after reset (R35): the response registers read 0, the constant registers 3, 5 and 10, the core is idle. -/
def Obligations.ResetState : Prop :=
  (∀ r ∈ [Reg.status, Reg.cause, Reg.count, Reg.valueOut, Reg.errS, Reg.errD], readReg r State.reset = 0) ∧
  readReg .maxVarintLen16 State.reset = 3 ∧ readReg .maxVarintLen32 State.reset = 5 ∧
  readReg .maxVarintLen64 State.reset = 10 ∧ State.reset.activity = .idle

/-- A host write to an operand register of a value that fits its width reads back, and changes no other register, no memory and
nothing else; a write to a response register is ignored (R21, R22). That the host can read an operand register, and that one read
answers a whole register as 64 bits, is the model's choice (log 21). -/
def Obligations.HostWritesRegister : Prop :=
  ∀ (s : State) (r : Reg) (v : Value) (rest : List HostMove), Sane s → s.activity = .idle → s.host = .writeReg r v :: rest →
    ∃ t, step s = .next t ∧ t = { s with ops := t.ops, host := rest } ∧
      (∀ q, q ≠ r → readReg q t = readReg q s) ∧
      (r ∈ [Reg.status, Reg.cause, Reg.count, Reg.valueOut, Reg.errS, Reg.errD] → t.ops = s.ops) ∧
      (r = .op → v.toNat < 2 ^ 3 → readReg r t = v) ∧
      (r ∈ [Reg.srcBase, Reg.srcLen, Reg.dstBase, Reg.dstLen] → v.toNat < 2 ^ s.cfg.aw → readReg r t = v) ∧
      (r = .valueIn → readReg r t = v)

/-- The constant registers are hardwired 3, 5 and 10, and a host write to one is ignored (R23). -/
def Obligations.ConstantRegisters : Prop :=
  ∀ (s : State), readReg .maxVarintLen16 s = 3 ∧ readReg .maxVarintLen32 s = 5 ∧ readReg .maxVarintLen64 s = 10 ∧
    ∀ (r : Reg) (v : Value) (rest : List HostMove), r ∈ [Reg.maxVarintLen16, Reg.maxVarintLen32, Reg.maxVarintLen64] →
      s.activity = .idle → s.host = .writeReg r v :: rest → step s = .next { s with host := rest }

/-- A host write of a memory byte changes that byte and nothing else (R50, R56); an address of `2^AW` or more does not exist,
and the model stops there (log 16). -/
def Obligations.HostWritesMemory : Prop :=
  ∀ (s : State) (a : Nat) (b : Byte) (rest : List HostMove), Sane s → s.activity = .idle → s.host = .writeMem a b :: rest →
    (a < 2 ^ s.cfg.aw → ∃ t, step s = .next t ∧ t = { s with mem := t.mem, host := rest } ∧ readByte t.mem a = b ∧
      ∀ c, c ≠ a → readByte t.mem c = readByte s.mem c) ∧
    (2 ^ s.cfg.aw ≤ a → step s = .fault .addressOutsideMemory)

/-! ## Varint unit -/

/-- The bytes of a varint (R121): their number by the thresholds, seven bits a byte with the low-order group first, bit 7 on every
byte but the last, the last byte nonzero unless the value is 0, and the tenth byte 1. -/
def Obligations.VarintBytesShape : Prop :=
  ∀ (v : Value),
    (varintBytes v).length = varintLen v ∧
    (v.toNat < 2 ^ 7 → varintLen v = 1) ∧
    (∀ k, 2 ≤ k → k ≤ 9 → 2 ^ (7 * (k - 1)) ≤ v.toNat → v.toNat < 2 ^ (7 * k) → varintLen v = k) ∧
    (2 ^ 63 ≤ v.toNat → varintLen v = 10) ∧
    (∀ j (h : j < (varintBytes v).length), ((varintBytes v)[j]).toNat =
      v.toNat / 2 ^ (7 * j) % 2 ^ 7 + if j < varintLen v - 1 then 2 ^ 7 else 0) ∧
    (v ≠ 0 → (varintBytes v).getLast? ≠ some 0) ∧
    (v = 0 → varintBytes v = [0]) ∧
    (varintLen v = 10 → (varintBytes v)[9]? = some 1)

/-- PUT_UVARINT (R122): the view check, the room check with nothing written, then the varint's bytes at rising indices, COUNT its
length, and no other byte of memory changed. -/
def Obligations.PutUvarintOutcome : Prop :=
  ∀ (s : State), s.mem.wf = true →
    (2 ^ s.cfg.aw < s.ops.dstBase + s.ops.dstLen → ∃ t, exec .putUvarint s = .next t ∧ FailsClean s t .viewWraps) ∧
    (s.ops.dstBase + s.ops.dstLen ≤ 2 ^ s.cfg.aw → s.ops.dstLen < varintLen s.ops.valueIn →
      ∃ t, exec .putUvarint s = .next t ∧ FailsClean s t .putDstTooSmall) ∧
    (s.ops.dstBase + s.ops.dstLen ≤ 2 ^ s.cfg.aw → varintLen s.ops.valueIn ≤ s.ops.dstLen →
      ∃ t, exec .putUvarint s = .next t ∧ CommandEnds s t (okResponse (varintLen s.ops.valueIn) 0) ∧
        (∀ j (h : j < (varintBytes s.ops.valueIn).length), dst t j = (varintBytes s.ops.valueIn)[j]) ∧
        OnlyDstWritten s t (varintLen s.ops.valueIn))

/-- UVARINT (R123, R124), every outcome: a varint that ends at byte `k` of the view, in the first ten, gives the sum of its groups
and COUNT `k + 1`, but a tenth byte above 1 overflows; a view that ends first is incomplete; ten bytes with bit 7 set and an
eleventh present are too many groups. No byte of memory changes. -/
def Obligations.UvarintOutcome : Prop :=
  ∀ (s : State),
    (2 ^ s.cfg.aw < s.ops.srcBase + s.ops.srcLen → ∃ t, exec .uvarint s = .next t ∧ FailsClean s t .viewWraps) ∧
    (s.ops.srcBase + s.ops.srcLen ≤ 2 ^ s.cfg.aw →
      (∀ k, k ≤ 9 → VarintEndsAt s k → (k = 9 → (src s k).toNat ≤ 1) →
        ∃ t v, exec .uvarint s = .next t ∧ CommandEnds s t (okResponse (k + 1) v) ∧ v.toNat = groupSum (src s) (k + 1) ∧
          t.mem = s.mem) ∧
      (VarintEndsAt s 9 → 1 < (src s 9).toNat → ∃ t, exec .uvarint s = .next t ∧ FailsClean s t .varint10thOverflow) ∧
      (s.ops.srcLen ≤ 10 → (∀ j, j < s.ops.srcLen → 128 ≤ (src s j).toNat) →
        ∃ t, exec .uvarint s = .next t ∧ FailsClean s t .varintIncomplete) ∧
      (10 < s.ops.srcLen → (∀ j, j < 10 → 128 ≤ (src s j).toNat) →
        ∃ t, exec .uvarint s = .next t ∧ FailsClean s t .varintTooManyGroups))

/-- The varint round trip (R127): UVARINT of a view that starts with the bytes of `v` answers `v` and their number, whatever
follows and wherever the view lies; and so it does of the bytes PUT_UVARINT has left in its destination view. -/
def Obligations.VarintRoundTrip : Prop :=
  (∀ (s : State) (v : Value), s.ops.srcBase + s.ops.srcLen ≤ 2 ^ s.cfg.aw → varintLen v ≤ s.ops.srcLen →
    readBytes s.mem s.ops.srcBase (varintLen v) = varintBytes v →
    ∃ t, exec .uvarint s = .next t ∧ CommandEnds s t (okResponse (varintLen v) v) ∧ t.mem = s.mem) ∧
  (∀ (s t u : State), s.mem.wf = true → exec .putUvarint s = .next t → t.resp.status = 0 → u.mem = t.mem → u.cfg = s.cfg →
    u.ops.srcBase = s.ops.dstBase → t.resp.count ≤ u.ops.srcLen → u.ops.srcBase + u.ops.srcLen ≤ 2 ^ u.cfg.aw →
    ∃ w, exec .uvarint u = .next w ∧ CommandEnds u w (okResponse t.resp.count s.ops.valueIn))

/-- VARINT_CONT (R124, the loop's last three lines): the group enters the value at `sh`, bits beyond 64 lost, `sh` moves on by 7
and `i` by 1; nothing else changes. -/
def Obligations.VarintContEffect : Prop :=
  ∀ (s : State) (g : BitVec 7), ∃ t, exec (.varintCont g) s = .next t ∧ t = { s with vu := t.vu } ∧
    t.vu.v = (s.vu.v ||| (g.setWidth 64 <<< s.vu.sh)) ∧ t.vu.sh = s.vu.sh + 7 ∧ t.vu.i = s.vu.i + 1 ∧
    t.vu.b.toNat = 128 + g.toNat

/-- VARINT_LAST (R124): as the tenth byte above 1 it overflows; else UVARINT answers value and count (R123), and DECODE compares
the declared length with DST_LEN and sets its cursors (R212, R213). -/
def Obligations.VarintLastEffect : Prop :=
  ∀ (s : State) (g : BitVec 7) (v : Value), v = (s.vu.v ||| (g.setWidth 64 <<< s.vu.sh)) →
    (s.vu.i = 9 → 1 < g.toNat → ∃ t, exec (.varintLast g) s = .next t ∧ FailsClean s t .varint10thOverflow) ∧
    (s.vu.i ≠ 9 ∨ g.toNat ≤ 1 →
      (s.activity = .varint .uvarint → ∃ t, exec (.varintLast g) s = .next t ∧
        CommandEnds s t (okResponse (s.vu.i + 1) v) ∧ t.mem = s.mem) ∧
      (s.activity = .varint .decode → s.ops.dstLen < v.toNat →
        ∃ t, exec (.varintLast g) s = .next t ∧ FailsClean s t .decDstLtDeclared) ∧
      (s.activity = .varint .decode → v.toNat ≤ s.ops.dstLen →
        ∃ t, exec (.varintLast g) s = .next t ∧
          t = { s with
            activity := .elements
            dec := { s.dec with dLen := v.toNat, s := s.vu.i + 1, d := 0 }
            vu := t.vu }))

/-! ## Encoder -/

/-- MAX_ENCODED_LEN (R180): VALUE_OUT is `32 + n + n div 6` with nothing lost to 64 bits, COUNT 0, and no memory changes. -/
def Obligations.MaxEncodedLenResult : Prop :=
  ∀ (s : State), Sane s → ∃ t v, exec .maxEncodedLen s = .next t ∧ CommandEnds s t (okResponse 0 v) ∧
    v.toNat = 32 + s.ops.srcLen + s.ops.srcLen / 6 ∧ t.mem = s.mem

/-- The entry checks of ENCODE in their order (R181): a view that wraps, then the destination against the bound. Between them the
model refuses views that share an address, which is a premise of the command (R57); that place in the order is the model's choice
(log 8). All before any write. -/
def Obligations.EncodeEntryChecks : Prop :=
  ∀ (s : State),
    (2 ^ s.cfg.aw < s.ops.srcBase + s.ops.srcLen ∨ 2 ^ s.cfg.aw < s.ops.dstBase + s.ops.dstLen →
      ∃ t, exec .encode s = .next t ∧ FailsClean s t .viewWraps) ∧
    (s.ops.srcBase + s.ops.srcLen ≤ 2 ^ s.cfg.aw → s.ops.dstBase + s.ops.dstLen ≤ 2 ^ s.cfg.aw →
      (∃ i j, i < s.ops.srcLen ∧ j < s.ops.dstLen ∧ s.ops.srcBase + i = s.ops.dstBase + j) →
      exec .encode s = .refused .overlappingViews) ∧
    (ViewsGood s → s.ops.dstLen < 32 + s.ops.srcLen + s.ops.srcLen / 6 →
      ∃ t, exec .encode s = .next t ∧ FailsClean s t .encDstLtMaxLen)

/-- ENCODE of four bytes or fewer (R183): the prefix and, unless there is no byte, the whole input as one literal. -/
def Obligations.EncodeShortInput : Prop :=
  ∀ (s : State) (bs stream : List Byte), Sane s → ViewsGood s → 32 + s.ops.srcLen + s.ops.srcLen / 6 ≤ s.ops.dstLen →
    s.ops.srcLen ≤ 4 → SourceIs s bs →
    stream = listingBytes (.len (BitVec.ofNat 64 s.ops.srcLen) :: if bs = [] then [] else [.lit bs]) →
    ∃ t, exec .encode s = .next t ∧ CommandEnds s t (okResponse stream.length 0) ∧
      (∀ j (h : j < stream.length), dst t j = stream[j]) ∧ OnlyDstWritten s t stream.length

/-- The size bound (R192): on success COUNT is at most `32 + n + n div 6`. -/
def Obligations.EncodeSizeBound : Prop :=
  ∀ (s t : State), Sane s → ViewsGood s → exec .encode s = .next t → t.resp.status = 0 →
    t.resp.count ≤ 32 + s.ops.srcLen + s.ops.srcLen / 6

/-- Once its entry checks pass, ENCODE of a source of any length either succeeds within the size bound, with the bytes from COUNT on
untouched (R189, R192), or, and only for a source of more than `2^32` bytes, fails with UNSUPPORTED(SOURCE_TOO_LONG) (R186): the
failure ENC_DST_OVERRUN of a model that checks its writes never happens. -/
def Obligations.EncodeSucceedsWithinBound : Prop :=
  ∀ (s : State), Sane s → ViewsGood s → 32 + s.ops.srcLen + s.ops.srcLen / 6 ≤ s.ops.dstLen →
    ∃ t, exec .encode s = .next t ∧
      ((CommandEnds s t (okResponse t.resp.count 0) ∧ t.resp.count ≤ 32 + s.ops.srcLen + s.ops.srcLen / 6 ∧
          OnlyDstWritten s t t.resp.count) ∨
        (2 ^ 32 < s.ops.srcLen ∧ CommandEnds s t (failResponse .sourceTooLong 0 0) ∧ OnlyDstWritten s t s.ops.dstLen))

/-- Every stream starts with the shortest varint of the source length (R182, R191 a). -/
def Obligations.EncodeWritesPrefix : Prop :=
  ∀ (s t : State), Sane s → ViewsGood s → exec .encode s = .next t → t.resp.status = 0 →
    ∀ j (h : j < (varintBytes (BitVec.ofNat 64 s.ops.srcLen)).length),
      dst t j = (varintBytes (BitVec.ofNat 64 s.ops.srcLen))[j]

/-- What ENCODE writes (R190, R191, R96): the shortest prefix and then literals in their shortest form and copy chains, no two
literals in a row, every offset from 1 to ENC_MAX_OFFSET and inside the bytes reproduced before it, that together reproduce the
source. -/
def Obligations.EncodeWritesAListing : Prop :=
  ∀ (s t : State) (bs : List Byte), Sane s → ViewsGood s → SourceIs s bs → exec .encode s = .next t → t.resp.status = 0 →
    ∃ lines stream, stream = listingBytes (.len (BitVec.ofNat 64 bs.length) :: lines) ∧ t.resp.count = stream.length ∧
      (∀ j (h : j < stream.length), dst t j = stream[j]) ∧ (∀ old, outputOf old lines [] = some bs) ∧
      (∀ l ∈ lines, (∃ x, l = .lit x) ∨ ∃ off n, l = .copy off n ∧ 1 ≤ off ∧ off ≤ s.cfg.encMaxOffset ∧ 4 ≤ n) ∧
      (∀ before x y after, lines ≠ before ++ .lit x :: .lit y :: after)

/-- The round trip (R194): DECODE of a stream ENCODE produced, wherever it is put, into a destination of at least the source's
length, succeeds with COUNT the source's length and reproduces the source bytes. The one exception of R194 is the only other
outcome: a source of `2^32` bytes or more with a literal of exactly `2^32` bytes, whose header FC FF FF FF FF DECODE rejects. -/
def Obligations.EncodeDecodeRoundTrip : Prop :=
  ∀ (s t u : State), Sane s → ViewsGood s → exec .encode s = .next t → t.resp.status = 0 →
    Sane u → ViewsGood u → u.ops.srcLen = t.resp.count → (∀ j, j < t.resp.count → src u j = dst t j) →
    s.ops.srcLen ≤ u.ops.dstLen →
    ∃ w, exec .decode u = .next w ∧
      ((CommandEnds u w (okResponse s.ops.srcLen 0) ∧ (∀ j, j < s.ops.srcLen → dst w j = src s j) ∧
          OnlyDstWritten u w s.ops.srcLen) ∨
        (∃ errS errD, CommandEnds u w (failResponse .litLengthZero errS errD) ∧ errD + 2 ^ 32 ≤ s.ops.srcLen ∧
          errS + 5 ≤ u.ops.srcLen ∧ readBytes u.mem (u.ops.srcBase + errS) 5 = [0xFC, 0xFF, 0xFF, 0xFF, 0xFF]))

/-- Determinism (R193), for sources of every length: the response and the stream are a function of the source bytes and
ENC_MAX_OFFSET alone, not of where the views lie, of DST_LEN, of earlier commands, or of what the destination view and the match
table held. -/
def Obligations.EncodeIsAFunctionOfTheSource : Prop :=
  ∀ (s s' t t' : State), Sane s → Sane s' → ViewsGood s → ViewsGood s' →
    32 + s.ops.srcLen + s.ops.srcLen / 6 ≤ s.ops.dstLen → 32 + s'.ops.srcLen + s'.ops.srcLen / 6 ≤ s'.ops.dstLen →
    s.cfg.encMaxOffset = s'.cfg.encMaxOffset → SameSource s s' →
    exec .encode s = .next t → exec .encode s' = .next t' →
    t.resp = t'.resp ∧ ∀ j, j < t.resp.count → dst t j = dst t' j

/-- TABLE_SETUP (R150): the table's size is the smallest power of two that is at least `n`, clamped to 256 and 16384, the shift is
32 less its logarithm, and nothing else changes. -/
def Obligations.TableSetupGeometry : Prop :=
  ∀ (s : State), ∃ k, 8 ≤ k ∧ k ≤ 14 ∧ (s.enc.n ≤ 2 ^ k ∨ k = 14) ∧ (k = 8 ∨ 2 ^ (k - 1) < s.enc.n) ∧
    tableSetup s = { s with enc := { s.enc with tableSize := 2 ^ k, shift := 32 - k } }

/-- WINDOW and HASH (R152, R153): the window is little-endian, the hash is the product's low 32 bits shifted right, below the
table's size, and nothing else changes. The width of the product is the spec's own, from general knowledge. -/
def Obligations.WindowAndHash : Prop :=
  ∀ (s : State), s.enc.shift ≤ 32 → ∃ t, hashOp (windowOp s) = t ∧ t = { s with enc := { s.enc with w := t.enc.w, h := t.enc.h } } ∧
    t.enc.w.toNat = (src s s.enc.s).toNat + (src s (s.enc.s + 1)).toNat * 2 ^ 8 + (src s (s.enc.s + 2)).toNat * 2 ^ 16
      + (src s (s.enc.s + 3)).toNat * 2 ^ 24 ∧
    t.enc.h = t.enc.w.toNat * 0x1e35a7bd % 2 ^ 32 / 2 ^ s.enc.shift ∧ t.enc.h < 2 ^ (32 - s.enc.shift)

/-- PROBE (R154): the entry is read first, then replaced by the biased position; no other entry and nothing else changes. -/
def Obligations.ProbeReadsThenReplaces : Prop :=
  ∀ (s : State), tableWf s.table = true → ∃ t, probeOp s = t ∧
    t = { s with enc := { s.enc with e := tableGet s.table s.enc.h }, table := t.table } ∧
    tableGet t.table s.enc.h = s.enc.s + 1 ∧ ∀ h, h ≠ s.enc.h → tableGet t.table h = tableGet s.table h

/-- CANDIDATE (R155): no entry is no match; else the bias is removed, and it is a match when it is near enough and the four bytes
agree. In a scan the candidate lies before the position. -/
def Obligations.CandidateTest : Prop :=
  (∀ (s : State), s.enc.e = 0 → candidateOp s = s ∧ isMatch (candidateOp s) = false) ∧
  (∀ (s : State), s.enc.e ≠ 0 → ∃ t, candidateOp s = t ∧ t = { s with enc := { s.enc with t := s.enc.e - 1 } } ∧
    (isMatch t = true ↔ s.enc.s - (s.enc.e - 1) ≤ s.cfg.encMaxOffset ∧
      ∀ j, j < 4 → src s (s.enc.e - 1 + j) = src s (s.enc.s + j))) ∧
  (∀ (s p : State), Inv s → s.activity = .scan → s.enc.s + 3 < s.enc.n → p = candidateOp (probeOp (hashOp (windowOp s))) →
    p.enc.e ≠ 0 → p.enc.t < s.enc.s)

/-- EXTEND (R158): the match is the four equal bytes and then as long as the bytes agree, to the end of the source at most;
`moff` and `mlen` are its offset and length, and nothing else changes. -/
def Obligations.ExtendIsLongest : Prop :=
  ∀ (s : State), s.enc.t < s.enc.s → s.enc.s + 4 ≤ s.enc.n → (∀ j, j < 4 → src s (s.enc.s + j) = src s (s.enc.t + j)) →
    ∃ len, 4 ≤ len ∧ s.enc.s + len ≤ s.enc.n ∧
      extendOp s = { s with enc := { s.enc with
        s0 := s.enc.s, s := s.enc.s + len, t := s.enc.t + len, moff := s.enc.s - s.enc.t, mlen := len } } ∧
      (∀ j, j < len → src s (s.enc.s + j) = src s (s.enc.t + j)) ∧
      (s.enc.s + len = s.enc.n ∨ src s (s.enc.s + len) ≠ src s (s.enc.t + len))

/-- EMIT_LITERAL (R186): the literal in the shortest of the five forms and then the source bytes, at the cursor; a literal longer
than `2^32` bytes fails with UNSUPPORTED(SOURCE_TOO_LONG). -/
def Obligations.EmitLiteralBytes : Prop :=
  ∀ (s : State) (a b : Nat), s.mem.wf = true → s.activity ≠ .idle → viewsOverlap s = false → a < b → b ≤ s.ops.srcLen →
    (b - a ≤ 2 ^ 32 →
      ∀ bs, bs = Sys2Proof.encode (shortestLiteral (b - a - 1)) ++ readBytes s.mem (s.ops.srcBase + a) (b - a) →
        s.enc.d + bs.length ≤ s.ops.dstLen →
        ∃ t, emitLiteral a b s = t ∧ Written s t bs ∧ t = { s with enc := { s.enc with d := t.enc.d }, mem := t.mem }) ∧
    (2 ^ 32 < b - a → ∃ t, emitLiteral a b s = t ∧ CommandEnds s t (failResponse .sourceTooLong 0 0) ∧
      OnlyDstWritten s t s.ops.dstLen)

/-- EMIT_COPY (R187): the chain of the table, `q` times COPY2(64) and then one last element, COPY1 when it takes all that remains
and the offset is below 2048; `mlen` ends 0 and nothing else changes. -/
def Obligations.EmitCopyChain : Prop :=
  ∀ (s : State) (bs : List Byte), s.mem.wf = true → s.activity ≠ .idle → 1 ≤ s.enc.mlen → s.enc.moff < 2 ^ 16 →
    bs = encodeAll (copyElements s.enc.moff s.enc.mlen) → s.enc.d + bs.length ≤ s.ops.dstLen →
    ∃ t, emitCopy s = t ∧ Written s t bs ∧ t = { s with enc := { s.enc with d := t.enc.d, mlen := 0 }, mem := t.mem }

/-- A scan position with no match (R156, R157): `s` moves on by 1, the pending run keeps its start, nothing is written. -/
def Obligations.ScanWithoutMatch : Prop :=
  ∀ (s p : State), Inv s → s.activity = .scan → s.host.head? ≠ some .reset → s.enc.s + 3 < s.enc.n →
    p = candidateOp (probeOp (hashOp (windowOp (useWait s)))) → isMatch p = false →
    ∃ t, step s = .next t ∧ t = { p with enc := { p.enc with s := s.enc.s + 1 } } ∧ t.enc.lit = s.enc.lit ∧
      t.enc.d = s.enc.d ∧ t.mem = s.mem ∧ t.activity = .scan

/-- A scan position with a match (R159, R184, R185, R186): the pending literal run if there is one, then the match's chain, are
written in this order, and the scan goes on behind the match, where the next run starts; a pending run of more than `2^32` bytes
fails with UNSUPPORTED(SOURCE_TOO_LONG). -/
def Obligations.ScanWithMatch : Prop :=
  ∀ (s p : State), Inv s → s.activity = .scan → s.host.head? ≠ some .reset → s.enc.s + 3 < s.enc.n →
    p = candidateOp (probeOp (hashOp (windowOp (useWait s)))) → isMatch p = true →
    (s.enc.s - s.enc.lit ≤ 2 ^ 32 →
      ∀ bs, bs = (if s.enc.lit = s.enc.s then []
          else Sys2Proof.encode (shortestLiteral (s.enc.s - s.enc.lit - 1)) ++
            readBytes s.mem (s.ops.srcBase + s.enc.lit) (s.enc.s - s.enc.lit))
        ++ encodeAll (copyElements (extendOp p).enc.moff (extendOp p).enc.mlen) →
      s.enc.d + bs.length ≤ s.ops.dstLen →
      ∃ t, step s = .next t ∧ Written s t bs ∧ t.enc.s = s.enc.s + (extendOp p).enc.mlen ∧ t.enc.lit = t.enc.s ∧
        t.table = p.table ∧ t.activity = .scan ∧ t.ops = s.ops ∧ t.resp = s.resp ∧ t.dec = s.dec) ∧
    (2 ^ 32 < s.enc.s - s.enc.lit →
      ∃ t, step s = .next t ∧ CommandEnds (useWait s) t (failResponse .sourceTooLong 0 0) ∧ OnlyDstWritten s t s.ops.dstLen)

/-- The end of the scan (R186, R188, R189): the last pending run as one literal if there is one, and completion with COUNT the
number of bytes written; a run of more than `2^32` bytes fails with UNSUPPORTED(SOURCE_TOO_LONG). -/
def Obligations.ScanEnds : Prop :=
  ∀ (s : State), Inv s → s.activity = .scan → s.host.head? ≠ some .reset → s.enc.n ≤ s.enc.s + 3 →
    (s.enc.n - s.enc.lit ≤ 2 ^ 32 →
      ∀ bs, bs = (if s.enc.lit = s.enc.n then []
        else Sys2Proof.encode (shortestLiteral (s.enc.n - s.enc.lit - 1)) ++
          readBytes s.mem (s.ops.srcBase + s.enc.lit) (s.enc.n - s.enc.lit)) →
      s.enc.d + bs.length ≤ s.ops.dstLen →
      ∃ t, step s = .next t ∧ CommandEnds (useWait s) t (okResponse (s.enc.d + bs.length) 0) ∧
        (∀ j (h : j < bs.length), dst t (s.enc.d + j) = bs[j]) ∧
        (∀ a, (a < s.ops.dstBase + s.enc.d ∨ s.ops.dstBase + s.enc.d + bs.length ≤ a) → readByte t.mem a = readByte s.mem a)) ∧
    (2 ^ 32 < s.enc.n - s.enc.lit →
      ∃ t, step s = .next t ∧ CommandEnds (useWait s) t (failResponse .sourceTooLong 0 0) ∧ OnlyDstWritten s t s.ops.dstLen)

/-! ## Decoder -/

/-- The entry of DECODE (R210 to R212): a view that wraps; a prefix that is incomplete, has too many groups or overflows; a declared
length above DST_LEN. Nothing is written. Between the view check and the prefix the model refuses views that share an address, whose
disjointness is a premise of the command (R57); that place in the order is the model's choice (log 8). -/
def Obligations.DecodeEntry : Prop :=
  ∀ (s : State),
    (2 ^ s.cfg.aw < s.ops.srcBase + s.ops.srcLen ∨ 2 ^ s.cfg.aw < s.ops.dstBase + s.ops.dstLen →
      ∃ t, exec .decode s = .next t ∧ FailsClean s t .viewWraps) ∧
    (s.ops.srcBase + s.ops.srcLen ≤ 2 ^ s.cfg.aw → s.ops.dstBase + s.ops.dstLen ≤ 2 ^ s.cfg.aw →
      (∃ i j, i < s.ops.srcLen ∧ j < s.ops.dstLen ∧ s.ops.srcBase + i = s.ops.dstBase + j) →
      exec .decode s = .refused .overlappingViews) ∧
    (ViewsGood s → s.ops.srcLen ≤ 10 → (∀ j, j < s.ops.srcLen → 128 ≤ (src s j).toNat) →
      ∃ t, exec .decode s = .next t ∧ FailsClean s t .prefixIncomplete) ∧
    (ViewsGood s → 10 < s.ops.srcLen → (∀ j, j < 10 → 128 ≤ (src s j).toNat) →
      ∃ t, exec .decode s = .next t ∧ FailsClean s t .varintTooManyGroups) ∧
    (ViewsGood s → VarintEndsAt s 9 → 1 < (src s 9).toNat →
      ∃ t, exec .decode s = .next t ∧ FailsClean s t .varint10thOverflow) ∧
    (∀ k, ViewsGood s → k ≤ 9 → VarintEndsAt s k → (k = 9 → (src s k).toNat ≤ 1) →
      s.ops.dstLen < groupSum (src s) (k + 1) → ∃ t, exec .decode s = .next t ∧ FailsClean s t .decDstLtDeclared)

/-- A command is its micro-steps (R8): each of the five commands, run to its end as one operation or issued and run one micro-step
at a time, gives the same final state, whatever its operands, in success and in failure; where it is refused as one operation
(R57), it is refused on its way. With no move of the host waiting, so that an idle core stays as it is. -/
def Obligations.CommandIsItsSteps : Prop :=
  ∀ (s t : State) (i : Instr), Sane s → s.host = [] → decodeCommand s.ops.op = some i →
    (exec i s = .next t ↔ t.activity = .idle ∧ ∃ k, StepsTo k { s with activity := .issued } t) ∧
    (∀ r, exec i s = .refused r → step { s with activity := .issued } = .refused r)

/-- LITERAL in its five forms LIT0 to LIT4 (R216 to R221, R251): the extra length bytes, the length guard, the destination room and
the source room are tested in this order; then the literal bytes move, both cursors advance, and nothing else changes. -/
def Obligations.LiteralOutcome : Prop :=
  ∀ (s : State) (i : Instr) (h len : Nat) (x : BitVec 32), Inv s → s.activity = .elements → s.dec.s < s.dec.L →
    literalOf i = some (h, x) → len = x.toNat + 1 →
    (s.dec.L < s.dec.s + h → ∃ t, exec i s = .next t ∧ ElementFails s t .litExtraTruncated) ∧
    (s.dec.s + h ≤ s.dec.L → len = 2 ^ 32 → ∃ t, exec i s = .next t ∧ ElementFails s t .litLengthZero) ∧
    (s.dec.s + h ≤ s.dec.L → len < 2 ^ 32 → s.dec.dLen - s.dec.d < len →
      ∃ t, exec i s = .next t ∧ ElementFails s t .litExceedsDst) ∧
    (s.dec.s + h ≤ s.dec.L → len < 2 ^ 32 → len ≤ s.dec.dLen - s.dec.d → s.dec.L - (s.dec.s + h) < len →
      ∃ t, exec i s = .next t ∧ ElementFails s t .litExceedsSrc) ∧
    (s.dec.s + h ≤ s.dec.L → len < 2 ^ 32 → len ≤ s.dec.dLen - s.dec.d → len ≤ s.dec.L - (s.dec.s + h) →
      ∃ t, exec i s = .next t ∧
        ElementDone s t { s.dec with x := x, len := len, s := s.dec.s + h + len, d := s.dec.d + len } len
          (fun j => src s (s.dec.s + h + j)))

/-- COPY1 and COPY2 (R222, R223, R252 to R255): the payload, the offset and the room are tested in this order; then the bytes before
the cursor are repeated, or with offset 0 nothing changes in memory, the cursors advance, and nothing else changes. -/
def Obligations.CopyOutcome : Prop :=
  ∀ (s : State) (i : Instr) (size len off : Nat), Inv s → s.activity = .elements → s.dec.s < s.dec.L →
    copyOf i = some (size, len, off) →
    (s.dec.L < s.dec.s + size → ∃ t, exec i s = .next t ∧ ElementFails s t .copyPayloadTruncated) ∧
    (s.dec.s + size ≤ s.dec.L → s.dec.d < off → ∃ t, exec i s = .next t ∧ ElementFails s t .copyOffsetBeforeStart) ∧
    (s.dec.s + size ≤ s.dec.L → off ≤ s.dec.d → s.dec.dLen < s.dec.d + len →
      ∃ t, exec i s = .next t ∧ ElementFails s t .copyExceedsDst) ∧
    (s.dec.s + size ≤ s.dec.L → off ≤ s.dec.d → s.dec.d + len ≤ s.dec.dLen →
      ∃ t, exec i s = .next t ∧
        ElementDone s t { s.dec with len := len, off := off, s := s.dec.s + size, d := s.dec.d + len } len
          (fun j => if off = 0 then dst s (s.dec.d + j) else dst s (s.dec.d - off + j % off)))

/-- COPY4 always fails with UNSUPPORTED(COPY4_TAG), whatever its upper bits and whatever follows (R224). -/
def Obligations.Copy4AlwaysFails : Prop :=
  ∀ (s : State) (u : BitVec 6), Inv s → s.activity = .elements → ∃ t, exec (.copy4 u) s = .next t ∧ ElementFails s t .copy4Tag

/-- The end of the stream (R225): the output must have exactly the declared length. -/
def Obligations.FinalLengthCheck : Prop :=
  ∀ (s : State), Inv s → s.activity = .elements → s.host.head? ≠ some .reset → s.dec.s = s.dec.L →
    (s.dec.d = s.dec.dLen → ∃ t, step s = .next t ∧ CommandEnds (useWait s) t (okResponse s.dec.d 0) ∧ t.mem = s.mem) ∧
    (s.dec.d ≠ s.dec.dLen → ∃ t, step s = .next t ∧
      CommandEnds (useWait s) t (failResponse .finalLengthMismatch s.ops.srcLen s.dec.d) ∧ OnlyDstWritten s t s.dec.dLen)

/-- DECODE of a stream of its prefix and one literal, or of the empty stream, succeeds and reproduces the bytes (R210 to R226). -/
def Obligations.DecodeOfOneLiteral : Prop :=
  ∀ (s : State) (bs : List Byte), Sane s → ViewsGood s → bs.length < 2 ^ 32 → bs.length ≤ s.ops.dstLen →
    SourceIs s (listingBytes (.len (BitVec.ofNat 64 bs.length) :: if bs = [] then [] else [.lit bs])) →
    ∃ t, exec .decode s = .next t ∧ CommandEnds s t (okResponse bs.length 0) ∧
      (∀ j (h : j < bs.length), dst t j = bs[j]) ∧ OnlyDstWritten s t bs.length

/-- DECODE of any listing of literals and copies (R97, R98), in any of their forms and with any offset that is not before the start,
0 among them, with a prefix of up to ten bytes (R94, R210 to R226, R251 to R255): it succeeds and the output is what the listing
reproduces into a destination with the bytes it holds. Left out: a literal of `2^32` bytes, which fails (R194). -/
def Obligations.DecodeOfAListing : Prop :=
  ∀ (s : State) (k : Nat) (lines : List Line) (out : List Byte), Sane s → ViewsGood s → outputOf (dst s) lines [] = some out →
    (∀ l ∈ lines, ∀ bs, l = .lit bs ∨ l = .lit4 bs ∨ (∃ n, l = .lit4n n bs) → bs.length < 2 ^ 32) →
    out.length ≤ s.ops.dstLen → (Line.lenPadded k (BitVec.ofNat 64 out.length)).legal = true →
    SourceIs s (listingBytes (.lenPadded k (BitVec.ofNat 64 out.length) :: lines)) →
    ∃ t, exec .decode s = .next t ∧ CommandEnds s t (okResponse out.length 0) ∧
      (∀ j (h : j < out.length), dst t j = out[j]) ∧ OnlyDstWritten s t out.length

/-! ## The whole machine -/

/-- Every step keeps the invariant: every register within its width, memory and table canonical and inside their bounds, and inside
a command the pointers where the spec bounds them (R27, R28, R31, R256). -/
def Obligations.StepKeepsTheInvariant : Prop :=
  ∀ (s t : State), Inv s → step s = .next t → Inv t

/-- The state after reset has the invariant. -/
def Obligations.ResetHasTheInvariant : Prop := Inv State.reset

/-- From a state with the invariant a step always answers a next state, but for three stops before a command has touched memory: a
host write to an address that does not exist (log 16), and an ENCODE or DECODE over views that share an address (R57), issued or
launched. After its entry checks a command never stops: no access leaves the views (R52). -/
def Obligations.StepAnswersNext : Prop :=
  ∀ (s : State), Inv s → (∃ t, step s = .next t) ∨
    (∃ a b rest, s.activity = .idle ∧ s.host = .writeMem a b :: rest ∧ 2 ^ s.cfg.aw ≤ a ∧
      step s = .fault .addressOutsideMemory) ∨
    (((∃ rest, s.activity = .idle ∧ s.host = .issue :: rest) ∨ s.activity = .issued) ∧ (s.ops.op = 3 ∨ s.ops.op = 4) ∧
      viewsOverlap s = true ∧ step s = .refused .overlappingViews)

/-- Every command ends, in success or failure, with the core idle (R317); ENCODE and DECODE over views that share an address are
refused (R57). -/
def Obligations.CommandsEnd : Prop :=
  ∀ (s : State) (i : Instr), Sane s → i.space = .command →
    (∃ t, exec i s = .next t ∧ t.activity = .idle ∧ Inv t) ∨
    ((i = .encode ∨ i = .decode) ∧ viewsOverlap s = true ∧ exec i s = .refused .overlappingViews)

/-- What a command leaves in the response registers (R22, R272 to R274): after a success CAUSE, ERR_S and ERR_D are 0; after a
failure STATUS and CAUSE are a row of the cause table, COUNT and VALUE_OUT are 0, and only DECODE's failures at an element or at
the final check record cursors. -/
def Obligations.ResponseRecord : Prop :=
  ∀ (s t : State) (i : Instr), i.space = .command → exec i s = .next t →
    (t.resp.status = 0 → t.resp.cause = 0 ∧ t.resp.errS = 0 ∧ t.resp.errD = 0) ∧
    (t.resp.status ≠ 0 → t.resp.count = 0 ∧ t.resp.valueOut = 0 ∧ ∃ c : Cause, t.resp.status = c.status ∧ t.resp.cause = c.code ∧
      (c ∉ [Cause.litExtraTruncated, Cause.litLengthZero, Cause.litExceedsDst, Cause.litExceedsSrc, Cause.copyPayloadTruncated,
          Cause.copyOffsetBeforeStart, Cause.copyExceedsDst, Cause.finalLengthMismatch, Cause.copy4Tag] →
        t.resp.errS = 0 ∧ t.resp.errD = 0))

/-- CAUSE determines the class, its high nibble, and no two causes share a code (R271, R272). -/
def Obligations.CauseDeterminesClass : Prop :=
  (∀ c : Cause, c.status.toNat = c.code.toNat / 16 ∧ c.code ≠ 0 ∧ c.status ≠ 0) ∧
  (∀ c c' : Cause, c.code = c'.code → c = c')

/-- No instruction writes an operand register (R21), a parameter (R20) or the host's moves. -/
def Obligations.OperandsAreNeverWritten : Prop :=
  ∀ (s t : State) (i : Instr), exec i s = .next t → t.ops = s.ops ∧ t.cfg = s.cfg ∧ t.host = s.host

/-- No instruction changes a byte of memory outside the destination view (R52, R276), and the varint bytes, UVARINT and
MAX_ENCODED_LEN change none at all. -/
def Obligations.WritesOnlyTheDestination : Prop :=
  ∀ (s t : State) (i : Instr), exec i s = .next t → OnlyDstWritten s t s.ops.dstLen ∧
    (i.space = .varint ∨ i = .uvarint ∨ i = .maxEncodedLen → t.mem = s.mem)

/-- No working register, no match-table entry and no response carries a value from one command to the next (R20, R34, R311): a
command's outcome is the same from any two states that differ only in those. -/
def Obligations.NothingCarriesOver : Prop :=
  ∀ (s s' : State) (i : Instr), i.space = .command → s'.cfg = s.cfg → s'.ops = s.ops → s'.mem = s.mem → s'.host = s.host →
    s'.free = s.free → exec i s' = exec i s

/-- Offset independence of DECODE (R54, R64): the responses and the output depend on the bytes of the views and their lengths, not
on where the views lie. -/
def Obligations.DecodeIsOffsetIndependent : Prop :=
  ∀ (s s' t t' : State), Sane s → Sane s' → ViewsGood s → ViewsGood s' → SameSource s s' → s.ops.dstLen = s'.ops.dstLen →
    (∀ j, j < s.ops.dstLen → dst s j = dst s' j) → exec .decode s = .next t → exec .decode s' = .next t' →
    t.resp = t'.resp ∧ (t.resp.status = 0 → ∀ j, j < t.resp.count → dst t j = dst t' j)
end

