-- ==== Sys2Proof/Laws/Memory.lean ====
section
/-! SUPPORT. Laws of sparse data in canonical form, and of the memory and the match table built on it: read after write, what a
write leaves alone, and that every operation keeps the canonical form and the bound on keys. -/

namespace Sys2Proof.Machine

section Cells
variable {α : Type} {dflt : α}

theorem cellGet_of_lt_all : ∀ {m : List (Nat × α)} {a : Nat},
    (m.all fun p => decide (a < p.1)) = true → cellGet dflt m a = dflt
  | [], _, _ => rfl
  | (k, v) :: m, a, h => by
    simp only [List.all_cons, Bool.and_eq_true, decide_eq_true_eq] at h
    have : a ≠ k := by omega
    simp only [cellGet, if_neg this]
    exact cellGet_of_lt_all h.2

theorem all_lt_of_lt {m : List (Nat × α)} {k j : Nat} (hjk : j < k)
    (h : (m.all fun p => decide (k < p.1)) = true) : (m.all fun p => decide (j < p.1)) = true := by
  simp only [List.all_eq_true, decide_eq_true_eq] at h ⊢
  intro p hp
  have := h p hp
  omega

variable [DecidableEq α]

theorem cellSet_all {p : Nat × α → Bool} : ∀ {m : List (Nat × α)} {a : Nat} {b : α},
    m.all p = true → p (a, b) = true → (cellSet dflt m a b).all p = true
  | [], a, b, _, hp => by
    unfold cellSet; split <;> simp [hp]
  | (k, v) :: m, a, b, h, hp => by
    simp only [List.all_cons, Bool.and_eq_true] at h
    unfold cellSet
    split
    · split <;> simp [h.1, h.2, hp]
    · split
      · split <;> simp [h.2, hp]
      · simp [h.1, cellSet_all h.2 hp]

theorem cellSet_wf : ∀ {m : List (Nat × α)} {a : Nat} {b : α},
    cellsWf dflt m = true → cellsWf dflt (cellSet dflt m a b) = true
  | [], a, b, _ => by
    unfold cellSet; split
    · rfl
    · simpa [cellsWf] using ‹¬ b = dflt›
  | (k, v) :: m, a, b, h => by
    have h0 := h
    simp only [cellsWf, Bool.and_eq_true, decide_eq_true_eq] at h
    unfold cellSet
    split
    · rename_i hak
      split
      · exact h0
      · rename_i hb
        simp only [cellsWf, Bool.and_eq_true, decide_eq_true_eq, List.all_cons]
        exact ⟨⟨hb, hak, all_lt_of_lt hak h.1.2⟩, h.1, h.2⟩
    · split
      · rename_i hak
        subst hak
        split
        · exact h.2
        · rename_i hb
          simp only [cellsWf, Bool.and_eq_true, decide_eq_true_eq]
          exact ⟨⟨hb, h.1.2⟩, h.2⟩
      · simp only [cellsWf, Bool.and_eq_true, decide_eq_true_eq]
        refine ⟨⟨h.1.1, cellSet_all h.1.2 ?_⟩, cellSet_wf h.2⟩
        simp only [decide_eq_true_eq]; omega

/-- A write leaves every other key alone. -/
theorem cellGet_cellSet_ne : ∀ {m : List (Nat × α)} {a c : Nat} {b : α}, c ≠ a →
    cellGet dflt (cellSet dflt m a b) c = cellGet dflt m c
  | [], a, c, b, h => by
    unfold cellSet; split <;> simp [cellGet, h]
  | (k, v) :: m, a, c, b, h => by
    unfold cellSet
    split
    · split <;> simp [cellGet, h]
    · split
      · rename_i hak
        subst hak
        split <;> simp [cellGet, h]
      · simp only [cellGet, cellGet_cellSet_ne h]

/-- A read after a write to the same key gives what was written. -/
theorem cellGet_cellSet_eq : ∀ {m : List (Nat × α)} {a : Nat} {b : α}, cellsWf dflt m = true →
    cellGet dflt (cellSet dflt m a b) a = b
  | [], a, b, _ => by
    unfold cellSet; split <;> simp_all [cellGet]
  | (k, v) :: m, a, b, h => by
    simp only [cellsWf, Bool.and_eq_true, decide_eq_true_eq] at h
    unfold cellSet
    split
    · rename_i hak
      split
      · rename_i hb
        have : a ≠ k := by omega
        simp only [cellGet, if_neg this]
        rw [cellGet_of_lt_all (all_lt_of_lt hak h.1.2), hb]
      · simp [cellGet]
    · split
      · rename_i hak
        subst hak
        split
        · rename_i hb
          rw [cellGet_of_lt_all h.1.2, hb]
        · simp [cellGet]
      · rename_i h1 h2
        simp only [cellGet, if_neg h2]
        exact cellGet_cellSet_eq h.2

theorem cellGet_cellSet {m : List (Nat × α)} {a c : Nat} {b : α} (h : cellsWf dflt m = true) :
    cellGet dflt (cellSet dflt m a b) c = if c = a then b else cellGet dflt m c := by
  split
  · rename_i hc; subst hc; exact cellGet_cellSet_eq h
  · rename_i hc; exact cellGet_cellSet_ne hc

theorem cellSet_within {n : Nat} {p : α → Bool} {m : List (Nat × α)} {a : Nat} {b : α}
    (h : cellsWithin n p m = true) (ha : a < n) (hb : p b = true) : cellsWithin n p (cellSet dflt m a b) = true :=
  cellSet_all h (by simp [ha, hb])

omit [DecidableEq α] in
theorem cellGet_of_within {n : Nat} {p : α → Bool} : ∀ {m : List (Nat × α)} {a : Nat},
    cellsWithin n p m = true → p dflt = true → p (cellGet dflt m a) = true
  | [], _, _, h => h
  | (k, v) :: m, a, hm, h => by
    simp only [cellsWithin, List.all_cons, Bool.and_eq_true] at hm
    unfold cellGet
    split
    · exact hm.1.2
    · exact cellGet_of_within (by simpa [cellsWithin] using hm.2) h

/-- Two canonical lists that hold the same values are the same list: equal memories are equal data. -/
theorem cells_ext : ∀ {m m' : List (Nat × α)}, cellsWf dflt m = true → cellsWf dflt m' = true →
    (∀ a, cellGet dflt m a = cellGet dflt m' a) → m = m'
  | [], [], _, _, _ => rfl
  | [], (k, v) :: m', _, h', h => by
    simp only [cellsWf, Bool.and_eq_true, decide_eq_true_eq] at h'
    have := h k
    simp only [cellGet, if_true] at this
    exact absurd this.symm h'.1.1
  | (k, v) :: m, [], h0, _, h => by
    simp only [cellsWf, Bool.and_eq_true, decide_eq_true_eq] at h0
    have := h k
    simp only [cellGet, if_true] at this
    exact absurd this h0.1.1
  | (k, v) :: m, (k', v') :: m', h0, h', h => by
    simp only [cellsWf, Bool.and_eq_true, decide_eq_true_eq] at h0 h'
    have hk : k = k' := by
      rcases Nat.lt_trichotomy k k' with hlt | heq | hgt
      · have := h k
        have hne : k ≠ k' := by omega
        simp only [cellGet, if_true, if_neg hne] at this
        rw [cellGet_of_lt_all (all_lt_of_lt hlt h'.1.2)] at this
        exact absurd this h0.1.1
      · exact heq
      · have := h k'
        have hne : k' ≠ k := by omega
        simp only [cellGet, if_true, if_neg hne] at this
        rw [cellGet_of_lt_all (all_lt_of_lt hgt h0.1.2)] at this
        exact absurd this.symm h'.1.1
    subst hk
    have hv : v = v' := by simpa [cellGet] using h k
    subst hv
    have : m = m' := cells_ext h0.2 h'.2 fun a => by
      by_cases ha : a = k
      · subst ha
        rw [cellGet_of_lt_all h0.1.2, cellGet_of_lt_all h'.1.2]
      · simpa [cellGet, ha] using h a
    rw [this]

end Cells

/-! ## Memory -/

theorem readByte_writeByte_ne {m : Memory} {a c : Nat} {b : Byte} (h : c ≠ a) :
    readByte (writeByte m a b) c = readByte m c := cellGet_cellSet_ne h

theorem readByte_writeByte_eq {m : Memory} {a : Nat} {b : Byte} (h : m.wf = true) :
    readByte (writeByte m a b) a = b := cellGet_cellSet_eq h

theorem readByte_writeByte {m : Memory} {a c : Nat} {b : Byte} (h : m.wf = true) :
    readByte (writeByte m a b) c = if c = a then b else readByte m c := cellGet_cellSet h

/-- A write keeps the canonical form. -/
theorem writeByte_wf {m : Memory} {a : Nat} {b : Byte} (h : m.wf = true) : (writeByte m a b).wf = true := cellSet_wf h

/-- A write keeps the bound on addresses. -/
theorem writeByte_within {n : Nat} {m : Memory} {a : Nat} {b : Byte} (h : cellsWithin n (fun _ => true) m = true)
    (ha : a < n) : cellsWithin n (fun _ => true) (writeByte m a b) = true := cellSet_within h ha rfl

/-- Equal memories are equal data. -/
theorem memory_ext {m m' : Memory} (h : m.wf = true) (h' : m'.wf = true)
    (heq : ∀ a, readByte m a = readByte m' a) : m = m' := cells_ext h h' heq

theorem writeBytes_wf : ∀ {bs : List Byte} {m : Memory} {a : Nat}, m.wf = true → (writeBytes m a bs).wf = true
  | [], _, _, h => h
  | _ :: bs, _, _, h => writeBytes_wf (bs := bs) (writeByte_wf h)

theorem writeBytes_within {n : Nat} : ∀ {bs : List Byte} {m : Memory} {a : Nat},
    cellsWithin n (fun _ => true) m = true → a + bs.length ≤ n → cellsWithin n (fun _ => true) (writeBytes m a bs) = true
  | [], _, _, h, _ => h
  | b :: bs, m, a, h, hn => by
    simp only [List.length_cons] at hn
    exact writeBytes_within (bs := bs) (writeByte_within h (by omega)) (by omega)

/-- Writing a list of bytes: inside the range the listed byte, outside what was there. -/
theorem readByte_writeBytes : ∀ {bs : List Byte} {m : Memory} {a c : Nat}, m.wf = true →
    readByte (writeBytes m a bs) c = if h : a ≤ c ∧ c - a < bs.length then bs[c - a]'h.2 else readByte m c
  | [], m, a, c, _ => by simp [writeBytes]
  | b :: bs, m, a, c, h => by
    simp only [writeBytes, List.length_cons]
    rw [readByte_writeBytes (bs := bs) (writeByte_wf h), readByte_writeByte h]
    by_cases hc : c = a
    · subst hc
      have : ¬ (c + 1 ≤ c ∧ c - (c + 1) < bs.length) := by omega
      simp
    · by_cases h1 : a + 1 ≤ c ∧ c - (a + 1) < bs.length
      · have h2 : a ≤ c ∧ c - a < bs.length + 1 := by omega
        have h3 : c - a = (c - (a + 1)) + 1 := by omega
        simp only [dif_pos h1, dif_pos h2]
        simp only [h3, List.getElem_cons_succ]
      · have h2 : ¬ (a ≤ c ∧ c - a < bs.length + 1) := by omega
        simp only [dif_neg h1, dif_neg h2, if_neg hc]

theorem readByte_writeBytes_outside : ∀ {bs : List Byte} {m : Memory} {a c : Nat}, (c < a ∨ a + bs.length ≤ c) →
    readByte (writeBytes m a bs) c = readByte m c
  | [], _, _, _, _ => rfl
  | b :: bs, m, a, c, h => by
    simp only [List.length_cons] at h
    unfold writeBytes
    rw [readByte_writeBytes_outside (by omega), readByte_writeByte_ne (by omega)]

theorem writeBytes_append : ∀ {bs cs : List Byte} {m : Memory} {a : Nat},
    writeBytes m a (bs ++ cs) = writeBytes (writeBytes m a bs) (a + bs.length) cs
  | [], _, _, _ => rfl
  | b :: bs, cs, m, a => by
    simp only [List.cons_append, writeBytes, List.length_cons]
    rw [writeBytes_append]
    congr 1
    omega

theorem readBytes_length : ∀ {n : Nat} {m : Memory} {a : Nat}, (readBytes m a n).length = n
  | 0, _, _ => rfl
  | n + 1, m, a => by simp [readBytes, readBytes_length]

theorem readBytes_getElem : ∀ {n : Nat} {m : Memory} {a j : Nat} (h : j < (readBytes m a n).length),
    (readBytes m a n)[j] = readByte m (a + j)
  | 0, _, _, _, h => by simp [readBytes] at h
  | n + 1, m, a, 0, _ => by simp [readBytes]
  | n + 1, m, a, j + 1, h => by
    simp only [readBytes, List.getElem_cons_succ]
    rw [readBytes_getElem]
    congr 1
    omega

/-! ## The open bytes of a failed command -/

theorem residue_wf {k base : Nat} : ∀ {n : Nat} {m : Memory}, m.wf = true → (residue k base n m).wf = true
  | 0, _, h => h
  | _ + 1, _, h => writeByte_wf (residue_wf h)

/-- Only the `n` bytes from `base` on are open; every other byte of memory is unchanged (R276). -/
theorem readByte_residue_outside {k base : Nat} : ∀ {n : Nat} {m : Memory} {a : Nat}, (a < base ∨ base + n ≤ a) →
    readByte (residue k base n m) a = readByte m a
  | 0, _, _, _ => rfl
  | n + 1, m, a, h => by
    unfold residue
    rw [readByte_writeByte_ne (by omega), readByte_residue_outside (by omega)]

theorem residue_within {k base lim : Nat} : ∀ {n : Nat} {m : Memory},
    cellsWithin lim (fun _ => true) m = true → base + n ≤ lim → cellsWithin lim (fun _ => true) (residue k base n m) = true
  | 0, _, h, _ => h
  | n + 1, _, h, hn => writeByte_within (residue_within h (by omega)) (by omega)

@[simp] theorem residue_zero (k base : Nat) (m : Memory) : residue k base 0 m = m := rfl

/-! ## Match table -/

theorem tableGet_tableSet {t : Table} {a c e : Nat} (h : tableWf t = true) :
    tableGet (tableSet t a e) c = if c = a then e else tableGet t c := cellGet_cellSet h

theorem tableGet_tableSet_ne {t : Table} {a c e : Nat} (h : c ≠ a) : tableGet (tableSet t a e) c = tableGet t c :=
  cellGet_cellSet_ne h

theorem tableSet_wf {t : Table} {a e : Nat} (h : tableWf t = true) : tableWf (tableSet t a e) = true := cellSet_wf h

theorem tableSet_within {n : Nat} {p : Nat → Bool} {t : Table} {a e : Nat} (h : cellsWithin n p t = true) (ha : a < n)
    (he : p e = true) : cellsWithin n p (tableSet t a e) = true := cellSet_within h ha he

theorem space_pos (c : Config) : 0 < c.space := Nat.two_pow_pos c.aw

theorem freeCursor_lt (c : Config) (k slot : Nat) : freeCursor c k slot < c.space := Nat.mod_lt _ (space_pos c)

theorem freeEntries_wf {c : Config} {k : Nat} : ∀ {n : Nat}, tableWf (freeEntries c k n) = true
  | 0 => rfl
  | _ + 1 => tableSet_wf freeEntries_wf

theorem freeEntries_within {c : Config} {k : Nat} : ∀ {n lim : Nat}, n ≤ lim →
    cellsWithin lim (fun e => decide (e < c.space)) (freeEntries c k n) = true
  | 0, _, _ => rfl
  | n + 1, lim, h =>
    tableSet_within (freeEntries_within (by omega)) (by omega) (decide_eq_true (freeCursor_lt c k _))

theorem freeTable_wf (c : Config) (k : Nat) : tableWf (freeTable c k) = true := by
  unfold freeTable; exact freeEntries_wf

theorem freeTable_within (c : Config) (k : Nat) :
    cellsWithin Config.tableMax (fun e => decide (e < c.space)) (freeTable c k) = true := by
  unfold freeTable; exact freeEntries_within (Nat.le_refl _)

end Sys2Proof.Machine
end

