-- ==== Sys2Proof/Laws/State.lean ====
section
/-! SUPPORT. What each shared update of the state leaves in each field, by rfl, so that no later proof unfolds a record update. -/

namespace Sys2Proof.Machine

/-! ## DstW -/

@[simp] theorem dstW_cfg (s : State) (i : Nat) (b : Byte) : (dstW s i b).cfg = s.cfg := rfl
@[simp] theorem dstW_ops (s : State) (i : Nat) (b : Byte) : (dstW s i b).ops = s.ops := rfl
@[simp] theorem dstW_resp (s : State) (i : Nat) (b : Byte) : (dstW s i b).resp = s.resp := rfl
@[simp] theorem dstW_enc (s : State) (i : Nat) (b : Byte) : (dstW s i b).enc = s.enc := rfl
@[simp] theorem dstW_dec (s : State) (i : Nat) (b : Byte) : (dstW s i b).dec = s.dec := rfl
@[simp] theorem dstW_vu (s : State) (i : Nat) (b : Byte) : (dstW s i b).vu = s.vu := rfl
@[simp] theorem dstW_table (s : State) (i : Nat) (b : Byte) : (dstW s i b).table = s.table := rfl
@[simp] theorem dstW_mem (s : State) (i : Nat) (b : Byte) : (dstW s i b).mem = writeByte s.mem (s.ops.dstBase + i) b := rfl
@[simp] theorem dstW_activity (s : State) (i : Nat) (b : Byte) : (dstW s i b).activity = s.activity := rfl
@[simp] theorem dstW_host (s : State) (i : Nat) (b : Byte) : (dstW s i b).host = s.host := rfl
@[simp] theorem dstW_free (s : State) (i : Nat) (b : Byte) : (dstW s i b).free = s.free := rfl

/-! ## Encoder registers -/

@[simp] theorem modEnc_cfg (f : EncRegs → EncRegs) (s : State) : (s.modEnc f).cfg = s.cfg := rfl
@[simp] theorem modEnc_ops (f : EncRegs → EncRegs) (s : State) : (s.modEnc f).ops = s.ops := rfl
@[simp] theorem modEnc_resp (f : EncRegs → EncRegs) (s : State) : (s.modEnc f).resp = s.resp := rfl
@[simp] theorem modEnc_enc (f : EncRegs → EncRegs) (s : State) : (s.modEnc f).enc = f s.enc := rfl
@[simp] theorem modEnc_dec (f : EncRegs → EncRegs) (s : State) : (s.modEnc f).dec = s.dec := rfl
@[simp] theorem modEnc_vu (f : EncRegs → EncRegs) (s : State) : (s.modEnc f).vu = s.vu := rfl
@[simp] theorem modEnc_table (f : EncRegs → EncRegs) (s : State) : (s.modEnc f).table = s.table := rfl
@[simp] theorem modEnc_mem (f : EncRegs → EncRegs) (s : State) : (s.modEnc f).mem = s.mem := rfl
@[simp] theorem modEnc_activity (f : EncRegs → EncRegs) (s : State) : (s.modEnc f).activity = s.activity := rfl
@[simp] theorem modEnc_host (f : EncRegs → EncRegs) (s : State) : (s.modEnc f).host = s.host := rfl
@[simp] theorem modEnc_free (f : EncRegs → EncRegs) (s : State) : (s.modEnc f).free = s.free := rfl

/-! ## Decoder registers -/

@[simp] theorem modDec_cfg (f : DecRegs → DecRegs) (s : State) : (s.modDec f).cfg = s.cfg := rfl
@[simp] theorem modDec_ops (f : DecRegs → DecRegs) (s : State) : (s.modDec f).ops = s.ops := rfl
@[simp] theorem modDec_resp (f : DecRegs → DecRegs) (s : State) : (s.modDec f).resp = s.resp := rfl
@[simp] theorem modDec_enc (f : DecRegs → DecRegs) (s : State) : (s.modDec f).enc = s.enc := rfl
@[simp] theorem modDec_dec (f : DecRegs → DecRegs) (s : State) : (s.modDec f).dec = f s.dec := rfl
@[simp] theorem modDec_vu (f : DecRegs → DecRegs) (s : State) : (s.modDec f).vu = s.vu := rfl
@[simp] theorem modDec_table (f : DecRegs → DecRegs) (s : State) : (s.modDec f).table = s.table := rfl
@[simp] theorem modDec_mem (f : DecRegs → DecRegs) (s : State) : (s.modDec f).mem = s.mem := rfl
@[simp] theorem modDec_activity (f : DecRegs → DecRegs) (s : State) : (s.modDec f).activity = s.activity := rfl
@[simp] theorem modDec_host (f : DecRegs → DecRegs) (s : State) : (s.modDec f).host = s.host := rfl
@[simp] theorem modDec_free (f : DecRegs → DecRegs) (s : State) : (s.modDec f).free = s.free := rfl

/-! ## Varint registers -/

@[simp] theorem modVu_cfg (f : VarRegs → VarRegs) (s : State) : (s.modVu f).cfg = s.cfg := rfl
@[simp] theorem modVu_ops (f : VarRegs → VarRegs) (s : State) : (s.modVu f).ops = s.ops := rfl
@[simp] theorem modVu_resp (f : VarRegs → VarRegs) (s : State) : (s.modVu f).resp = s.resp := rfl
@[simp] theorem modVu_enc (f : VarRegs → VarRegs) (s : State) : (s.modVu f).enc = s.enc := rfl
@[simp] theorem modVu_dec (f : VarRegs → VarRegs) (s : State) : (s.modVu f).dec = s.dec := rfl
@[simp] theorem modVu_vu (f : VarRegs → VarRegs) (s : State) : (s.modVu f).vu = f s.vu := rfl
@[simp] theorem modVu_table (f : VarRegs → VarRegs) (s : State) : (s.modVu f).table = s.table := rfl
@[simp] theorem modVu_mem (f : VarRegs → VarRegs) (s : State) : (s.modVu f).mem = s.mem := rfl
@[simp] theorem modVu_activity (f : VarRegs → VarRegs) (s : State) : (s.modVu f).activity = s.activity := rfl
@[simp] theorem modVu_host (f : VarRegs → VarRegs) (s : State) : (s.modVu f).host = s.host := rfl
@[simp] theorem modVu_free (f : VarRegs → VarRegs) (s : State) : (s.modVu f).free = s.free := rfl

/-! ## Activity -/

@[simp] theorem setActivity_cfg (a : Activity) (s : State) : (s.setActivity a).cfg = s.cfg := rfl
@[simp] theorem setActivity_ops (a : Activity) (s : State) : (s.setActivity a).ops = s.ops := rfl
@[simp] theorem setActivity_resp (a : Activity) (s : State) : (s.setActivity a).resp = s.resp := rfl
@[simp] theorem setActivity_enc (a : Activity) (s : State) : (s.setActivity a).enc = s.enc := rfl
@[simp] theorem setActivity_dec (a : Activity) (s : State) : (s.setActivity a).dec = s.dec := rfl
@[simp] theorem setActivity_vu (a : Activity) (s : State) : (s.setActivity a).vu = s.vu := rfl
@[simp] theorem setActivity_table (a : Activity) (s : State) : (s.setActivity a).table = s.table := rfl
@[simp] theorem setActivity_mem (a : Activity) (s : State) : (s.setActivity a).mem = s.mem := rfl
@[simp] theorem setActivity_activity (a : Activity) (s : State) : (s.setActivity a).activity = a := rfl
@[simp] theorem setActivity_host (a : Activity) (s : State) : (s.setActivity a).host = s.host := rfl
@[simp] theorem setActivity_free (a : Activity) (s : State) : (s.setActivity a).free = s.free := rfl

/-! ## A list of writes to the destination view -/

@[simp] theorem dstWrites_cfg (s : State) (bs : List Byte) : (dstWrites s bs).cfg = s.cfg := rfl
@[simp] theorem dstWrites_ops (s : State) (bs : List Byte) : (dstWrites s bs).ops = s.ops := rfl
@[simp] theorem dstWrites_resp (s : State) (bs : List Byte) : (dstWrites s bs).resp = s.resp := rfl
@[simp] theorem dstWrites_enc (s : State) (bs : List Byte) : (dstWrites s bs).enc = s.enc := rfl
@[simp] theorem dstWrites_dec (s : State) (bs : List Byte) : (dstWrites s bs).dec = s.dec := rfl
@[simp] theorem dstWrites_vu (s : State) (bs : List Byte) : (dstWrites s bs).vu = s.vu := rfl
@[simp] theorem dstWrites_table (s : State) (bs : List Byte) : (dstWrites s bs).table = s.table := rfl
@[simp] theorem dstWrites_mem (s : State) (bs : List Byte) : (dstWrites s bs).mem = writeBytes s.mem s.ops.dstBase bs := rfl
@[simp] theorem dstWrites_activity (s : State) (bs : List Byte) : (dstWrites s bs).activity = s.activity := rfl
@[simp] theorem dstWrites_host (s : State) (bs : List Byte) : (dstWrites s bs).host = s.host := rfl
@[simp] theorem dstWrites_free (s : State) (bs : List Byte) : (dstWrites s bs).free = s.free := rfl

/-! ## The end of a command -/

@[simp] theorem toIdle_cfg (s : State) : (toIdle s).cfg = s.cfg := rfl
@[simp] theorem toIdle_ops (s : State) : (toIdle s).ops = s.ops := rfl
@[simp] theorem toIdle_resp (s : State) : (toIdle s).resp = s.resp := rfl
@[simp] theorem toIdle_enc (s : State) : (toIdle s).enc = freeEnc s.cfg s.free := rfl
@[simp] theorem toIdle_dec (s : State) : (toIdle s).dec = freeDec s.cfg s.free := rfl
@[simp] theorem toIdle_vu (s : State) : (toIdle s).vu = freeVar s.free := rfl
@[simp] theorem toIdle_table (s : State) : (toIdle s).table = freeTable s.cfg s.free := rfl
@[simp] theorem toIdle_mem (s : State) : (toIdle s).mem = s.mem := rfl
@[simp] theorem toIdle_activity (s : State) : (toIdle s).activity = .idle := rfl
@[simp] theorem toIdle_host (s : State) : (toIdle s).host = s.host := rfl
@[simp] theorem toIdle_free (s : State) : (toIdle s).free = s.free + 1 := rfl

/-! ## Success -/

@[simp] theorem succeed_cfg (count : Nat) (v : Value) (s : State) : (succeed count v s).cfg = s.cfg := rfl
@[simp] theorem succeed_ops (count : Nat) (v : Value) (s : State) : (succeed count v s).ops = s.ops := rfl
@[simp] theorem succeed_resp (count : Nat) (v : Value) (s : State) : (succeed count v s).resp = { status := 0, cause := 0, count := count, valueOut := v, errS := 0, errD := 0 } := rfl
@[simp] theorem succeed_enc (count : Nat) (v : Value) (s : State) : (succeed count v s).enc = freeEnc s.cfg s.free := rfl
@[simp] theorem succeed_dec (count : Nat) (v : Value) (s : State) : (succeed count v s).dec = freeDec s.cfg s.free := rfl
@[simp] theorem succeed_vu (count : Nat) (v : Value) (s : State) : (succeed count v s).vu = freeVar s.free := rfl
@[simp] theorem succeed_table (count : Nat) (v : Value) (s : State) : (succeed count v s).table = freeTable s.cfg s.free := rfl
@[simp] theorem succeed_mem (count : Nat) (v : Value) (s : State) : (succeed count v s).mem = s.mem := rfl
@[simp] theorem succeed_activity (count : Nat) (v : Value) (s : State) : (succeed count v s).activity = .idle := rfl
@[simp] theorem succeed_host (count : Nat) (v : Value) (s : State) : (succeed count v s).host = s.host := rfl
@[simp] theorem succeed_free (count : Nat) (v : Value) (s : State) : (succeed count v s).free = s.free + 1 := rfl

/-! ## Failure -/

@[simp] theorem fail_cfg (c : Cause) (eS eD limit : Nat) (s : State) : (fail c eS eD limit s).cfg = s.cfg := rfl
@[simp] theorem fail_ops (c : Cause) (eS eD limit : Nat) (s : State) : (fail c eS eD limit s).ops = s.ops := rfl
@[simp] theorem fail_resp (c : Cause) (eS eD limit : Nat) (s : State) : (fail c eS eD limit s).resp = { status := c.status, cause := c.code, count := 0, valueOut := 0, errS := eS, errD := eD } := rfl
@[simp] theorem fail_enc (c : Cause) (eS eD limit : Nat) (s : State) : (fail c eS eD limit s).enc = freeEnc s.cfg s.free := rfl
@[simp] theorem fail_dec (c : Cause) (eS eD limit : Nat) (s : State) : (fail c eS eD limit s).dec = freeDec s.cfg s.free := rfl
@[simp] theorem fail_vu (c : Cause) (eS eD limit : Nat) (s : State) : (fail c eS eD limit s).vu = freeVar s.free := rfl
@[simp] theorem fail_table (c : Cause) (eS eD limit : Nat) (s : State) : (fail c eS eD limit s).table = freeTable s.cfg s.free := rfl
@[simp] theorem fail_mem (c : Cause) (eS eD limit : Nat) (s : State) : (fail c eS eD limit s).mem = residue s.free s.ops.dstBase limit s.mem := rfl
@[simp] theorem fail_activity (c : Cause) (eS eD limit : Nat) (s : State) : (fail c eS eD limit s).activity = .idle := rfl
@[simp] theorem fail_host (c : Cause) (eS eD limit : Nat) (s : State) : (fail c eS eD limit s).host = s.host := rfl
@[simp] theorem fail_free (c : Cause) (eS eD limit : Nat) (s : State) : (fail c eS eD limit s).free = s.free + 1 := rfl

/-! ## A failure before any write -/

@[simp] theorem failClean_cfg (c : Cause) (s : State) : (failClean c s).cfg = s.cfg := rfl
@[simp] theorem failClean_ops (c : Cause) (s : State) : (failClean c s).ops = s.ops := rfl
@[simp] theorem failClean_resp (c : Cause) (s : State) : (failClean c s).resp = { status := c.status, cause := c.code, count := 0, valueOut := 0, errS := 0, errD := 0 } := rfl
@[simp] theorem failClean_enc (c : Cause) (s : State) : (failClean c s).enc = freeEnc s.cfg s.free := rfl
@[simp] theorem failClean_dec (c : Cause) (s : State) : (failClean c s).dec = freeDec s.cfg s.free := rfl
@[simp] theorem failClean_vu (c : Cause) (s : State) : (failClean c s).vu = freeVar s.free := rfl
@[simp] theorem failClean_table (c : Cause) (s : State) : (failClean c s).table = freeTable s.cfg s.free := rfl
@[simp] theorem failClean_mem (c : Cause) (s : State) : (failClean c s).mem = s.mem := rfl
@[simp] theorem failClean_activity (c : Cause) (s : State) : (failClean c s).activity = .idle := rfl
@[simp] theorem failClean_host (c : Cause) (s : State) : (failClean c s).host = s.host := rfl
@[simp] theorem failClean_free (c : Cause) (s : State) : (failClean c s).free = s.free + 1 := rfl

/-! ## A failure at an element -/

@[simp] theorem failElement_cfg (c : Cause) (s : State) : (failElement c s).cfg = s.cfg := rfl
@[simp] theorem failElement_ops (c : Cause) (s : State) : (failElement c s).ops = s.ops := rfl
@[simp] theorem failElement_resp (c : Cause) (s : State) : (failElement c s).resp = { status := c.status, cause := c.code, count := 0, valueOut := 0, errS := s.dec.sEl, errD := s.dec.d } := rfl
@[simp] theorem failElement_enc (c : Cause) (s : State) : (failElement c s).enc = freeEnc s.cfg s.free := rfl
@[simp] theorem failElement_dec (c : Cause) (s : State) : (failElement c s).dec = freeDec s.cfg s.free := rfl
@[simp] theorem failElement_vu (c : Cause) (s : State) : (failElement c s).vu = freeVar s.free := rfl
@[simp] theorem failElement_table (c : Cause) (s : State) : (failElement c s).table = freeTable s.cfg s.free := rfl
@[simp] theorem failElement_mem (c : Cause) (s : State) : (failElement c s).mem = residue s.free s.ops.dstBase s.dec.dLen s.mem := rfl
@[simp] theorem failElement_activity (c : Cause) (s : State) : (failElement c s).activity = .idle := rfl
@[simp] theorem failElement_host (c : Cause) (s : State) : (failElement c s).host = s.host := rfl
@[simp] theorem failElement_free (c : Cause) (s : State) : (failElement c s).free = s.free + 1 := rfl

/-! ## A failure of ENCODE -/

@[simp] theorem failEncode_cfg (c : Cause) (s : State) : (failEncode c s).cfg = s.cfg := rfl
@[simp] theorem failEncode_ops (c : Cause) (s : State) : (failEncode c s).ops = s.ops := rfl
@[simp] theorem failEncode_resp (c : Cause) (s : State) : (failEncode c s).resp = { status := c.status, cause := c.code, count := 0, valueOut := 0, errS := 0, errD := 0 } := rfl
@[simp] theorem failEncode_enc (c : Cause) (s : State) : (failEncode c s).enc = freeEnc s.cfg s.free := rfl
@[simp] theorem failEncode_dec (c : Cause) (s : State) : (failEncode c s).dec = freeDec s.cfg s.free := rfl
@[simp] theorem failEncode_vu (c : Cause) (s : State) : (failEncode c s).vu = freeVar s.free := rfl
@[simp] theorem failEncode_table (c : Cause) (s : State) : (failEncode c s).table = freeTable s.cfg s.free := rfl
@[simp] theorem failEncode_mem (c : Cause) (s : State) : (failEncode c s).mem = residue s.free s.ops.dstBase s.ops.dstLen s.mem := rfl
@[simp] theorem failEncode_activity (c : Cause) (s : State) : (failEncode c s).activity = .idle := rfl
@[simp] theorem failEncode_host (c : Cause) (s : State) : (failEncode c s).host = s.host := rfl
@[simp] theorem failEncode_free (c : Cause) (s : State) : (failEncode c s).free = s.free + 1 := rfl

/-! ## Reset -/

@[simp] theorem resetCore_cfg (s : State) : (resetCore s).cfg = s.cfg := rfl
@[simp] theorem resetCore_ops (s : State) : (resetCore s).ops = freeOperands s.cfg s.free := rfl
@[simp] theorem resetCore_resp (s : State) : (resetCore s).resp = State.reset.resp := rfl
@[simp] theorem resetCore_enc (s : State) : (resetCore s).enc = freeEnc s.cfg s.free := rfl
@[simp] theorem resetCore_dec (s : State) : (resetCore s).dec = freeDec s.cfg s.free := rfl
@[simp] theorem resetCore_vu (s : State) : (resetCore s).vu = freeVar s.free := rfl
@[simp] theorem resetCore_table (s : State) : (resetCore s).table = freeTable s.cfg s.free := rfl
@[simp] theorem resetCore_mem (s : State) : (resetCore s).mem = residue s.free s.ops.dstBase (writeLimit s) s.mem := rfl
@[simp] theorem resetCore_activity (s : State) : (resetCore s).activity = .idle := rfl
@[simp] theorem resetCore_host (s : State) : (resetCore s).host = s.host := rfl
@[simp] theorem resetCore_free (s : State) : (resetCore s).free = s.free + 1 := rfl

/-! ## A host write to a register -/

@[simp] theorem writeReg_cfg (r : Reg) (v : Value) (s : State) : (writeReg r v s).cfg = s.cfg := rfl
@[simp] theorem writeReg_ops (r : Reg) (v : Value) (s : State) : (writeReg r v s).ops = writeOperand s.cfg r v s.ops := rfl
@[simp] theorem writeReg_resp (r : Reg) (v : Value) (s : State) : (writeReg r v s).resp = s.resp := rfl
@[simp] theorem writeReg_enc (r : Reg) (v : Value) (s : State) : (writeReg r v s).enc = s.enc := rfl
@[simp] theorem writeReg_dec (r : Reg) (v : Value) (s : State) : (writeReg r v s).dec = s.dec := rfl
@[simp] theorem writeReg_vu (r : Reg) (v : Value) (s : State) : (writeReg r v s).vu = s.vu := rfl
@[simp] theorem writeReg_table (r : Reg) (v : Value) (s : State) : (writeReg r v s).table = s.table := rfl
@[simp] theorem writeReg_mem (r : Reg) (v : Value) (s : State) : (writeReg r v s).mem = s.mem := rfl
@[simp] theorem writeReg_activity (r : Reg) (v : Value) (s : State) : (writeReg r v s).activity = s.activity := rfl
@[simp] theorem writeReg_host (r : Reg) (v : Value) (s : State) : (writeReg r v s).host = s.host := rfl
@[simp] theorem writeReg_free (r : Reg) (v : Value) (s : State) : (writeReg r v s).free = s.free := rfl

/-! ## A step that lets time pass -/

@[simp] theorem useWait_cfg (s : State) : (useWait s).cfg = s.cfg := by unfold useWait; split <;> rfl
@[simp] theorem useWait_ops (s : State) : (useWait s).ops = s.ops := by unfold useWait; split <;> rfl
@[simp] theorem useWait_resp (s : State) : (useWait s).resp = s.resp := by unfold useWait; split <;> rfl
@[simp] theorem useWait_enc (s : State) : (useWait s).enc = s.enc := by unfold useWait; split <;> rfl
@[simp] theorem useWait_dec (s : State) : (useWait s).dec = s.dec := by unfold useWait; split <;> rfl
@[simp] theorem useWait_vu (s : State) : (useWait s).vu = s.vu := by unfold useWait; split <;> rfl
@[simp] theorem useWait_table (s : State) : (useWait s).table = s.table := by unfold useWait; split <;> rfl
@[simp] theorem useWait_mem (s : State) : (useWait s).mem = s.mem := by unfold useWait; split <;> rfl
@[simp] theorem useWait_activity (s : State) : (useWait s).activity = s.activity := by unfold useWait; split <;> rfl
@[simp] theorem useWait_free (s : State) : (useWait s).free = s.free := by unfold useWait; split <;> rfl

/-- Only the host's moves can change. -/
theorem useWait_eq (s : State) : useWait s = { s with host := (useWait s).host } := by unfold useWait; split <;> rfl

/-! ## The start of PUT_UVARINT's and of ENCODE's loop -/

@[simp] theorem startPut_cfg (s : State) : (startPut s).cfg = s.cfg := rfl
@[simp] theorem startPut_ops (s : State) : (startPut s).ops = s.ops := rfl
@[simp] theorem startPut_resp (s : State) : (startPut s).resp = s.resp := rfl
@[simp] theorem startPut_enc (s : State) : (startPut s).enc = s.enc := rfl
@[simp] theorem startPut_dec (s : State) : (startPut s).dec = s.dec := rfl
@[simp] theorem startPut_vu (s : State) : (startPut s).vu = { s.vu with v := s.ops.valueIn, i := 0 } := rfl
@[simp] theorem startPut_table (s : State) : (startPut s).table = s.table := rfl
@[simp] theorem startPut_mem (s : State) : (startPut s).mem = s.mem := rfl
@[simp] theorem startPut_activity (s : State) : (startPut s).activity = .putBytes := rfl
@[simp] theorem startPut_host (s : State) : (startPut s).host = s.host := rfl
@[simp] theorem startPut_free (s : State) : (startPut s).free = s.free := rfl
@[simp] theorem startEncode_cfg (s : State) : (startEncode s).cfg = s.cfg := rfl
@[simp] theorem startEncode_ops (s : State) : (startEncode s).ops = s.ops := rfl
@[simp] theorem startEncode_resp (s : State) : (startEncode s).resp = s.resp := rfl
@[simp] theorem startEncode_enc (s : State) : (startEncode s).enc = { s.enc with n := s.ops.srcLen } := rfl
@[simp] theorem startEncode_dec (s : State) : (startEncode s).dec = s.dec := rfl
@[simp] theorem startEncode_vu (s : State) : (startEncode s).vu = s.vu := rfl
@[simp] theorem startEncode_table (s : State) : (startEncode s).table = s.table := rfl
@[simp] theorem startEncode_mem (s : State) : (startEncode s).mem = s.mem := rfl
@[simp] theorem startEncode_activity (s : State) : (startEncode s).activity = .encodeStart := rfl
@[simp] theorem startEncode_host (s : State) : (startEncode s).host = s.host := rfl
@[simp] theorem startEncode_free (s : State) : (startEncode s).free = s.free := rfl

/-! ## A byte of the views after a write to the destination view -/

theorem src_dstW {s : State} {i j : Nat} {b : Byte} (h : s.ops.srcBase + j ≠ s.ops.dstBase + i) :
    src (dstW s i b) j = src s j := readByte_writeByte_ne h

theorem dst_dstW_ne {s : State} {i j : Nat} {b : Byte} (h : j ≠ i) : dst (dstW s i b) j = dst s j :=
  readByte_writeByte_ne (show s.ops.dstBase + j ≠ s.ops.dstBase + i by omega)

theorem dst_dstW_eq {s : State} {i : Nat} {b : Byte} (h : s.mem.wf = true) : dst (dstW s i b) i = b :=
  readByte_writeByte_eq h

/-- Disjoint views (R57): a source byte and a destination byte are never at one address. -/
theorem views_apart {s : State} (h : viewsOverlap s = false) {i j : Nat} (hi : i < s.ops.srcLen)
    (hj : j < s.ops.dstLen) : s.ops.srcBase + i ≠ s.ops.dstBase + j := by
  simp only [viewsOverlap, Bool.and_eq_false_iff, decide_eq_false_iff_not] at h
  omega

end Sys2Proof.Machine
end

