-- ==== Sys2Proof/Laws/Frame.lean ====
section
/-! SUPPORT. What every operation leaves alone: the parameters, the operand registers, the host's moves, and every byte of
memory outside the destination view's first `lim` bytes; and that memory stays canonical and inside its bound. -/

namespace Sys2Proof.Machine

/-- From `s` to `t` nothing changed but working state, responses and destination bytes below `lim`. -/
structure Stays (lim : Nat) (s t : State) : Prop where
  cfg : t.cfg = s.cfg
  ops : t.ops = s.ops
  host : t.host = s.host
  wf : s.mem.wf = true → t.mem.wf = true
  within : ∀ n, s.ops.dstBase + lim ≤ n → cellsWithin n (fun _ => true) s.mem = true →
    cellsWithin n (fun _ => true) t.mem = true
  outside : OnlyDstWritten s t lim

theorem Stays.refl (lim : Nat) (s : State) : Stays lim s s :=
  ⟨rfl, rfl, rfl, id, fun _ _ h => h, fun _ _ => rfl⟩

theorem Stays.trans {lim : Nat} {s t u : State} (h : Stays lim s t) (h' : Stays lim t u) : Stays lim s u where
  cfg := h'.cfg.trans h.cfg
  ops := h'.ops.trans h.ops
  host := h'.host.trans h.host
  wf := h'.wf ∘ h.wf
  within n hn hs := h'.within n (by rw [h.ops]; exact hn) (h.within n hn hs)
  outside a ha := (h'.outside a (by rw [h.ops]; exact ha)).trans (h.outside a ha)

theorem Stays.mono {lim lim' : Nat} {s t : State} (h : Stays lim s t) (hl : lim ≤ lim') : Stays lim' s t where
  cfg := h.cfg
  ops := h.ops
  host := h.host
  wf := h.wf
  within n hn hs := h.within n (by omega) hs
  outside a ha := h.outside a (by omega)

/-- A change of working state only. -/
theorem Stays.of_eq {lim : Nat} {s t : State} (hc : t.cfg = s.cfg) (ho : t.ops = s.ops) (hh : t.host = s.host)
    (hm : t.mem = s.mem) : Stays lim s t where
  cfg := hc
  ops := ho
  host := hh
  wf := by rw [hm]; exact id
  within n _ h := by rw [hm]; exact h
  outside a _ := by rw [hm]

/-- Stays looks at five fields of its second state only. -/
theorem Stays.congr {lim : Nat} {s t u : State} (h : Stays lim s t) (hc : u.cfg = t.cfg) (ho : u.ops = t.ops)
    (hh : u.host = t.host) (hm : u.mem = t.mem) : Stays lim s u :=
  h.trans (Stays.of_eq hc ho hh hm)

/-- Stays looks at four fields of its first state only. -/
theorem Stays.before {lim : Nat} {s t u : State} (h : Stays lim t u) (hc : t.cfg = s.cfg) (ho : t.ops = s.ops)
    (hh : t.host = s.host) (hm : t.mem = s.mem) : Stays lim s u := (Stays.of_eq hc ho hh hm).trans h

theorem stays_dstW {lim : Nat} {s : State} {i : Nat} {b : Byte} (h : i < lim) : Stays lim s (dstW s i b) where
  cfg := rfl
  ops := rfl
  host := rfl
  wf := writeByte_wf
  within n hn hs := writeByte_within hs (by omega)
  outside a ha := readByte_writeByte_ne (by omega)

theorem stays_toIdle (lim : Nat) (s : State) : Stays lim s (toIdle s) := Stays.of_eq rfl rfl rfl rfl

theorem stays_succeed (lim count : Nat) (v : Value) (s : State) : Stays lim s (succeed count v s) :=
  Stays.of_eq rfl rfl rfl rfl

theorem stays_fail {lim limit : Nat} (c : Cause) (eS eD : Nat) (s : State) (h : limit ≤ lim) :
    Stays lim s (fail c eS eD limit s) where
  cfg := rfl
  ops := rfl
  host := rfl
  wf := residue_wf
  within n hn hs := residue_within hs (by omega)
  outside a ha := readByte_residue_outside (by omega)

theorem stays_failClean (lim : Nat) (c : Cause) (s : State) : Stays lim s (failClean c s) :=
  stays_fail c 0 0 s (Nat.zero_le _)

theorem stays_failElement {lim : Nat} (c : Cause) (s : State) (h : s.dec.dLen ≤ lim) : Stays lim s (failElement c s) :=
  stays_fail c _ _ s h

theorem stays_failEncode (c : Cause) (s : State) : Stays s.ops.dstLen s (failEncode c s) :=
  stays_fail c _ _ s (Nat.le_refl _)

/-! ## Varint unit -/

theorem stays_putEntry {lim : Nat} {go : State → State} {s : State}
    (h : varintLen s.ops.valueIn ≤ s.ops.dstLen → Stays lim s (go s)) : Stays lim s (putEntry go s) := by
  unfold putEntry
  split
  · exact stays_failClean _ _ _
  · split
    · exact stays_failClean _ _ _
    · exact h (by omega)

theorem stays_putUvarint (s : State) (hlen : (varintBytes s.ops.valueIn).length = varintLen s.ops.valueIn) :
    Stays s.ops.dstLen s (putUvarint s) :=
  stays_putEntry fun h => Stays.trans (t := dstWrites s (varintBytes s.ops.valueIn)) {
    cfg := rfl, ops := rfl, host := rfl
    wf := writeBytes_wf
    within := fun n hn hs => writeBytes_within hs (by rw [hlen]; omega)
    outside := fun a ha => readByte_writeBytes_outside (by rw [hlen]; omega) } (stays_succeed _ _ _ _)

theorem stays_startPut (lim : Nat) (s : State) : Stays lim s (startPut s) := Stays.of_eq rfl rfl rfl rfl

theorem stays_putByte {lim : Nat} {s : State} (h : s.vu.i < lim) : Stays lim s (putByte s) := by
  unfold putByte
  split
  · exact (stays_dstW h).congr rfl rfl rfl rfl
  · exact (stays_dstW h).trans (stays_succeed _ _ _ _)

theorem stays_startVarint (lim : Nat) (u : VarintUser) (s : State) : Stays lim s (startVarint u s) :=
  Stays.of_eq rfl rfl rfl rfl

theorem stays_varintLoopExit (lim : Nat) (s : State) : Stays lim s (varintLoopExit s) := by
  unfold varintLoopExit varintIncomplete
  split
  · split <;> exact stays_failClean _ _ _
  · exact stays_failClean _ _ _

theorem stays_varintContItem (lim : Nat) (g : BitVec 7) (s : State) : Stays lim s (varintContItem g s) :=
  Stays.of_eq rfl rfl rfl rfl

theorem stays_varintDone (lim : Nat) (v : Value) (k : Nat) (s : State) : Stays lim s (varintDone v k s) := by
  unfold varintDone
  split
  · exact stays_succeed _ _ _ _
  · unfold decodePrefix
    split
    · exact stays_failClean _ _ _
    · exact Stays.of_eq rfl rfl rfl rfl
  · exact Stays.refl _ _

theorem stays_varintLastItem (lim : Nat) (g : BitVec 7) (s : State) : Stays lim s (varintLastItem g s) := by
  unfold varintLastItem
  split
  · exact stays_failClean _ _ _
  · exact Stays.before (stays_varintDone _ _ _ _) rfl rfl rfl rfl

/-! ## Decoder -/

theorem stays_replayLiteral {lim : Nat} : ∀ {len sp dp : Nat} {s : State}, dp + len ≤ lim →
    Stays lim s (replayLiteral len sp dp s)
  | 0, _, _, s, _ => Stays.refl _ _
  | len + 1, sp, dp, s, h =>
    Stays.trans (stays_dstW (by omega)) (stays_replayLiteral (by omega))

theorem copyByte_d (s : State) : (copyByte s).dec.d = s.dec.d + 1 := rfl

theorem stays_copyByte {lim : Nat} {s : State} (h : s.dec.d < lim) : Stays lim s (copyByte s) :=
  (stays_dstW h).congr rfl rfl rfl rfl

theorem stays_copyReplay {lim : Nat} : ∀ {len : Nat} {s : State}, s.dec.d + len ≤ lim → Stays lim s (copyReplay len s)
  | 0, s, _ => Stays.refl _ _
  | len + 1, s, h =>
    Stays.trans (stays_copyByte (by omega)) (stays_copyReplay (by rw [copyByte_d]; omega))

theorem stays_copyElement {s : State} {lim : Nat} (h : s.dec.dLen ≤ lim) : Stays lim s (copyElement s) := by
  unfold copyElement
  split
  · exact stays_failElement _ _ h
  · split
    · exact stays_failElement _ _ h
    · exact stays_copyReplay (by omega)

theorem stays_literalChecked {s : State} {lim : Nat} (h : s.dec.dLen ≤ lim) (hlen : 0 < s.dec.len) :
    Stays lim s (literalChecked s) := by
  unfold literalChecked
  split
  · exact stays_failElement _ _ h
  · split
    · exact stays_failElement _ _ h
    · split
      · exact stays_failElement _ _ h
      · exact (stays_replayLiteral (by omega)).congr rfl rfl rfl rfl

theorem stays_literalElement {s : State} {lim : Nat} (h : s.dec.dLen ≤ lim) : Stays lim s (literalElement s) :=
  Stays.before (stays_literalChecked h (Nat.succ_pos _)) rfl rfl rfl rfl

theorem stays_literalForm {s : State} {lim header : Nat} {x : BitVec 32} (h : s.dec.dLen ≤ lim) :
    Stays lim s (literalForm header x s) := by
  unfold literalForm
  split
  · exact stays_failElement _ _ h
  · exact Stays.before (stays_literalElement h) rfl rfl rfl rfl

theorem stays_runItem {s : State} {lim : Nat} (i : Instr) (h : i.space = .element → s.dec.dLen ≤ lim) :
    Stays lim s (runItem i s) := by
  cases i with
  | varintCont g => exact stays_varintContItem _ _ _
  | varintLast g => exact stays_varintLastItem _ _ _
  | lit0 n => exact Stays.before (stays_literalElement (h rfl)) rfl rfl rfl rfl
  | lit1 n => exact stays_literalForm (h rfl)
  | lit2 n => exact stays_literalForm (h rfl)
  | lit3 n => exact stays_literalForm (h rfl)
  | lit4 n => exact stays_literalForm (h rfl)
  | copy1 l o =>
    simp only [runItem, copy1Item]
    split
    · exact stays_failElement _ _ (h rfl)
    · exact Stays.before (stays_copyElement (h rfl)) rfl rfl rfl rfl
  | copy2 l o =>
    simp only [runItem, copy2Item]
    split
    · exact stays_failElement _ _ (h rfl)
    · exact Stays.before (stays_copyElement (h rfl)) rfl rfl rfl rfl
  | copy4 u => exact stays_failElement _ _ (h rfl)
  | maxEncodedLen => exact Stays.refl _ _
  | putUvarint => exact Stays.refl _ _
  | uvarint => exact Stays.refl _ _
  | encode => exact Stays.refl _ _
  | decode => exact Stays.refl _ _

theorem stays_fetchElement (lim : Nat) (s : State) : Stays lim s (fetchElement s) := Stays.of_eq rfl rfl rfl rfl

theorem stays_decodeFinal {lim : Nat} {s : State} (h : s.dec.dLen ≤ lim) : Stays lim s (decodeFinal s) := by
  unfold decodeFinal
  split
  · exact stays_fail _ _ _ _ h
  · exact stays_succeed _ _ _ _

/-! ## Encoder -/

/-- Chaining two steps whose bound is the destination view's length. -/
theorem Stays.andThen {s t u : State} (h : Stays s.ops.dstLen s t) (h' : Stays t.ops.dstLen t u) :
    Stays s.ops.dstLen s u := h.trans (by rw [← h.ops]; exact h')

theorem stays_unlessEnded {s : State} {f : State → State} (h : ∀ u : State, Stays u.ops.dstLen u (f u)) :
    Stays s.ops.dstLen s (unlessEnded f s) := by
  unfold unlessEnded
  split
  · exact Stays.refl _ _
  · exact h s

theorem stays_modEnc (lim : Nat) (f : EncRegs → EncRegs) (s : State) : Stays lim s (s.modEnc f) :=
  Stays.of_eq rfl rfl rfl rfl

theorem stays_emitByte (s : State) (b : Byte) : Stays s.ops.dstLen s (emitByte s b) := by
  unfold emitByte
  split
  · exact Stays.refl _ _
  · split
    · exact (stays_dstW ‹_›).congr rfl rfl rfl rfl
    · exact stays_failEncode _ _

theorem stays_emitBytes : ∀ (bs : List Byte) (s : State), Stays s.ops.dstLen s (emitBytes s bs)
  | [], _ => Stays.refl _ _
  | b :: bs, s => (stays_emitByte s b).andThen (stays_emitBytes bs _)

theorem stays_emitSource : ∀ (len a : Nat) (s : State), Stays s.ops.dstLen s (emitSource len a s)
  | 0, _, _ => Stays.refl _ _
  | len + 1, a, s => (stays_emitByte s (src s a)).andThen (stays_emitSource len (a + 1) _)

theorem stays_emitLiteral (a b : Nat) (s : State) : Stays s.ops.dstLen s (emitLiteral a b s) := by
  unfold emitLiteral
  split
  · exact stays_failEncode _ _
  · exact (stays_emitBytes _ _).andThen (stays_emitSource _ _ _)

theorem stays_emitCopyLoop : ∀ (turns : Nat) (s : State), Stays s.ops.dstLen s (emitCopyLoop turns s)
  | 0, s => Stays.refl _ _
  | turns + 1, s => by
    unfold emitCopyLoop
    split
    · exact Stays.refl _ _
    · exact ((stays_emitBytes _ s).andThen (stays_unlessEnded fun u => stays_modEnc _ _ u)).andThen
        (stays_emitCopyLoop turns _)

theorem stays_emitPrefix (s : State) : Stays s.ops.dstLen s (emitPrefix s) :=
  ((stays_modEnc _ _ s).andThen (stays_emitBytes _ _)).andThen
    (stays_unlessEnded fun _ => Stays.of_eq rfl rfl rfl rfl)

/-- The extension loop changes the encoder's registers only. -/
theorem extendLoop_eq : ∀ (turns : Nat) (s : State), extendLoop turns s = s.modEnc fun _ => (extendLoop turns s).enc
  | 0, _ => rfl
  | turns + 1, s => by
    unfold extendLoop
    split
    · exact (extendLoop_eq turns _).trans rfl
    · rfl

/-- EXTEND changes the encoder's registers only. -/
theorem extendOp_eq (s : State) : extendOp s = s.modEnc fun _ => (extendOp s).enc := by
  unfold extendOp
  rw [extendLoop_eq]
  rfl

theorem stays_extendOp (lim : Nat) (s : State) : Stays lim s (extendOp s) := by
  rw [extendOp_eq]; exact stays_modEnc _ _ _

theorem stays_flushLiteral (upTo : Nat) (s : State) : Stays s.ops.dstLen s (flushLiteral upTo s) := by
  unfold flushLiteral
  split
  · exact Stays.refl _ _
  · exact stays_emitLiteral _ _ _

theorem stays_takeMatch (s : State) : Stays s.ops.dstLen s (takeMatch s) :=
  (stays_flushLiteral _ s).andThen (stays_unlessEnded fun u =>
    ((stays_extendOp _ u).andThen (stays_emitCopyLoop _ _)).andThen (stays_unlessEnded fun v => stays_modEnc _ _ v))

theorem candidateOp_eq (s : State) : candidateOp s = s.modEnc fun _ => (candidateOp s).enc := by
  unfold candidateOp; split <;> rfl

theorem stays_scanOutcome (s : State) : Stays s.ops.dstLen s (scanOutcome s) := by
  unfold scanOutcome
  split
  · exact stays_takeMatch _
  · exact stays_modEnc _ _ _

theorem stays_scanPosition (s : State) : Stays s.ops.dstLen s (scanPosition s) := by
  unfold scanPosition
  refine Stays.andThen ?_ (stays_scanOutcome _)
  rw [candidateOp_eq]
  exact Stays.of_eq rfl rfl rfl rfl

theorem stays_encodeFinish (s : State) : Stays s.ops.dstLen s (encodeFinish s) :=
  stays_unlessEnded fun u => stays_succeed _ _ _ u

theorem stays_scanStep (s : State) : Stays s.ops.dstLen s (scanStep s) := by
  unfold scanStep
  split
  · exact stays_scanPosition _
  · exact (stays_flushLiteral _ _).andThen (stays_encodeFinish _)

theorem stays_encodeBody (s : State) : Stays s.ops.dstLen s (encodeBody s) := by
  unfold encodeBody
  split
  · refine Stays.andThen ?_ (stays_encodeFinish _)
    split
    · exact Stays.refl _ _
    · exact stays_emitLiteral _ _ _
  · exact Stays.of_eq rfl rfl rfl rfl

theorem stays_startEncode (lim : Nat) (s : State) : Stays lim s (startEncode s) := Stays.of_eq rfl rfl rfl rfl

theorem stays_encodeOpen (s : State) : Stays s.ops.dstLen s (encodeOpen s) :=
  (stays_emitPrefix s).andThen (stays_unlessEnded fun u => stays_encodeBody u)

end Sys2Proof.Machine
end

