-- ==== Sys2Proof/Laws/Emit.lean ====
section
/-! SUPPORT. What the writing operations of ENCODE do: a run of bytes goes to the destination view at the cursor, or, when it does
not fit, the command has failed with ENC_DST_OVERRUN (R189). -/

namespace Sys2Proof.Machine

/-- `s` with `bs` written to the destination view at the cursor, and the cursor after them. -/
def emitted (s : State) (bs : List Byte) : State :=
  { s with
    enc := { s.enc with d := s.enc.d + bs.length }
    mem := writeBytes s.mem (s.ops.dstBase + s.enc.d) bs }

@[simp] theorem emitted_cfg (s : State) (bs : List Byte) : (emitted s bs).cfg = s.cfg := rfl
@[simp] theorem emitted_ops (s : State) (bs : List Byte) : (emitted s bs).ops = s.ops := rfl
@[simp] theorem emitted_resp (s : State) (bs : List Byte) : (emitted s bs).resp = s.resp := rfl
@[simp] theorem emitted_enc (s : State) (bs : List Byte) :
    (emitted s bs).enc = { s.enc with d := s.enc.d + bs.length } := rfl
@[simp] theorem emitted_dec (s : State) (bs : List Byte) : (emitted s bs).dec = s.dec := rfl
@[simp] theorem emitted_vu (s : State) (bs : List Byte) : (emitted s bs).vu = s.vu := rfl
@[simp] theorem emitted_table (s : State) (bs : List Byte) : (emitted s bs).table = s.table := rfl
@[simp] theorem emitted_mem (s : State) (bs : List Byte) :
    (emitted s bs).mem = writeBytes s.mem (s.ops.dstBase + s.enc.d) bs := rfl
@[simp] theorem emitted_activity (s : State) (bs : List Byte) : (emitted s bs).activity = s.activity := rfl
@[simp] theorem emitted_host (s : State) (bs : List Byte) : (emitted s bs).host = s.host := rfl
@[simp] theorem emitted_free (s : State) (bs : List Byte) : (emitted s bs).free = s.free := rfl

theorem emitted_nil (s : State) : emitted s [] = s := rfl

theorem emitted_append (s : State) (bs cs : List Byte) : emitted (emitted s bs) cs = emitted s (bs ++ cs) := by
  have hd : s.enc.d + bs.length + cs.length = s.enc.d + (bs ++ cs).length := by simp; omega
  have ha : s.ops.dstBase + (s.enc.d + bs.length) = s.ops.dstBase + s.enc.d + bs.length := by omega
  simp only [emitted, hd, ha, writeBytes_append]

theorem src_emitted {s : State} {bs : List Byte} (h : viewsOverlap s = false) (hfit : s.enc.d + bs.length ≤ s.ops.dstLen)
    {a : Nat} (ha : a < s.ops.srcLen) : src (emitted s bs) a = src s a := by
  refine readByte_writeBytes_outside ?_
  simp only [viewsOverlap, Bool.and_eq_false_iff, decide_eq_false_iff_not] at h
  simp only [emitted_ops]
  by_cases hb : bs.length = 0
  · omega
  · omega

theorem emitByte_fits {s : State} {b : Byte} (hr : s.activity ≠ .idle) (h : s.enc.d < s.ops.dstLen) :
    emitByte s b = emitted s [b] := by
  have : ended s = false := by simp [ended, hr]
  simp only [emitByte, this, Bool.false_eq_true, if_false, if_pos h]
  rfl

theorem emitBytes_fits : ∀ {bs : List Byte} {s : State}, s.activity ≠ .idle → s.enc.d + bs.length ≤ s.ops.dstLen →
    emitBytes s bs = emitted s bs
  | [], _, _, _ => rfl
  | b :: bs, s, hr, h => by
    simp only [List.length_cons] at h
    show emitBytes (emitByte s b) bs = _
    rw [emitByte_fits hr (by omega), emitBytes_fits (by exact hr) (by simp; omega), emitted_append]
    rfl

theorem emitBytes_ended : ∀ {bs : List Byte} {s : State}, s.activity = .idle → emitBytes s bs = s
  | [], _, _ => rfl
  | b :: bs, s, h => by
    have he : emitByte s b = s := by simp [emitByte, ended, h]
    show emitBytes (emitByte s b) bs = s
    rw [he, emitBytes_ended h]

/-- A run of bytes that does not fit ends the command with ENC_DST_OVERRUN, after as many bytes as there was room for. -/
theorem emitBytes_over : ∀ {bs : List Byte} {s : State}, s.activity ≠ .idle → s.enc.d ≤ s.ops.dstLen →
    s.ops.dstLen < s.enc.d + bs.length →
    emitBytes s bs = failEncode .encDstOverrun (emitted s (bs.take (s.ops.dstLen - s.enc.d)))
  | [], s, _, h0, h => by simp at h; omega
  | b :: bs, s, hr, h0, h => by
    simp only [List.length_cons] at h
    have he : ended s = false := by simp [ended, hr]
    show emitBytes (emitByte s b) bs = _
    by_cases hd : s.enc.d < s.ops.dstLen
    · rw [emitByte_fits hr hd, emitBytes_over (by exact hr) (by simp; omega) (by simp; omega), emitted_append]
      have : s.ops.dstLen - s.enc.d = (s.ops.dstLen - (s.enc.d + 1)) + 1 := by omega
      simp [this]
    · have hz : s.ops.dstLen - s.enc.d = 0 := by omega
      have hf : emitByte s b = failEncode .encDstOverrun s := by simp [emitByte, he, hd]
      rw [hf, emitBytes_ended rfl, hz]
      rfl

theorem emitBytes_append (s : State) (bs cs : List Byte) : emitBytes s (bs ++ cs) = emitBytes (emitBytes s bs) cs :=
  List.foldl_append

theorem ended_emitBytes {s : State} {bs : List Byte} (h : s.activity = .idle) : (emitBytes s bs).activity = .idle := by
  rw [emitBytes_ended h, h]

/-! ## Literals -/

theorem emitSource_ended : ∀ {len a : Nat} {s : State}, s.activity = .idle → emitSource len a s = s
  | 0, _, _, _ => rfl
  | len + 1, a, s, h => by
    have he : emitByte s (src s a) = s := by simp [emitByte, ended, h]
    show emitSource len (a + 1) (emitByte s (src s a)) = s
    rw [he, emitSource_ended h]

/-- With disjoint views the raw bytes of a literal are the source bytes from before the command. -/
theorem emitSource_eq : ∀ {len a : Nat} {s : State}, viewsOverlap s = false → a + len ≤ s.ops.srcLen →
    emitSource len a s = emitBytes s (readBytes s.mem (s.ops.srcBase + a) len)
  | 0, _, _, _, _ => rfl
  | len + 1, a, s, hv, ha => by
    show emitSource len (a + 1) (emitByte s (src s a)) = emitBytes (emitByte s (src s a)) _
    by_cases hr : s.activity = .idle
    · have he : emitByte s (src s a) = s := by simp [emitByte, ended, hr]
      rw [he, emitBytes_ended hr, emitSource_ended hr]
    · by_cases hfit : s.enc.d < s.ops.dstLen
      · rw [emitByte_fits hr hfit]
        rw [emitSource_eq (s := emitted s [src s a]) hv (by rw [emitted_ops]; omega)]
        congr 1
        apply List.ext_getElem
        · simp only [readBytes_length]
        · intro j h1 h2
          simp only [readBytes_length] at h1
          rw [readBytes_getElem, readBytes_getElem]
          have := src_emitted (bs := [src s a]) hv (by simp; omega) (a := a + 1 + j) (by omega)
          simp only [src, emitted_ops] at this
          rw [show s.ops.srcBase + a + 1 + j = s.ops.srcBase + (a + 1 + j) by omega, ← this]
          congr 1
          simp only [emitted_ops]; omega
      · have he : ended s = false := by simp [ended, hr]
        have hf : emitByte s (src s a) = failEncode .encDstOverrun s := by simp [emitByte, he, hfit]
        rw [hf, emitSource_ended rfl, emitBytes_ended rfl]

/-- The bytes of a literal element over source bytes `a` to `b - 1` (R186). -/
def literalElementBytes (s : State) (a b : Nat) : List Byte :=
  literalHeader ((b - a) - 1) ++ readBytes s.mem (s.ops.srcBase + a) (b - a)

theorem literalHeader_length_le (m : Nat) : (literalHeader m).length ≤ 5 := by
  unfold literalHeader
  split
  · simp
  · split
    · simp
    · split
      · simp
      · split <;> simp

theorem literalHeader_length_pos (m : Nat) : 1 ≤ (literalHeader m).length := by
  unfold literalHeader
  split
  · simp
  · split
    · simp
    · split
      · simp
      · split <;> simp

/-- EMIT_LITERAL writes the element's bytes as one run (R186). -/
theorem emitLiteral_eq {a b : Nat} {s : State} (hv : viewsOverlap s = false) (hab : a ≤ b) (hb : b ≤ s.ops.srcLen)
    (hd : s.enc.d ≤ s.ops.dstLen) (hlen : (b - a) - 1 < 2 ^ 32) :
    emitLiteral a b s = emitBytes s (literalElementBytes s a b) := by
  unfold emitLiteral literalElementBytes
  rw [if_neg (by omega), emitBytes_append]
  by_cases hr : s.activity = .idle
  · rw [emitBytes_ended hr, emitSource_ended hr, emitBytes_ended hr]
  · by_cases hfit : s.enc.d + (literalHeader (b - a - 1)).length ≤ s.ops.dstLen
    · rw [emitBytes_fits hr hfit, emitSource_eq (by exact hv) (by rw [emitted_ops]; omega)]
      congr 1
      apply List.ext_getElem
      · simp only [readBytes_length]
      · intro j h1 h2
        simp only [readBytes_length] at h1
        rw [readBytes_getElem, readBytes_getElem]
        have := src_emitted (bs := literalHeader (b - a - 1)) hv hfit (a := a + j) (by omega)
        simp only [src, emitted_ops] at this
        rw [show s.ops.srcBase + a + j = s.ops.srcBase + (a + j) by omega, ← this]
        congr 1
        simp only [emitted_ops]; omega
    · rw [emitBytes_over hr hd (by omega), emitSource_ended rfl, emitBytes_ended rfl]

theorem emitLiteral_tooLong {a b : Nat} {s : State} (h : 2 ^ 32 ≤ (b - a) - 1) :
    emitLiteral a b s = failEncode .sourceTooLong s := if_pos h

/-! ## Copies -/

/-- The bytes of a whole chain (R187), with its number of elements bounded by `turns`. -/
def copyChain (off : Nat) : Nat → Nat → List Byte
  | 0, _ => []
  | turns + 1, len => if len = 0 then [] else chainBytes off len ++ copyChain off turns (len - chainLen off len)

theorem chainLen_le (off len : Nat) : chainLen off len ≤ len := by
  unfold chainLen; split
  · exact Nat.le_refl _
  · exact Nat.min_le_left _ _

theorem chainLen_pos {off len : Nat} (h : 0 < len) : 0 < chainLen off len := by
  unfold chainLen; split
  · exact h
  · simp only [Config.copy2MaxLen]; omega

theorem chainBytes_length (off len : Nat) : (chainBytes off len).length = 2 ∨ (chainBytes off len).length = 3 := by
  unfold chainBytes; split
  · exact .inl rfl
  · exact .inr rfl

theorem clearMlen_of_zero {s : State} (h : s.enc.mlen = 0) : (s.modEnc fun r => { r with mlen := 0 }) = s := by
  obtain ⟨cfg, ops, resp, enc, dec, vu, table, mem, activity, host, free⟩ := s
  obtain ⟨n, s, t, lit, s0, d, tableSize, shift, w, h', e, moff, mlen⟩ := enc
  cases h
  rfl

/-- EMIT_COPY writes its whole chain as one run and leaves `mlen` 0 (R187), when there is room. -/
theorem emitCopyLoop_fits : ∀ {turns : Nat} {s : State}, s.activity ≠ .idle → s.enc.mlen ≤ turns →
    s.enc.d + (copyChain s.enc.moff turns s.enc.mlen).length ≤ s.ops.dstLen →
    emitCopyLoop turns s = (emitted s (copyChain s.enc.moff turns s.enc.mlen)).modEnc fun r => { r with mlen := 0 }
  | 0, s, _, h0, _ => by
    have hz : s.enc.mlen = 0 := by omega
    exact (clearMlen_of_zero hz).symm
  | turns + 1, s, hr, h0, hfit => by
    have he : ended s = false := by simp [ended, hr]
    unfold emitCopyLoop
    by_cases hz : s.enc.mlen = 0
    · simp only [hz, decide_true, Bool.or_true, if_true, copyChain, emitted_nil]
      exact (clearMlen_of_zero hz).symm
    · simp only [he, hz, decide_false, Bool.or_false, Bool.false_eq_true, if_false]
      simp only [copyChain, hz, if_false, List.length_append] at hfit ⊢
      rw [emitBytes_fits hr (by omega)]
      have hpos := chainLen_pos (off := s.enc.moff) (len := s.enc.mlen) (by omega)
      have hu : ended (emitted s (chainBytes s.enc.moff s.enc.mlen)) = false := by simp [ended, hr]
      simp only [unlessEnded, hu, Bool.false_eq_true, if_false]
      rw [emitCopyLoop_fits (by exact hr) (by simp; omega) (by simp; omega)]
      rw [← emitted_append]
      rfl

theorem emitCopyLoop_ended {turns : Nat} {s : State} (h : s.activity = .idle) : emitCopyLoop turns s = s := by
  cases turns with
  | zero => rfl
  | succ n => simp [emitCopyLoop, ended, h]

end Sys2Proof.Machine
end

