-- ==== Sys2Proof/Laws/Encoding.lean ====
section
/-! SUPPORT. Bit fields read as numbers, for the encodings of 30_encoding.md, and the bytes the encoder writes as encodings. -/

namespace Sys2Proof

/-- A concatenation of fields as a number: the left field is the high one. -/
theorem toNat_fields {m n : Nat} (x : BitVec m) (y : BitVec n) : (x ++ y).toNat = x.toNat * 2 ^ n + y.toNat := by
  rw [BitVec.toNat_append, ← Nat.shiftLeft_add_eq_or_of_lt y.isLt, Nat.shiftLeft_eq]

/-- A bit field as a number. -/
theorem toNat_field {n : Nat} (x : BitVec n) (lo len : Nat) : (x.extractLsb' lo len).toNat = x.toNat / 2 ^ lo % 2 ^ len := by
  rw [BitVec.extractLsb'_toNat, Nat.shiftRight_eq_div_pow]

namespace Machine

theorem byte_eq {a b : Byte} (h : a.toNat = b.toNat) : a = b := BitVec.eq_of_toNat_eq h

/-- The header EMIT_LITERAL writes is the encoding of the shortest literal (R186, R98). -/
theorem literalHeader_eq {m : Nat} (h : m < 2 ^ 32) : literalHeader m = encode (shortestLiteral m) := by
  unfold literalHeader shortestLiteral
  split
  · simp only [encode, List.cons.injEq, and_true]
    apply byte_eq
    rw [toNat_fields]
    simp only [BitVec.toNat_ofNat, Nat.shiftLeft_eq]
    omega
  · split
    · rfl
    · split
      · simp only [encode, List.cons.injEq, and_true, true_and]
        constructor <;> apply byte_eq <;> rw [toNat_field] <;>
          simp only [BitVec.toNat_ofNat, Nat.shiftRight_eq_div_pow] <;> omega
      · split
        · simp only [encode, List.cons.injEq, and_true, true_and]
          refine ⟨?_, ?_, ?_⟩ <;> apply byte_eq <;> rw [toNat_field] <;>
            simp only [BitVec.toNat_ofNat, Nat.shiftRight_eq_div_pow] <;> omega
        · simp only [encode, List.cons.injEq, and_true, true_and]
          refine ⟨?_, ?_, ?_, ?_⟩ <;> apply byte_eq <;> rw [toNat_field] <;>
            simp only [BitVec.toNat_ofNat, Nat.shiftRight_eq_div_pow] <;> omega

/-- A COPY1 as EMIT_COPY writes it is its encoding (R88, R187). -/
theorem copy1Bytes_eq {off len : Nat} (ho : off ≤ Config.copy1MaxOffset) (h4 : Config.copy1MinLen ≤ len)
    (h11 : len ≤ Config.copy1MaxLen) : copy1Bytes off len = encode (copy1Of off len) := by
  simp only [Config.copy1MaxOffset, Config.copy1MinLen, Config.copy1MaxLen] at ho h4 h11
  have h1 : ((off >>> 8) &&& 7) = off / 256 := by
    rw [Nat.shiftRight_eq_div_pow]
    have := Nat.and_two_pow_sub_one_eq_mod (off / 2 ^ 8) 3
    simp only [show (2 : Nat) ^ 3 - 1 = 7 by decide] at this
    rw [this]; omega
  have h2 : ((off / 256) <<< 5 ||| (len - 4) <<< 2) ||| 1 = off / 256 * 32 + (len - 4) * 4 + 1 := by
    have ha : (len - 4) <<< 2 < 2 ^ 5 := by rw [Nat.shiftLeft_eq]; omega
    rw [← Nat.shiftLeft_add_eq_or_of_lt ha]
    have hb : (off / 256) <<< 5 + (len - 4) <<< 2 = (off / 256 * 8 + (len - 4)) <<< 2 := by
      simp only [Nat.shiftLeft_eq]; omega
    rw [hb, ← Nat.shiftLeft_add_eq_or_of_lt (by omega : (1 : Nat) < 2 ^ 2), Nat.shiftLeft_eq]
    omega
  have h3 : off &&& 0xff = off % 256 := Nat.and_two_pow_sub_one_eq_mod off 8
  simp only [copy1Bytes, encode, copy1Of, h1, h2, h3, Config.copy1MinLen, List.cons.injEq, and_true]
  constructor
  · apply byte_eq
    simp only [toNat_fields, toNat_field, BitVec.toNat_ofNat]
    omega
  · apply byte_eq
    simp only [toNat_field, BitVec.toNat_ofNat]
    omega

/-- A COPY2 as EMIT_COPY writes it is its encoding (R89, R187). -/
theorem copy2Bytes_eq {off len : Nat} (ho : off < 2 ^ 16) :
    copy2Bytes off len = encode (copy2Of off len) := by
  have h2 : ((len - 1) <<< 2) ||| 2 = (len - 1) * 4 + 2 := by
    rw [← Nat.shiftLeft_add_eq_or_of_lt (by omega : (2 : Nat) < 2 ^ 2), Nat.shiftLeft_eq]
  have h3 : off &&& 0xff = off % 256 := Nat.and_two_pow_sub_one_eq_mod off 8
  simp only [copy2Bytes, encode, copy2Of, h2, h3, List.cons.injEq, and_true]
  refine ⟨?_, ?_, ?_⟩ <;> apply byte_eq <;>
    simp only [toNat_fields, toNat_field, BitVec.toNat_ofNat, Nat.shiftRight_eq_div_pow] <;> omega

/-- The last element of a chain. -/
def lastCopy (off r : Nat) : Instr :=
  if Config.copy1MinLen ≤ r ∧ r ≤ Config.copy1MaxLen ∧ off ≤ Config.copy1MaxOffset then copy1Of off r else copy2Of off r

theorem copyElements_eq (off len : Nat) : copyElements off len =
    List.replicate ((len - 1) / 64) (copy2Of off 64) ++ [lastCopy off (len - 64 * ((len - 1) / 64))] := rfl

theorem chainBytes_last {off len : Nat} (ho : off < 2 ^ 16) (h64 : len ≤ 64) :
    chainBytes off len = encode (lastCopy off len) ∧ chainLen off len = len := by
  have hmin : min len 64 = len := Nat.min_eq_left h64
  unfold chainBytes chainLen lastCopy
  by_cases h : Config.copy1MinLen ≤ len ∧ len ≤ Config.copy1MaxLen ∧ off ≤ Config.copy1MaxOffset
  · have hf : fitsCopy1 off len = true := by simp only [fitsCopy1, h.1, h.2.1, h.2.2, decide_true, Bool.and_true]
    rw [if_pos hf, if_pos h, if_pos hf]
    exact ⟨copy1Bytes_eq h.2.2 h.1 h.2.1, rfl⟩
  · have hf : ¬ fitsCopy1 off len = true := by
      simp only [fitsCopy1, Bool.and_eq_true, decide_eq_true_eq]
      exact fun hh => h ⟨hh.1.1, hh.1.2, hh.2⟩
    rw [if_neg hf, if_neg h, if_neg hf]
    simp only [Config.copy2MaxLen, hmin]
    exact ⟨copy2Bytes_eq ho, trivial⟩

theorem chainBytes_long {off len : Nat} (ho : off < 2 ^ 16) (h64 : 64 < len) :
    chainBytes off len = encode (copy2Of off 64) ∧ chainLen off len = 64 := by
  have hmin : min len 64 = 64 := Nat.min_eq_right (by omega)
  have hf : ¬ fitsCopy1 off len = true := by
    simp only [fitsCopy1, Bool.and_eq_true, Config.copy1MaxLen]
    exact fun hh => absurd (of_decide_eq_true hh.1.2) (by omega)
  unfold chainBytes chainLen
  rw [if_neg hf, if_neg hf]
  simp only [Config.copy2MaxLen, hmin]
  exact ⟨copy2Bytes_eq ho, trivial⟩

/-- The chain EMIT_COPY writes, in the closed form of the table of R187. -/
theorem copyChain_eq {off : Nat} (ho : off < 2 ^ 16) : ∀ {turns len : Nat}, 1 ≤ len → len ≤ turns →
    copyChain off turns len = encodeAll (copyElements off len)
  | 0, len, h1, h2 => by omega
  | turns + 1, len, h1, h2 => by
    simp only [copyChain]
    rw [if_neg (by omega)]
    by_cases h64 : 64 < len
    · obtain ⟨hb, hl⟩ := chainBytes_long ho h64
      rw [hb, hl, copyChain_eq ho (by omega) (by omega), copyElements_eq, copyElements_eq]
      have hq : (len - 1) / 64 = (len - 64 - 1) / 64 + 1 := by omega
      have hr : len - 64 * ((len - 64 - 1) / 64 + 1) = len - 64 - 64 * ((len - 64 - 1) / 64) := by omega
      rw [hq, hr, List.replicate_succ, encodeAll, encodeAll, List.cons_append, List.flatMap_cons]
    · obtain ⟨hb, hl⟩ := chainBytes_last ho (by omega : len ≤ 64)
      have hq : (len - 1) / 64 = 0 := by omega
      rw [hb, hl, copyElements_eq, hq]
      have hz : copyChain off turns (len - len) = [] := by
        cases turns <;> simp [copyChain]
      rw [hz]
      simp [encodeAll]

end Machine

end Sys2Proof
end

