-- ==== Sys2Proof/Laws/Sequencer.lean ====
section
/-! SUPPORT. The sequencer: what it fetches, one micro-step against one step and against exec, and running a command to its
end. -/

namespace Sys2Proof.Machine

theorem ended_iff {s : State} : ended s = true ↔ s.activity = .idle := by simp [ended]

theorem ended_eq_false {s : State} : ended s = false ↔ s.activity ≠ .idle := by simp [ended]

theorem unlessEnded_of_ended {f : State → State} {s : State} (h : ended s = true) : unlessEnded f s = s := by
  simp [unlessEnded, h]

theorem unlessEnded_of_running {f : State → State} {s : State} (h : ended s = false) : unlessEnded f s = f s := by
  simp [unlessEnded, h]

/-! ## What is fetched -/

theorem decodeVarintByte_space (b : Byte) : (decodeVarintByte b).space = .varint := by
  unfold decodeVarintByte; split <;> rfl

/-- With a full header's worth of bytes an element always decodes (R93: every tag byte value is in one row). -/
theorem decodeElement_total (tag b1 b2 b3 b4 : Byte) :
    ∃ i rest, decodeElement [tag, b1, b2, b3, b4] = .ok i rest ∧ i.space = .element := by
  unfold decodeElement
  simp only []
  split
  · unfold decodeLiteral
    split
    · exact ⟨_, _, rfl, rfl⟩
    · split
      · exact ⟨_, _, rfl, rfl⟩
      · split
        · exact ⟨_, _, rfl, rfl⟩
        · split
          · exact ⟨_, _, rfl, rfl⟩
          · exact ⟨_, _, rfl, rfl⟩
  · split
    · exact ⟨_, _, rfl, rfl⟩
    · split
      · exact ⟨_, _, rfl, rfl⟩
      · exact ⟨_, _, rfl, rfl⟩

theorem decode_elementHeader (s : State) :
    ∃ i rest, decode .element (elementHeader s) = .ok i rest ∧ i.space = .element :=
  decodeElement_total _ _ _ _ _

/-- The three kinds of micro-step (R124, R214, R184): a varint byte, an element, or the sequencer's own. -/
theorem microStep_cases (s : State) :
    (∃ u, s.activity = .varint u ∧ s.vu.i < s.ops.srcLen ∧ s.vu.i < 10 ∧
      fetchItem s = some (decodeVarintByte (src s s.vu.i), s) ∧ microStep s = runItem (decodeVarintByte (src s s.vu.i)) s) ∨
    (∃ i rest, s.activity = .elements ∧ s.dec.s < s.dec.L ∧ decode .element (elementHeader s) = .ok i rest ∧
      i.space = .element ∧ fetchItem s = some (i, fetchElement s) ∧ microStep s = runItem i (fetchElement s)) ∨
    (fetchItem s = none ∧ microStep s = sequencerStep s ∧
      (s.activity = .idle ∨ (∃ u, s.activity = .varint u ∧ (s.ops.srcLen ≤ s.vu.i ∨ 10 ≤ s.vu.i)) ∨
        (s.activity = .elements ∧ s.dec.L ≤ s.dec.s) ∨ s.activity = .scan ∨ s.activity = .issued ∨ s.activity = .putBytes ∨
        s.activity = .encodeStart)) := by
  cases ha : s.activity with
  | idle => exact .inr (.inr ⟨by simp [fetchItem, ha], by simp [microStep, fetchItem, ha], by simp⟩)
  | issued => exact .inr (.inr ⟨by simp [fetchItem, ha], by simp [microStep, fetchItem, ha], by simp⟩)
  | putBytes => exact .inr (.inr ⟨by simp [fetchItem, ha], by simp [microStep, fetchItem, ha], by simp⟩)
  | encodeStart => exact .inr (.inr ⟨by simp [fetchItem, ha], by simp [microStep, fetchItem, ha], by simp⟩)
  | scan => exact .inr (.inr ⟨by simp [fetchItem, ha], by simp [microStep, fetchItem, ha], by simp⟩)
  | varint u =>
    by_cases h : s.vu.i < s.ops.srcLen ∧ s.vu.i < 10
    · exact .inl ⟨u, rfl, h.1, h.2, by simp [fetchItem, ha, h], by simp [microStep, fetchItem, ha, h]⟩
    · refine .inr (.inr ⟨by simp only [fetchItem, ha, if_neg h], by simp only [microStep, fetchItem, ha, if_neg h], ?_⟩)
      exact .inr (.inl ⟨u, rfl, by omega⟩)
  | elements =>
    by_cases h : s.dec.s < s.dec.L
    · obtain ⟨i, rest, hd, hs⟩ := decode_elementHeader s
      exact .inr (.inl ⟨i, rest, rfl, h, hd, hs, by simp [fetchItem, ha, h, hd], by simp [microStep, fetchItem, ha, h, hd]⟩)
    · exact .inr (.inr ⟨by simp [fetchItem, ha, h], by simp [microStep, fetchItem, ha, h], .inr (.inr (.inl ⟨rfl, by omega⟩))⟩)

/-! ## A stream item's meaning against the sequencer's dispatch -/

theorem exec_varint {i : Instr} {s : State} (h : i.space = .varint) : exec i s = .next (runItem i s) := by
  cases i <;> first | rfl | cases h

theorem exec_element {i : Instr} {s : State} (h : i.space = .element) : exec i s = inBounds (runItem i) s := by
  cases i <;> first | rfl | cases h

theorem decoderBounds_fetchElement (s : State) : decoderBounds (fetchElement s) = decoderBounds s := rfl

/-- With no reset at hand a busy step lets the command go on. -/
theorem busyStep_eq_commandStep {s : State} (hr : s.host.head? ≠ some .reset) : busyStep s = commandStep (useWait s) := by
  unfold busyStep
  split
  · rename_i heq; rw [heq] at hr; simp at hr
  · rfl

/-- After its entry, with the bounds kept, a command goes on by one micro-step. -/
theorem commandStep_eq_microStep {s : State} (hi : s.activity ≠ .issued) (hb : busyBounds s = true) :
    commandStep s = .next (microStep s) := by
  unfold commandStep
  rw [if_neg hi, if_pos hb]
  rcases microStep_cases s with ⟨u, _, _, _, hf, hm⟩ | ⟨i, rest, hel, _, _, hs, hf, hm⟩ | ⟨hf, hm, _⟩
  · rw [hf, hm]; exact exec_varint (decodeVarintByte_space _)
  · have hb' : decoderBounds (fetchElement s) = true := by
      rw [decoderBounds_fetchElement]; simpa [busyBounds, hel] using hb
    rw [hf, hm]
    simp only [exec_element hs, inBounds, hb', if_true]
  · rw [hf, hm]

/-! ## Running to the end -/

/-- What a run to the end answers is reached by micro-steps and is idle. -/
theorem runToIdle_next : ∀ {n : Nat} {s t : State}, runToIdle n s = .next t →
    t.activity = .idle ∧ ∃ k, k ≤ n ∧ t = microStep^[k] s
  | 0, s, t, h => by
    unfold runToIdle at h
    split at h
    · cases h; exact ⟨ended_iff.1 ‹_›, 0, Nat.le_refl _, rfl⟩
    · cases h
  | n + 1, s, t, h => by
    unfold runToIdle at h
    split at h
    · cases h; exact ⟨ended_iff.1 ‹_›, 0, Nat.zero_le _, rfl⟩
    · obtain ⟨ht, k, hk, he⟩ := runToIdle_next h
      exact ⟨ht, k + 1, Nat.succ_le_succ hk, by rw [he, Function.iterate_succ_apply]⟩

/-- A run to the end keeps what every micro-step of a busy core keeps. -/
theorem runToIdle_induct {P : State → Prop} (hstep : ∀ s, P s → s.activity ≠ .idle → P (microStep s)) :
    ∀ {n : Nat} {s t : State}, P s → runToIdle n s = .next t → P t
  | 0, s, t, hp, h => by
    unfold runToIdle at h
    split at h
    · cases h; exact hp
    · cases h
  | n + 1, s, t, hp, h => by
    unfold runToIdle at h
    split at h
    · cases h; exact hp
    · rename_i he
      exact runToIdle_induct hstep (hstep s hp (fun ha => he (ended_iff.2 ha))) h

/-- A run ends when a measure that every micro-step of a busy core lowers starts at no more than the turns allowed. -/
theorem runToIdle_ends {P : State → Prop} {μ : State → Nat}
    (hstep : ∀ s, P s → s.activity ≠ .idle → P (microStep s) ∧ ((microStep s).activity = .idle ∨ μ (microStep s) < μ s)) :
    ∀ {n : Nat} {s : State}, P s → (s.activity = .idle ∨ μ s < n) → ∃ t, runToIdle n s = .next t
  | 0, s, _, h => by
    rcases h with h | h
    · exact ⟨s, by simp [runToIdle, ended_iff.2 h]⟩
    · omega
  | n + 1, s, hp, h => by
    unfold runToIdle
    split
    · exact ⟨s, rfl⟩
    · rename_i he
      have hne : s.activity ≠ .idle := fun ha => he (ended_iff.2 ha)
      obtain ⟨hp', hm⟩ := hstep s hp hne
      exact runToIdle_ends hstep hp' (by
        rcases h with h | h
        · exact absurd h hne
        · rcases hm with hm | hm
          · exact .inl hm
          · exact .inr (by omega))

/-- The result of a run does not depend on how many turns it is allowed beyond those it needs. -/
theorem runToIdle_mono : ∀ {n m : Nat} {s t : State}, runToIdle n s = .next t → n ≤ m → runToIdle m s = .next t
  | 0, m, s, t, h, _ => by
    unfold runToIdle at h
    split at h
    · cases h
      cases m <;> simp [runToIdle, *]
    · cases h
  | n + 1, m + 1, s, t, h, hm => by
    unfold runToIdle at h ⊢
    split at h
    · rw [if_pos ‹_›]; exact h
    · rw [if_neg ‹_›]; exact runToIdle_mono h (by omega)

theorem finish_next {n : Nat} {o : Host.Outcome State Fault Refusal} {t : State} (h : finish n o = .next t) :
    ∃ u, o = .next u ∧ runToIdle n u = .next t := by
  cases o with
  | next u => exact ⟨u, rfl, h⟩
  | fault f => cases h
  | refused r => cases h

end Sys2Proof.Machine
end

