-- ==== Sys2Proof/Laws/Invariant.lean ====
section
/-! SUPPORT. The invariant of Safety.lean through every operation: what leaves registers free or a command's end keeps it, and so
does every micro-step. -/

namespace Sys2Proof.Machine

/-! ## Free values fit their registers -/

theorem freeEnc_fit (c : Config) (k : Nat) : (freeEnc c k).Fit c where
  n := freeCursor_lt c k 0
  s := freeCursor_lt c k 1
  t := freeCursor_lt c k 2
  lit := freeCursor_lt c k 3
  s0 := freeCursor_lt c k 4
  d := freeCursor_lt c k 5
  tableSize := Nat.mod_lt _ (by omega)
  shift := Nat.mod_lt _ (by omega)
  h := Nat.mod_lt _ (by omega)
  e := freeCursor_lt c k 10
  moff := freeCursor_lt c k 11
  mlen := freeCursor_lt c k 12

theorem freeDec_fit (c : Config) (k : Nat) : (freeDec c k).Fit c where
  L := freeCursor_lt c k 13
  s := freeCursor_lt c k 14
  d := freeCursor_lt c k 15
  dLen := freeCursor_lt c k 16
  len := Nat.mod_lt _ (by omega)
  off := Nat.mod_lt _ (by omega)
  sEl := freeCursor_lt c k 22

theorem freeVar_fit (k : Nat) : (freeVar k).Fit where
  sh := Nat.mod_lt _ (by omega)
  i := Nat.mod_lt _ (by omega)

theorem freeOperands_fit (c : Config) (k : Nat) : (freeOperands c k).Fit c where
  srcBase := freeCursor_lt c k 28
  srcLen := freeCursor_lt c k 29
  dstBase := freeCursor_lt c k 30
  dstLen := freeCursor_lt c k 31

theorem writeOperand_fit {c : Config} {o : Operands} (h : o.Fit c) (r : Reg) (v : Value) : (writeOperand c r v o).Fit c := by
  have hm : v.toNat % c.space < c.space := Nat.mod_lt _ (space_pos c)
  cases r
  case srcBase => exact ⟨hm, h.srcLen, h.dstBase, h.dstLen⟩
  case srcLen => exact ⟨h.srcBase, hm, h.dstBase, h.dstLen⟩
  case dstBase => exact ⟨h.srcBase, h.srcLen, hm, h.dstLen⟩
  case dstLen => exact ⟨h.srcBase, h.srcLen, h.dstBase, hm⟩
  all_goals exact ⟨h.srcBase, h.srcLen, h.dstBase, h.dstLen⟩

/-! ## The end of a command -/

theorem inv_toIdle {s : State} (hc : s.cfg.valid = true) (ho : s.ops.Fit s.cfg) (hr : s.resp.Fit s.cfg)
    (hm : s.mem.wf = true) (hf : cellsWithin s.cfg.space (fun _ => true) s.mem = true) : Inv (toIdle s) where
  sane := {
    cfg := hc
    ops := ho
    resp := hr
    enc := freeEnc_fit _ _
    dec := freeDec_fit _ _
    vu := freeVar_fit _
    table := freeTable_wf _ _
    tableFits := freeTable_within _ _
    mem := hm
    memFits := hf }
  busy := trivial

theorem inv_succeed {s : State} (h : Sane s) {count : Nat} {v : Value} (hc : count < s.cfg.space) :
    Inv (succeed count v s) :=
  inv_toIdle h.cfg h.ops ⟨hc, space_pos _, space_pos _⟩ h.mem h.memFits

theorem inv_fail {s : State} (h : Sane s) {c : Cause} {eS eD limit : Nat} (hS : eS < s.cfg.space) (hD : eD < s.cfg.space)
    (hl : s.ops.dstBase + limit ≤ s.cfg.space) : Inv (fail c eS eD limit s) :=
  inv_toIdle h.cfg h.ops ⟨space_pos _, hS, hD⟩ (residue_wf h.mem) (residue_within h.memFits hl)

theorem inv_failClean {s : State} (h : Sane s) {c : Cause} : Inv (failClean c s) :=
  inv_fail h (space_pos _) (space_pos _) (Nat.le_of_lt h.ops.dstBase)

theorem inv_resetCore {s : State} (h : Sane s) (hl : s.ops.dstBase + writeLimit s ≤ s.cfg.space) : Inv (resetCore s) :=
  inv_toIdle h.cfg (freeOperands_fit _ _) ⟨space_pos _, space_pos _, space_pos _⟩ (residue_wf h.mem)
    (residue_within h.memFits hl)

/-- A state with the same data and the core idle. -/
theorem inv_of_idle {s : State} (h : Sane s) (ha : s.activity = .idle) : Inv s := ⟨h, by simp [BusyPointers, ha]⟩

/-- With the core still idle, an issued command keeps the invariant. -/
theorem inv_of_issued {s : State} (h : Sane s) (ha : s.activity = .issued) : Inv s := ⟨h, by simp [BusyPointers, ha]⟩

/-- The invariant does not look at the host's moves. -/
theorem inv_host {s t : State} (h : Inv s) (e : t = { s with host := t.host }) : Inv t := by
  rw [e]
  refine ⟨⟨h.sane.cfg, h.sane.ops, h.sane.resp, h.sane.enc, h.sane.dec, h.sane.vu, h.sane.table, h.sane.tableFits, h.sane.mem,
    h.sane.memFits⟩, ?_⟩
  have hb := h.busy
  rcases ha : s.activity with _ | _ | _ | ⟨_ | _⟩ | _ | _ | _ <;> simp only [BusyPointers, ha] at hb ⊢
  · exact ⟨hb.dstExists, hb.room, hb.left⟩
  · exact ⟨hb.srcExists, hb.inView, hb.atMostTen, hb.shift⟩
  · exact ⟨⟨hb.1.srcExists, hb.1.inView, hb.1.atMostTen, hb.1.shift⟩, ⟨hb.2.1.srcExists, hb.2.1.dstExists, hb.2.1.disjoint⟩, hb.2.2⟩
  · exact ⟨⟨hb.views.srcExists, hb.views.dstExists, hb.views.disjoint⟩, hb.streamLength, hb.source, hb.output, hb.declared⟩
  · exact ⟨⟨hb.views.srcExists, hb.views.dstExists, hb.views.disjoint⟩, hb.sourceLength, hb.room⟩
  · exact ⟨⟨hb.views.srcExists, hb.views.dstExists, hb.views.disjoint⟩, hb.sourceLength, hb.notShort, hb.room, hb.run, hb.scan,
      hb.written, hb.geometry, hb.entries⟩

theorem inv_useWait {s : State} (h : Inv s) : Inv (useWait s) := inv_host h (useWait_eq s)

/-! ## The pointers by activity -/

theorem Inv.putBytes {s : State} (h : Inv s) (ha : s.activity = .putBytes) : PutPointers s := by
  have := h.busy; simpa [BusyPointers, ha] using this

theorem Inv.encodeStart {s : State} (h : Inv s) (ha : s.activity = .encodeStart) : EncodeEntered s := by
  have := h.busy; simpa [BusyPointers, ha] using this

theorem Inv.uvarint {s : State} (h : Inv s) (ha : s.activity = .varint .uvarint) : VarintPointers s := by
  have := h.busy; simpa [BusyPointers, ha] using this

theorem Inv.prefix {s : State} (h : Inv s) (ha : s.activity = .varint .decode) :
    VarintPointers s ∧ ViewsGood s ∧ s.dec.L = s.ops.srcLen := by
  have := h.busy; simpa [BusyPointers, ha] using this

theorem Inv.varint {s : State} (h : Inv s) {u : VarintUser} (ha : s.activity = .varint u) : VarintPointers s := by
  cases u
  · exact h.uvarint ha
  · exact (h.prefix ha).1

theorem Inv.elements {s : State} (h : Inv s) (ha : s.activity = .elements) : DecodePointers s := by
  have := h.busy; simpa [BusyPointers, ha] using this

theorem Inv.scan {s : State} (h : Inv s) (ha : s.activity = .scan) : EncodePointers s := by
  have := h.busy; simpa [BusyPointers, ha] using this

theorem inv_of_scan {s : State} (h : Sane s) (hp : EncodePointers s) (ha : s.activity = .scan) : Inv s :=
  ⟨h, by simpa [BusyPointers, ha] using hp⟩

theorem inv_of_elements {s : State} (h : Sane s) (hp : DecodePointers s) (ha : s.activity = .elements) : Inv s :=
  ⟨h, by simpa [BusyPointers, ha] using hp⟩

/-! ## Varint unit -/

theorem inv_startPut {s : State} (h : Sane s) (hw : dstWraps s = false) (hr : varintLen s.ops.valueIn ≤ s.ops.dstLen) :
    Inv (startPut s) where
  sane := { h with vu := ⟨h.vu.sh, Nat.two_pow_pos 4⟩ }
  busy := by
    simp only [dstWraps, decide_eq_false_iff_not] at hw
    exact ⟨Nat.not_lt.1 hw, hr, Nat.zero_add _⟩

theorem inv_putEntry {s : State} {go : State → State} (h : Sane s)
    (hgo : dstWraps s = false → varintLen s.ops.valueIn ≤ s.ops.dstLen → Inv (go s)) : Inv (putEntry go s) := by
  unfold putEntry
  split
  · exact inv_failClean h
  · split
    · exact inv_failClean h
    · exact hgo (Bool.eq_false_iff.2 ‹_›) (by omega)

theorem inv_startVarint_uvarint {s : State} (h : Sane s) (hw : srcWraps s = false) : Inv (startVarint .uvarint s) where
  sane := { h with vu := ⟨Nat.two_pow_pos 7, Nat.two_pow_pos 4⟩ }
  busy := by
    simp only [srcWraps, decide_eq_false_iff_not] at hw
    exact ⟨Nat.not_lt.1 hw, Nat.zero_le _, Nat.zero_le _, rfl⟩

theorem inv_startDecode {s : State} (h : Sane s) (hv : ViewsGood s) : Inv (startDecode s) where
  sane := { h with vu := ⟨Nat.two_pow_pos 7, Nat.two_pow_pos 4⟩, dec := { h.dec with L := h.ops.srcLen } }
  busy := ⟨⟨hv.srcExists, Nat.zero_le _, Nat.zero_le _, rfl⟩, ⟨hv.srcExists, hv.dstExists, hv.disjoint⟩, rfl⟩

theorem inv_varintLoopExit {s : State} (h : Inv s) : Inv (varintLoopExit s) := by
  unfold varintLoopExit varintIncomplete
  split
  · split <;> exact inv_failClean h.sane
  · exact inv_failClean h.sane

theorem inv_varintContItem {s : State} {g : BitVec 7} (h : Inv s) {u : VarintUser} (ha : s.activity = .varint u)
    (hi : s.vu.i < s.ops.srcLen) (ht : s.vu.i < 10) : Inv (varintContItem g s) := by
  have hp := h.varint ha
  have hsh := hp.shift
  have hp' : VarintPointers (varintContItem g s) :=
    ⟨hp.srcExists, hi, ht, by simp only [varintContItem, modVu_vu]; omega⟩
  refine ⟨{ h.sane with vu := ⟨?_, ?_⟩ }, ?_⟩
  · simp only [varintContItem, modVu_vu]; omega
  · simp only [varintContItem, modVu_vu]; omega
  · cases u
    · simpa [BusyPointers, varintContItem, ha] using hp'
    · have hd := h.prefix ha
      have : ViewsGood (varintContItem g s) := ⟨hd.2.1.srcExists, hd.2.1.dstExists, hd.2.1.disjoint⟩
      simpa [BusyPointers, varintContItem, ha] using And.intro hp' ⟨this, hd.2.2⟩

theorem inv_varintLastItem {s : State} {g : BitVec 7} (h : Inv s) {u : VarintUser} (ha : s.activity = .varint u)
    (hi : s.vu.i < s.ops.srcLen) : Inv (varintLastItem g s) := by
  unfold varintLastItem
  split
  · exact inv_failClean h.sane
  · have hs : Sane (s.modVu fun r => { r with v := r.v ||| (g.setWidth 64 <<< r.sh), b := 0#1 ++ g }) :=
      { h.sane with vu := ⟨h.sane.vu.sh, h.sane.vu.i⟩ }
    unfold varintDone
    cases u
    · simp only [modVu_activity, ha]
      refine inv_succeed hs ?_
      have := h.sane.ops.srcLen
      simp only [modVu_cfg]; omega
    · simp only [modVu_activity, ha]
      unfold decodePrefix
      split
      · exact inv_failClean hs
      · rename_i hle
        have hd := h.prefix ha
        have hsp := h.sane.ops.srcLen
        have hdp := h.sane.ops.dstLen
        simp only [modVu_ops] at hle
        have hdl := Nat.not_lt.1 hle
        refine inv_of_elements { hs with dec := ?_ } ?_ rfl
        · have := h.sane.dec
          exact { this with
            s := by simp only [modDec_dec]; exact Nat.lt_of_le_of_lt hi hsp
            d := space_pos _
            dLen := Nat.lt_of_le_of_lt hdl hdp }
        · exact {
            views := ⟨hd.2.1.srcExists, hd.2.1.dstExists, hd.2.1.disjoint⟩
            streamLength := hd.2.2
            source := by have := hd.2.2; simp only [modDec_dec]; show s.vu.i + 1 ≤ s.dec.L; omega
            output := Nat.zero_le _
            declared := hdl }

/-! ## Decoder -/

theorem DecodePointers.inMemory {s : State} (hp : DecodePointers s) : s.ops.dstBase + s.dec.dLen ≤ s.cfg.space := by
  have := hp.views.dstExists; have := hp.declared; omega

theorem inv_failElement {s : State} (h : Sane s) (hp : DecodePointers s) {c : Cause} : Inv (failElement c s) :=
  inv_fail h h.dec.sEl h.dec.d hp.inMemory

/-- A change of the decoder's registers that moves the cursors inside their bounds, with memory changed by an operation that
keeps it canonical and in its bound. -/
theorem inv_elements_of {s t : State} (h : Inv s) (ha : s.activity = .elements) (hcfg : t.cfg = s.cfg) (hops : t.ops = s.ops)
    (hresp : t.resp = s.resp) (henc : t.enc = s.enc) (hvu : t.vu = s.vu) (htab : t.table = s.table)
    (hact : t.activity = s.activity) (hL : t.dec.L = s.dec.L) (hdLen : t.dec.dLen = s.dec.dLen)
    (hs : t.dec.s ≤ t.dec.L) (hd : t.dec.d ≤ t.dec.dLen) (hlen : t.dec.len < 2 ^ 33) (hoff : t.dec.off < 2 ^ 16)
    (hsEl : t.dec.sEl < s.cfg.space) (hm : t.mem.wf = true) (hf : cellsWithin s.cfg.space (fun _ => true) t.mem = true) :
    Inv t := by
  have hp := h.elements ha
  have hS := h.sane
  have hDec := hS.dec
  refine inv_of_elements ?_ ?_ (hact.trans ha)
  · exact {
      cfg := by rw [hcfg]; exact hS.cfg
      ops := by rw [hcfg, hops]; exact hS.ops
      resp := by rw [hcfg, hresp]; exact hS.resp
      enc := by rw [hcfg, henc]; exact hS.enc
      dec := by
        have h1 := hDec.L; have h2 := hDec.dLen
        rw [hcfg]
        exact ⟨by omega, by omega, by omega, by omega, hlen, hoff, hsEl⟩
      vu := by rw [hvu]; exact hS.vu
      table := by rw [htab]; exact hS.table
      tableFits := by rw [hcfg, htab]; exact hS.tableFits
      mem := hm
      memFits := by rw [hcfg]; exact hf }
  · have hv := hp.views
    exact {
      views := ⟨by rw [hcfg, hops]; exact hv.srcExists, by rw [hcfg, hops]; exact hv.dstExists,
        by have := hv.disjoint; simpa [viewsOverlap, hops] using this⟩
      streamLength := by rw [hL, hops]; exact hp.streamLength
      source := hs
      output := hd
      declared := by rw [hdLen, hops]; exact hp.declared }

/-- What the byte moves of a literal change: memory only. -/
theorem replayLiteral_eq : ∀ (len sp dp : Nat) (s : State),
    replayLiteral len sp dp s = { s with mem := (replayLiteral len sp dp s).mem }
  | 0, _, _, _ => rfl
  | len + 1, sp, dp, s => (replayLiteral_eq len (sp + 1) (dp + 1) (dstW s dp (src s sp))).trans rfl

/-- What the byte moves of a copy change: memory and the output cursor. -/
theorem copyReplay_eq : ∀ (len : Nat) (s : State),
    copyReplay len s = { s with dec := { s.dec with d := s.dec.d + len }, mem := (copyReplay len s).mem }
  | 0, _ => rfl
  | len + 1, s => by
    have h := copyReplay_eq len (copyByte s)
    show copyReplay len (copyByte s) = _
    rw [h]
    show { s with dec := { s.dec with d := s.dec.d + 1 + len }, mem := _ } = _
    rw [Nat.add_assoc, Nat.add_comm 1 len]
    rfl

theorem inv_literalElement {s : State} (h : Inv s) (ha : s.activity = .elements) : Inv (literalElement s) := by
  have hp := h.elements ha
  have hlen : literalLen s.dec.x < 2 ^ 33 := by have := s.dec.x.isLt; simp only [literalLen]; omega
  have h' : Inv (s.modDec fun r => { r with len := literalLen r.x }) :=
    inv_elements_of h ha rfl rfl rfl rfl rfl rfl rfl rfl rfl hp.source hp.output hlen h.sane.dec.off h.sane.dec.sEl
      h.sane.mem h.sane.memFits
  have hp' := h'.elements ha
  unfold literalElement literalChecked
  split
  · exact inv_failElement h'.sane hp'
  · split
    · exact inv_failElement h'.sane hp'
    · split
      · exact inv_failElement h'.sane hp'
      · rename_i hd hs
        simp only [modDec_dec] at hd hs
        have hpos : 0 < literalLen s.dec.x := Nat.succ_pos _
        have hst := stays_replayLiteral (lim := s.dec.dLen) (len := literalLen s.dec.x) (sp := s.dec.s) (dp := s.dec.d)
          (s := s.modDec fun r => { r with len := literalLen r.x }) (by omega)
        rw [replayLiteral_eq]
        exact inv_elements_of h ha rfl rfl rfl rfl rfl rfl rfl rfl rfl (by simp only [modDec_dec]; omega)
          (by simp only [modDec_dec]; omega) hlen h.sane.dec.off h.sane.dec.sEl (hst.wf h.sane.mem)
          (hst.within _ hp.inMemory h.sane.memFits)

theorem inv_copyElement {s : State} (h : Inv s) (ha : s.activity = .elements) : Inv (copyElement s) := by
  have hp := h.elements ha
  unfold copyElement
  split
  · exact inv_failElement h.sane hp
  · split
    · exact inv_failElement h.sane hp
    · rename_i hd
      have hst := stays_copyReplay (lim := s.dec.dLen) (len := s.dec.len) (s := s) (by omega)
      rw [copyReplay_eq]
      exact inv_elements_of h ha rfl rfl rfl rfl rfl rfl rfl rfl rfl hp.source (by exact Nat.not_lt.1 hd) h.sane.dec.len
        h.sane.dec.off h.sane.dec.sEl (hst.wf h.sane.mem) (hst.within _ hp.inMemory h.sane.memFits)

theorem inv_literalForm {s : State} {header : Nat} {x : BitVec 32} (h : Inv s) (ha : s.activity = .elements) :
    Inv (literalForm header x s) := by
  have hp := h.elements ha
  unfold literalForm
  split
  · exact inv_failElement h.sane hp
  · rename_i hs
    refine inv_literalElement ?_ ha
    exact inv_elements_of h ha rfl rfl rfl rfl rfl rfl rfl rfl rfl (Nat.not_lt.1 hs) hp.output h.sane.dec.len
      h.sane.dec.off h.sane.dec.sEl h.sane.mem h.sane.memFits

theorem inv_runElement {s : State} {i : Instr} (h : Inv s) (ha : s.activity = .elements) (hi : i.space = .element)
    (hs : s.dec.s < s.dec.L) : Inv (runItem i s) := by
  have hp := h.elements ha
  have hDec := h.sane.dec
  cases i with
  | lit0 n =>
    refine inv_literalElement ?_ ha
    exact inv_elements_of h ha rfl rfl rfl rfl rfl rfl rfl rfl rfl hs hp.output h.sane.dec.len
      h.sane.dec.off h.sane.dec.sEl h.sane.mem h.sane.memFits
  | lit1 n => exact inv_literalForm h ha
  | lit2 n => exact inv_literalForm h ha
  | lit3 n => exact inv_literalForm h ha
  | lit4 n => exact inv_literalForm h ha
  | copy1 l o =>
    simp only [runItem, copy1Item]
    split
    · exact inv_failElement h.sane hp
    · rename_i hs2
      refine inv_copyElement ?_ ha
      have hl : copy1Len l < 2 ^ 33 := by have := l.isLt; simp only [copy1Len, Config.copy1MinLen]; omega
      have ho : o.toNat < 2 ^ 16 := by have := o.isLt; omega
      exact inv_elements_of h ha rfl rfl rfl rfl rfl rfl rfl rfl rfl (Nat.not_lt.1 hs2) hp.output hl ho h.sane.dec.sEl
        h.sane.mem h.sane.memFits
  | copy2 l o =>
    simp only [runItem, copy2Item]
    split
    · exact inv_failElement h.sane hp
    · rename_i hs2
      refine inv_copyElement ?_ ha
      have hl : copy2Len l < 2 ^ 33 := by have := l.isLt; simp only [copy2Len]; omega
      exact inv_elements_of h ha rfl rfl rfl rfl rfl rfl rfl rfl rfl (Nat.not_lt.1 hs2) hp.output hl o.isLt h.sane.dec.sEl
        h.sane.mem h.sane.memFits
  | copy4 u => exact inv_failElement h.sane hp
  | varintCont _ => cases hi
  | varintLast _ => cases hi
  | maxEncodedLen => cases hi
  | putUvarint => cases hi
  | uvarint => cases hi
  | encode => cases hi
  | decode => cases hi

theorem inv_fetchElement {s : State} (h : Inv s) (ha : s.activity = .elements) : Inv (fetchElement s) := by
  have hp := h.elements ha
  have hDec := h.sane.dec
  exact inv_elements_of h ha rfl rfl rfl rfl rfl rfl rfl rfl rfl hp.source hp.output hDec.len hDec.off hDec.s
    h.sane.mem h.sane.memFits

theorem inv_decodeFinal {s : State} (h : Inv s) (ha : s.activity = .elements) : Inv (decodeFinal s) := by
  have hp := h.elements ha
  unfold decodeFinal
  split
  · exact inv_fail h.sane h.sane.ops.srcLen h.sane.dec.d hp.inMemory
  · exact inv_succeed h.sane h.sane.dec.d

end Sys2Proof.Machine
end

