-- ==== Sys2Proof/Laws/PerInstr.lean ====
section
/-! SUPPORT. Statements made for every instruction, one lemma a constructor. -/

namespace Sys2Proof.Laws.HeaderSize

/-- The encoding of an instruction has as many bytes as its header (30_encoding.md R91). -/
def Statement (i : Instr) : Prop := (Sys2Proof.encode i).length = headerBytes i

theorem varintCont (g : BitVec 7) : Statement (.varintCont g) := rfl
theorem varintLast (g : BitVec 7) : Statement (.varintLast g) := rfl
theorem lit0 (n : BitVec 6) : Statement (.lit0 n) := rfl
theorem lit1 (n : BitVec 8) : Statement (.lit1 n) := rfl
theorem lit2 (n : BitVec 16) : Statement (.lit2 n) := rfl
theorem lit3 (n : BitVec 24) : Statement (.lit3 n) := rfl
theorem lit4 (n : BitVec 32) : Statement (.lit4 n) := rfl
theorem copy1 (len4 : BitVec 3) (off : BitVec 11) : Statement (.copy1 len4 off) := rfl
theorem copy2 (len1 : BitVec 6) (off : BitVec 16) : Statement (.copy2 len1 off) := rfl
theorem copy4 (u : BitVec 6) : Statement (.copy4 u) := rfl
theorem maxEncodedLen : Statement .maxEncodedLen := rfl
theorem putUvarint : Statement .putUvarint := rfl
theorem uvarint : Statement .uvarint := rfl
theorem encode : Statement .encode := rfl
theorem decode : Statement .decode := rfl

end Sys2Proof.Laws.HeaderSize
end

