-- ==== Sys2Proof/Laws/Varint.lean ====
section
/-! SUPPORT. The varint unit: the bytes of a varint and its length (R121), and the loop of R124 read as arithmetic. -/

namespace Sys2Proof.Machine

/-! ## VarintBytes -/

theorem and_or_byte (v : Value) : (((v &&& 0x7f#64) ||| 0x80#64).setWidth 8).toNat = v.toNat % 128 + 128 := by
  have h1 : v.toNat &&& 127 = v.toNat % 128 := Nat.and_two_pow_sub_one_eq_mod v.toNat 7
  have h2 : 128 + v.toNat % 128 = 128 ||| (v.toNat % 128) :=
    Nat.two_pow_add_eq_or_of_lt (i := 7) (Nat.mod_lt _ (by omega)) 1
  simp only [BitVec.toNat_setWidth, BitVec.toNat_or, BitVec.toNat_and]
  show ((v.toNat &&& 127) ||| 128) % 256 = _
  rw [h1, Nat.or_comm, ← h2]
  omega

/-- The shape of the bytes (R121): byte `j` holds bits `7j+6 : 7j`, bit 7 is set on every byte but the last, and the number of
bytes is the number of 7-bit groups of the value. -/
theorem varintBytesFrom_spec : ∀ (turns : Nat) (v : Value), v.toNat < 2 ^ (7 * (turns + 1)) →
    ∃ k, (varintBytesFrom turns v).length = k + 1 ∧ k ≤ turns ∧ v.toNat < 2 ^ (7 * (k + 1)) ∧ (k = 0 ∨ 2 ^ (7 * k) ≤ v.toNat) ∧
      ∀ j (hj : j < (varintBytesFrom turns v).length), ((varintBytesFrom turns v)[j]).toNat =
        v.toNat / 2 ^ (7 * j) % 128 + if j < k then 128 else 0
  | 0, v, h => by
    refine ⟨0, rfl, Nat.le_refl _, h, .inl rfl, ?_⟩
    intro j hj
    simp only [varintBytesFrom, List.length_singleton] at hj
    have : j = 0 := by omega
    subst this
    simp only [varintBytesFrom, List.getElem_cons_zero, BitVec.toNat_setWidth]
    simp
    omega
  | turns + 1, v, h => by
    unfold varintBytesFrom
    by_cases hv : 0x80 ≤ v.toNat
    · simp only [if_pos hv]
      have hsh : (v >>> 7).toNat = v.toNat / 2 ^ 7 := by simp [Nat.shiftRight_eq_div_pow]
      obtain ⟨k, hk, hkt, hlt, hge, hb⟩ := varintBytesFrom_spec turns (v >>> 7) (by
        rw [hsh, Nat.div_lt_iff_lt_mul (by omega), ← Nat.pow_add]
        exact lt_of_lt_of_eq h (by congr 1))
      rw [hsh] at hlt hge
      refine ⟨k + 1, by simp [hk], by omega, ?_, .inr ?_, ?_⟩
      · rw [Nat.div_lt_iff_lt_mul (by omega), ← Nat.pow_add] at hlt
        exact hlt
      · rcases hge with rfl | hge
        · exact hv
        · rw [Nat.le_div_iff_mul_le (by omega), ← Nat.pow_add] at hge
          exact hge
      · intro j hj
        cases j with
        | zero => simp only [List.getElem_cons_zero, and_or_byte v]; simp
        | succ j =>
          simp only [List.getElem_cons_succ]
          rw [hb j (by simpa using hj), hsh, Nat.div_div_eq_div_mul, ← Nat.pow_add]
          have : 7 + 7 * j = 7 * (j + 1) := by omega
          simp [this]
    · simp only [if_neg hv]
      refine ⟨0, rfl, Nat.zero_le _, by omega, .inl rfl, ?_⟩
      intro j hj
      simp only [List.length_singleton] at hj
      have : j = 0 := by omega
      subst this
      simp only [List.getElem_cons_zero, BitVec.toNat_setWidth]
      simp
      omega

theorem varintLen_of_bounds {v : Value} {k : Nat} (h1 : v.toNat < 2 ^ (7 * (k + 1))) (h2 : k = 0 ∨ 2 ^ (7 * k) ≤ v.toNat)
    (hk : k ≤ 9) : varintLen v = k + 1 := by
  have hv := v.isLt
  unfold varintLen
  interval_cases k <;> simp (disch := omega) only [if_pos, if_neg]

theorem varintBytes_spec (v : Value) : (varintBytes v).length = varintLen v ∧ 1 ≤ varintLen v ∧ varintLen v ≤ 10 ∧
    v.toNat < 2 ^ (7 * varintLen v) ∧ (varintLen v = 1 ∨ 2 ^ (7 * (varintLen v - 1)) ≤ v.toNat) ∧
    ∀ j (hj : j < (varintBytes v).length), ((varintBytes v)[j]).toNat =
      v.toNat / 2 ^ (7 * j) % 128 + if j + 1 < varintLen v then 128 else 0 := by
  obtain ⟨k, hk, hkt, hlt, hge, hb⟩ := varintBytesFrom_spec 9 v (by have := v.isLt; omega)
  have hl := varintLen_of_bounds hlt hge hkt
  refine ⟨by rw [hl]; exact hk, by omega, by omega, by rw [hl]; exact hlt, ?_, ?_⟩
  · rcases hge with rfl | hge
    · exact .inl hl
    · exact .inr (by rw [hl]; exact hge)
  · intro j hj
    rw [hl]
    simp only [Nat.add_lt_add_iff_right]
    exact hb j hj

theorem varintBytes_length (v : Value) : (varintBytes v).length = varintLen v := (varintBytes_spec v).1

theorem varintLen_pos (v : Value) : 1 ≤ varintLen v := (varintBytes_spec v).2.1

theorem varintLen_le (v : Value) : varintLen v ≤ 10 := (varintBytes_spec v).2.2.1

/-- A value of at most `n` bits takes at most `n div 7 + 1` bytes. -/
theorem varintLen_le_of_lt {v : Value} {k : Nat} (h : v.toNat < 2 ^ (7 * k)) (hk : 1 ≤ k) : varintLen v ≤ k := by
  obtain ⟨-, -, -, -, hge, -⟩ := varintBytes_spec v
  rcases hge with hge | hge
  · omega
  · by_contra hlt
    have : 2 ^ (7 * k) ≤ 2 ^ (7 * (varintLen v - 1)) := Nat.pow_le_pow_right (by omega) (by omega)
    omega

/-- Every turn of the loop of R121 leaves one byte fewer to write. -/
theorem varintLen_shift {v : Value} (h : 0x80 ≤ v.toNat) : varintLen (v >>> 7) + 1 = varintLen v := by
  obtain ⟨-, hpos, hle, hlt, hge, -⟩ := varintBytes_spec v
  have hsh : (v >>> 7).toNat = v.toNat / 2 ^ 7 := by simp [Nat.shiftRight_eq_div_pow]
  rcases hge with hge | hge
  · rw [hge] at hlt; omega
  · have hk : varintLen v ≠ 1 := by intro he; rw [he] at hlt; omega
    have h1 : varintLen (v >>> 7) = (varintLen v - 2) + 1 := by
      refine varintLen_of_bounds ?_ ?_ (by omega)
      · rw [hsh, Nat.div_lt_iff_lt_mul (by omega), ← Nat.pow_add]
        exact lt_of_lt_of_eq hlt (by congr 1; omega)
      · by_cases h2 : varintLen v = 2
        · exact .inl (by omega)
        · refine .inr ?_
          rw [hsh, Nat.le_div_iff_mul_le (by omega), ← Nat.pow_add]
          exact le_of_eq_of_le (by congr 1; omega) hge
    omega

theorem varintLen_last {v : Value} (h : ¬ 0x80 ≤ v.toNat) : varintLen v = 1 := by
  unfold varintLen; rw [if_pos (by omega)]

/-! ## PUT_UVARINT byte by byte (R122) -/

theorem inv_putByte {s : State} (h : Inv s) (ha : s.activity = .putBytes) : Inv (putByte s) ∧ ((putByte s).activity = .idle ∨
    ((putByte s).activity = .putBytes ∧ (putByte s).vu.i = s.vu.i + 1)) := by
  have hp := h.putBytes ha
  have hroom := hp.room
  have hleft := hp.left
  have hex := hp.dstExists
  have hl := varintLen_le s.ops.valueIn
  have hl1 := varintLen_pos s.vu.v
  have hd := h.sane.ops.dstLen
  unfold putByte
  split
  · rename_i hv
    have hsh := varintLen_shift hv
    have hpos := varintLen_pos (s.vu.v >>> 7)
    refine ⟨⟨{ h.sane with vu := ⟨h.sane.vu.sh, ?_⟩, mem := writeByte_wf h.sane.mem, memFits := ?_ }, ?_⟩, .inr ⟨ha, rfl⟩⟩
    · simp only [modVu_vu, dstW_vu]; omega
    · exact writeByte_within h.sane.memFits (by simp only [modVu_cfg, dstW_cfg]; omega)
    · have : PutPointers ((dstW s s.vu.i (((s.vu.v &&& 0x7f#64) ||| 0x80#64).setWidth 8)).modVu fun r =>
          { r with v := r.v >>> 7, i := r.i + 1 }) :=
        ⟨hex, hroom, by simp only [modVu_vu, dstW_vu, modVu_ops, dstW_ops]; omega⟩
      simpa [BusyPointers, ha] using this
  · rename_i hv
    have h1 := varintLen_last hv
    refine ⟨?_, .inl rfl⟩
    have hs : Sane (dstW s s.vu.i (s.vu.v.setWidth 8)) :=
      { h.sane with
        mem := writeByte_wf h.sane.mem
        memFits := writeByte_within h.sane.memFits (by simp only [dstW_cfg]; omega) }
    exact inv_succeed hs (by simp only [dstW_cfg]; omega)

/-! ## The loop of VarintDecode (R124) -/

theorem groupSum_lt (f : Nat → Byte) : ∀ k, groupSum f k < 2 ^ (7 * k)
  | 0 => by simp [groupSum]
  | k + 1 => by
    have h := groupSum_lt f k
    have hm : (f k).toNat % 128 ≤ 127 := by omega
    have hmul := Nat.mul_le_mul_right (2 ^ (7 * k)) hm
    have hp : 2 ^ (7 * (k + 1)) = 128 * 2 ^ (7 * k) := by rw [show 7 * (k + 1) = 7 * k + 7 by omega, Nat.pow_add]; omega
    simp only [groupSum, hp]
    omega

theorem groupSum_congr {f g : Nat → Byte} : ∀ {k : Nat}, (∀ j, j < k → f j = g j) → groupSum f k = groupSum g k
  | 0, _ => rfl
  | k + 1, h => by
    simp only [groupSum, h k (Nat.lt_succ_self k), groupSum_congr fun j hj => h j (Nat.lt_succ_of_lt hj)]

/-- A group enters above the groups already there (R124): no bit of the sum is lost while it fits 64 bits. -/
theorem or_group {v : Value} {g : BitVec 7} {n k : Nat} (hv : v.toNat = n) (hn : n < 2 ^ (7 * k))
    (hfit : g.toNat * 2 ^ (7 * k) < 2 ^ 64) : (v ||| (g.setWidth 64 <<< (7 * k))).toNat = n + g.toNat * 2 ^ (7 * k) := by
  have hg := g.isLt
  rw [BitVec.toNat_or, BitVec.toNat_shiftLeft, BitVec.toNat_setWidth, hv, Nat.mod_eq_of_lt (by omega : g.toNat < 2 ^ 64),
    Nat.shiftLeft_eq, Nat.mod_eq_of_lt hfit, Nat.or_comm, Nat.mul_comm]
  rw [← Nat.two_pow_add_eq_or_of_lt hn, Nat.add_comm]

theorem extract_group (b : Byte) : (b.extractLsb' 0 7).toNat = b.toNat % 128 := by
  simp [BitVec.extractLsb'_toNat]

theorem decodeVarintByte_cont {b : Byte} (h : 128 ≤ b.toNat) : decodeVarintByte b = .varintCont (b.extractLsb' 0 7) := by
  have hb := b.isLt
  have : b.getLsbD 7 = true := by
    simp only [BitVec.getLsbD, Nat.testBit_eq_decide_div_mod_eq, decide_eq_true_eq]
    omega
  unfold decodeVarintByte
  rw [if_pos this]

theorem decodeVarintByte_last {b : Byte} (h : b.toNat < 128) : decodeVarintByte b = .varintLast (b.extractLsb' 0 7) := by
  have : ¬ b.getLsbD 7 = true := by
    simp only [BitVec.getLsbD, Nat.testBit_eq_decide_div_mod_eq, decide_eq_true_eq]
    omega
  unfold decodeVarintByte
  rw [if_neg this]

/-- The varint loop after `k` continuation bytes (R124): only the varint registers have changed, and while no bit can have been
lost the value is the sum of the groups. -/
theorem varint_run {s : State} {u : VarintUser} (ha : s.activity = .varint u) (hv : s.vu.v = 0) (hsh : s.vu.sh = 0)
    (hi : s.vu.i = 0) : ∀ {k : Nat}, k ≤ 10 → k ≤ s.ops.srcLen → (∀ j, j < k → 128 ≤ (src s j).toNat) →
    ∃ v b, microStep^[k] s = { s with vu := { v := v, sh := 7 * k, i := k, b := b } } ∧
      (k ≤ 9 → v.toNat = groupSum (src s) k)
  | 0, _, _, _ => by
    refine ⟨0, s.vu.b, ?_, fun _ => rfl⟩
    obtain ⟨cfg, ops, resp, enc, dec, vu, table, mem, activity, host, free⟩ := s
    obtain ⟨v, sh, i, b⟩ := vu
    cases hv; cases hsh; cases hi
    rfl
  | k + 1, hk, hsrc, hb => by
    obtain ⟨v, b, hrun, hsum⟩ := varint_run ha hv hsh hi (k := k) (by omega) (by omega) fun j hj => hb j (by omega)
    rw [Function.iterate_succ_apply', hrun]
    have hcont := hb k (Nat.lt_succ_self k)
    generalize hs' : ({ s with vu := { v := v, sh := 7 * k, i := k, b := b } } : State) = s'
    have hstep : microStep s' = varintContItem ((src s k).extractLsb' 0 7) s' := by
      have h1 : fetchItem s' = some (decodeVarintByte (src s k), s') := by
        subst hs'
        simp only [fetchItem, ha]
        rw [if_pos ⟨by omega, by omega⟩]
        rfl
      simp only [microStep, h1]
      rw [decodeVarintByte_cont hcont]
      rfl
    rw [hstep]
    subst hs'
    refine ⟨v ||| (((src s k).extractLsb' 0 7).setWidth 64 <<< (7 * k)), 1#1 ++ (src s k).extractLsb' 0 7, rfl, fun h9 => ?_⟩
    have hpow : (2 : Nat) ^ (7 * k) ≤ 2 ^ 56 := Nat.pow_le_pow_right (by omega) (by omega)
    have hm : (src s k).toNat % 128 ≤ 127 := by omega
    have hmul := Nat.mul_le_mul hm hpow
    rw [or_group (hsum (by omega)) (groupSum_lt _ k) (by rw [extract_group]; omega), extract_group]
    rfl

/-- The micro-step on the varint's last byte, byte `k` of the view (R124). -/
theorem varint_last {s : State} {u : VarintUser} {v : Value} {b : Byte} {k : Nat} (ha : s.activity = .varint u) (hk : k ≤ 9)
    (hin : k < s.ops.srcLen) (hlast : (src s k).toNat < 128) :
    microStep { s with vu := { v := v, sh := 7 * k, i := k, b := b } } =
      varintLastItem ((src s k).extractLsb' 0 7) { s with vu := { v := v, sh := 7 * k, i := k, b := b } } := by
  have h1 : fetchItem { s with vu := { v := v, sh := 7 * k, i := k, b := b } } =
      some (decodeVarintByte (src s k), { s with vu := { v := v, sh := 7 * k, i := k, b := b } }) := by
    simp only [fetchItem, ha]
    rw [if_pos ⟨by omega, by omega⟩]
    rfl
  simp only [microStep, h1]
  rw [decodeVarintByte_last hlast]
  rfl

/-- The micro-step when the loop of R124 ends without a last byte: the end of the view, or ten bytes read. -/
theorem varint_exit {s : State} {u : VarintUser} {v : Value} {b : Byte} {k : Nat} (ha : s.activity = .varint u)
    (hk : s.ops.srcLen ≤ k ∨ 10 ≤ k) : microStep { s with vu := { v := v, sh := 7 * k, i := k, b := b } } =
      varintLoopExit { s with vu := { v := v, sh := 7 * k, i := k, b := b } } := by
  have h1 : fetchItem { s with vu := { v := v, sh := 7 * k, i := k, b := b } } = none := by
    simp only [fetchItem, ha]
    exact if_neg (by omega)
  unfold microStep
  rw [h1]
  show sequencerStep _ = _
  unfold sequencerStep
  split <;> rename_i h <;> simp only [ha] at h <;> first | rfl | cases h

/-- The value read is the sum of the groups, when a tenth byte is at most 1 (R124: "no bit is lost"). -/
theorem varint_value {s : State} {v : Value} {k : Nat} (hv : v.toNat = groupSum (src s) k) (hk : k ≤ 9)
    (hlast : (src s k).toNat < 128) (h9 : k = 9 → (src s k).toNat ≤ 1) :
    (v ||| (((src s k).extractLsb' 0 7).setWidth 64 <<< (7 * k))).toNat = groupSum (src s) (k + 1) := by
  have hfit : ((src s k).extractLsb' 0 7).toNat * 2 ^ (7 * k) < 2 ^ 64 := by
    rw [extract_group, Nat.mod_eq_of_lt hlast]
    by_cases h : k = 9
    · subst h
      have := Nat.mul_le_mul_right (2 ^ (7 * 9)) (h9 rfl)
      omega
    · have hpow : (2 : Nat) ^ (7 * k) ≤ 2 ^ 56 := Nat.pow_le_pow_right (by omega) (by omega)
      have := Nat.mul_le_mul (Nat.le_of_lt_succ hlast) hpow
      omega
  rw [or_group hv (groupSum_lt _ k) hfit, extract_group]
  rfl

/-- The groups of the bytes of a varint add up to its value (R121, R127). -/
theorem groupSum_varintBytes {f : Nat → Byte} {v : Value}
    (hf : ∀ j (h : j < (varintBytes v).length), f j = (varintBytes v)[j]) : groupSum f (varintLen v) = v.toNat := by
  obtain ⟨hl, -, -, hlt, -, hb⟩ := varintBytes_spec v
  have key : ∀ k, k ≤ varintLen v → groupSum f k = v.toNat % 2 ^ (7 * k) := by
    intro k
    induction k with
    | zero => intro _; simp [groupSum, Nat.mod_one]
    | succ k ih =>
      intro hk
      rw [groupSum, ih (by omega), hf k (by omega), hb k (by omega)]
      have h1 : (v.toNat / 2 ^ (7 * k) % 128 + if k + 1 < varintLen v then 128 else 0) % 128 = v.toNat / 2 ^ (7 * k) % 128 := by
        split <;> omega
      rw [h1, show 7 * (k + 1) = 7 * k + 7 by omega, Nat.pow_add, Nat.mod_mul]
      ring
  rw [key _ (Nat.le_refl _), Nat.mod_eq_of_lt hlt]

end Sys2Proof.Machine
end

