-- ==== Sys2Proof/Laws/Scan.lean ====
section
/-! SUPPORT. The encoder between its entry checks and its end: what each of its operations does, and that the pointers keep their
bounds. -/

namespace Sys2Proof.Machine

/-! ## The table's geometry (R150) -/

/-- The loop of TABLE_SETUP from size `2^k` on: the smallest power of two from there that is at least `n`, at most `2^14`. -/
theorem tableGeometry_spec (n : Nat) : ∀ (turns k : Nat), k + turns = 14 →
    ∃ j, tableGeometry n turns (2 ^ k) (32 - k) = (2 ^ j, 32 - j) ∧ k ≤ j ∧ j ≤ 14 ∧ (n ≤ 2 ^ j ∨ j = 14) ∧
      (j = k ∨ 2 ^ (j - 1) < n)
  | 0, k, hk => ⟨k, rfl, Nat.le_refl _, by omega, .inr (by omega), .inl rfl⟩
  | turns + 1, k, hk => by
    unfold tableGeometry
    by_cases h : 2 ^ k < Config.tableMax ∧ 2 ^ k < n
    · rw [if_pos h]
      obtain ⟨j, hj, hkj, hj14, hn, hb⟩ := tableGeometry_spec n turns (k + 1) (by omega)
      have h2 : 2 ^ k * 2 = 2 ^ (k + 1) := by rw [Nat.pow_succ]
      have h3 : 32 - k - 1 = 32 - (k + 1) := by omega
      rw [h2, h3, hj]
      refine ⟨j, rfl, by omega, hj14, hn, .inr ?_⟩
      rcases hb with rfl | hb
      · simpa using h.2
      · exact hb
    · rw [if_neg h]
      refine ⟨k, rfl, Nat.le_refl _, by omega, ?_, .inl rfl⟩
      have h14 : 2 ^ k < Config.tableMax := by
        have : (2 : Nat) ^ k ≤ 2 ^ 13 := Nat.pow_le_pow_right (by omega) (by omega)
        simp only [Config.tableMax]; omega
      exact .inl (by omega)

/-- TABLE_SETUP (R150): the smallest power of two that is at least `n`, clamped to 256 and 16384, and its shift. -/
theorem tableSetup_spec (s : State) : ∃ k, 8 ≤ k ∧ k ≤ 14 ∧ (s.enc.n ≤ 2 ^ k ∨ k = 14) ∧ (k = 8 ∨ 2 ^ (k - 1) < s.enc.n) ∧
    tableSetup s = s.modEnc fun r => { r with tableSize := 2 ^ k, shift := 32 - k } := by
  obtain ⟨k, hk, h8, h14, hn, hb⟩ := tableGeometry_spec s.enc.n 6 8 rfl
  refine ⟨k, h8, h14, hn, hb, ?_⟩
  unfold tableSetup
  have h256 : Config.tableMin = 2 ^ 8 := rfl
  simp only [State.modEnc, h256]
  rw [hk]

/-- HASH stays inside the table (R153). -/
theorem hashOf_lt {w : BitVec 32} {shift : Nat} (h : shift ≤ 32) : hashOf w shift < 2 ^ (32 - shift) := by
  unfold hashOf
  rw [BitVec.toNat_ushiftRight, Nat.shiftRight_eq_div_pow, Nat.div_lt_iff_lt_mul (Nat.two_pow_pos _), ← Nat.pow_add]
  have : 32 - shift + shift = 32 := by omega
  rw [this]
  exact (w * Config.hashMul).isLt

/-! ## Pointers inside a scan position -/

/-- The pointers of ENCODE while entries up to `bound` may stand in the table: between two scan positions `bound` is `s`, after
PROBE it is `s + 1`. -/
structure ScanMid (bound : Nat) (s : State) : Prop where
  sane : Sane s
  views : ViewsGood s
  sourceLength : s.enc.n = s.ops.srcLen
  notShort : Config.shortInput < s.enc.n
  room : maxEncodedLength s.enc.n ≤ s.ops.dstLen
  run : s.enc.lit ≤ s.enc.s
  scan : s.enc.s ≤ s.enc.n
  written : s.enc.d ≤ s.ops.dstLen
  geometry : 18 ≤ s.enc.shift ∧ s.enc.shift ≤ 24 ∧ s.enc.tableSize = 2 ^ (32 - s.enc.shift)
  entries : cellsWithin s.enc.tableSize (fun e => decide (e ≤ bound)) s.table = true

theorem scanMid_of_inv {s : State} (h : Inv s) (ha : s.activity = .scan) : ScanMid s.enc.s s := by
  have hp := h.scan ha
  exact ⟨h.sane, hp.views, hp.sourceLength, hp.notShort, hp.room, hp.run, hp.scan, hp.written, hp.geometry, hp.entries⟩

theorem entries_mono {n b b' : Nat} (hb : b ≤ b') {t : Table} (h : cellsWithin n (fun e => decide (e ≤ b)) t = true) :
    cellsWithin n (fun e => decide (e ≤ b')) t = true := by
  simp only [cellsWithin, List.all_eq_true, Bool.and_eq_true, decide_eq_true_eq] at h ⊢
  intro c hc
  have := h c hc
  exact ⟨this.1, by omega⟩

theorem ScanMid.inv {b : Nat} {s : State} (h : ScanMid b s) (hb : b ≤ s.enc.s) (ha : s.activity = .scan) : Inv s :=
  inv_of_scan h.sane ⟨h.views, h.sourceLength, h.notShort, h.room, h.run, h.scan, h.written, h.geometry,
    entries_mono hb h.entries⟩ ha

/-- A change of the encoder's registers and of memory that keeps the pointers. -/
theorem ScanMid.of {b : Nat} {s t : State} (h : ScanMid b s) (hcfg : t.cfg = s.cfg) (hops : t.ops = s.ops)
    (hresp : t.resp = s.resp) (hdec : t.dec = s.dec) (hvu : t.vu = s.vu) (htab : t.table = s.table)
    (hfit : t.enc.Fit s.cfg) (hn : t.enc.n = s.enc.n) (hsize : t.enc.tableSize = s.enc.tableSize)
    (hshift : t.enc.shift = s.enc.shift) (hrun : t.enc.lit ≤ t.enc.s) (hscan : t.enc.s ≤ t.enc.n)
    (hd : t.enc.d ≤ t.ops.dstLen) (hm : t.mem.wf = true) (hf : cellsWithin s.cfg.space (fun _ => true) t.mem = true) :
    ScanMid b t := by
  have hS := h.sane
  exact {
    sane := {
      cfg := by rw [hcfg]; exact hS.cfg
      ops := by rw [hcfg, hops]; exact hS.ops
      resp := by rw [hcfg, hresp]; exact hS.resp
      enc := by rw [hcfg]; exact hfit
      dec := by rw [hcfg, hdec]; exact hS.dec
      vu := by rw [hvu]; exact hS.vu
      table := by rw [htab]; exact hS.table
      tableFits := by rw [hcfg, htab]; exact hS.tableFits
      mem := hm
      memFits := by rw [hcfg]; exact hf }
    views := ⟨by rw [hcfg, hops]; exact h.views.srcExists, by rw [hcfg, hops]; exact h.views.dstExists,
      by have := h.views.disjoint; simpa [viewsOverlap, hops] using this⟩
    sourceLength := by rw [hn, hops]; exact h.sourceLength
    notShort := by rw [hn]; exact h.notShort
    room := by rw [hn, hops]; exact h.room
    run := hrun
    scan := hscan
    written := hd
    geometry := by rw [hshift, hsize]; exact h.geometry
    entries := by rw [hsize, htab]; exact h.entries }

theorem scanMid_emitted {b : Nat} {s : State} {bs : List Byte} (h : ScanMid b s)
    (hfit : s.enc.d + bs.length ≤ s.ops.dstLen) : ScanMid b (emitted s bs) := by
  have hE := h.sane.enc
  have hdst := h.sane.ops.dstLen
  have hv := h.views.dstExists
  exact h.of rfl rfl rfl rfl rfl rfl { hE with d := by simp only [emitted_enc]; omega } rfl rfl rfl h.run h.scan
    (by simpa using hfit) (writeBytes_wf h.sane.mem) (writeBytes_within h.sane.memFits (by omega))

theorem inv_failEncode {b : Nat} {s : State} (h : ScanMid b s) {c : Cause} : Inv (failEncode c s) :=
  inv_fail h.sane (space_pos _) (space_pos _) h.views.dstExists

/-- A run of bytes: written, with the pointers kept, or the command has ended. -/
theorem scanMid_emitBytes {b : Nat} {s : State} (bs : List Byte) (h : ScanMid b s) (ha : s.activity = .scan) :
    (emitBytes s bs = emitted s bs ∧ ScanMid b (emitted s bs)) ∨
    ((emitBytes s bs).activity = .idle ∧ Inv (emitBytes s bs)) := by
  have hr : s.activity ≠ .idle := by rw [ha]; decide
  have hw := h.written
  by_cases hfit : s.enc.d + bs.length ≤ s.ops.dstLen
  · exact .inl ⟨emitBytes_fits hr hfit, scanMid_emitted h hfit⟩
  · rw [emitBytes_over hr hw (by omega)]
    refine .inr ⟨rfl, inv_failEncode (b := b) (scanMid_emitted h ?_)⟩
    simp only [List.length_take]; omega

theorem scanMid_emitLiteral {b : Nat} {s : State} {x y : Nat} (h : ScanMid b s) (ha : s.activity = .scan) (hxy : x ≤ y)
    (hy : y ≤ s.enc.n) :
    (emitLiteral x y s = emitted s (literalElementBytes s x y) ∧ ScanMid b (emitted s (literalElementBytes s x y))) ∨
    ((emitLiteral x y s).activity = .idle ∧ Inv (emitLiteral x y s)) := by
  by_cases hlen : y - x - 1 < 2 ^ 32
  · rw [emitLiteral_eq h.views.disjoint hxy (by have := h.sourceLength; omega) h.written hlen]
    exact scanMid_emitBytes _ h ha
  · rw [emitLiteral_tooLong (by omega)]
    exact .inr ⟨rfl, inv_failEncode h⟩

theorem scanMid_flushLiteral {b : Nat} {s : State} {y : Nat} (h : ScanMid b s) (ha : s.activity = .scan)
    (hxy : s.enc.lit ≤ y) (hy : y ≤ s.enc.n) :
    (∃ bs, flushLiteral y s = emitted s bs ∧ ScanMid b (emitted s bs)) ∨
    ((flushLiteral y s).activity = .idle ∧ Inv (flushLiteral y s)) := by
  unfold flushLiteral
  split
  · exact .inl ⟨[], rfl, h⟩
  · rcases scanMid_emitLiteral h ha hxy hy with h' | h'
    · exact .inl ⟨_, h'⟩
    · exact .inr h'

/-- A chain: written, with `s` and `lit` as before and the pointers kept, or the command has ended. -/
theorem scanMid_emitCopyLoop {b : Nat} : ∀ {turns : Nat} {s : State}, ScanMid b s → s.activity = .scan →
    (ScanMid b (emitCopyLoop turns s) ∧ (emitCopyLoop turns s).activity = .scan ∧
      (emitCopyLoop turns s).enc.s = s.enc.s ∧ (emitCopyLoop turns s).enc.lit = s.enc.lit) ∨
    ((emitCopyLoop turns s).activity = .idle ∧ Inv (emitCopyLoop turns s))
  | 0, s, h, ha => .inl ⟨h, ha, rfl, rfl⟩
  | turns + 1, s, h, ha => by
    unfold emitCopyLoop
    split
    · exact .inl ⟨h, ha, rfl, rfl⟩
    · rcases scanMid_emitBytes (chainBytes s.enc.moff s.enc.mlen) h ha with ⟨he, h'⟩ | ⟨he, h'⟩
      · rw [he, unlessEnded_of_running (by simp [ended, ha])]
        have hE := h'.sane.enc
        have h'' : ScanMid b ((emitted s (chainBytes s.enc.moff s.enc.mlen)).modEnc
            fun r => { r with mlen := r.mlen - chainLen s.enc.moff s.enc.mlen }) :=
          h'.of rfl rfl rfl rfl rfl rfl
            { hE with mlen := Nat.lt_of_le_of_lt (Nat.sub_le _ _) hE.mlen } rfl rfl rfl h'.run h'.scan h'.written
            h'.sane.mem h'.sane.memFits
        exact scanMid_emitCopyLoop h'' ha
      · rw [unlessEnded_of_ended (ended_iff.2 he), emitCopyLoop_ended he]
        exact .inr ⟨he, h'⟩

/-! ## EXTEND (R158) -/

/-- The loop of EXTEND advances both positions together, inside the source, over equal bytes, and stops where they differ or at
the end of the source. -/
theorem extendLoop_spec : ∀ (turns : Nat) (s : State), s.enc.s ≤ s.enc.n → s.enc.n ≤ s.enc.s + turns →
    ∃ k, extendLoop turns s = (s.modEnc fun r => { r with s := r.s + k, t := r.t + k }) ∧ s.enc.s + k ≤ s.enc.n ∧
      (∀ j, j < k → src s (s.enc.s + j) = src s (s.enc.t + j)) ∧
      (s.enc.s + k = s.enc.n ∨ src s (s.enc.s + k) ≠ src s (s.enc.t + k))
  | 0, s, hs, ht => ⟨0, rfl, hs, fun _ h => absurd h (by omega), .inl (by omega)⟩
  | turns + 1, s, hs, ht => by
    unfold extendLoop
    by_cases h : s.enc.s < s.enc.n ∧ src s s.enc.s = src s s.enc.t
    · rw [if_pos h]
      obtain ⟨k, hk, hle, heq, hend⟩ := extendLoop_spec turns (s.modEnc fun r => { r with s := r.s + 1, t := r.t + 1 })
        h.1 (by simp only [modEnc_enc]; omega)
      refine ⟨k + 1, ?_, ?_, ?_, ?_⟩
      · rw [hk]
        simp only [State.modEnc, Nat.add_assoc, Nat.add_comm 1 k]
      · simp only [modEnc_enc] at hle; omega
      · intro j hj
        cases j with
        | zero => exact h.2
        | succ j =>
          have := heq j (by omega)
          simp only [modEnc_enc] at this
          rw [show s.enc.s + (j + 1) = s.enc.s + 1 + j by omega, show s.enc.t + (j + 1) = s.enc.t + 1 + j by omega]
          exact this
      · simp only [modEnc_enc] at hend
        rw [show s.enc.s + (k + 1) = s.enc.s + 1 + k by omega, show s.enc.t + (k + 1) = s.enc.t + 1 + k by omega]
        exact hend
    · rw [if_neg h]
      refine ⟨0, rfl, hs, fun _ h => absurd h (by omega), ?_⟩
      by_cases hn : s.enc.s < s.enc.n
      · exact .inr fun he => h ⟨hn, he⟩
      · exact .inl (by omega)

/-- EXTEND (R158): the match covers `mlen` bytes, at least the four equal ones, every one equal to the byte `moff` before it, and
it is the longest such run inside the source. -/
theorem extendOp_spec {s : State} (hs : s.enc.s + 4 ≤ s.enc.n) : ∃ k, s.enc.s + 4 + k ≤ s.enc.n ∧
    extendOp s = (s.modEnc fun r => { r with
      s0 := r.s, s := r.s + 4 + k, t := r.t + 4 + k, moff := r.s + 4 + k - (r.t + 4 + k), mlen := r.s + 4 + k - r.s }) ∧
    (∀ j, j < k → src s (s.enc.s + 4 + j) = src s (s.enc.t + 4 + j)) ∧
    (s.enc.s + 4 + k = s.enc.n ∨ src s (s.enc.s + 4 + k) ≠ src s (s.enc.t + 4 + k)) := by
  obtain ⟨k, hk, hle, heq, hend⟩ := extendLoop_spec s.enc.n
    (s.modEnc fun r => { r with s0 := r.s, s := r.s + 4, t := r.t + 4 }) hs (by simp only [modEnc_enc]; omega)
  refine ⟨k, hle, ?_, heq, hend⟩
  unfold extendOp
  rw [hk]
  rfl

/-! ## A scan position -/

/-- After WINDOW, HASH, PROBE and CANDIDATE (R152 to R155): cursors as before, the entry read bounded by `s`, the entry
written `s + 1`, so a candidate lies before `s`. -/
structure Probed (s p : State) : Prop where
  mid : ScanMid (s.enc.s + 1) p
  activity : p.activity = .scan
  pos : p.enc.s = s.enc.s
  lit : p.enc.lit = s.enc.lit
  n : p.enc.n = s.enc.n
  candidate : p.enc.e ≠ 0 → p.enc.t + 1 = p.enc.e ∧ p.enc.t < s.enc.s

/-- The state after the four operations, written out. -/
def probed (s : State) : State := candidateOp (probeOp (hashOp (windowOp s)))

theorem probed_spec {s : State} (h : Inv s) (ha : s.activity = .scan) (hs : s.enc.s + 3 < s.enc.n) : Probed s (probed s) := by
  have hp := h.scan ha
  have hS := h.sane
  have hE := hS.enc
  have hsh := hp.geometry
  have hn := hE.n
  have hpow : (2 : Nat) ^ (32 - s.enc.shift) ≤ 2 ^ 14 := Nat.pow_le_pow_right (by omega) (by omega)
  have hh : hashOf (windowAt s s.enc.s) s.enc.shift < s.enc.tableSize := by
    rw [hsh.2.2]; exact hashOf_lt (by omega)
  have hget : tableGet s.table (hashOf (windowAt s s.enc.s) s.enc.shift) ≤ s.enc.s := by
    have := cellGet_of_within (dflt := 0) (a := hashOf (windowAt s s.enc.s) s.enc.shift) hp.entries (by simp)
    simpa [tableGet] using this
  have hent : cellsWithin s.enc.tableSize (fun e => decide (e ≤ s.enc.s + 1))
      (tableSet s.table (hashOf (windowAt s s.enc.s) s.enc.shift) (s.enc.s + 1)) = true :=
    tableSet_within (entries_mono (Nat.le_succ _) hp.entries) hh (by simp)
  have hfits : cellsWithin Config.tableMax (fun e => decide (e < s.cfg.space))
      (tableSet s.table (hashOf (windowAt s s.enc.s) s.enc.shift) (s.enc.s + 1)) = true :=
    tableSet_within hS.tableFits (by simp only [Config.tableMax]; omega) (by simp; omega)
  have hmid : ∀ t, t < s.cfg.space → ScanMid (s.enc.s + 1) { s with
      enc := { s.enc with
        w := windowAt s s.enc.s
        h := hashOf (windowAt s s.enc.s) s.enc.shift
        e := tableGet s.table (hashOf (windowAt s s.enc.s) s.enc.shift)
        t := t }
      table := tableSet s.table (hashOf (windowAt s s.enc.s) s.enc.shift) (s.enc.s + 1) } := fun t ht => {
    sane := { hS with
      enc := { hE with h := by simp only []; omega, e := by simp only []; omega, t := ht }
      table := tableSet_wf hS.table
      tableFits := hfits }
    views := ⟨hp.views.srcExists, hp.views.dstExists, hp.views.disjoint⟩
    sourceLength := hp.sourceLength
    notShort := hp.notShort
    room := hp.room
    run := hp.run
    scan := hp.scan
    written := hp.written
    geometry := hsh
    entries := hent }
  have hsrc : windowAt s s.enc.s = (windowOp s).enc.w := rfl
  unfold probed candidateOp
  have he : (probeOp (hashOp (windowOp s))).enc.e = tableGet s.table (hashOf (windowAt s s.enc.s) s.enc.shift) := rfl
  split
  · rename_i hz
    exact ⟨hmid s.enc.t hE.t, ha, rfl, rfl, rfl, fun hne => absurd hz hne⟩
  · rename_i hz
    rw [he] at hz
    refine ⟨hmid (tableGet s.table (hashOf (windowAt s s.enc.s) s.enc.shift) - 1) (by omega), ha, rfl, rfl, rfl, fun _ => ?_⟩
    generalize hE : tableGet s.table (hashOf (windowAt s s.enc.s) s.enc.shift) = E at hz hget
    show tableGet s.table (hashOf (windowAt s s.enc.s) s.enc.shift) - 1 + 1 =
        tableGet s.table (hashOf (windowAt s s.enc.s) s.enc.shift) ∧
      tableGet s.table (hashOf (windowAt s s.enc.s) s.enc.shift) - 1 < s.enc.s
    omega

theorem scanMid_extendOp {b : Nat} {s : State} (h : ScanMid b s) (hs : s.enc.s + 4 ≤ s.enc.n) (ht : s.enc.t < s.enc.s) :
    ScanMid b (extendOp s) ∧ s.enc.s + 4 ≤ (extendOp s).enc.s ∧ (extendOp s).activity = s.activity := by
  obtain ⟨k, hle, heq, -, -⟩ := extendOp_spec hs
  have hE := h.sane.enc
  have hn := hE.n
  have hrun := h.run
  refine ⟨?_, by rw [heq]; simp only [modEnc_enc]; omega, by rw [heq]; rfl⟩
  rw [heq]
  exact h.of rfl rfl rfl rfl rfl rfl
    { hE with
      s := by simp only [modEnc_enc]; omega
      t := by simp only [modEnc_enc]; omega
      s0 := hE.s
      moff := by simp only [modEnc_enc]; omega
      mlen := by simp only [modEnc_enc]; omega }
    rfl rfl rfl (by simp only [modEnc_enc]; omega) hle h.written h.sane.mem h.sane.memFits

/-- A scan position with no match (R157). -/
theorem inv_noMatch {s p : State} (h : Probed s p) (hs : s.enc.s + 3 < s.enc.n) :
    Inv (noMatch p) ∧ (noMatch p).activity = .scan ∧ (noMatch p).enc.s = s.enc.s + 1 := by
  have hE := h.mid.sane.enc
  have hpos := h.pos
  have hn := h.n
  have hrun := h.mid.run
  have hnlt := hE.n
  have hmid : ScanMid (s.enc.s + 1) (noMatch p) :=
    h.mid.of rfl rfl rfl rfl rfl rfl { hE with s := by simp only [noMatch, modEnc_enc]; omega } rfl rfl rfl
      (by simp only [noMatch, modEnc_enc]; omega) (by simp only [noMatch, modEnc_enc]; omega) h.mid.written h.mid.sane.mem
      h.mid.sane.memFits
  refine ⟨hmid.inv (by simp only [noMatch, modEnc_enc]; omega) h.activity, h.activity, by simp only [noMatch, modEnc_enc]; omega⟩

/-- The match arm (R184): the command goes on behind the match, or has ended. -/
theorem inv_takeMatch {s p : State} (h : Probed s p) (hs : s.enc.s + 3 < s.enc.n) (hm : p.enc.e ≠ 0) :
    Inv (takeMatch p) ∧ ((takeMatch p).activity = .idle ∨
      ((takeMatch p).activity = .scan ∧ s.enc.s + 4 ≤ (takeMatch p).enc.s)) := by
  have hpos := h.pos
  have hn := h.n
  obtain ⟨-, ht⟩ := h.candidate hm
  unfold takeMatch
  rcases scanMid_flushLiteral h.mid h.activity (y := p.enc.s) h.mid.run h.mid.scan with ⟨bs, he, h1⟩ | ⟨hi, h1⟩
  · rw [he, unlessEnded_of_running (by simp [ended, h.activity])]
    obtain ⟨h2, hs2, ha2⟩ := scanMid_extendOp h1 (by simp only [emitted_enc]; omega) (by simp only [emitted_enc]; omega)
    have ha2' := ha2.trans h.activity
    simp only [emitted_enc] at hs2
    rcases scanMid_emitCopyLoop (turns := (extendOp (emitted p bs)).enc.mlen) h2 ha2' with ⟨h3, ha3, hs3, -⟩ | ⟨hi, h3⟩
    · have hrun : unlessEnded afterMatch (emitCopy (extendOp (emitted p bs))) =
          afterMatch (emitCopy (extendOp (emitted p bs))) := unlessEnded_of_running (by simp [ended, emitCopy, ha3])
      simp only [hrun]
      have hE := h3.sane.enc
      have h4 : ScanMid (s.enc.s + 1) (afterMatch (emitCopy (extendOp (emitted p bs)))) :=
        h3.of rfl rfl rfl rfl rfl rfl { hE with lit := hE.s } rfl rfl rfl (Nat.le_refl _) h3.scan h3.written h3.sane.mem
          h3.sane.memFits
      have hle : s.enc.s + 4 ≤ (afterMatch (emitCopy (extendOp (emitted p bs)))).enc.s := by
        show s.enc.s + 4 ≤ (emitCopyLoop _ _).enc.s
        rw [hs3]; omega
      exact ⟨h4.inv (by omega) ha3, .inr ⟨ha3, hle⟩⟩
    · have hend : unlessEnded afterMatch (emitCopy (extendOp (emitted p bs))) = emitCopy (extendOp (emitted p bs)) :=
        unlessEnded_of_ended (ended_iff.2 hi)
      simp only [hend]
      exact ⟨h3, .inl hi⟩
  · rw [unlessEnded_of_ended (ended_iff.2 hi)]
    exact ⟨h1, .inl hi⟩

theorem isMatch_entry {s : State} (h : isMatch s = true) : s.enc.e ≠ 0 := by
  simp only [isMatch, Bool.and_eq_true, decide_eq_true_eq] at h
  exact h.1.1.1.1.1

theorem scanPosition_eq (s : State) :
    scanPosition s = if isMatch (probed s) then takeMatch (probed s) else noMatch (probed s) := rfl

/-- A scan position keeps the invariant and moves on, or the command has ended. -/
theorem inv_scanPosition {s : State} (h : Inv s) (ha : s.activity = .scan) (hs : s.enc.s + 3 < s.enc.n) :
    Inv (scanPosition s) ∧ ((scanPosition s).activity = .idle ∨
      ((scanPosition s).activity = .scan ∧ s.enc.s + 1 ≤ (scanPosition s).enc.s)) := by
  have hp := probed_spec h ha hs
  rw [scanPosition_eq]
  split
  · rename_i hm
    obtain ⟨h1, h2⟩ := inv_takeMatch hp hs (isMatch_entry hm)
    exact ⟨h1, h2.imp id fun h => ⟨h.1, by omega⟩⟩
  · obtain ⟨h1, h2, h3⟩ := inv_noMatch hp hs
    exact ⟨h1, .inr ⟨h2, by omega⟩⟩

theorem inv_encodeFinish {b : Nat} {s : State} (h : ScanMid b s) : Inv (encodeFinish s) ∧ (encodeFinish s).activity = .idle := by
  unfold encodeFinish unlessEnded
  have hd := h.written
  have hdst := h.sane.ops.dstLen
  split
  · rename_i he
    exact ⟨inv_of_idle h.sane (ended_iff.1 he), ended_iff.1 he⟩
  · exact ⟨inv_succeed h.sane h.sane.enc.d, rfl⟩

theorem encodeFinish_ended {s : State} (h : s.activity = .idle) : encodeFinish s = s :=
  unlessEnded_of_ended (ended_iff.2 h)

/-- A step of the scan keeps the invariant; it moves on or ends the command. -/
theorem inv_scanStep {s : State} (h : Inv s) (ha : s.activity = .scan) :
    Inv (scanStep s) ∧ ((scanStep s).activity = .idle ∨
      ((scanStep s).activity = .scan ∧ s.enc.s + 3 < s.enc.n ∧ s.enc.s + 1 ≤ (scanStep s).enc.s)) := by
  unfold scanStep
  split
  · rename_i hs
    obtain ⟨h1, h2⟩ := inv_scanPosition h ha hs
    exact ⟨h1, h2.imp id fun h => ⟨h.1, hs, h.2⟩⟩
  · have hm := scanMid_of_inv h ha
    rcases scanMid_flushLiteral hm ha (y := s.enc.n) (by have := hm.run; have := hm.scan; omega) (Nat.le_refl _) with
      ⟨bs, he, h1⟩ | ⟨hi, h1⟩
    · rw [he]
      obtain ⟨h2, h3⟩ := inv_encodeFinish h1
      exact ⟨h2, .inl h3⟩
    · rw [encodeFinish_ended hi]
      exact ⟨h1, .inl hi⟩

end Sys2Proof.Machine
end

