-- ==== Sys2Proof/Laws/Progress.lean ====
section
/-! SUPPORT. Every micro-step keeps the invariant and moves the command on, so every command ends (R317). -/

namespace Sys2Proof.Machine

/-! ## The start of ENCODE (R182, R183) -/

theorem maxEncodedLength_ge (n : Nat) : 32 + n ≤ maxEncodedLength n := by
  simp only [maxEncodedLength, Config.maxLenConst, Config.maxLenDiv]; omega

/-- The prefix is written at destination offset 0 (R182). -/
theorem emitPrefix_eq {s : State} (hr : s.activity ≠ .idle) (hroom : 10 ≤ s.ops.dstLen) :
    emitPrefix s = (emitted (s.modEnc fun r => { r with d := 0 }) (varintBytes (BitVec.ofNat 64 s.enc.n))).modVu fun r =>
      { r with
        v := BitVec.ofNat 64 s.enc.n >>> (7 * (varintLen (BitVec.ofNat 64 s.enc.n) - 1))
        i := varintLen (BitVec.ofNat 64 s.enc.n) - 1 } := by
  have hl := varintLen_le (BitVec.ofNat 64 s.enc.n)
  unfold emitPrefix
  rw [emitBytes_fits (by exact hr) (by simp only [modEnc_enc, modEnc_ops, varintBytes_length]; omega),
    unlessEnded_of_running (by simp [ended, hr])]
  rfl

/-- The state in which ENCODE stands after its prefix. -/
def afterPrefix (s : State) : State := emitPrefix (startEncode s)

theorem afterPrefix_eq {s : State} (hroom : 10 ≤ s.ops.dstLen) :
    afterPrefix s = { s with
      enc := { s.enc with n := s.ops.srcLen, d := varintLen (BitVec.ofNat 64 s.ops.srcLen) }
      vu := { s.vu with
        v := BitVec.ofNat 64 s.ops.srcLen >>> (7 * (varintLen (BitVec.ofNat 64 s.ops.srcLen) - 1))
        i := varintLen (BitVec.ofNat 64 s.ops.srcLen) - 1 }
      mem := writeBytes s.mem s.ops.dstBase (varintBytes (BitVec.ofNat 64 s.ops.srcLen))
      activity := .encodeStart } := by
  unfold afterPrefix
  rw [emitPrefix_eq (s := startEncode s) (by simp) (by simpa using hroom)]
  have hd : 0 + (varintBytes (BitVec.ofNat 64 s.ops.srcLen)).length = varintLen (BitVec.ofNat 64 s.ops.srcLen) := by
    rw [varintBytes_length, Nat.zero_add]
  simp only [startEncode, State.modVu, State.modEnc, State.setActivity, emitted, hd, Nat.add_zero]

theorem encodeOpen_eq (s : State) (hroom : 10 ≤ s.ops.dstLen) : encodeOpen (startEncode s) = encodeBody (afterPrefix s) := by
  show unlessEnded encodeBody (afterPrefix s) = _
  rw [afterPrefix_eq hroom, unlessEnded_of_running rfl]

theorem sane_afterPrefix {s : State} (h : Sane s) (hv : ViewsGood s) (hroom : 10 ≤ s.ops.dstLen) :
    Sane (afterPrefix s) := by
  have hl := varintLen_le (BitVec.ofNat 64 s.ops.srcLen)
  have hdst := h.ops.dstLen
  have hE := h.enc
  have hve := hv.dstExists
  rw [afterPrefix_eq hroom]
  exact { h with
    enc := { hE with n := h.ops.srcLen, d := by simp only []; omega }
    vu := ⟨h.vu.sh, by simp only []; omega⟩
    mem := writeBytes_wf h.mem
    memFits := by
      show cellsWithin s.cfg.space _ _ = true
      exact writeBytes_within h.memFits (by rw [varintBytes_length]; omega) }

/-- The bytes of the stream of a source of four bytes or fewer (R183): the prefix and at most one literal. -/
theorem encodeBody_short {s : State} (hroom : 32 ≤ s.ops.dstLen) (hv : viewsOverlap s = false)
    (hn : s.ops.srcLen ≤ Config.shortInput) : encodeBody (afterPrefix s) =
      succeed (varintLen (BitVec.ofNat 64 s.ops.srcLen) +
          (if s.ops.srcLen = 0 then [] else literalElementBytes (afterPrefix s) 0 s.ops.srcLen).length) 0
        (emitted (afterPrefix s) (if s.ops.srcLen = 0 then [] else literalElementBytes (afterPrefix s) 0 s.ops.srcLen)) := by
  have hl := varintLen_le (BitVec.ofNat 64 s.ops.srcLen)
  have hA := afterPrefix_eq (s := s) (by omega)
  have hAn : (afterPrefix s).enc.n = s.ops.srcLen := by rw [hA]
  have hAd : (afterPrefix s).enc.d = varintLen (BitVec.ofNat 64 s.ops.srcLen) := by rw [hA]
  have hAo : (afterPrefix s).ops = s.ops := by rw [hA]
  have hAa : (afterPrefix s).activity = .encodeStart := by rw [hA]
  unfold encodeBody
  rw [hAn, if_pos hn]
  have hn' : s.ops.srcLen ≤ 4 := hn
  by_cases h0 : s.ops.srcLen = 0
  · simp only [h0, if_true, emitted_nil, List.length_nil, Nat.add_zero]
    unfold encodeFinish
    rw [unlessEnded_of_running (by simp [ended, hAa]), hAd, h0]
  · simp only [h0, if_false]
    have hlen : (literalElementBytes (afterPrefix s) 0 s.ops.srcLen).length ≤ 9 := by
      have := literalHeader_length_le (s.ops.srcLen - 0 - 1)
      simp only [literalElementBytes, List.length_append, readBytes_length]; omega
    rw [emitLiteral_eq (by simpa [viewsOverlap, hAo] using hv) (Nat.zero_le _) (by rw [hAo]) (by rw [hAd, hAo]; omega)
      (by omega), emitBytes_fits (by rw [hAa]; decide) (by rw [hAd, hAo]; omega)]
    unfold encodeFinish
    rw [unlessEnded_of_running (by simp [ended, hAa])]
    simp only [emitted_enc, hAd]

/-- A longer source goes on to the scan, at position 0 with an empty table. -/
theorem encodeBody_long {s : State} (hroom : 10 ≤ s.ops.dstLen) (hn : Config.shortInput < s.ops.srcLen) :
    ∃ k, 8 ≤ k ∧ k ≤ 14 ∧ (s.ops.srcLen ≤ 2 ^ k ∨ k = 14) ∧ (k = 8 ∨ 2 ^ (k - 1) < s.ops.srcLen) ∧
      encodeBody (afterPrefix s) = { afterPrefix s with
        enc := { (afterPrefix s).enc with tableSize := 2 ^ k, shift := 32 - k, s := 0, lit := 0 }
        table := []
        activity := .scan } := by
  have hA := afterPrefix_eq (s := s) hroom
  have hAn : (afterPrefix s).enc.n = s.ops.srcLen := by rw [hA]
  obtain ⟨k, h8, h14, hk1, hk2, hk⟩ := tableSetup_spec (afterPrefix s)
  rw [hAn] at hk1 hk2
  refine ⟨k, h8, h14, hk1, hk2, ?_⟩
  unfold encodeBody
  rw [hAn, if_neg (by omega), hk]
  rfl

theorem inv_startEncode {s : State} (h : Sane s) (hv : ViewsGood s) (hroom : maxEncodedLength s.ops.srcLen ≤ s.ops.dstLen) :
    Inv (startEncode s) where
  sane := { h with enc := { h.enc with n := h.ops.srcLen } }
  busy := ⟨⟨hv.srcExists, hv.dstExists, hv.disjoint⟩, rfl, hroom⟩

/-- ENCODE's opening ends a short input and brings any other to the scan. -/
theorem inv_encodeOpen_start {s : State} (h : Sane s) (hv : ViewsGood s)
    (hroom : maxEncodedLength s.ops.srcLen ≤ s.ops.dstLen) :
    Inv (encodeOpen (startEncode s)) ∧ ((encodeOpen (startEncode s)).activity = .idle ∨
      ((encodeOpen (startEncode s)).activity = .scan ∧ (encodeOpen (startEncode s)).enc.n = s.ops.srcLen)) := by
  have h32 := maxEncodedLength_ge s.ops.srcLen
  have hA := afterPrefix_eq (s := s) (by omega)
  have hS := sane_afterPrefix h hv (by omega)
  have hve := hv.dstExists
  have hdst := h.ops.dstLen
  have hl := varintLen_le (BitVec.ofNat 64 s.ops.srcLen)
  rw [encodeOpen_eq s (by omega)]
  by_cases hn : s.ops.srcLen ≤ Config.shortInput
  · rw [encodeBody_short (by omega) hv.disjoint hn]
    generalize hbs : (if s.ops.srcLen = 0 then [] else literalElementBytes (afterPrefix s) 0 s.ops.srcLen) = bs
    have hlen : bs.length ≤ 9 := by
      subst hbs
      have := literalHeader_length_le (s.ops.srcLen - 0 - 1)
      simp only [Config.shortInput] at hn
      split
      · simp
      · simp only [literalElementBytes, List.length_append, readBytes_length]; omega
    have hAd : (afterPrefix s).enc.d = varintLen (BitVec.ofNat 64 s.ops.srcLen) := by rw [hA]
    have hAo : (afterPrefix s).ops = s.ops := by rw [hA]
    have hAc : (afterPrefix s).cfg = s.cfg := by rw [hA]
    have hin : (afterPrefix s).ops.dstBase + (afterPrefix s).enc.d + bs.length ≤ (afterPrefix s).cfg.space := by
      rw [hAd, hAo, hAc]; omega
    refine ⟨inv_toIdle hS.cfg hS.ops ⟨?_, space_pos _, space_pos _⟩ (writeBytes_wf hS.mem)
      (writeBytes_within hS.memFits hin), .inl rfl⟩
    simp only [emitted_cfg, hAc]; omega
  · obtain ⟨k, h8, h14, hk1, hk2, hk⟩ := encodeBody_long (s := s) (by omega) (by omega)
    rw [hk]
    refine ⟨inv_of_scan ?_ ?_ rfl, .inr ⟨rfl, by simp only [hA]⟩⟩
    · have hE := hS.enc
      have hpow : (2 : Nat) ^ k ≤ 2 ^ 14 := Nat.pow_le_pow_right (by omega) h14
      exact { hS with
        enc := { hE with
          tableSize := by simp only []; omega
          shift := by simp only []; omega
          s := space_pos _
          lit := space_pos _ }
        table := rfl
        tableFits := rfl }
    · have h32k : 32 - (32 - k) = k := by omega
      refine ⟨⟨?_, ?_, ?_⟩, ?_, ?_, ?_, Nat.le_refl _, Nat.zero_le _, ?_, ⟨?_, ?_, ?_⟩, rfl⟩
      · simp only [hA]; exact hv.srcExists
      · simp only [hA]; exact hv.dstExists
      · simpa [hA, viewsOverlap] using hv.disjoint
      · simp only [hA]
      · simp only [hA]; omega
      · simp only [hA]; exact hroom
      · simp only [hA]; omega
      · simp only []; omega
      · simp only []; omega
      · simp only [h32k]

theorem startEncode_self {s : State} (ha : s.activity = .encodeStart) (hn : s.enc.n = s.ops.srcLen) : startEncode s = s := by
  obtain ⟨cfg, ops, resp, enc, dec, vu, table, mem, activity, host, free⟩ := s
  cases ha
  simp only [] at hn
  simp only [startEncode, State.setActivity, State.modEnc, ← hn]

theorem inv_encodeOpen {s : State} (h : Inv s) (ha : s.activity = .encodeStart) : Inv (encodeOpen s) ∧
    ((encodeOpen s).activity = .idle ∨ ((encodeOpen s).activity = .scan ∧ (encodeOpen s).enc.n = s.ops.srcLen)) := by
  have hp := h.encodeStart ha
  have := inv_encodeOpen_start h.sane hp.views (by rw [← hp.sourceLength]; exact hp.room)
  rwa [startEncode_self ha hp.sourceLength] at this

/-! ## Micro-steps -/

/-- Every micro-step keeps the invariant. -/
theorem inv_microStep {s : State} (h : Inv s) : Inv (microStep s) := by
  rcases microStep_cases s with ⟨u, ha, hi, ht, -, hm⟩ | ⟨i, rest, ha, hs, -, hsp, -, hm⟩ | ⟨-, hm, hact⟩
  · rw [hm]
    unfold decodeVarintByte
    split
    · exact inv_varintContItem h ha hi ht
    · exact inv_varintLastItem h ha hi
  · rw [hm]
    exact inv_runElement (inv_fetchElement h ha) ha hsp hs
  · rw [hm]
    unfold sequencerStep
    split
    · exact h
    · exact h
    · rename_i ha; exact (inv_putByte h ha).1
    · exact inv_varintLoopExit h
    · rename_i ha; exact inv_decodeFinal h ha
    · rename_i ha; exact (inv_encodeOpen h ha).1
    · rename_i ha; exact (inv_scanStep h ha).1

theorem inv_iterate_microStep {s : State} (h : Inv s) : ∀ k, Inv (microStep^[k] s)
  | 0 => h
  | k + 1 => by rw [Function.iterate_succ_apply']; exact inv_microStep (inv_iterate_microStep h k)

/-! ## Every command ends (R317) -/

/-- A varint byte: the next byte, the first element, or the end of the command. -/
theorem varint_progress {s : State} {u : VarintUser} (ha : s.activity = .varint u) :
    (microStep s).activity = .idle ∨
    (s.vu.i < s.ops.srcLen ∧ s.vu.i < 10 ∧ (microStep s).activity = .varint u ∧ (microStep s).vu.i = s.vu.i + 1 ∧
      (microStep s).ops = s.ops) ∨
    (s.vu.i < s.ops.srcLen ∧ u = .decode ∧ (microStep s).activity = .elements ∧ (microStep s).dec.s = s.vu.i + 1 ∧
      (microStep s).dec.L = s.dec.L ∧ (microStep s).ops = s.ops) := by
  rcases microStep_cases s with ⟨v, hv, hi, ht, -, hm⟩ | ⟨i, rest, hel, -⟩ | ⟨-, hm, -⟩
  · rw [hm]
    unfold decodeVarintByte
    split
    · exact .inr (.inl ⟨hi, ht, ha, rfl, rfl⟩)
    · show (varintLastItem _ s).activity = _ ∨ ((_ ∧ _ ∧ (varintLastItem _ s).activity = _ ∧ (varintLastItem _ s).vu.i = _ ∧
        (varintLastItem _ s).ops = _)) ∨ _ ∧ _ ∧ (varintLastItem _ s).activity = _ ∧ (varintLastItem _ s).dec.s = _ ∧
        (varintLastItem _ s).dec.L = _ ∧ (varintLastItem _ s).ops = _
      unfold varintLastItem
      split
      · exact .inl rfl
      · unfold varintDone
        cases u
        · simp only [modVu_activity, ha]
          exact .inl rfl
        · simp only [modVu_activity, ha]
          unfold decodePrefix
          split
          · exact .inl rfl
          · exact .inr (.inr ⟨hi, trivial, rfl, rfl, rfl, rfl⟩)
  · rw [hel] at ha; cases ha
  · rw [hm]
    refine .inl ?_
    unfold sequencerStep
    simp only [ha]
    unfold varintLoopExit varintIncomplete
    split
    · split <;> rfl
    · rfl

theorem literalElement_progress (s : State) : (literalElement s).activity = .idle ∨
    ((literalElement s).activity = s.activity ∧ s.dec.s < (literalElement s).dec.s ∧ (literalElement s).dec.L = s.dec.L) := by
  unfold literalElement literalChecked
  split
  · exact .inl rfl
  · split
    · exact .inl rfl
    · split
      · exact .inl rfl
      · rw [replayLiteral_eq]
        exact .inr ⟨rfl, Nat.lt_add_of_pos_right (Nat.succ_pos _), rfl⟩

theorem literalForm_progress {header : Nat} {x : BitVec 32} (s : State) : (literalForm header x s).activity = .idle ∨
    ((literalForm header x s).activity = s.activity ∧ s.dec.s < (literalForm header x s).dec.s ∧
      (literalForm header x s).dec.L = s.dec.L) := by
  unfold literalForm
  split
  · exact .inl rfl
  · rcases literalElement_progress (s.modDec fun r => { r with x := x, s := r.s + header }) with h | ⟨h1, h2, h3⟩
    · exact .inl h
    · simp only [modDec_dec] at h2
      exact .inr ⟨h1, by omega, h3⟩

theorem copyElement_progress (s : State) : (copyElement s).activity = .idle ∨
    ((copyElement s).activity = s.activity ∧ (copyElement s).dec.s = s.dec.s ∧ (copyElement s).dec.L = s.dec.L) := by
  unfold copyElement
  split
  · exact .inl rfl
  · split
    · exact .inl rfl
    · rw [copyReplay_eq]; exact .inr ⟨rfl, rfl, rfl⟩

/-- Every element moves the source cursor on or ends the command (R214). -/
theorem element_progress {i : Instr} (hi : i.space = .element) (s : State) : (runItem i s).activity = .idle ∨
    ((runItem i s).activity = s.activity ∧ s.dec.s < (runItem i s).dec.s ∧ (runItem i s).dec.L = s.dec.L) := by
  cases i with
  | lit0 n =>
    rcases literalElement_progress (s.modDec fun r => { r with x := n.setWidth 32, s := r.s + 1 }) with h | ⟨h1, h2, h3⟩
    · exact .inl h
    · simp only [modDec_dec] at h2
      exact .inr ⟨h1, by simp only [runItem, lit0Item]; omega, h3⟩
  | lit1 n => exact literalForm_progress s
  | lit2 n => exact literalForm_progress s
  | lit3 n => exact literalForm_progress s
  | lit4 n => exact literalForm_progress s
  | copy1 l o =>
    simp only [runItem, copy1Item]
    split
    · exact .inl rfl
    · rcases copyElement_progress (s.modDec fun r => { r with len := copy1Len l, off := o.toNat, s := r.s + 2 }) with
        h | ⟨h1, h2, h3⟩
      · exact .inl h
      · exact .inr ⟨h1, by rw [h2]; simp only [modDec_dec]; omega, h3⟩
  | copy2 l o =>
    simp only [runItem, copy2Item]
    split
    · exact .inl rfl
    · rcases copyElement_progress (s.modDec fun r => { r with len := copy2Len l, off := o.toNat, s := r.s + 3 }) with
        h | ⟨h1, h2, h3⟩
      · exact .inl h
      · exact .inr ⟨h1, by rw [h2]; simp only [modDec_dec]; omega, h3⟩
  | copy4 u => exact .inl rfl
  | varintCont _ => cases hi
  | varintLast _ => cases hi
  | maxEncodedLen => cases hi
  | putUvarint => cases hi
  | uvarint => cases hi
  | encode => cases hi
  | decode => cases hi

theorem elements_progress {s : State} (ha : s.activity = .elements) : (microStep s).activity = .idle ∨
    (s.dec.s < s.dec.L ∧ (microStep s).activity = .elements ∧ s.dec.s < (microStep s).dec.s ∧
      (microStep s).dec.L = s.dec.L) := by
  rcases microStep_cases s with ⟨v, hv, -⟩ | ⟨i, rest, -, hs, -, hsp, -, hm⟩ | ⟨-, hm, -⟩
  · rw [hv] at ha; cases ha
  · rw [hm]
    rcases element_progress hsp (fetchElement s) with h | ⟨h1, h2, h3⟩
    · exact .inl h
    · exact .inr ⟨hs, h1.trans ha, h2, h3⟩
  · rw [hm]
    refine .inl ?_
    unfold sequencerStep decodeFinal
    simp only [ha]
    split <;> rfl

/-- UVARINT reads at most ten bytes. -/
theorem uvarint_ends (s : State) : ∃ t, runToIdle 11 (startVarint .uvarint s) = .next t := by
  refine runToIdle_ends (P := fun u => u.activity = .idle ∨ u.activity = .varint .uvarint)
    (μ := fun u => min u.ops.srcLen 10 - u.vu.i) ?_ (.inr rfl) (.inr ?_)
  · intro u hu hne
    rcases hu with hu | hu
    · exact absurd hu hne
    · rcases varint_progress hu with h | ⟨hi, ht, h1, h2, h3⟩ | ⟨-, h, -⟩
      · exact ⟨.inl h, .inl h⟩
      · refine ⟨.inr h1, .inr ?_⟩
        simp only [h2, h3]; omega
      · cases h
  · show min s.ops.srcLen 10 - 0 < 11
    omega

/-- How much of the stream is left to a DECODE. -/
def decodeLeft (s : State) : Nat :=
  match s.activity with
  | .idle => 0
  | .issued => 0
  | .putBytes => 0
  | .varint _ => s.ops.srcLen + 1 - s.vu.i
  | .elements => s.dec.L - s.dec.s
  | .encodeStart => 0
  | .scan => 0

theorem decode_ends {s : State} (h : Inv s) (ha : s.activity = .varint .decode) (hi : s.vu.i = 0) :
    ∃ t, runToIdle (s.ops.srcLen + 2) s = .next t := by
  refine runToIdle_ends (P := fun u => Inv u ∧ (u.activity = .idle ∨ u.activity = .varint .decode ∨ u.activity = .elements))
    (μ := decodeLeft) ?_ ⟨h, .inr (.inl ha)⟩ (.inr ?_)
  · rintro u ⟨hu, hact⟩ hne
    refine ⟨⟨inv_microStep hu, ?_⟩, ?_⟩
    · rcases hact with hact | hact | hact
      · exact absurd hact hne
      · rcases varint_progress hact with h | ⟨-, -, h, -⟩ | ⟨-, -, h, -⟩
        · exact .inl h
        · exact .inr (.inl h)
        · exact .inr (.inr h)
      · rcases elements_progress hact with h | ⟨-, h, -⟩
        · exact .inl h
        · exact .inr (.inr h)
    · rcases hact with hact | hact | hact
      · exact absurd hact hne
      · have hL := (hu.prefix hact).2.2
        rcases varint_progress hact with h | ⟨h0, -, h, h2, h3⟩ | ⟨h0, -, h, h2, h3, -⟩
        · exact .inl h
        · refine .inr ?_
          simp only [decodeLeft, hact, h, h2, h3]; omega
        · refine .inr ?_
          simp only [decodeLeft, hact, h, h2, h3]; omega
      · rcases elements_progress hact with h | ⟨h0, h, h2, h3⟩
        · exact .inl h
        · refine .inr ?_
          simp only [decodeLeft, hact, h, h3]; omega
  · simp only [decodeLeft, ha, hi]; omega

/-- How much of the source is left to an ENCODE, and its opening. -/
def encodeLeft (s : State) : Nat := if s.activity = .encodeStart then s.ops.srcLen + 1 else s.ops.srcLen - s.enc.s

theorem encode_ends {s : State} (h : Inv s) (ha : s.activity = .encodeStart) :
    ∃ t, runToIdle (s.ops.srcLen + 3) s = .next t := by
  refine runToIdle_ends (P := fun u => Inv u ∧ (u.activity = .idle ∨ u.activity = .encodeStart ∨ u.activity = .scan))
    (μ := encodeLeft) ?_ ⟨h, .inr (.inl ha)⟩ (.inr (by simp only [encodeLeft, ha, if_true]; omega))
  rintro u ⟨hu, hact⟩ hne
  rcases hact with hact | hact | hact
  · exact absurd hact hne
  · have hm : microStep u = encodeOpen u := by simp [microStep, fetchItem, sequencerStep, hact]
    obtain ⟨h1, h2⟩ := inv_encodeOpen hu hact
    have hops := (stays_encodeOpen u).ops
    rw [hm]
    refine ⟨⟨h1, h2.imp id fun h => .inr h.1⟩, h2.imp id fun h => ?_⟩
    simp only [encodeLeft, hact, h.1, hops, if_true]
    simp only [reduceCtorEq, if_false]
    omega
  · have hm : microStep u = scanStep u := by simp [microStep, fetchItem, sequencerStep, hact]
    obtain ⟨h1, h2⟩ := inv_scanStep hu hact
    rw [hm]
    refine ⟨⟨h1, h2.imp id fun h => .inr h.1⟩, h2.imp id fun h => ?_⟩
    have hops := (stays_scanStep u).ops
    have hn := (hu.scan hact).sourceLength
    simp only [encodeLeft, hact, h.1, hops, reduceCtorEq, if_false]
    omega

/-- PUT_UVARINT writes at most ten bytes. -/
theorem put_ends {s : State} (h : Inv s) (ha : s.activity = .putBytes) : ∃ t, runToIdle 11 s = .next t := by
  refine runToIdle_ends (P := fun u => Inv u ∧ (u.activity = .idle ∨ u.activity = .putBytes))
    (μ := fun u => 10 - u.vu.i) ?_ ⟨h, .inr ha⟩ (.inr (by omega))
  rintro u ⟨hu, hact⟩ hne
  rcases hact with hact | hact
  · exact absurd hact hne
  · have hm : microStep u = putByte u := by simp [microStep, fetchItem, sequencerStep, hact]
    obtain ⟨h1, h2⟩ := inv_putByte hu hact
    have hp := (hu.putBytes hact).left
    have hl := varintLen_le u.ops.valueIn
    have hl1 := varintLen_pos u.vu.v
    rw [hm]
    exact ⟨⟨h1, h2.imp id And.left⟩, h2.imp id fun h => by rw [h.2]; omega⟩

end Sys2Proof.Machine
end

