-- ==== Sys2Proof/Laws/Replay.lean ====
section
/-! SUPPORT. The byte moves of the replay engine in closed form: a literal is a block move (R251), a copy repeats the bytes
before the cursor (R254) or, with offset 0, changes nothing (R255). -/

namespace Sys2Proof.Machine

/-- With disjoint views the byte moves of a literal are one block move (R251). -/
theorem replayLiteral_mem : ∀ {len sp dp : Nat} {s : State}, viewsOverlap s = false → sp + len ≤ s.ops.srcLen →
    dp + len ≤ s.ops.dstLen →
    (replayLiteral len sp dp s).mem = writeBytes s.mem (s.ops.dstBase + dp) (readBytes s.mem (s.ops.srcBase + sp) len)
  | 0, _, _, _, _, _, _ => rfl
  | len + 1, sp, dp, s, hv, hs, hd => by
    show (replayLiteral len (sp + 1) (dp + 1) (dstW s dp (src s sp))).mem =
      writeBytes (writeByte s.mem (s.ops.dstBase + dp) (src s sp)) (s.ops.dstBase + dp + 1)
        (readBytes s.mem (s.ops.srcBase + sp + 1) len)
    rw [replayLiteral_mem (by exact hv) (by rw [dstW_ops]; omega) (by rw [dstW_ops]; omega)]
    simp only [dstW_ops, dstW_mem]
    congr 1
    apply List.ext_getElem
    · simp only [readBytes_length]
    · intro j h1 h2
      simp only [readBytes_length] at h1
      rw [readBytes_getElem, readBytes_getElem]
      have := views_apart hv (i := sp + 1 + j) (j := dp) (by omega) (by omega)
      rw [readByte_writeByte_ne (by omega)]
      congr 1

/-- The destination bytes after a literal. -/
theorem dst_replayLiteral {len sp dp : Nat} {s : State} (hm : s.mem.wf = true) (hv : viewsOverlap s = false)
    (hs : sp + len ≤ s.ops.srcLen) (hd : dp + len ≤ s.ops.dstLen) {j : Nat} (hj : j < len) :
    dst (replayLiteral len sp dp s) (dp + j) = src s (sp + j) := by
  unfold dst src
  have hops : (replayLiteral len sp dp s).ops = s.ops := by rw [replayLiteral_eq]
  rw [hops, replayLiteral_mem hv hs hd, readByte_writeBytes hm, dif_pos (by rw [readBytes_length]; omega), readBytes_getElem]
  congr 1
  omega

theorem dst_copyByte {s : State} (hm : s.mem.wf = true) (i : Nat) :
    dst (copyByte s) i = if i = s.dec.d then dst s (s.dec.d - s.dec.off) else dst s i := by
  show readByte (writeByte s.mem (s.ops.dstBase + s.dec.d) _) (s.ops.dstBase + i) = _
  rw [readByte_writeByte hm]
  by_cases h : i = s.dec.d
  · simp [h]
  · rw [if_neg h, if_neg (by omega)]; rfl

/-- A copy leaves every other destination byte alone. -/
theorem dst_copyReplay_outside : ∀ {len : Nat} {s : State} {i : Nat}, (i < s.dec.d ∨ s.dec.d + len ≤ i) →
    dst (copyReplay len s) i = dst s i
  | 0, _, _, _ => rfl
  | len + 1, s, i, h => by
    show dst (copyReplay len (copyByte s)) i = _
    rw [dst_copyReplay_outside (by rw [copyByte_d]; omega)]
    show readByte (writeByte s.mem (s.ops.dstBase + s.dec.d) _) (s.ops.dstBase + i) = _
    rw [readByte_writeByte_ne (by omega)]
    rfl

/-- A copy with a positive offset repeats the `off` bytes before the cursor (R254). -/
theorem dst_copyReplay : ∀ {len : Nat} {s : State} {j : Nat}, s.mem.wf = true → 0 < s.dec.off → s.dec.off ≤ s.dec.d →
    j < len → dst (copyReplay len s) (s.dec.d + j) = dst s (s.dec.d - s.dec.off + j % s.dec.off)
  | len + 1, s, j, hm, h0, hd, hj => by
    show dst (copyReplay len (copyByte s)) _ = _
    cases j with
    | zero =>
      rw [dst_copyReplay_outside (by rw [copyByte_d]; omega), dst_copyByte hm]
      simp
    | succ j =>
      have hoff : (copyByte s).dec.off = s.dec.off := rfl
      have h := dst_copyReplay (len := len) (s := copyByte s) (j := j) (writeByte_wf hm) h0 (by rw [copyByte_d, hoff]; omega)
        (by omega)
      rw [copyByte_d, hoff] at h
      rw [show s.dec.d + (j + 1) = s.dec.d + 1 + j by omega, h, dst_copyByte hm]
      have hlt := Nat.mod_lt j h0
      have hmod : (j + 1) % s.dec.off = if j % s.dec.off + 1 = s.dec.off then 0 else j % s.dec.off + 1 := by
        rw [Nat.add_mod]
        by_cases h1 : s.dec.off = 1
        · simp [h1, Nat.mod_one]
        · rw [Nat.mod_eq_of_lt (a := 1) (by omega)]
          split
          · rename_i he; rw [he, Nat.mod_self]
          · exact Nat.mod_eq_of_lt (by omega)
      rw [hmod]
      by_cases he : j % s.dec.off + 1 = s.dec.off
      · rw [if_pos he, if_pos (by omega)]
        rfl
      · rw [if_neg he, if_neg (by omega)]
        congr 1
        omega

/-- A copy with offset 0 writes every byte back where it stood (R255). -/
theorem dst_copyReplay_zero : ∀ {len : Nat} {s : State} (i : Nat), s.mem.wf = true → s.dec.off = 0 →
    dst (copyReplay len s) i = dst s i
  | 0, _, _, _, _ => rfl
  | len + 1, s, i, hm, h0 => by
    show dst (copyReplay len (copyByte s)) i = _
    rw [dst_copyReplay_zero (s := copyByte s) i (writeByte_wf hm) h0, dst_copyByte hm]
    split
    · rename_i h; rw [h0, Nat.sub_zero, h]
    · rfl

/-! ## What an element leaves, once its checks have passed -/

theorem readByte_copyReplay_outside : ∀ {len : Nat} {s : State} {a : Nat},
    (a < s.ops.dstBase + s.dec.d ∨ s.ops.dstBase + s.dec.d + len ≤ a) → readByte (copyReplay len s).mem a = readByte s.mem a
  | 0, _, _, _ => rfl
  | len + 1, s, a, h => by
    show readByte (copyReplay len (copyByte s)).mem a = _
    have hops : (copyByte s).ops = s.ops := rfl
    rw [readByte_copyReplay_outside (by rw [copyByte_d, hops]; omega)]
    exact readByte_writeByte_ne (by omega)

/-- COPY1 and COPY2 past their checks (R253 to R255). -/
theorem copyElement_done {s : State} (hm : s.mem.wf = true) (hoff : s.dec.off ≤ s.dec.d)
    (hroom : s.dec.d + s.dec.len ≤ s.dec.dLen) :
    ElementDone s (copyElement s) { s.dec with d := s.dec.d + s.dec.len } s.dec.len
      (fun j => if s.dec.off = 0 then dst s (s.dec.d + j) else dst s (s.dec.d - s.dec.off + j % s.dec.off)) := by
  unfold copyElement
  rw [if_neg (Nat.not_lt.2 hoff), if_neg (Nat.not_lt.2 hroom)]
  refine ⟨by rw [copyReplay_eq], fun j hj => ?_, fun a ha => readByte_copyReplay_outside ha, by rw [copyReplay_eq]⟩
  by_cases h0 : s.dec.off = 0
  · simp only [h0, if_true]; exact dst_copyReplay_zero _ hm h0
  · simp only [h0, if_false]; exact dst_copyReplay hm (by omega) hoff hj

/-- A literal past its checks (R221, R251); `s` stands on the first literal byte. -/
theorem literalElement_done {s : State} (hm : s.mem.wf = true) (hv : viewsOverlap s = false)
    (hL : s.dec.L ≤ s.ops.srcLen) (hD : s.dec.dLen ≤ s.ops.dstLen) (hlen : literalLen s.dec.x < 2 ^ 32)
    (hd : literalLen s.dec.x ≤ s.dec.dLen - s.dec.d) (hs : literalLen s.dec.x ≤ s.dec.L - s.dec.s) :
    ElementDone s (literalElement s)
      { s.dec with len := literalLen s.dec.x, s := s.dec.s + literalLen s.dec.x, d := s.dec.d + literalLen s.dec.x }
      (literalLen s.dec.x) (fun j => src s (s.dec.s + j)) := by
  have hpos : 0 < literalLen s.dec.x := Nat.succ_pos _
  generalize hs' : (s.modDec fun r => { r with len := literalLen r.x }) = s'
  have hx : literalLen32 s'.dec.x ≠ 0 := by
    subst hs'
    simp only [modDec_dec, literalLen32]
    rw [Nat.mod_eq_of_lt hlen]; omega
  have h1 : ¬ s'.dec.dLen - s'.dec.d < s'.dec.len := by subst hs'; exact Nat.not_lt.2 hd
  have h2 : ¬ s'.dec.L - s'.dec.s < s'.dec.len := by subst hs'; exact Nat.not_lt.2 hs
  unfold literalElement literalChecked
  rw [hs', if_neg hx, if_neg h1, if_neg h2]
  have hmem : (replayLiteral s'.dec.len s'.dec.s s'.dec.d s').mem =
      writeBytes s.mem (s.ops.dstBase + s.dec.d) (readBytes s.mem (s.ops.srcBase + s.dec.s) (literalLen s.dec.x)) := by
    subst hs'
    refine replayLiteral_mem hv ?_ ?_
    · simp only [modDec_dec, modDec_ops]; omega
    · simp only [modDec_dec, modDec_ops]; omega
  have hbytes : ∀ j, j < literalLen s.dec.x →
      dst (replayLiteral s'.dec.len s'.dec.s s'.dec.d s') (s.dec.d + j) = src s (s.dec.s + j) := by
    subst hs'
    intro j hj
    refine dst_replayLiteral (s := s.modDec fun r => { r with len := literalLen r.x }) hm hv ?_ ?_ hj
    · simp only [modDec_dec, modDec_ops]; omega
    · simp only [modDec_dec, modDec_ops]; omega
  have hdec : (replayLiteral s'.dec.len s'.dec.s s'.dec.d s').dec = s'.dec := by rw [replayLiteral_eq]
  refine ⟨?_, fun j hj => hbytes j hj, fun a ha => ?_, ?_⟩
  · simp only [modDec_dec, hdec]; subst hs'; rfl
  · rw [modDec_mem, hmem]
    exact readByte_writeBytes_outside (by rw [readBytes_length]; exact ha)
  · rw [replayLiteral_eq]; subst hs'; rfl

end Sys2Proof.Machine
end

