-- ==== Sys2Proof/Laws/Step.lean ====
section
/-! SUPPORT. One step of the machine by the state it is in: a move of the host, a reset, a stream item, a micro-step. -/

namespace Sys2Proof.Machine

theorem step_idle {s : State} (ha : s.activity = .idle) : step s = hostStep s := by simp only [step, ha]

theorem step_busyStep {s : State} (ha : s.activity ≠ .idle) : step s = busyStep s := by
  unfold step
  split
  · contradiction
  · rfl

theorem step_noMove {s : State} (ha : s.activity = .idle) (hh : s.host = []) : step s = .next s := by
  rw [step_idle ha]; simp only [hostStep, hh]

theorem step_writeReg {s : State} {r : Reg} {v : Value} {rest : List HostMove} (ha : s.activity = .idle)
    (hh : s.host = .writeReg r v :: rest) : step s = .next (writeReg r v { s with host := rest }) := by
  rw [step_idle ha]; simp only [hostStep, hh]

theorem step_writeMem {s : State} {a : Nat} {b : Byte} {rest : List HostMove} (ha : s.activity = .idle)
    (hh : s.host = .writeMem a b :: rest) : step s = hostWriteMem a b { s with host := rest } := by
  rw [step_idle ha]; simp only [hostStep, hh]

theorem step_launch {s : State} {rest : List HostMove} (ha : s.activity = .idle) (hh : s.host = .launch :: rest) :
    step s = .next { s with host := rest, activity := .issued } := by
  rw [step_idle ha]; simp only [hostStep, hh]

theorem step_wait {s : State} {rest : List HostMove} (ha : s.activity = .idle) (hh : s.host = .wait :: rest) :
    step s = .next { s with host := rest } := by
  rw [step_idle ha]; simp only [hostStep, hh]

theorem step_issue {s : State} {rest : List HostMove} (ha : s.activity = .idle) (hh : s.host = .issue :: rest) :
    step s = issueCommand { s with host := rest } := by
  rw [step_idle ha]; simp only [hostStep, hh]

/-- Reset is taken at once, by an idle core and inside a command (R310). -/
theorem step_reset {s : State} {rest : List HostMove} (hh : s.host = .reset :: rest) :
    step s = .next (resetCore { s with host := rest }) := by
  by_cases ha : s.activity = .idle
  · rw [step_idle ha]; simp only [hostStep, hh]
  · rw [step_busyStep ha]; simp only [busyStep, hh]

/-- Inside a command the bounds hold in every state with the invariant (R52). -/
theorem busyBounds_of_inv {s : State} (h : Inv s) : busyBounds s = true := by
  unfold busyBounds
  split
  · rfl
  · rfl
  · rename_i ha
    have hp := h.putBytes ha
    have h1 := hp.dstExists
    have h2 := hp.room
    have h3 := hp.left
    have h4 := varintLen_pos s.vu.v
    simp only [putBounds, dstWraps, Bool.and_eq_true, decide_eq_true_eq, Bool.not_eq_true', decide_eq_false_iff_not]
    omega
  · rename_i ha
    have h1 := (h.uvarint ha).srcExists
    simp only [srcWraps, Bool.not_eq_true', decide_eq_false_iff_not]; omega
  · rename_i ha
    have h1 := (h.prefix ha).1.srcExists
    simp only [srcWraps, Bool.not_eq_true', decide_eq_false_iff_not]; omega
  · rename_i ha
    have hp := h.elements ha
    have h1 := hp.streamLength
    have h2 := hp.declared
    have h3 := hp.views.srcExists
    have h4 := hp.views.dstExists
    simp only [decoderBounds, srcWraps, dstWraps, Bool.and_eq_true, decide_eq_true_eq, Bool.not_eq_true',
      decide_eq_false_iff_not]
    omega
  · rename_i ha
    have hp := h.encodeStart ha
    have h1 := hp.sourceLength
    have h3 := hp.views.srcExists
    have h4 := hp.views.dstExists
    simp only [encodeStartBounds, srcWraps, dstWraps, Bool.and_eq_true, decide_eq_true_eq, Bool.not_eq_true',
      decide_eq_false_iff_not]
    omega
  · rename_i ha
    have hp := h.scan ha
    have h1 := hp.sourceLength
    have h2 := hp.run
    have h3 := hp.views.srcExists
    have h4 := hp.views.dstExists
    have h5 := hp.scan
    have h6 := hp.entries
    simp only [encoderBounds, srcWraps, dstWraps, Bool.and_eq_true, decide_eq_true_eq, Bool.not_eq_true',
      decide_eq_false_iff_not, List.all_eq_true]
    simp only [cellsWithin, List.all_eq_true, Bool.and_eq_true, decide_eq_true_eq] at h6
    exact ⟨⟨⟨⟨⟨by omega, by omega⟩, by omega⟩, by omega⟩, by omega⟩, fun c hc => (h6 c hc).2⟩

/-- The step of an issued command is its entry. -/
theorem step_issued {s : State} (ha : s.activity = .issued) (hr : s.host.head? ≠ some .reset) :
    step s = enterCommand (useWait s) := by
  rw [step_busyStep (by rw [ha]; decide), busyStep_eq_commandStep hr]
  unfold commandStep
  rw [if_pos (by rw [useWait_activity, ha])]

/-- After its entry a command goes on by one micro-step a step, from every state with the invariant. -/
theorem step_microStep {s : State} (h : Inv s) (ha : s.activity ≠ .idle) (hi : s.activity ≠ .issued)
    (hr : s.host.head? ≠ some .reset) : step s = .next (microStep (useWait s)) := by
  rw [step_busyStep ha, busyStep_eq_commandStep hr,
    commandStep_eq_microStep (by rw [useWait_activity]; exact hi) (busyBounds_of_inv (inv_useWait h))]

/-- Inside a command a step runs the stream item that is fetched. -/
theorem step_fetched {s : State} (h : Inv s) (ha : s.activity ≠ .idle) (hi : s.activity ≠ .issued)
    (hr : s.host.head? ≠ some .reset) {p : Instr × State} (hf : fetchItem (useWait s) = some p) : step s = exec p.1 p.2 := by
  rw [step_busyStep ha, busyStep_eq_commandStep hr]
  unfold commandStep
  rw [if_neg (by rw [useWait_activity]; exact hi), if_pos (busyBounds_of_inv (inv_useWait h)), hf]

/-! ## The entry of a command -/

theorem inv_badOpcode {s : State} (h : Sane s) : Inv (badOpcode s) := inv_failClean h

theorem enterUvarint_cases {s : State} (h : Sane s) : ∃ u, enterUvarint s = .next u ∧ Inv u ∧
    (u.activity = .idle ∨ u = startVarint .uvarint s) := by
  by_cases hw : srcWraps s = true
  · exact ⟨_, by unfold enterUvarint; rw [if_pos hw], inv_failClean h, .inl rfl⟩
  · exact ⟨_, by unfold enterUvarint; rw [if_neg hw], inv_startVarint_uvarint h (Bool.eq_false_iff.2 hw), .inr rfl⟩

theorem viewsGood_of {s : State} (hw : ¬(srcWraps s || dstWraps s) = true) (ho : ¬viewsOverlap s = true) : ViewsGood s := by
  simp only [srcWraps, dstWraps, Bool.or_eq_true, decide_eq_true_eq, not_or, Nat.not_lt] at hw
  exact ⟨hw.1, hw.2, Bool.eq_false_iff.2 ho⟩

theorem enterEncode_cases {s : State} (h : Sane s) : (viewsOverlap s = true ∧ enterEncode s = .refused .overlappingViews) ∨
    ∃ u, enterEncode s = .next u ∧ Inv u ∧ (u.activity = .idle ∨
      (u = startEncode s ∧ ViewsGood s ∧ maxEncodedLength s.ops.srcLen ≤ s.ops.dstLen)) := by
  unfold enterEncode
  split
  · exact .inr ⟨_, rfl, inv_failClean h, .inl rfl⟩
  · split
    · exact .inl ⟨‹_›, rfl⟩
    · split
      · exact .inr ⟨_, rfl, inv_failClean h, .inl rfl⟩
      · rename_i hw ho hr
        have hv := viewsGood_of hw ho
        exact .inr ⟨_, rfl, inv_startEncode h hv (by omega), .inr ⟨rfl, hv, by omega⟩⟩

theorem enterDecode_cases {s : State} (h : Sane s) : (viewsOverlap s = true ∧ enterDecode s = .refused .overlappingViews) ∨
    ∃ u, enterDecode s = .next u ∧ Inv u ∧ (u.activity = .idle ∨ (u = startDecode s ∧ ViewsGood s)) := by
  unfold enterDecode
  split
  · exact .inr ⟨_, rfl, inv_failClean h, .inl rfl⟩
  · split
    · exact .inl ⟨‹_›, rfl⟩
    · rename_i hw ho
      have hv := viewsGood_of hw ho
      exact .inr ⟨_, rfl, inv_startDecode h hv, .inr ⟨rfl, hv⟩⟩

theorem inv_maxEncodedLen {s : State} (h : Sane s) : Inv (maxEncodedLen s) := inv_succeed h (space_pos _)

/-- The entry of an issued command answers a state with the invariant, or refuses views that share an address (R57). -/
theorem enterCommand_cases {s : State} (h : Sane s) : (∃ u, enterCommand s = .next u ∧ Inv u) ∨
    ((s.ops.op = 3 ∨ s.ops.op = 4) ∧ viewsOverlap s = true ∧ enterCommand s = .refused .overlappingViews) := by
  unfold enterCommand decodeCommand
  split_ifs
  · exact .inl ⟨_, rfl, inv_maxEncodedLen h⟩
  · exact .inl ⟨_, rfl, inv_putEntry h fun hw hr => inv_startPut h hw hr⟩
  · obtain ⟨u, h1, h2, -⟩ := enterUvarint_cases h
    exact .inl ⟨u, h1, h2⟩
  · rcases enterEncode_cases h with ⟨ho, he⟩ | ⟨u, h1, h2, -⟩
    · exact .inr ⟨.inl ‹_›, ho, he⟩
    · exact .inl ⟨u, h1, h2⟩
  · rcases enterDecode_cases h with ⟨ho, he⟩ | ⟨u, h1, h2, -⟩
    · exact .inr ⟨.inr ‹_›, ho, he⟩
    · exact .inl ⟨u, h1, h2⟩
  · exact .inl ⟨_, rfl, inv_badOpcode h⟩

/-- How far a command in progress can have written stays in memory (R276, R310). -/
theorem writeLimit_inMemory {s : State} (h : Inv s) : s.ops.dstBase + writeLimit s ≤ s.cfg.space := by
  have hb := h.sane.ops.dstBase
  unfold writeLimit
  split
  · omega
  · omega
  · rename_i ha
    have hp := h.putBytes ha
    have h1 := hp.dstExists
    have h2 := hp.room
    omega
  · omega
  · rename_i ha; exact (h.elements ha).inMemory
  · rename_i ha; exact (h.encodeStart ha).views.dstExists
  · rename_i ha; exact (h.scan ha).views.dstExists

/-- The view checks (R51, R281), as the sums they compare. -/
theorem srcWraps_iff (s : State) : srcWraps s = true ↔ 2 ^ s.cfg.aw < s.ops.srcBase + s.ops.srcLen := by
  unfold srcWraps
  exact decide_eq_true_iff

theorem dstWraps_iff (s : State) : dstWraps s = true ↔ 2 ^ s.cfg.aw < s.ops.dstBase + s.ops.dstLen := by
  unfold dstWraps
  exact decide_eq_true_iff

theorem ViewsGood.srcFits {s : State} (h : ViewsGood s) : srcWraps s = false := by
  have h1 := h.srcExists
  simp only [srcWraps, decide_eq_false_iff_not]; omega

theorem ViewsGood.dstFits {s : State} (h : ViewsGood s) : dstWraps s = false := by
  have h1 := h.dstExists
  simp only [dstWraps, decide_eq_false_iff_not]; omega

/-- Where one address lies in both views, the views overlap (R57). -/
theorem viewsOverlap_iff (s : State) : viewsOverlap s = true ↔
    ∃ i j, i < s.ops.srcLen ∧ j < s.ops.dstLen ∧ s.ops.srcBase + i = s.ops.dstBase + j := by
  simp only [viewsOverlap, Bool.and_eq_true, decide_eq_true_eq]
  constructor
  · rintro ⟨⟨⟨h1, h2⟩, h3⟩, h4⟩
    by_cases h : s.ops.srcBase ≤ s.ops.dstBase
    · exact ⟨s.ops.dstBase - s.ops.srcBase, 0, by omega, by omega, by omega⟩
    · exact ⟨0, s.ops.srcBase - s.ops.dstBase, by omega, by omega, by omega⟩
  · rintro ⟨i, j, h1, h2, h3⟩
    omega

theorem exec_inBounds {i : Instr} {s : State} (hi : i.space = .element) (h : Inv s) (ha : s.activity = .elements) :
    exec i s = .next (runItem i s) := by
  have hb : decoderBounds s = true := by simpa [busyBounds, ha] using busyBounds_of_inv h
  rw [exec_element hi]
  simp only [inBounds, hb, if_true]

end Sys2Proof.Machine
end

