-- ==== Sys2Proof/Tests/Slice0.lean ====
section
/-! SUPPORT. Tests. Expected results come from spec/30_encoding.md and spec/95_test_vectors.md (the vector's name stands in each
test). The second part gives, for every statement with hypotheses, concrete states and operands that meet them. -/

namespace Sys2Proof.Tests

open Sys2Proof Sys2Proof.Machine

-- One theorem after the other: kernel evaluations started side by side wait for one another, each on a thread of its own.
set_option Elab.async false

/-! ## Small states -/

/-- The source view holds `bytes` at address 0, the destination view holds `dstBytes` and lies at 0x100. -/
def onBytes (bytes dstBytes : List Byte) (dstLen : Nat) : State :=
  { State.reset with
    ops := { State.reset.ops with srcLen := bytes.length, dstBase := 0x100, dstLen := dstLen }
    mem := writeBytes (writeBytes [] 0 bytes) 0x100 dstBytes }

/-- DECODE before the element at `pos`, with `out` produced. -/
def atElement (bytes out : List Byte) (pos dLen : Nat) : State :=
  { onBytes bytes out dLen with
    activity := .elements
    dec := { State.reset.dec with L := bytes.length, s := pos, d := out.length, dLen := dLen, sEl := pos } }

/-- The varint loop before byte `i`, with no value gathered. -/
def atVarint (user : VarintUser) (bytes : List Byte) (i dstLen : Nat) : State :=
  { onBytes bytes [] dstLen with
    activity := .varint user
    dec := { State.reset.dec with L := bytes.length }
    vu := { v := 0, sh := 7 * i, i := i, b := 0 } }

/-- The core idle with `op` in OP and the host's moves `host`. -/
def withMoves (op : BitVec 3) (host : List HostMove) (s : State) : State := { s with ops := { s.ops with op := op }, host := host }

/-- PUT_UVARINT of 300 into a view of `dstLen` bytes at 0x100, with the byte AC written. -/
def atPutByte (dstLen : Nat) : State :=
  { onBytes [] [0xAC] dstLen with
    ops := { (onBytes [] [0xAC] dstLen).ops with valueIn := 300 }
    activity := .putBytes
    vu := { v := 2, sh := 0, i := 1, b := 0 } }

/-- ENCODE before its prefix. -/
def atEncodeStart (bytes : List Byte) : State :=
  { onBytes bytes [] (32 + bytes.length + bytes.length / 6) with
    activity := .encodeStart
    enc := { State.reset.enc with n := bytes.length } }

/-- ENCODE of `2^32 + 9` bytes, all 0, in a memory of `2^34`, with the pending run from 0 to position `s`. -/
def atLongRun (s : Nat) : State :=
  { State.reset with
    cfg := { Config.default with aw := 34 }
    ops := { State.reset.ops with srcLen := 4294967305, dstBase := 8589934592, dstLen := 5010795221 }
    activity := .scan
    enc := { State.reset.enc with n := 4294967305, s := s, lit := 0, tableSize := 16384, shift := 18 }
    table := [(0, s)] }

/-- ENCODE before scan position `s`, with the run from `lit` on pending, `out` written and this table. -/
def atScan (bytes out : List Byte) (lit s : Nat) (table : Table) : State :=
  { onBytes bytes out (32 + bytes.length + bytes.length / 6) with
    activity := .scan
    enc := { State.reset.enc with
      n := bytes.length, s := s, lit := lit, d := out.length, tableSize := 256, shift := 24 }
    table := table }

/-- Whether an instruction answers a next state of which `p` holds. -/
def answers (p : State → Bool) : Host.Outcome State Fault Refusal → Bool
  | .next t => p t
  | .fault _ => false
  | .refused _ => false

/-- COUNT, VALUE_OUT and the first bytes of the destination view after a success. -/
def gives (count : Nat) (value : Value) (out : List Byte) (t : State) : Bool :=
  decide (t.resp = okResponse count value) && decide (readBytes t.mem t.ops.dstBase out.length = out)

/-- The response registers after a failure. -/
def failsWith (status : BitVec 4) (cause : BitVec 8) (errS errD : Nat) (t : State) : Bool :=
  decide (t.resp = { status := status, cause := cause, count := 0, valueOut := 0, errS := errS, errD := errD })

/-! ## Well-formedness: the one check refuses LIT0 fields 60 to 63 (R83) -/

theorem test_wf_lit0_59 : (Instr.lit0 59#6).wf = true := by decide
theorem test_wf_lit0_60_refused : (Instr.lit0 60#6).wf = false := by decide
theorem test_wf_lit0_63_refused : (Instr.lit0 63#6).wf = false := by decide

/-! ## Decoding: words written out from the encodings of 30_encoding.md -/

/-- Format V: bit 7 set, group 0101100 (the example AC 02 of the spec is 300). -/
theorem test_decode_varintCont : decode .varint [0b10101100#8, 0x02#8] = .ok (.varintCont 0b0101100#7) [0x02#8] := by decide
theorem test_decode_varintLast : decode .varint [0b00000010#8] = .ok (.varintLast 2#7) [] := by decide
/-- Format L0: `nnnnnn00` with n = 3. -/
theorem test_decode_lit0 : decode .element [0b00001100#8, 0x61#8] = .ok (.lit0 3#6) [0x61#8] := by decide
theorem test_decode_lit1 : decode .element [0b11110000#8, 0x3C#8] = .ok (.lit1 60#8) [] := by decide
theorem test_decode_lit2 : decode .element [0b11110100#8, 0x27#8, 0x01#8] = .ok (.lit2 295#16) [] := by decide
theorem test_decode_lit3 : decode .element [0b11111000#8, 0x01#8, 0x02#8, 0x03#8] = .ok (.lit3 0x030201#24) [] := by decide
theorem test_decode_lit4 :
    decode .element [0b11111100#8, 0x01#8, 0x02#8, 0x03#8, 0x04#8] = .ok (.lit4 0x04030201#32) [] := by decide
/-- Format C1: `ooolll01 oooooooo` with offset 300 = 001_00101100 and length 8 = 4 + 100 (V-EC-4). -/
theorem test_decode_copy1 : decode .element [0b00110001#8, 0b00101100#8] = .ok (.copy1 0b100#3 300#11) [] := by decide
/-- Format C2: `llllll10`, offset 3000 low byte first, length 64 (V-EC-17). -/
theorem test_decode_copy2 : decode .element [0b11111110#8, 0xB8#8, 0x0B#8] = .ok (.copy2 63#6 3000#16) [] := by decide
theorem test_decode_copy4 : decode .element [0b00001111#8, 0x01#8] = .ok (.copy4 3#6) [0x01#8] := by decide
theorem test_decode_maxEncodedLen : decode .command [0b000#8] = .ok .maxEncodedLen [] := by decide
theorem test_decode_putUvarint : decode .command [0b001#8] = .ok .putUvarint [] := by decide
theorem test_decode_uvarint : decode .command [0b010#8] = .ok .uvarint [] := by decide
theorem test_decode_encode : decode .command [0b011#8] = .ok .encode [] := by decide
theorem test_decode_decode : decode .command [0b100#8] = .ok .decode [] := by decide
theorem test_decode_op5_refused : decode .command [0b101#8] = .rejected .badOpcode := by decide
theorem test_decode_copy2_truncated : decode .element [0x0E#8, 0x01#8] = .rejected .truncatedHeader := by decide
theorem test_decode_nothing : decode .element [] = .rejected .noBytes := by decide

/-! ## Instructions -/

/-- V-VAR-6 and V-VARD-4, one byte: 0xAC is a group of 44 with more to come. -/
theorem test_varintCont : answers (fun t => decide (t.vu = { v := 44, sh := 7, i := 1, b := 0xAC }))
    (exec (.varintCont 44) (atVarint .uvarint [0xAC, 0x02] 0 0)) = true := by decide +kernel
/-- V-VARD-18: the tenth byte 02 overflows. -/
theorem test_varintLast_overflow : answers (failsWith 4 0x41 0 0)
    (exec (.varintLast 2) (atVarint .uvarint [0xFF, 0xFF, 0xFF, 0xFF, 0xFF, 0xFF, 0xFF, 0xFF, 0xFF, 0x02] 9 0)) = true := by
  decide +kernel
/-- P1, the prefix 0C. -/
theorem test_varintLast_prefix : answers (fun t => decide (t.activity = .elements ∧ t.dec.dLen = 12 ∧ t.dec.s = 1 ∧ t.dec.d = 0))
    (exec (.varintLast 12) (atVarint .decode [0x0C, 0x0C, 0x61, 0x62, 0x63, 0x64, 0x11, 0x04] 0 12)) = true := by decide +kernel
/-- P1, the element at 1. -/
theorem test_lit0 : answers (fun t => decide (t.dec.s = 6 ∧ t.dec.d = 4 ∧ readBytes t.mem 0x100 5 = [0x61, 0x62, 0x63, 0x64, 0]))
    (exec (.lit0 3) (atElement [0x0C, 0x0C, 0x61, 0x62, 0x63, 0x64, 0x11, 0x04] [] 1 12)) = true := by decide +kernel
/-- V-PRI-4: destination room is tested before source room. -/
theorem test_lit0_room : answers (failsWith 2 0x23 1 0) (exec (.lit0 3) (atElement [0x01, 0x0C, 0x41] [] 1 1)) = true := by
  decide +kernel
/-- P3, the element at 2. -/
theorem test_lit1 : answers (fun t => decide (t.dec.s = 7 ∧ t.dec.d = 3 ∧ readBytes t.mem 0x100 3 = [0x78, 0x79, 0x7A]))
    (exec (.lit1 2) (atElement [0x89, 0x00, 0xF0, 0x02, 0x78, 0x79, 0x7A, 0x12, 0x03, 0x00, 0x00, 0x21] [] 2 9)) = true := by
  decide +kernel
/-- V-DEC-6. -/
theorem test_lit2 : answers (fun t => decide (t.dec.s = 6 ∧ t.dec.d = 2 ∧ readBytes t.mem 0x100 2 = [0x41, 0x42]))
    (exec (.lit2 1) (atElement [0x02, 0xF4, 0x01, 0x00, 0x41, 0x42] [] 1 2)) = true := by decide +kernel
/-- V-DEC-7. -/
theorem test_lit3 : answers (fun t => decide (t.dec.s = 6 ∧ t.dec.d = 1 ∧ readBytes t.mem 0x100 1 = [0x41]))
    (exec (.lit3 0) (atElement [0x01, 0xF8, 0x00, 0x00, 0x00, 0x41] [] 1 1)) = true := by decide +kernel
/-- V-DEC-8. -/
theorem test_lit4 : answers (fun t => decide (t.dec.s = 7 ∧ t.dec.d = 1 ∧ readBytes t.mem 0x100 1 = [0x41]))
    (exec (.lit4 0) (atElement [0x01, 0xFC, 0x00, 0x00, 0x00, 0x00, 0x41] [] 1 1)) = true := by decide +kernel
/-- V-DEC-16. -/
theorem test_lit4_zero_guard : answers (failsWith 2 0x22 1 0)
    (exec (.lit4 0xFFFFFFFF) (atElement [0x01, 0xFC, 0xFF, 0xFF, 0xFF, 0xFF, 0x41] [] 1 1)) = true := by decide +kernel
/-- V-DEC-10, the copy: a pattern of two repeats, reading bytes the copy has written. -/
theorem test_copy1 : answers (fun t => decide (t.dec.s = 6 ∧ t.dec.d = 7 ∧
      readBytes t.mem 0x100 8 = [0x61, 0x62, 0x61, 0x62, 0x61, 0x62, 0x61, 0]))
    (exec (.copy1 1 2) (atElement [0x07, 0x04, 0x61, 0x62, 0x05, 0x02] [0x61, 0x62] 4 7)) = true := by decide +kernel
/-- V-PRI-5: the offset is tested before the room. -/
theorem test_copy1_offset : answers (failsWith 2 0x26 1 0) (exec (.copy1 0 5) (atElement [0x01, 0x01, 0x05] [] 1 1)) = true := by
  decide +kernel
/-- P3, the element at 7. -/
theorem test_copy2 : answers (fun t => decide (t.dec.s = 10 ∧ t.dec.d = 8 ∧
      readBytes t.mem 0x100 8 = [0x78, 0x79, 0x7A, 0x78, 0x79, 0x7A, 0x78, 0x79]))
    (exec (.copy2 4 3) (atElement [0x89, 0x00, 0xF0, 0x02, 0x78, 0x79, 0x7A, 0x12, 0x03, 0x00, 0x00, 0x21]
      [0x78, 0x79, 0x7A] 7 9)) = true := by decide +kernel
/-- V-DEC-26. -/
theorem test_copy2_truncated : answers (failsWith 2 0x25 3 1)
    (exec (.copy2 3 1) (atElement [0x05, 0x00, 0x61, 0x0E, 0x01] [0x61] 3 5)) = true := by decide +kernel
/-- V-DEC-20. -/
theorem test_copy4 : answers (failsWith 3 0x30 3 1) (exec (.copy4 0) (atElement [0x05, 0x00, 0x61, 0x03] [0x61] 3 5)) = true := by
  decide +kernel
/-- V-MAX-7: the answer is wider than an address. -/
theorem test_maxEncodedLen : answers (gives 0 5010795209 [])
    (exec .maxEncodedLen { State.reset with ops := { State.reset.ops with srcLen := 4294967295 } }) = true := by decide +kernel
/-- V-VAR-17, and the byte behind stays. -/
theorem test_putUvarint : answers (gives 10 0 [0xFF, 0xFF, 0xFF, 0xFF, 0xFF, 0xFF, 0xFF, 0xFF, 0xFF, 0x01, 0xEE])
    (exec .putUvarint { onBytes [] [0xEE, 0xEE, 0xEE, 0xEE, 0xEE, 0xEE, 0xEE, 0xEE, 0xEE, 0xEE, 0xEE] 10 with
      ops := { (onBytes [] [] 10).ops with valueIn := 0xFFFFFFFFFFFFFFFF } }) = true := by decide +kernel
/-- V-VAR-18. -/
theorem test_putUvarint_room : answers (failsWith 1 0x12 0 0)
    (exec .putUvarint { onBytes [] [] 1 with ops := { (onBytes [] [] 1).ops with valueIn := 128 } }) = true := by decide +kernel
/-- V-VARD-4: the third byte is not read. -/
theorem test_uvarint : answers (gives 2 300 []) (exec .uvarint (onBytes [0xAC, 0x02, 0xFF] [] 0)) = true := by decide +kernel
/-- V-VARD-20. -/
theorem test_uvarint_groups : answers (failsWith 4 0x40 0 0)
    (exec .uvarint (onBytes [0x80, 0x80, 0x80, 0x80, 0x80, 0x80, 0x80, 0x80, 0x80, 0x80, 0x00] [] 0)) = true := by decide +kernel
/-- V-ENC-12: the table is updated where a match starts. -/
theorem test_encode_table :
    answers (gives 14 0 [0x0E, 0x0C, 0x61, 0x62, 0x63, 0x64, 0x01, 0x04, 0x00, 0x58, 0x01, 0x05, 0x00, 0x59])
      (exec .encode (onBytes [0x61, 0x62, 0x63, 0x64, 0x61, 0x62, 0x63, 0x64, 0x58, 0x61, 0x62, 0x63, 0x64, 0x59] [] 48))
      = true := by decide +kernel
/-- V-ENC-14: a table index shared by two windows, then an overlapping match and a final literal. -/
theorem test_encode_overlap : answers (gives 12 0 [0x0C, 0x10, 0x61, 0x61, 0x63, 0x66, 0x61, 0x05, 0x01, 0x04, 0x63, 0x66])
    (exec .encode (onBytes [0x61, 0x61, 0x63, 0x66, 0x61, 0x61, 0x61, 0x61, 0x61, 0x61, 0x63, 0x66] [] 46)) = true := by
  decide +kernel
/-- P1, whole. -/
theorem test_decode_P1 :
    answers (gives 12 0 [0x61, 0x62, 0x63, 0x64, 0x61, 0x62, 0x63, 0x64, 0x61, 0x62, 0x63, 0x64])
      (exec .decode (onBytes [0x0C, 0x0C, 0x61, 0x62, 0x63, 0x64, 0x11, 0x04] [] 12)) = true := by decide +kernel
/-- P4: the failing element's offset and the output cursor are recorded. -/
theorem test_decode_P4 : answers (failsWith 2 0x26 6 6)
    (exec .decode (onBytes [0x0A, 0x04, 0x61, 0x62, 0x01, 0x02, 0x01, 0x07, 0x03] [] 10)) = true := by decide +kernel

/-! ## The operations of the encoder (V-TAB-7, V-HASH-5, V-EC-17, V-EL-7) -/

theorem test_tableSetup : (tableSetup { State.reset with enc := { State.reset.enc with n := 8193 } }).enc.tableSize = 16384 ∧
    (tableSetup { State.reset with enc := { State.reset.enc with n := 8193 } }).enc.shift = 18 := by decide +kernel
theorem test_hash : hashOf 0x64636261 24 = 174 ∧ hashOf 0x64636261 23 = 349 ∧ hashOf 0x64636261 18 = 11176 := by decide +kernel
theorem test_copyElements : encodeAll (copyElements 3000 68) = [0xFE, 0xB8, 0x0B, 0x0E, 0xB8, 0x0B] := by decide +kernel
theorem test_literalHeader : literalHeader (65537 - 1) = [0xF8, 0x00, 0x00, 0x01] := by decide +kernel
/-- P3 in the listing notation (R97). -/
theorem test_listing :
    listingBytes [.lenPadded 2 9, .lit1 [0x78, 0x79, 0x7A], .copy2 3 5, .lit0 [0x21]] =
      [0x89, 0x00, 0xF0, 0x02, 0x78, 0x79, 0x7A, 0x12, 0x03, 0x00, 0x00, 0x21] := by decide +kernel

/-- P3 reproduces "xyzxyzxy!". -/
theorem test_outputOf : outputOf (fun _ => 0) [.lit1 [0x78, 0x79, 0x7A], .copy2 3 5, .lit0 [0x21]] [] =
    some [0x78, 0x79, 0x7A, 0x78, 0x79, 0x7A, 0x78, 0x79, 0x21] := by decide +kernel

/-! ## A command on its way -/

/-- V-VAR-6, byte 1: the varint of 300 ends with 02. -/
theorem test_putByte : gives 2 0 [0xAC, 0x02] (putByte (atPutByte 2)) = true := by decide +kernel

/-- V-VAR-6: launched, PUT_UVARINT writes AC and then stands before byte 1. -/
theorem test_launch_putUvarint :
    answers (fun a => answers (fun b => answers
      (fun c => decide (c.activity = .putBytes ∧ c.vu.i = 1 ∧ readBytes c.mem 0x100 2 = [0xAC, 0x00])) (step b)) (step a))
      (step (withMoves 1 [.launch] { onBytes [] [] 2 with ops := { (onBytes [] [] 2).ops with valueIn := 300 } })) = true := by
  decide +kernel

/-- R310: a reset that finds DECODE between two elements of V-DEC-2, one byte produced, leaves the core idle with its responses
0. -/
theorem test_reset_inside_decode :
    answers (fun a => decide (a.activity = .elements ∧ a.dec.s = 3) && answers
      (fun b => decide (b.activity = .idle ∧ b.resp = State.reset.resp ∧ b.host = [.issue])) (step a))
      (step { atElement [0x0A, 0x00, 0x61, 0x15, 0x01] [] 1 10 with host := [.wait, .reset, .issue] }) = true := by decide +kernel

/-! ## One instruction as the first after reset -/

theorem test_fetchWord_copy1 : decodeTableWord 16 0x0401 = some (.copy1 0 4) := by decide
theorem test_step_encode : answers (fun t => decide (t.activity = .idle)) (step (State.reset.withFetchWord 8 3)) = true := by
  decide +kernel
theorem test_step_copy4 : answers (failsWith 3 0x30 0 0) (step (State.reset.withFetchWord 8 7)) = true := by decide +kernel

/-! ## Checks for the invariant on concrete states -/

/-- Sane, as a check. -/
def saneCheck (s : State) : Bool :=
  s.cfg.valid
    && decide (s.ops.srcBase < s.cfg.space ∧ s.ops.srcLen < s.cfg.space ∧ s.ops.dstBase < s.cfg.space ∧ s.ops.dstLen < s.cfg.space)
    && decide (s.resp.count < s.cfg.space ∧ s.resp.errS < s.cfg.space ∧ s.resp.errD < s.cfg.space)
    && decide (s.enc.n < s.cfg.space ∧ s.enc.s < s.cfg.space ∧ s.enc.t < s.cfg.space ∧ s.enc.lit < s.cfg.space ∧
      s.enc.s0 < s.cfg.space ∧ s.enc.d < s.cfg.space ∧ s.enc.tableSize < 2 ^ 15 ∧ s.enc.shift < 2 ^ 5 ∧ s.enc.h < 2 ^ 14 ∧
      s.enc.e < s.cfg.space ∧ s.enc.moff < s.cfg.space ∧ s.enc.mlen < s.cfg.space)
    && decide (s.dec.L < s.cfg.space ∧ s.dec.s < s.cfg.space ∧ s.dec.d < s.cfg.space ∧ s.dec.dLen < s.cfg.space ∧
      s.dec.len < 2 ^ 33 ∧ s.dec.off < 2 ^ 16 ∧ s.dec.sEl < s.cfg.space)
    && decide (s.vu.sh < 2 ^ 7 ∧ s.vu.i < 2 ^ 4)
    && (tableWf s.table && cellsWithin Config.tableMax (fun e => decide (e < s.cfg.space)) s.table)
    && (s.mem.wf && cellsWithin s.cfg.space (fun _ => true) s.mem)

theorem sane_of {s : State} (h : saneCheck s = true) : Sane s := by
  simp only [saneCheck, Bool.and_eq_true, decide_eq_true_eq] at h
  obtain ⟨⟨⟨⟨⟨⟨⟨c, o⟩, r⟩, e⟩, d⟩, v⟩, t⟩, m⟩ := h
  exact ⟨c, ⟨o.1, o.2.1, o.2.2.1, o.2.2.2⟩, ⟨r.1, r.2.1, r.2.2⟩,
    ⟨e.1, e.2.1, e.2.2.1, e.2.2.2.1, e.2.2.2.2.1, e.2.2.2.2.2.1, e.2.2.2.2.2.2.1, e.2.2.2.2.2.2.2.1, e.2.2.2.2.2.2.2.2.1,
      e.2.2.2.2.2.2.2.2.2.1, e.2.2.2.2.2.2.2.2.2.2.1, e.2.2.2.2.2.2.2.2.2.2.2⟩,
    ⟨d.1, d.2.1, d.2.2.1, d.2.2.2.1, d.2.2.2.2.1, d.2.2.2.2.2.1, d.2.2.2.2.2.2⟩, ⟨v.1, v.2⟩, t.1, t.2, m.1, m.2⟩

/-- ViewsGood, as a check. -/
def viewsCheck (s : State) : Bool :=
  decide (s.ops.srcBase + s.ops.srcLen ≤ s.cfg.space) && decide (s.ops.dstBase + s.ops.dstLen ≤ s.cfg.space) && !viewsOverlap s

theorem views_of {s : State} (h : viewsCheck s = true) : ViewsGood s := by
  simp only [viewsCheck, Bool.and_eq_true, decide_eq_true_eq, Bool.not_eq_true'] at h
  exact ⟨h.1.1, h.1.2, h.2⟩

/-- Inv between two elements, as a check. -/
def elementCheck (s : State) : Bool :=
  saneCheck s && viewsCheck s
    && decide (s.activity = .elements ∧ s.dec.L = s.ops.srcLen ∧ s.dec.s ≤ s.dec.L ∧ s.dec.d ≤ s.dec.dLen ∧ s.dec.dLen ≤ s.ops.dstLen)

theorem inv_of_element {s : State} (h : elementCheck s = true) : Inv s := by
  simp only [elementCheck, Bool.and_eq_true, decide_eq_true_eq] at h
  obtain ⟨⟨a, b⟩, c⟩ := h
  exact ⟨sane_of a, by simp only [BusyPointers, c.1]; exact ⟨views_of b, c.2.1, c.2.2.1, c.2.2.2.1, c.2.2.2.2⟩⟩

/-- Inv inside the varint loop, as a check. -/
def varintCheck (s : State) : Bool :=
  saneCheck s && viewsCheck s
    && decide ((s.activity = .varint .uvarint ∨ s.activity = .varint .decode) ∧ s.dec.L = s.ops.srcLen ∧
      s.vu.i ≤ s.ops.srcLen ∧ s.vu.i ≤ 10 ∧ s.vu.sh = 7 * s.vu.i)

theorem inv_of_varint {s : State} (h : varintCheck s = true) : Inv s := by
  simp only [varintCheck, Bool.and_eq_true, decide_eq_true_eq] at h
  obtain ⟨⟨a, b⟩, u, l, c⟩ := h
  have v := views_of b
  have p : VarintPointers s := ⟨v.srcExists, c.1, c.2.1, c.2.2⟩
  refine ⟨sane_of a, ?_⟩
  rcases u with u | u <;> simp only [BusyPointers, u]
  · exact p
  · exact ⟨p, v, l⟩

/-- Inv inside the scan, as a check. -/
def scanCheck (s : State) : Bool :=
  saneCheck s && viewsCheck s
    && decide (s.activity = .scan ∧ s.enc.n = s.ops.srcLen ∧ Config.shortInput < s.enc.n ∧
      maxEncodedLength s.enc.n ≤ s.ops.dstLen ∧ s.enc.lit ≤ s.enc.s ∧ s.enc.s ≤ s.enc.n ∧ s.enc.d ≤ s.ops.dstLen ∧
      18 ≤ s.enc.shift ∧ s.enc.shift ≤ 24 ∧ s.enc.tableSize = 2 ^ (32 - s.enc.shift))
    && cellsWithin s.enc.tableSize (fun e => decide (e ≤ s.enc.s)) s.table

theorem inv_of_scan {s : State} (h : scanCheck s = true) : Inv s := by
  simp only [scanCheck, Bool.and_eq_true, decide_eq_true_eq] at h
  obtain ⟨⟨⟨a, b⟩, c⟩, d⟩ := h
  exact ⟨sane_of a, by
    simp only [BusyPointers, c.1]
    exact ⟨views_of b, c.2.1, c.2.2.1, c.2.2.2.1, c.2.2.2.2.1, c.2.2.2.2.2.1, c.2.2.2.2.2.2.1,
      ⟨c.2.2.2.2.2.2.2.1, c.2.2.2.2.2.2.2.2.1, c.2.2.2.2.2.2.2.2.2⟩, d⟩⟩

/-- Inv inside PUT_UVARINT, as a check. -/
def putCheck (s : State) : Bool :=
  saneCheck s && decide (s.ops.dstBase + s.ops.dstLen ≤ s.cfg.space)
    && decide (s.activity = .putBytes ∧ varintLen s.ops.valueIn ≤ s.ops.dstLen ∧
      s.vu.i + varintLen s.vu.v = varintLen s.ops.valueIn)

theorem inv_of_put {s : State} (h : putCheck s = true) : Inv s := by
  simp only [putCheck, Bool.and_eq_true, decide_eq_true_eq] at h
  obtain ⟨⟨a, b⟩, c⟩ := h
  exact ⟨sane_of a, by simp only [BusyPointers, c.1]; exact ⟨b, c.2.1, c.2.2⟩⟩

/-- Inv before ENCODE's prefix, as a check. -/
def encodeStartCheck (s : State) : Bool :=
  saneCheck s && viewsCheck s
    && decide (s.activity = .encodeStart ∧ s.enc.n = s.ops.srcLen ∧ maxEncodedLength s.enc.n ≤ s.ops.dstLen)

theorem inv_of_encodeStart {s : State} (h : encodeStartCheck s = true) : Inv s := by
  simp only [encodeStartCheck, Bool.and_eq_true, decide_eq_true_eq] at h
  obtain ⟨⟨a, b⟩, c⟩ := h
  exact ⟨sane_of a, by simp only [BusyPointers, c.1]; exact ⟨views_of b, c.2.1, c.2.2⟩⟩

theorem inv_of_issuedState {s : State} (h : saneCheck s = true) (ha : s.activity = .issued) : Inv s :=
  ⟨sane_of h, by simp only [BusyPointers, ha]⟩

theorem inv_of_idle {s : State} (h : saneCheck s = true) (ha : s.activity = .idle) : Inv s :=
  ⟨sane_of h, by simp only [BusyPointers, ha]⟩

theorem next_of {p : State → Bool} {o : Host.Outcome State Fault Refusal} (h : answers p o = true) :
    ∃ t, o = .next t ∧ p t = true := by
  cases o with
  | next t => exact ⟨t, rfl, h⟩
  | fault f => cases h
  | refused r => cases h

/-! ## Witnesses: states and operands that meet the hypotheses of each statement -/

theorem witness_DecodeOfEncode : (Instr.lit0 59).wf = true ∧ (Instr.copy1 7 2047).wf = true := by decide

theorem witness_EncodeOfDecode : decode .element [0xE1, 0xFF, 0x00] = .ok (.copy1 0 2047) [0x00] := by decide

/-- Tag FC wants five bytes: with four the first clause's premise holds, with five the second's. Tag EC wants one. -/
theorem witness_HeaderSizeByTag :
    (0xFC#8).toNat % 4 = 0 ∧ (0xFC#8).toNat / 4 = 63 ∧ [0x01#8, 0x02#8, 0x03#8].length + 1 < 5 ∧
    5 ≤ [0x01#8, 0x02#8, 0x03#8, 0x04#8].length + 1 ∧ (0xEC#8).toNat / 4 < 60 ∧ 1 ≤ ([] : List Byte).length + 1 := by decide

theorem witness_OperandAssembly :
    ((0xEC#8).toNat % 4 = 0 ∧ (0xEC#8).toNat / 4 < 60) ∧ (0xFD#8).toNat % 4 = 1 ∧ (0xFE#8).toNat % 4 = 2 := by decide

/-- An idle core with an issue waiting and this OP. -/
def issuing (op : BitVec 3) : State := { State.reset with ops := { State.reset.ops with op := op }, host := [.issue] }

theorem witness_IssueRunsTheCommand :
    (∀ op, (issuing op).activity = .idle ∧ (issuing op).host = .issue :: []) ∧
    (issuing 0).ops.op.toNat = 0 ∧ (issuing 1).ops.op.toNat = 1 ∧ (issuing 2).ops.op.toNat = 2 ∧ (issuing 3).ops.op.toNat = 3 ∧
    (issuing 4).ops.op.toNat = 4 ∧ 5 ≤ (issuing 5).ops.op.toNat ∧ 5 ≤ (issuing 7).ops.op.toNat :=
  ⟨fun _ => ⟨rfl, rfl⟩, by decide, by decide, by decide, by decide, by decide, by decide, by decide⟩

/-- DECODE of V-DEC-2 before its copy, the element at offset 3. -/
def copyAt3 : State := atElement [0x0A, 0x00, 0x61, 0x15, 0x01] [0x61] 3 10

/-- Launch and wait as the next move of an idle core; a step inside DECODE with a wait as the next move, and with an issue. -/
theorem witness_LaunchAndWait :
    (let s := withMoves 4 [.launch, .wait] State.reset; s.activity = .idle ∧ s.host = .launch :: [.wait]) ∧
    (let s := withMoves 4 [.wait] State.reset; s.activity = .idle ∧ s.host = .wait :: []) ∧
    (let s : State := { copyAt3 with host := [.wait, .reset] };
      Inv s ∧ s.activity ≠ .idle ∧ s.host.head? ≠ some .reset ∧ (∃ t, step s = .next t) ∧ s.host = .wait :: [.reset]) ∧
    (let s : State := { copyAt3 with host := [.issue] };
      Inv s ∧ s.activity ≠ .idle ∧ s.host.head? ≠ some .reset ∧ (∃ t, step s = .next t) ∧ s.host.head? ≠ some .wait) := by
  refine ⟨⟨rfl, rfl⟩, ⟨rfl, rfl⟩, ⟨inv_of_element (by decide +kernel), by decide, by decide, ?_, rfl⟩,
    ⟨inv_of_element (by decide +kernel), by decide, by decide, ?_, by decide⟩⟩
  · obtain ⟨t, ht, -⟩ := next_of
      (show answers (fun _ => true) (step { copyAt3 with host := [.wait, .reset] }) = true by decide +kernel)
    exact ⟨t, ht⟩
  · obtain ⟨t, ht, -⟩ := next_of (show answers (fun _ => true) (step { copyAt3 with host := [.issue] }) = true by decide +kernel)
    exact ⟨t, ht⟩

theorem witness_StepRunsTheElement :
    Inv copyAt3 ∧ copyAt3.activity = .elements ∧ copyAt3.host.head? ≠ some .reset ∧ (Instr.copy1 5 1).space = .element ∧
    ((Instr.copy1 5 1).wf = true ∧ copyAt3.dec.s + headerBytes (.copy1 5 1) ≤ copyAt3.dec.L ∧
      readBytes copyAt3.mem (copyAt3.ops.srcBase + copyAt3.dec.s) (headerBytes (.copy1 5 1)) = encode (.copy1 5 1)) ∧
    (copyAt3.dec.s < copyAt3.dec.L ∧ decode .element (elementHeader copyAt3) = .ok (.copy1 5 1) [0, 0, 0]) :=
  ⟨inv_of_element (by decide +kernel), rfl, by decide, rfl, by decide +kernel, by decide +kernel⟩

theorem witness_StepRunsTheVarintByte :
    let a := atVarint .uvarint [0xAC, 0x02] 1 0;
    let b := atVarint .decode [0x80, 0x80, 0x80, 0x80, 0x80, 0x80, 0x80, 0x80, 0x80, 0x00] 9 0;
    (Inv a ∧ a.activity = .varint .uvarint ∧ a.host.head? ≠ some .reset ∧ a.vu.i < a.ops.srcLen ∧ a.vu.i < 10 ∧
      decode .varint (readBytes a.mem (a.ops.srcBase + a.vu.i) 1) = .ok (.varintLast 2) []) ∧
    (Inv b ∧ b.activity = .varint .decode ∧ b.host.head? ≠ some .reset ∧ b.vu.i < b.ops.srcLen ∧ b.vu.i < 10 ∧
      decode .varint (readBytes b.mem (b.ops.srcBase + b.vu.i) 1) = .ok (.varintLast 0) []) :=
  ⟨⟨inv_of_varint (by decide +kernel), rfl, by decide, by decide +kernel⟩,
    ⟨inv_of_varint (by decide +kernel), rfl, by decide, by decide +kernel⟩⟩

/-- A state of each activity with a reset waiting, none after it. -/
theorem witness_ResetMove :
    let idle : State := { State.reset with host := [.reset] };
    let varint : State := { atVarint .uvarint [0x80] 0 0 with host := [.reset] };
    let elements : State := { copyAt3 with host := [.reset] };
    let scan : State := { atScan [1, 2, 3, 4, 5] [5] 0 0 [] with host := [.reset] };
    let issued : State := { withMoves 3 [.reset] State.reset with activity := .issued };
    let putting : State := { atPutByte 2 with host := [.reset] };
    let starting : State := { atEncodeStart [1, 2] with host := [.reset] };
    (Inv issued ∧ issued.host = .reset :: [] ∧ issued.activity = .issued) ∧
    (Inv putting ∧ putting.host = .reset :: [] ∧ putting.activity = .putBytes) ∧
    (Inv starting ∧ starting.host = .reset :: [] ∧ starting.activity = .encodeStart) ∧
    (Inv idle ∧ idle.host = .reset :: [] ∧ idle.activity = .idle) ∧
    (Inv varint ∧ varint.host = .reset :: [] ∧ varint.activity = .varint .uvarint) ∧
    (Inv elements ∧ elements.host = .reset :: [] ∧ elements.activity = .elements) ∧
    (Inv scan ∧ scan.host = .reset :: [] ∧ scan.activity = .scan) :=
  ⟨⟨inv_of_issuedState (by decide +kernel) rfl, rfl, rfl⟩, ⟨inv_of_put (by decide +kernel), rfl, rfl⟩,
    ⟨inv_of_encodeStart (by decide +kernel), rfl, rfl⟩,
    ⟨inv_of_idle (by decide +kernel) rfl, rfl, rfl⟩, ⟨inv_of_varint (by decide +kernel), rfl, rfl⟩,
    ⟨inv_of_element (by decide +kernel), rfl, rfl⟩, ⟨inv_of_scan (by decide +kernel), rfl, rfl⟩⟩

/-- DECODE of V-DEC-2 reset after its prefix and two more steps; ENCODE of two bytes reset before its prefix; PUT_UVARINT reset with
one byte written. -/
theorem witness_ResetAbandonsACommand :
    (let s := withMoves 4 (.launch :: (List.replicate 4 .wait ++ [.reset])) (onBytes [0x0A, 0x00, 0x61, 0x15, 0x01] [] 10);
      Sane s ∧ s.activity = .idle ∧ s.host = .launch :: (List.replicate 4 .wait ++ .reset :: []) ∧ viewsOverlap s = false) ∧
    (let s := withMoves 3 (.launch :: (List.replicate 1 .wait ++ [.reset])) (onBytes [0x61, 0x62] [] 34);
      Sane s ∧ s.activity = .idle ∧ s.host = .launch :: (List.replicate 1 .wait ++ .reset :: []) ∧ viewsOverlap s = false) ∧
    (let s := withMoves 1 (.launch :: (List.replicate 2 .wait ++ [.reset]))
        { onBytes [] [] 2 with ops := { (onBytes [] [] 2).ops with valueIn := 300 } };
      Sane s ∧ s.activity = .idle ∧ s.host = .launch :: (List.replicate 2 .wait ++ .reset :: []) ∧
        ¬ (s.ops.op = 3 ∨ s.ops.op = 4)) ∧
    (let s := withMoves 2 [.launch, .reset] (onBytes [0xAC, 0x02] [] 0);
      Sane s ∧ s.host = .launch :: (List.replicate 0 .wait ++ .reset :: []) ∧ s.ops.op ≠ 1 ∧ s.ops.op ≠ 3 ∧ s.ops.op ≠ 4) :=
  ⟨⟨sane_of (by decide +kernel), rfl, rfl, by decide +kernel⟩, ⟨sane_of (by decide +kernel), rfl, rfl, by decide +kernel⟩,
    ⟨sane_of (by decide +kernel), rfl, rfl, by decide⟩, ⟨sane_of (by decide +kernel), rfl, by decide, by decide, by decide⟩⟩

/-- A host write of a register, the core idle. -/
def writing (r : Reg) (v : Value) : State := { State.reset with host := [.writeReg r v] }

theorem writing_sane (r : Reg) (v : Value) : Sane (writing r v) :=
  have h : Sane State.reset := sane_of (by decide +kernel)
  ⟨h.cfg, h.ops, h.resp, h.enc, h.dec, h.vu, h.table, h.tableFits, h.mem, h.memFits⟩

/-- Every register can be the one written; the widest values that fit. -/
theorem witness_HostWritesRegister :
    (∀ r v, Sane (writing r v) ∧ (writing r v).activity = .idle ∧ (writing r v).host = .writeReg r v :: []) ∧
    (Reg.op ≠ Reg.srcBase) ∧ Reg.status ∈ [Reg.status, Reg.cause, Reg.count, Reg.valueOut, Reg.errS, Reg.errD] ∧
    (7#64).toNat < 2 ^ 3 ∧ Reg.dstLen ∈ [Reg.srcBase, Reg.srcLen, Reg.dstBase, Reg.dstLen] ∧
    (4294967295#64).toNat < 2 ^ (writing .dstLen 4294967295).cfg.aw :=
  ⟨fun r v => ⟨writing_sane r v, rfl, rfl⟩, by decide, by decide, by decide, by decide, by decide +kernel⟩

theorem witness_ConstantRegisters :
    Reg.maxVarintLen64 ∈ [Reg.maxVarintLen16, Reg.maxVarintLen32, Reg.maxVarintLen64] ∧
    (writing .maxVarintLen64 7).activity = .idle ∧ (writing .maxVarintLen64 7).host = .writeReg .maxVarintLen64 7 :: [] :=
  ⟨by decide, rfl, rfl⟩

/-- The last address that exists and the first that does not. -/
theorem witness_HostWritesMemory :
    let last : State := { State.reset with host := [.writeMem 4294967295 7] };
    let beyond : State := { State.reset with host := [.writeMem 4294967296 7] };
    (Sane last ∧ last.activity = .idle ∧ last.host = .writeMem 4294967295 7 :: [] ∧ 4294967295 < 2 ^ last.cfg.aw) ∧
    (Sane beyond ∧ beyond.activity = .idle ∧ beyond.host = .writeMem 4294967296 7 :: [] ∧ 2 ^ beyond.cfg.aw ≤ 4294967296) :=
  ⟨⟨sane_of (by decide +kernel), rfl, rfl, by decide +kernel⟩, ⟨sane_of (by decide +kernel), rfl, rfl, by decide +kernel⟩⟩

/-- Both ends of the lengths' ranges. -/
theorem witness_VarintBytesShape :
    (127#64).toNat < 2 ^ 7 ∧ (2 ^ (7 * (2 - 1)) ≤ (128#64).toNat ∧ (128#64).toNat < 2 ^ (7 * 2)) ∧
    (2 ^ (7 * (9 - 1)) ≤ (9223372036854775807#64).toNat ∧ (9223372036854775807#64).toNat < 2 ^ (7 * 9)) ∧
    2 ^ 63 ≤ (9223372036854775808#64).toNat ∧ 9 < (varintBytes 9223372036854775808).length ∧ (1#64) ≠ 0 ∧
    varintLen 9223372036854775808 = 10 := by decide +kernel

/-- PUT_UVARINT of 128 into a view of `dstLen` bytes from `dstBase` on. -/
def putting (dstBase dstLen : Nat) : State :=
  { State.reset with ops := { State.reset.ops with dstBase := dstBase, dstLen := dstLen, valueIn := 128 } }

/-- A view one byte too far, a view one byte too short, a view just long enough at the end of memory (V-VAR-18, V-VAR-19). -/
theorem witness_PutUvarintOutcome :
    (∀ a b, (putting a b).mem.wf = true) ∧
    2 ^ (putting 4294967295 2).cfg.aw < (putting 4294967295 2).ops.dstBase + (putting 4294967295 2).ops.dstLen ∧
    ((putting 0 1).ops.dstBase + (putting 0 1).ops.dstLen ≤ 2 ^ (putting 0 1).cfg.aw ∧
      (putting 0 1).ops.dstLen < varintLen (putting 0 1).ops.valueIn) ∧
    ((putting 4294967294 2).ops.dstBase + (putting 4294967294 2).ops.dstLen ≤ 2 ^ (putting 4294967294 2).cfg.aw ∧
      varintLen (putting 4294967294 2).ops.valueIn ≤ (putting 4294967294 2).ops.dstLen) :=
  ⟨fun _ _ => rfl, by decide +kernel, by decide +kernel, by decide +kernel⟩

/-- VarintEndsAt, as a check. -/
theorem endsAt_of {s : State} {k : Nat}
    (h : k < s.ops.srcLen ∧ (∀ j, j < k → 128 ≤ (src s j).toNat) ∧ (src s k).toNat < 128) : VarintEndsAt s k := ⟨h.1, h.2.1, h.2.2⟩

/-- Ten bytes of a varint whose tenth is `b` (V-VARD-9, V-VARD-18). -/
def tenBytes (b : Byte) : State := onBytes [0xFF, 0xFF, 0xFF, 0xFF, 0xFF, 0xFF, 0xFF, 0xFF, 0xFF, b] [] 0

/-- V-CMD-2, V-VARD-1, V-VARD-9, V-VARD-18, V-VARD-14, V-VARD-17, V-VARD-21. -/
theorem witness_UvarintOutcome :
    (let s : State := { State.reset with ops := { State.reset.ops with srcBase := 0xFFFFFFF0, srcLen := 0x11 } };
      2 ^ s.cfg.aw < s.ops.srcBase + s.ops.srcLen) ∧
    (∀ b, (tenBytes b).ops.srcBase + (tenBytes b).ops.srcLen ≤ 2 ^ (tenBytes b).cfg.aw) ∧
    VarintEndsAt (onBytes [0x00] [] 0) 0 ∧
    (VarintEndsAt (tenBytes 1) 9 ∧ (src (tenBytes 1) 9).toNat ≤ 1) ∧
    (VarintEndsAt (tenBytes 2) 9 ∧ 1 < (src (tenBytes 2) 9).toNat) ∧
    (onBytes [] [] 0).ops.srcLen ≤ 10 ∧
    ((tenBytes 0xFF).ops.srcLen ≤ 10 ∧ ∀ j, j < (tenBytes 0xFF).ops.srcLen → 128 ≤ (src (tenBytes 0xFF) j).toNat) ∧
    (let s := onBytes [0x80, 0x80, 0x80, 0x80, 0x80, 0x80, 0x80, 0x80, 0x80, 0x80, 0x00] [] 0;
      10 < s.ops.srcLen ∧ ∀ j, j < 10 → 128 ≤ (src s j).toNat) :=
  ⟨by decide +kernel, by decide +kernel, endsAt_of (by decide +kernel), ⟨endsAt_of (by decide +kernel), by decide +kernel⟩,
    ⟨endsAt_of (by decide +kernel), by decide +kernel⟩, by decide, by decide +kernel, by decide +kernel⟩

theorem witness_VarintRoundTrip :
    (let s := onBytes [0xAC, 0x02, 0xFF] [] 0;
      s.ops.srcBase + s.ops.srcLen ≤ 2 ^ s.cfg.aw ∧ varintLen 300 ≤ s.ops.srcLen ∧
      readBytes s.mem s.ops.srcBase (varintLen 300) = varintBytes 300) ∧
    (∃ s t u : State, s.mem.wf = true ∧ exec .putUvarint s = .next t ∧ t.resp.status = 0 ∧ u.mem = t.mem ∧ u.cfg = s.cfg ∧
      u.ops.srcBase = s.ops.dstBase ∧ t.resp.count ≤ u.ops.srcLen ∧ u.ops.srcBase + u.ops.srcLen ≤ 2 ^ u.cfg.aw) := by
  refine ⟨by decide +kernel, ?_⟩
  obtain ⟨t, ht, h⟩ := next_of
    (show answers (fun t => decide (t.resp.status = 0 ∧ t.resp.count ≤ 2)) (exec .putUvarint (putting 0x40 2)) = true by
      decide +kernel)
  have h := of_decide_eq_true h
  exact ⟨putting 0x40 2, t, { State.reset with mem := t.mem, ops := { State.reset.ops with srcBase := 0x40, srcLen := 2 } },
    rfl, ht, h.1, rfl, rfl, rfl, h.2, (by decide +kernel : 0x40 + 2 ≤ 2 ^ 32)⟩

/-- The tenth byte, 2 and 1; and both users at the end of a one-byte varint, with the declared length one above and at
DST_LEN. -/
theorem witness_VarintLastEffect :
    (let s := atVarint .uvarint [0xFF, 0xFF, 0xFF, 0xFF, 0xFF, 0xFF, 0xFF, 0xFF, 0xFF, 0x02] 9 0;
      s.vu.i = 9 ∧ 1 < (2#7).toNat ∧ (s.vu.i ≠ 9 ∨ (1#7).toNat ≤ 1) ∧ s.activity = .varint .uvarint) ∧
    (let s := atVarint .decode [0x05] 0 4;
      (s.vu.i ≠ 9 ∨ (5#7).toNat ≤ 1) ∧ s.activity = .varint .decode ∧ s.ops.dstLen < (s.vu.v ||| ((5#7).setWidth 64 <<< s.vu.sh)).toNat) ∧
    (let s := atVarint .decode [0x05] 0 5;
      (s.vu.i ≠ 9 ∨ (5#7).toNat ≤ 1) ∧ s.activity = .varint .decode ∧ (s.vu.v ||| ((5#7).setWidth 64 <<< s.vu.sh)).toNat ≤ s.ops.dstLen) := by
  decide +kernel

/-- The largest length an address width of 32 allows (V-MAX-7). -/
theorem witness_MaxEncodedLenResult :
    Sane { State.reset with ops := { State.reset.ops with srcLen := 4294967295 } } := sane_of (by decide +kernel)

/-- V-CMD-4; views that share their one address; V-ENC-52. -/
theorem witness_EncodeEntryChecks :
    (let s : State := { State.reset with ops := { State.reset.ops with dstBase := 0xFFFFFFFF, dstLen := 2 } };
      2 ^ s.cfg.aw < s.ops.dstBase + s.ops.dstLen) ∧
    (let s : State := { State.reset with ops := { State.reset.ops with srcBase := 8, srcLen := 1, dstBase := 8, dstLen := 1 } };
      s.ops.srcBase + s.ops.srcLen ≤ 2 ^ s.cfg.aw ∧ s.ops.dstBase + s.ops.dstLen ≤ 2 ^ s.cfg.aw ∧
      ∃ i j, i < s.ops.srcLen ∧ j < s.ops.dstLen ∧ s.ops.srcBase + i = s.ops.dstBase + j) ∧
    (ViewsGood (onBytes [] [] 31) ∧ (onBytes [] [] 31).ops.dstLen < 32 + (onBytes [] [] 31).ops.srcLen + (onBytes [] [] 31).ops.srcLen / 6) :=
  ⟨by decide +kernel, ⟨by decide +kernel, by decide +kernel, 0, 0, by decide, by decide, rfl⟩,
    ⟨views_of (by decide +kernel), by decide⟩⟩

/-- V-ENC-1 and V-ENC-5. -/
theorem witness_EncodeShortInput :
    (let s := onBytes [] [] 32;
      Sane s ∧ ViewsGood s ∧ 32 + s.ops.srcLen + s.ops.srcLen / 6 ≤ s.ops.dstLen ∧ s.ops.srcLen ≤ 4 ∧ SourceIs s [] ∧
      [0x00#8] = listingBytes [.len (BitVec.ofNat 64 s.ops.srcLen)]) ∧
    (let s := onBytes [0x61, 0x62, 0x63, 0x64] [] 36;
      Sane s ∧ ViewsGood s ∧ 32 + s.ops.srcLen + s.ops.srcLen / 6 ≤ s.ops.dstLen ∧ s.ops.srcLen ≤ 4 ∧
      SourceIs s [0x61, 0x62, 0x63, 0x64] ∧
      [0x04#8, 0x0C, 0x61, 0x62, 0x63, 0x64] =
        listingBytes [.len (BitVec.ofNat 64 s.ops.srcLen), .lit [0x61, 0x62, 0x63, 0x64]]) :=
  ⟨⟨sane_of (by decide +kernel), views_of (by decide +kernel), by decide, by decide, by unfold SourceIs; decide +kernel,
      by decide +kernel⟩,
    ⟨sane_of (by decide +kernel), views_of (by decide +kernel), by decide, by decide, by unfold SourceIs; decide +kernel,
      by decide +kernel⟩⟩

/-- The source of V-ENC-7, "abcdabcd", with a destination view exactly as long as the bound. -/
def abcdabcd : State := onBytes [0x61, 0x62, 0x63, 0x64, 0x61, 0x62, 0x63, 0x64] [] 41

/-- The same at other addresses, with other bytes in the destination view and a full table. -/
def abcdabcdMoved : State :=
  { State.reset with
    ops := { State.reset.ops with srcBase := 0x300, srcLen := 8, dstBase := 0x10, dstLen := 50 }
    mem := writeBytes (writeBytes [] 0x10 [9, 8, 7]) 0x300 [0x61, 0x62, 0x63, 0x64, 0x61, 0x62, 0x63, 0x64]
    table := [(174, 3)] }

theorem witness_EncodeSucceedsWithinBound :
    Sane abcdabcd ∧ ViewsGood abcdabcd ∧ 32 + abcdabcd.ops.srcLen + abcdabcd.ops.srcLen / 6 ≤ abcdabcd.ops.dstLen ∧
    ∃ t, exec .encode abcdabcd = .next t ∧ t.resp.status = 0 := by
  refine ⟨sane_of (by decide +kernel), views_of (by decide +kernel), by decide, ?_⟩
  obtain ⟨t, ht, h⟩ := next_of (show answers (fun t => decide (t.resp.status = 0)) (exec .encode abcdabcd) = true by decide +kernel)
  exact ⟨t, ht, of_decide_eq_true h⟩

theorem witness_EncodeSizeBound :
    Sane abcdabcd ∧ ViewsGood abcdabcd ∧ ∃ t, exec .encode abcdabcd = .next t ∧ t.resp.status = 0 :=
  ⟨witness_EncodeSucceedsWithinBound.1, witness_EncodeSucceedsWithinBound.2.1, witness_EncodeSucceedsWithinBound.2.2.2⟩

theorem witness_EncodeWritesPrefix :
    Sane abcdabcd ∧ ViewsGood abcdabcd ∧ (∃ t, exec .encode abcdabcd = .next t ∧ t.resp.status = 0) ∧
    0 < (varintBytes (BitVec.ofNat 64 abcdabcd.ops.srcLen)).length := by
  have h := witness_EncodeSucceedsWithinBound
  exact ⟨h.1, h.2.1, h.2.2.2, by decide +kernel⟩

theorem witness_EncodeWritesAListing :
    Sane abcdabcd ∧ ViewsGood abcdabcd ∧ SourceIs abcdabcd [0x61, 0x62, 0x63, 0x64, 0x61, 0x62, 0x63, 0x64] ∧
    ∃ t, exec .encode abcdabcd = .next t ∧ t.resp.status = 0 :=
  ⟨witness_EncodeSucceedsWithinBound.1, witness_EncodeSucceedsWithinBound.2.1, by unfold SourceIs; decide +kernel,
    witness_EncodeSucceedsWithinBound.2.2.2⟩

theorem witness_EncodeDecodeRoundTrip :
    ∃ s t u : State, Sane s ∧ ViewsGood s ∧ exec .encode s = .next t ∧ t.resp.status = 0 ∧
      Sane u ∧ ViewsGood u ∧ u.ops.srcLen = t.resp.count ∧ (∀ j, j < t.resp.count → src u j = dst t j) ∧
      s.ops.srcLen ≤ u.ops.dstLen := by
  obtain ⟨t, ht, h⟩ := next_of
    (show answers (fun t => decide (t.resp.status = 0 ∧ t.resp.count = 8 ∧
        ∀ j : Nat, j < 8 → src (onBytes [0x08, 0x0C, 0x61, 0x62, 0x63, 0x64, 0x01, 0x04] [] 8) j = dst t j)) (exec .encode abcdabcd) = true by
      decide +kernel)
  have h := of_decide_eq_true h
  exact ⟨abcdabcd, t, onBytes [0x08, 0x0C, 0x61, 0x62, 0x63, 0x64, 0x01, 0x04] [] 8, sane_of (by decide +kernel),
    views_of (by decide +kernel), ht, h.1, sane_of (by decide +kernel), views_of (by decide +kernel), h.2.1.symm,
    by rw [h.2.1]; exact h.2.2, by decide⟩

theorem witness_EncodeIsAFunctionOfTheSource :
    Sane abcdabcd ∧ Sane abcdabcdMoved ∧ ViewsGood abcdabcd ∧ ViewsGood abcdabcdMoved ∧
    32 + abcdabcd.ops.srcLen + abcdabcd.ops.srcLen / 6 ≤ abcdabcd.ops.dstLen ∧
    32 + abcdabcdMoved.ops.srcLen + abcdabcdMoved.ops.srcLen / 6 ≤ abcdabcdMoved.ops.dstLen ∧
    abcdabcd.cfg.encMaxOffset = abcdabcdMoved.cfg.encMaxOffset ∧ SameSource abcdabcd abcdabcdMoved ∧
    (∃ t, exec .encode abcdabcd = .next t) ∧ (∃ t, exec .encode abcdabcdMoved = .next t) := by
  refine ⟨sane_of (by decide +kernel), sane_of (by decide +kernel), views_of (by decide +kernel), views_of (by decide +kernel),
    by decide, by decide, rfl, ⟨rfl, by decide +kernel⟩, ?_, ?_⟩
  · obtain ⟨t, ht, -⟩ := next_of (show answers (fun _ => true) (exec .encode abcdabcd) = true by decide +kernel)
    exact ⟨t, ht⟩
  · obtain ⟨t, ht, -⟩ := next_of (show answers (fun _ => true) (exec .encode abcdabcdMoved) = true by decide +kernel)
    exact ⟨t, ht⟩

/-- Position 4 of "abcdabcd", where the table holds position 0 under the window's index 174. -/
def atMatch : State := atScan [0x61, 0x62, 0x63, 0x64, 0x61, 0x62, 0x63, 0x64] [0x08] 0 4 [(174, 1)]

theorem witness_WindowAndHash : atMatch.enc.shift ≤ 32 := by decide

theorem witness_ProbeReadsThenReplaces : tableWf atMatch.table = true ∧ 5 ≠ atMatch.enc.h := by decide +kernel

theorem witness_CandidateTest :
    atMatch.enc.e = 0 ∧ (probeOp (hashOp (windowOp atMatch))).enc.e ≠ 0 ∧
    (Inv atMatch ∧ atMatch.activity = .scan ∧ atMatch.enc.s + 3 < atMatch.enc.n ∧
      (candidateOp (probeOp (hashOp (windowOp atMatch)))).enc.e ≠ 0) :=
  ⟨rfl, by decide +kernel, inv_of_scan (by decide +kernel), rfl, by decide, by decide +kernel⟩

theorem witness_ExtendIsLongest :
    let s := candidateOp (probeOp (hashOp (windowOp atMatch)));
    s.enc.t < s.enc.s ∧ s.enc.s + 4 ≤ s.enc.n ∧ ∀ j, j < 4 → src s (s.enc.s + j) = src s (s.enc.t + j) := by decide +kernel

/-- A literal of one byte that fits exactly, and one of `2^32 + 1` bytes. -/
theorem witness_EmitLiteralBytes :
    (let s : State := { atScan [0x61] [0x01] 0 0 [] with ops := { (atScan [0x61] [] 0 0 []).ops with dstLen := 3 } };
      s.mem.wf = true ∧ s.activity ≠ .idle ∧ viewsOverlap s = false ∧ 0 < 1 ∧ 1 ≤ s.ops.srcLen ∧ 1 - 0 ≤ 2 ^ 32 ∧
      [0x00#8, 0x61] = encode (shortestLiteral (1 - 0 - 1)) ++ readBytes s.mem (s.ops.srcBase + 0) (1 - 0) ∧
      s.enc.d + [0x00#8, 0x61].length ≤ s.ops.dstLen) ∧
    (let s : State := { State.reset with
        cfg := { Config.default with aw := 34 }
        ops := { State.reset.ops with srcLen := 4294967297, dstBase := 4294967297, dstLen := 1 }
        activity := .scan };
      s.mem.wf = true ∧ s.activity ≠ .idle ∧ viewsOverlap s = false ∧ 0 < 4294967297 ∧ 4294967297 ≤ s.ops.srcLen ∧
      2 ^ 32 < 4294967297 - 0) := by decide +kernel

/-- V-EC-11 with a destination that ends where the chain ends. -/
theorem witness_EmitCopyChain :
    let s : State := { atScan [] [0x61] 0 0 [] with
      enc := { (atScan [] [0x61] 0 0 []).enc with moff := 1, mlen := 65 }
      ops := { State.reset.ops with dstBase := 0x100, dstLen := 7 } };
    s.mem.wf = true ∧ s.activity ≠ .idle ∧ 1 ≤ s.enc.mlen ∧ s.enc.moff < 2 ^ 16 ∧
    [0xFE#8, 0x01, 0x00, 0x02, 0x01, 0x00] = encodeAll (copyElements s.enc.moff s.enc.mlen) ∧
    s.enc.d + [0xFE#8, 0x01, 0x00, 0x02, 0x01, 0x00].length ≤ s.ops.dstLen := by decide +kernel

/-- The first position of "abcdabcd", with the table empty. -/
def atStart : State := atScan [0x61, 0x62, 0x63, 0x64, 0x61, 0x62, 0x63, 0x64] [0x08] 0 0 []

theorem witness_ScanWithoutMatch :
    Inv atStart ∧ atStart.activity = .scan ∧ atStart.host.head? ≠ some .reset ∧ atStart.enc.s + 3 < atStart.enc.n ∧
    isMatch (candidateOp (probeOp (hashOp (windowOp atStart)))) = false :=
  ⟨inv_of_scan (by decide +kernel), rfl, by decide, by decide, by decide +kernel⟩

/-- A pending run of four bytes, the literal and copy of V-ENC-7; the same match with no run pending; and a match behind a run of
`2^32 + 5` bytes. -/
theorem witness_ScanWithMatch :
    (let s := atMatch;
      let p := candidateOp (probeOp (hashOp (windowOp s)));
      Inv s ∧ s.activity = .scan ∧ s.host.head? ≠ some .reset ∧ s.enc.s + 3 < s.enc.n ∧ isMatch p = true ∧
      s.enc.s - s.enc.lit ≤ 2 ^ 32 ∧
      [0x0C#8, 0x61, 0x62, 0x63, 0x64, 0x01, 0x04] = (if s.enc.lit = s.enc.s then []
          else encode (shortestLiteral (s.enc.s - s.enc.lit - 1)) ++
            readBytes s.mem (s.ops.srcBase + s.enc.lit) (s.enc.s - s.enc.lit))
        ++ encodeAll (copyElements (extendOp p).enc.moff (extendOp p).enc.mlen) ∧
      s.enc.d + 7 ≤ s.ops.dstLen) ∧
    (let s := atScan [0x61, 0x62, 0x63, 0x64, 0x61, 0x62, 0x63, 0x64] [0x08] 4 4 [(174, 1)];
      let p := candidateOp (probeOp (hashOp (windowOp s)));
      Inv s ∧ isMatch p = true ∧ s.enc.lit = s.enc.s) ∧
    (let s := atLongRun 4294967301;
      let p := candidateOp (probeOp (hashOp (windowOp s)));
      Inv s ∧ s.activity = .scan ∧ s.host.head? ≠ some .reset ∧ s.enc.s + 3 < s.enc.n ∧ isMatch p = true ∧
      2 ^ 32 < s.enc.s - s.enc.lit) :=
  ⟨⟨inv_of_scan (by decide +kernel), rfl, by decide, by decide, by decide +kernel, by decide, by decide +kernel, by decide⟩,
    ⟨inv_of_scan (by decide +kernel), by decide +kernel, rfl⟩,
    ⟨inv_of_scan (by decide +kernel), rfl, by decide, by decide +kernel, by decide +kernel, by decide +kernel⟩⟩

/-- The end of V-ENC-6 ("abcde", the scan bound reached at 2) and of V-ENC-7 (no run pending), and the end behind
a run of `2^32 + 9` bytes. -/
theorem witness_ScanEnds :
    (let s := atScan [0x61, 0x62, 0x63, 0x64, 0x65] [0x05] 0 2 [];
      Inv s ∧ s.activity = .scan ∧ s.host.head? ≠ some .reset ∧ s.enc.n ≤ s.enc.s + 3 ∧ s.enc.n - s.enc.lit ≤ 2 ^ 32 ∧
      [0x10#8, 0x61, 0x62, 0x63, 0x64, 0x65] = (if s.enc.lit = s.enc.n then []
        else encode (shortestLiteral (s.enc.n - s.enc.lit - 1)) ++
          readBytes s.mem (s.ops.srcBase + s.enc.lit) (s.enc.n - s.enc.lit)) ∧
      s.enc.d + 6 ≤ s.ops.dstLen) ∧
    (let s := atScan [0x61, 0x62, 0x63, 0x64, 0x61, 0x62, 0x63, 0x64] [0x08, 0x0C, 0x61, 0x62, 0x63, 0x64, 0x01, 0x04] 8 8 [];
      Inv s ∧ s.enc.n ≤ s.enc.s + 3 ∧ s.enc.lit = s.enc.n) ∧
    (let s := atLongRun 4294967302;
      Inv s ∧ s.activity = .scan ∧ s.host.head? ≠ some .reset ∧ s.enc.n ≤ s.enc.s + 3 ∧ 2 ^ 32 < s.enc.n - s.enc.lit) :=
  ⟨⟨inv_of_scan (by decide +kernel), rfl, by decide, by decide, by decide, by decide +kernel, by decide⟩,
    ⟨inv_of_scan (by decide +kernel), by decide, rfl⟩,
    ⟨inv_of_scan (by decide +kernel), rfl, by decide, by decide +kernel, by decide +kernel⟩⟩

/-- V-CMD-4; views that share their one address; V-DEC-35; ten bytes and an eleventh (V-DEC-37); V-DEC-36; V-DEC-33's kind:
declared 5 with room for 4. -/
theorem witness_DecodeEntry :
    (let s : State := { State.reset with ops := { State.reset.ops with dstBase := 0xFFFFFFFF, dstLen := 2 } };
      2 ^ s.cfg.aw < s.ops.dstBase + s.ops.dstLen) ∧
    (let s : State := { State.reset with ops := { State.reset.ops with srcBase := 8, srcLen := 1, dstBase := 8, dstLen := 1 } };
      s.ops.srcBase + s.ops.srcLen ≤ 2 ^ s.cfg.aw ∧ s.ops.dstBase + s.ops.dstLen ≤ 2 ^ s.cfg.aw ∧
      ∃ i j, i < s.ops.srcLen ∧ j < s.ops.dstLen ∧ s.ops.srcBase + i = s.ops.dstBase + j) ∧
    (ViewsGood (tenBytes 0xFF) ∧ (tenBytes 0xFF).ops.srcLen ≤ 10 ∧
      ∀ j, j < (tenBytes 0xFF).ops.srcLen → 128 ≤ (src (tenBytes 0xFF) j).toNat) ∧
    (let s := onBytes [0x80, 0x80, 0x80, 0x80, 0x80, 0x80, 0x80, 0x80, 0x80, 0x80, 0x00] [] 0;
      ViewsGood s ∧ 10 < s.ops.srcLen ∧ ∀ j, j < 10 → 128 ≤ (src s j).toNat) ∧
    (ViewsGood (tenBytes 2) ∧ VarintEndsAt (tenBytes 2) 9 ∧ 1 < (src (tenBytes 2) 9).toNat) ∧
    (let s := onBytes [0x05] [] 4;
      ViewsGood s ∧ VarintEndsAt s 0 ∧ s.ops.dstLen < groupSum (src s) (0 + 1)) :=
  ⟨by decide +kernel, ⟨by decide +kernel, by decide +kernel, 0, 0, by decide, by decide, rfl⟩,
    ⟨views_of (by decide +kernel), by decide +kernel⟩, ⟨views_of (by decide +kernel), by decide +kernel⟩,
    ⟨views_of (by decide +kernel), endsAt_of (by decide +kernel), by decide +kernel⟩,
    ⟨views_of (by decide +kernel), endsAt_of (by decide +kernel), by decide +kernel⟩⟩

/-- Each of the five commands with nothing of the host waiting, and a command that is refused. -/
theorem witness_CommandIsItsSteps :
    (∀ s ∈ [withMoves 0 [] abcdabcd, withMoves 1 [] (putting 0 2), withMoves 2 [] (onBytes [0xAC, 0x02, 0xFF] [] 0),
        withMoves 3 [] abcdabcd, withMoves 4 [] (onBytes [0x0A, 0x00, 0x61, 0x15, 0x01] [] 10)],
      Sane s ∧ s.host = [] ∧ ∃ i t, decodeCommand s.ops.op = some i ∧ exec i s = .next t) ∧
    (let s := withMoves 4 [] { State.reset with ops := { State.reset.ops with srcBase := 8, srcLen := 1, dstBase := 8, dstLen := 1 } };
      Sane s ∧ s.host = [] ∧ decodeCommand s.ops.op = some .decode ∧ exec .decode s = .refused .overlappingViews) := by
  have h : ∀ s : State, saneCheck s = true → s.host = [] → (∃ i, decodeCommand s.ops.op = some i ∧
      answers (fun _ => true) (exec i s) = true) →
      Sane s ∧ s.host = [] ∧ ∃ i t, decodeCommand s.ops.op = some i ∧ exec i s = .next t := by
    rintro s hs hh ⟨i, hi, hn⟩
    obtain ⟨t, ht, -⟩ := next_of hn
    exact ⟨sane_of hs, hh, i, t, hi, ht⟩
  refine ⟨?_, sane_of (by decide +kernel), rfl, rfl, rfl⟩
  simp only [List.forall_mem_cons, List.not_mem_nil, false_imp_iff, implies_true, and_true]
  exact ⟨h _ (by decide +kernel) rfl ⟨.maxEncodedLen, rfl, by decide +kernel⟩,
    h _ (by decide +kernel) rfl ⟨.putUvarint, rfl, by decide +kernel⟩,
    h _ (by decide +kernel) rfl ⟨.uvarint, rfl, by decide +kernel⟩,
    h _ (by decide +kernel) rfl ⟨.encode, rfl, by decide +kernel⟩,
    h _ (by decide +kernel) rfl ⟨.decode, rfl, by decide +kernel⟩⟩

/-- A literal element of two bytes' header, with `x`, `L` and the room chosen so that each clause's premise just holds: the header
cut (V-DEC-14), the length guard (V-DEC-16), the destination one short, the source one short, an exact fit. -/
theorem witness_LiteralOutcome :
    (let s := atElement [0x01, 0xF0] [] 1 1;
      Inv s ∧ s.activity = .elements ∧ s.dec.s < s.dec.L ∧ literalOf (.lit1 0) = some (2, 0) ∧ s.dec.L < s.dec.s + 2) ∧
    (let s := atElement [0x01, 0xFC, 0xFF, 0xFF, 0xFF, 0xFF, 0x41] [] 1 1;
      Inv s ∧ s.activity = .elements ∧ s.dec.s < s.dec.L ∧ literalOf (.lit4 0xFFFFFFFF) = some (5, 0xFFFFFFFF) ∧
      s.dec.s + 5 ≤ s.dec.L ∧ (0xFFFFFFFF#32).toNat + 1 = 2 ^ 32) ∧
    (let s := atElement [0x01, 0x04, 0x41, 0x42] [] 1 1;
      Inv s ∧ s.activity = .elements ∧ s.dec.s < s.dec.L ∧ literalOf (.lit0 1) = some (1, 1) ∧ s.dec.s + 1 ≤ s.dec.L ∧
      (1#32).toNat + 1 < 2 ^ 32 ∧ s.dec.dLen - s.dec.d < (1#32).toNat + 1) ∧
    (let s := atElement [0x02, 0x04, 0x41] [] 1 2;
      Inv s ∧ s.activity = .elements ∧ s.dec.s < s.dec.L ∧ literalOf (.lit0 1) = some (1, 1) ∧ s.dec.s + 1 ≤ s.dec.L ∧
      (1#32).toNat + 1 < 2 ^ 32 ∧ (1#32).toNat + 1 ≤ s.dec.dLen - s.dec.d ∧ s.dec.L - (s.dec.s + 1) < (1#32).toNat + 1) ∧
    (let s := atElement [0x01, 0xF8, 0x00, 0x00, 0x00, 0x41] [] 1 1;
      Inv s ∧ s.activity = .elements ∧ s.dec.s < s.dec.L ∧ literalOf (.lit3 0) = some (4, 0) ∧ s.dec.s + 4 ≤ s.dec.L ∧
      (0#32).toNat + 1 < 2 ^ 32 ∧ (0#32).toNat + 1 ≤ s.dec.dLen - s.dec.d ∧ (0#32).toNat + 1 ≤ s.dec.L - (s.dec.s + 4)) ∧
    literalOf (.lit2 1) = some (3, 1) :=
  ⟨⟨inv_of_element (by decide +kernel), by decide +kernel⟩, ⟨inv_of_element (by decide +kernel), by decide +kernel⟩,
    ⟨inv_of_element (by decide +kernel), by decide +kernel⟩, ⟨inv_of_element (by decide +kernel), by decide +kernel⟩,
    ⟨inv_of_element (by decide +kernel), by decide +kernel⟩, rfl⟩

/-- V-DEC-26 (the payload one byte short), V-DEC-17 (the offset one too far), V-DEC-18's kind (the room one byte short), an exact
fit, and offset 0 (V-DEC-31). -/
theorem witness_CopyOutcome :
    (let s := atElement [0x05, 0x00, 0x61, 0x0E, 0x01] [0x61] 3 5;
      Inv s ∧ s.activity = .elements ∧ s.dec.s < s.dec.L ∧ copyOf (.copy2 3 1) = some (3, 4, 1) ∧ s.dec.L < s.dec.s + 3) ∧
    (let s := atElement [0x05, 0x00, 0x61, 0x01, 0x02] [0x61] 3 5;
      Inv s ∧ s.activity = .elements ∧ s.dec.s < s.dec.L ∧ copyOf (.copy1 0 2) = some (2, 4, 2) ∧ s.dec.s + 2 ≤ s.dec.L ∧
      s.dec.d < 2) ∧
    (let s := atElement [0x04, 0x00, 0x61, 0x01, 0x01] [0x61] 3 4;
      Inv s ∧ s.activity = .elements ∧ s.dec.s < s.dec.L ∧ copyOf (.copy1 0 1) = some (2, 4, 1) ∧ s.dec.s + 2 ≤ s.dec.L ∧
      1 ≤ s.dec.d ∧ s.dec.dLen < s.dec.d + 4) ∧
    (let s := atElement [0x05, 0x00, 0x61, 0x01, 0x01] [0x61] 3 5;
      Inv s ∧ s.activity = .elements ∧ s.dec.s < s.dec.L ∧ copyOf (.copy1 0 1) = some (2, 4, 1) ∧ s.dec.s + 2 ≤ s.dec.L ∧
      1 ≤ s.dec.d ∧ s.dec.d + 4 ≤ s.dec.dLen) ∧
    (let s := atElement [0x04, 0x0E, 0x00, 0x00] [] 1 4;
      Inv s ∧ s.activity = .elements ∧ s.dec.s < s.dec.L ∧ copyOf (.copy2 3 0) = some (3, 4, 0) ∧ s.dec.s + 3 ≤ s.dec.L ∧
      0 ≤ s.dec.d ∧ s.dec.d + 4 ≤ s.dec.dLen) :=
  ⟨⟨inv_of_element (by decide +kernel), by decide +kernel⟩, ⟨inv_of_element (by decide +kernel), by decide +kernel⟩,
    ⟨inv_of_element (by decide +kernel), by decide +kernel⟩, ⟨inv_of_element (by decide +kernel), by decide +kernel⟩,
    ⟨inv_of_element (by decide +kernel), by decide +kernel⟩⟩

theorem witness_Copy4AlwaysFails :
    Inv (atElement [0x05, 0x00, 0x61, 0x03] [0x61] 3 5) ∧ (atElement [0x05, 0x00, 0x61, 0x03] [0x61] 3 5).activity = .elements :=
  ⟨inv_of_element (by decide +kernel), rfl⟩

/-- The end of the stream with the declared length produced, and with one byte of two (V-DEC-23's kind). -/
theorem witness_FinalLengthCheck :
    (let s := atElement [0x01, 0x00, 0x61] [0x61] 3 1;
      Inv s ∧ s.activity = .elements ∧ s.host.head? ≠ some .reset ∧ s.dec.s = s.dec.L ∧ s.dec.d = s.dec.dLen) ∧
    (let s := atElement [0x02, 0x00, 0x61] [0x61] 3 2;
      Inv s ∧ s.activity = .elements ∧ s.host.head? ≠ some .reset ∧ s.dec.s = s.dec.L ∧ s.dec.d ≠ s.dec.dLen) :=
  ⟨⟨inv_of_element (by decide +kernel), rfl, by decide, rfl, rfl⟩,
    ⟨inv_of_element (by decide +kernel), rfl, by decide, rfl, by decide +kernel⟩⟩

theorem witness_DecodeOfOneLiteral :
    (let s := onBytes [0x02, 0x04, 0x41, 0x42] [] 2;
      Sane s ∧ ViewsGood s ∧ [0x41#8, 0x42].length < 2 ^ 32 ∧ [0x41#8, 0x42].length ≤ s.ops.dstLen ∧
      SourceIs s (listingBytes [.len (BitVec.ofNat 64 [0x41#8, 0x42].length), .lit [0x41, 0x42]])) ∧
    (let s := onBytes [0x00] [] 0;
      Sane s ∧ ViewsGood s ∧ ([] : List Byte).length ≤ s.ops.dstLen ∧ SourceIs s (listingBytes [.len (BitVec.ofNat 64 0)])) :=
  ⟨⟨sane_of (by decide +kernel), views_of (by decide +kernel), by decide, by decide, by unfold SourceIs; decide +kernel⟩,
    ⟨sane_of (by decide +kernel), views_of (by decide +kernel), by decide, by unfold SourceIs; decide +kernel⟩⟩

/-- P3; and the copy of V-DEC-31, offset 0, whose output is what the destination held. -/
theorem witness_DecodeOfAListing :
    (let s := onBytes [0x89, 0x00, 0xF0, 0x02, 0x78, 0x79, 0x7A, 0x12, 0x03, 0x00, 0x00, 0x21] [] 16;
      let lines : List Line := [.lit1 [0x78, 0x79, 0x7A], .copy2 3 5, .lit0 [0x21]];
      let out : List Byte := [0x78, 0x79, 0x7A, 0x78, 0x79, 0x7A, 0x78, 0x79, 0x21];
      Sane s ∧ ViewsGood s ∧ outputOf (dst s) lines [] = some out ∧
      (∀ l ∈ lines, ∀ bs, l = .lit bs ∨ l = .lit4 bs ∨ (∃ n, l = .lit4n n bs) → bs.length < 2 ^ 32) ∧ out.length ≤ s.ops.dstLen ∧
      (Line.lenPadded 2 (BitVec.ofNat 64 out.length)).legal = true ∧
      SourceIs s (listingBytes (.lenPadded 2 (BitVec.ofNat 64 out.length) :: lines))) ∧
    (let s := onBytes [0x04, 0x0E, 0x00, 0x00] [0xE1, 0xE2, 0xE3, 0xE4] 4;
      let lines : List Line := [.copy2 0 4];
      let out : List Byte := [0xE1, 0xE2, 0xE3, 0xE4];
      Sane s ∧ ViewsGood s ∧ outputOf (dst s) lines [] = some out ∧
      (∀ l ∈ lines, ∀ bs, l = .lit bs ∨ l = .lit4 bs ∨ (∃ n, l = .lit4n n bs) → bs.length < 2 ^ 32) ∧ out.length ≤ s.ops.dstLen ∧
      (Line.lenPadded 1 (BitVec.ofNat 64 out.length)).legal = true ∧
      SourceIs s (listingBytes (.lenPadded 1 (BitVec.ofNat 64 out.length) :: lines))) :=
  ⟨⟨sane_of (by decide +kernel), views_of (by decide +kernel), by decide +kernel, by simp, by decide, by decide +kernel,
      by unfold SourceIs; decide +kernel⟩,
    ⟨sane_of (by decide +kernel), views_of (by decide +kernel), by decide +kernel, by simp, by decide, by decide +kernel,
      by unfold SourceIs; decide +kernel⟩⟩

/-- An element that runs and a scan position that runs. -/
theorem witness_StepKeepsTheInvariant :
    (Inv copyAt3 ∧ ∃ t, step copyAt3 = .next t) ∧ (Inv atMatch ∧ ∃ t, step atMatch = .next t) := by
  refine ⟨⟨inv_of_element (by decide +kernel), ?_⟩, ⟨inv_of_scan (by decide +kernel), ?_⟩⟩
  · obtain ⟨t, ht, -⟩ := next_of (show answers (fun _ => true) (step copyAt3) = true by decide +kernel)
    exact ⟨t, ht⟩
  · obtain ⟨t, ht, -⟩ := next_of (show answers (fun _ => true) (step atMatch) = true by decide +kernel)
    exact ⟨t, ht⟩

theorem witness_StepAnswersNext : Inv copyAt3 ∧ Inv State.reset :=
  ⟨inv_of_element (by decide +kernel), inv_of_idle (by decide +kernel) rfl⟩

theorem witness_CommandsEnd : Sane abcdabcd ∧ Instr.encode.space = .command ∧ Instr.decode.space = .command :=
  ⟨sane_of (by decide +kernel), rfl, rfl⟩

/-- A success (STATUS 0) and a failure (V-DEC-35). -/
theorem witness_ResponseRecord :
    (∃ t, exec .encode abcdabcd = .next t ∧ t.resp.status = 0) ∧
    (∃ t, exec .decode (onBytes [] [] 0) = .next t ∧ t.resp.status ≠ 0) := by
  refine ⟨witness_EncodeSucceedsWithinBound.2.2.2, ?_⟩
  obtain ⟨t, ht, h⟩ :=
    next_of (show answers (fun t => decide (t.resp.status ≠ 0)) (exec .decode (onBytes [] [] 0)) = true by decide +kernel)
  exact ⟨t, ht, of_decide_eq_true h⟩

theorem witness_CauseDeterminesClass : Cause.copy4Tag.code = Cause.copy4Tag.code := rfl

theorem witness_OperandsAreNeverWritten : (∃ t, exec .encode abcdabcd = .next t) ∧ ∃ t, exec (.copy1 5 1) copyAt3 = .next t := by
  constructor
  · obtain ⟨t, ht, -⟩ := next_of (show answers (fun _ => true) (exec .encode abcdabcd) = true by decide +kernel)
    exact ⟨t, ht⟩
  · obtain ⟨t, ht, -⟩ := next_of (show answers (fun _ => true) (exec (.copy1 5 1) copyAt3) = true by decide +kernel)
    exact ⟨t, ht⟩

theorem witness_WritesOnlyTheDestination :
    (∃ t, exec (.copy1 5 1) copyAt3 = .next t) ∧ (∃ t, exec .uvarint (tenBytes 1) = .next t) ∧
    (Instr.varintLast 1).space = .varint := by
  refine ⟨witness_OperandsAreNeverWritten.2, ?_, rfl⟩
  obtain ⟨t, ht, -⟩ := next_of (show answers (fun _ => true) (exec .uvarint (tenBytes 1)) = true by decide +kernel)
  exact ⟨t, ht⟩

/-- Two states that differ in the working registers, the table, the responses and the activity only. -/
theorem witness_NothingCarriesOver :
    let s := abcdabcd;
    let s' : State := { atMatch with ops := s.ops, mem := s.mem, resp := okResponse 5 9 };
    s' ≠ s ∧ Instr.encode.space = .command ∧ s'.cfg = s.cfg ∧ s'.ops = s.ops ∧ s'.mem = s.mem ∧ s'.host = s.host ∧ s'.free = s.free :=
  ⟨by decide +kernel, rfl, rfl, rfl, rfl, rfl, rfl⟩

/-- The stream of V-DEC-31, whose output is what the destination held, at two places. -/
theorem witness_DecodeIsOffsetIndependent :
    let s := onBytes [0x04, 0x0E, 0x00, 0x00] [0xEE, 0xEE, 0xEE, 0xEE] 4;
    let s' : State := { State.reset with
      ops := { State.reset.ops with srcBase := 0x20, srcLen := 4, dstBase := 0x10, dstLen := 4 }
      mem := writeBytes (writeBytes [] 0x20 [0x04, 0x0E, 0x00, 0x00]) 0x10 [0xEE, 0xEE, 0xEE, 0xEE] };
    Sane s ∧ Sane s' ∧ ViewsGood s ∧ ViewsGood s' ∧ SameSource s s' ∧ s.ops.dstLen = s'.ops.dstLen ∧
    (∀ j, j < s.ops.dstLen → dst s j = dst s' j) ∧ (∃ t, exec .decode s = .next t ∧ t.resp.status = 0 ∧ t.resp.count = 4) ∧
    ∃ t', exec .decode s' = .next t' := by
  refine ⟨sane_of (by decide +kernel), sane_of (by decide +kernel), views_of (by decide +kernel), views_of (by decide +kernel),
    ⟨rfl, by decide +kernel⟩, rfl, by decide +kernel, ?_, ?_⟩
  · obtain ⟨t, ht, h⟩ := next_of (show answers (fun t => decide (t.resp.status = 0 ∧ t.resp.count = 4))
      (exec .decode (onBytes [0x04, 0x0E, 0x00, 0x00] [0xEE, 0xEE, 0xEE, 0xEE] 4)) = true by decide +kernel)
    exact ⟨t, ht, of_decide_eq_true h⟩
  · obtain ⟨t, ht, -⟩ := next_of (show answers (fun _ => true) (exec .decode { State.reset with
      ops := { State.reset.ops with srcBase := 0x20, srcLen := 4, dstBase := 0x10, dstLen := 4 }
      mem := writeBytes (writeBytes [] 0x20 [0x04, 0x0E, 0x00, 0x00]) 0x10 [0xEE, 0xEE, 0xEE, 0xEE] }) = true by decide +kernel)
    exact ⟨t, ht⟩

end Sys2Proof.Tests
end

section
/-! The micro-steps of a command against its run to the end (R8): past its entry a step is a micro-step, a micro-step leaves an idle
core as it is, and what a command's meaning answers is an iterate of the micro-step. -/

namespace Sys2Proof.Machine

/-! ## A micro-step by the core's activity -/

theorem microStep_idle {s : State} (ha : s.activity = .idle) : microStep s = s := by
  simp [microStep, fetchItem, sequencerStep, ha]

theorem microStep_putBytes {s : State} (ha : s.activity = .putBytes) : microStep s = putByte s := by
  simp [microStep, fetchItem, sequencerStep, ha]

theorem microStep_encodeStart {s : State} (ha : s.activity = .encodeStart) : microStep s = encodeOpen s := by
  simp [microStep, fetchItem, sequencerStep, ha]

theorem microStep_scan {s : State} (ha : s.activity = .scan) : microStep s = scanStep s := by
  simp [microStep, fetchItem, sequencerStep, ha]

/-- A micro-step changes no operand, no parameter, no move of the host and no byte outside the destination view (R20, R21, R52). -/
theorem stays_microStep {s : State} (h : Inv s) : Stays s.ops.dstLen s (microStep s) := by
  rcases microStep_cases s with ⟨u, -, -, -, -, hm⟩ | ⟨i, rest, ha, -, -, -, -, hm⟩ | ⟨-, hm, -⟩
  · rw [hm]
    refine stays_runItem _ fun hsp => ?_
    rw [decodeVarintByte_space] at hsp
    cases hsp
  · rw [hm]
    exact (stays_fetchElement _ s).trans (stays_runItem i fun _ => (h.elements ha).declared)
  · rw [hm]
    unfold sequencerStep
    split
    · exact Stays.refl _ _
    · exact Stays.refl _ _
    · rename_i ha
      have hp := h.putBytes ha
      have hroom := hp.room
      have hleft := hp.left
      have hpos := varintLen_pos s.vu.v
      exact stays_putByte (by omega)
    · exact stays_varintLoopExit _ _
    · rename_i ha; exact stays_decodeFinal (h.elements ha).declared
    · exact stays_encodeOpen s
    · exact stays_scanStep s

/-- A command does not come back to its entry. -/
theorem microStep_not_issued {s : State} (h : Inv s) (hi : s.activity ≠ .issued) : (microStep s).activity ≠ .issued := by
  cases ha : s.activity with
  | idle => rw [microStep_idle ha]; exact hi
  | issued => exact absurd ha hi
  | putBytes =>
    rw [microStep_putBytes ha]
    rcases (inv_putByte h ha).2 with h' | ⟨h', -⟩ <;> simp [h']
  | varint u => rcases varint_progress ha with h' | ⟨-, -, h', -⟩ | ⟨-, -, h', -⟩ <;> simp [h']
  | elements => rcases elements_progress ha with h' | ⟨-, h', -⟩ <;> simp [h']
  | encodeStart =>
    rw [microStep_encodeStart ha]
    rcases (inv_encodeOpen h ha).2 with h' | ⟨h', -⟩ <;> simp [h']
  | scan =>
    rw [microStep_scan ha]
    rcases (inv_scanStep h ha).2 with h' | ⟨h', -⟩ <;> simp [h']

/-! ## Running to the end as an iterate of the micro-step -/

theorem iterate_microStep_idle {s : State} (ha : s.activity = .idle) (k : Nat) : microStep^[k] s = s :=
  Function.iterate_fixed (microStep_idle ha) k

/-- Since a micro-step leaves an idle core alone, a run to the end is as many micro-steps as it is allowed. -/
theorem runToIdle_iff : ∀ {n : Nat} {s t : State},
    runToIdle n s = .next t ↔ t.activity = .idle ∧ t = microStep^[n] s
  | 0, s, t => by
    unfold runToIdle
    split
    · rename_i he
      constructor
      · rintro ⟨⟩; exact ⟨ended_iff.1 he, rfl⟩
      · rintro ⟨-, rfl⟩; rfl
    · rename_i he
      refine ⟨nofun, ?_⟩
      rintro ⟨ha, rfl⟩
      exact absurd (ended_iff.2 ha) he
  | n + 1, s, t => by
    unfold runToIdle
    split
    · rename_i he
      have ha := ended_iff.1 he
      rw [iterate_microStep_idle ha]
      constructor
      · rintro ⟨⟩; exact ⟨ha, rfl⟩
      · rintro ⟨-, rfl⟩; rfl
    · rw [Function.iterate_succ_apply]
      exact runToIdle_iff

theorem runToIdle_idle {s : State} (ha : s.activity = .idle) (n : Nat) : runToIdle n s = .next s :=
  runToIdle_iff.2 ⟨ha, (iterate_microStep_idle ha n).symm⟩

/-- A run that ends has one end, whatever the turns it is allowed. -/
theorem runToIdle_unique {n m : Nat} {s t t' : State} (h : runToIdle n s = .next t) (h' : runToIdle m s = .next t') :
    t = t' := by
  have h1 := runToIdle_mono h (Nat.le_max_left n m)
  rw [runToIdle_mono h' (Nat.le_max_right n m)] at h1
  cases h1
  rfl

/-! ## Steps of the machine past a command's entry -/

/-- A command past its entry, or an idle core, with no move of the host waiting. -/
structure Underway (s : State) : Prop where
  inv : Inv s
  quiet : s.host = []
  entered : s.activity ≠ .issued

theorem useWait_quiet {s : State} (hq : s.host = []) : useWait s = s := by simp only [useWait, hq]

theorem not_reset_of_quiet {s : State} (hq : s.host = []) : s.host.head? ≠ some .reset := by simp [hq]

/-- A step is a micro-step; for an idle core both change nothing. -/
theorem Underway.step_eq {s : State} (h : Underway s) : step s = .next (microStep s) := by
  by_cases ha : s.activity = .idle
  · rw [step_noMove ha h.quiet, microStep_idle ha]
  · rw [step_microStep h.inv ha h.entered (not_reset_of_quiet h.quiet), useWait_quiet h.quiet]

theorem underway_microStep {s : State} (h : Underway s) : Underway (microStep s) where
  inv := inv_microStep h.inv
  quiet := (stays_microStep h.inv).host.trans h.quiet
  entered := microStep_not_issued h.inv h.entered

theorem Underway.stepsTo_iff : ∀ {k : Nat} {s t : State}, Underway s → (StepsTo k s t ↔ t = microStep^[k] s)
  | 0, _, _, _ => eq_comm
  | k + 1, s, t, h => by
    rw [Function.iterate_succ_apply, ← (underway_microStep h).stepsTo_iff]
    constructor
    · rintro ⟨u, hu, hk⟩
      rw [h.step_eq] at hu
      cases hu
      exact hk
    · exact fun hk => ⟨_, h.step_eq, hk⟩

/-- To run a command to its end is to let the machine step until the core is idle. -/
theorem Underway.runToIdle_iff_stepsTo {n : Nat} {s e : State} (h : Underway s) (hend : runToIdle n s = .next e) (t : State) :
    e = t ↔ t.activity = .idle ∧ ∃ k, StepsTo k s t := by
  simp only [h.stepsTo_iff]
  constructor
  · rintro rfl
    obtain ⟨ha, he⟩ := runToIdle_iff.1 hend
    exact ⟨ha, n, he⟩
  · rintro ⟨ha, k, hk⟩
    exact runToIdle_unique hend (runToIdle_iff.2 ⟨ha, hk⟩)

/-! ## PUT_UVARINT byte by byte (R121, R122) -/

/-- The loop of R121 writes the bytes of what is left of the value and ends the command with COUNT their number and the number
written before. -/
theorem runToIdle_putBytes : ∀ {turns : Nat} {s : State}, s.activity = .putBytes → s.vu.v.toNat < 2 ^ (7 * (turns + 1)) →
    runToIdle (turns + 1) s = .next (succeed (s.vu.i + (varintBytesFrom turns s.vu.v).length) 0
      { s with mem := writeBytes s.mem (s.ops.dstBase + s.vu.i) (varintBytesFrom turns s.vu.v) })
  | turns, s, ha, hv => by
    have hrun : runToIdle (turns + 1) s = runToIdle turns (putByte s) := by
      rw [runToIdle, if_neg (by simp [ended, ha]), microStep_putBytes ha]
    rw [hrun]
    unfold putByte
    split
    · rename_i hge
      cases turns with
      | zero => omega
      | succ turns =>
        have hsh : (s.vu.v >>> 7).toNat = s.vu.v.toNat / 2 ^ 7 := by simp [Nat.shiftRight_eq_div_pow]
        rw [runToIdle_putBytes (by exact ha) (by
          show (s.vu.v >>> 7).toNat < _
          rw [hsh, Nat.div_lt_iff_lt_mul (by omega), ← Nat.pow_add]
          exact lt_of_lt_of_eq hv (by congr 1))]
        simp only [varintBytesFrom, if_pos hge, List.length_cons, modVu_vu, dstW_vu, writeBytes]
        rw [Nat.add_right_comm, Nat.add_assoc]
        rfl
    · rename_i hlt
      have hlast : varintBytesFrom turns s.vu.v = [s.vu.v.setWidth 8] := by
        cases turns with
        | zero => rfl
        | succ turns => simp only [varintBytesFrom, if_neg hlt]
      rw [runToIdle_idle rfl, hlast]
      rfl

/-- PUT_UVARINT's bytes one at a time come to what it writes as one operation. -/
theorem runToIdle_startPut (s : State) : runToIdle 10 (startPut s) = .next (putAll s) := by
  have hv := s.ops.valueIn.isLt
  rw [runToIdle_putBytes (turns := 9) rfl (by rw [startPut_vu]; omega)]
  simp only [startPut_vu, Nat.zero_add]
  have hlen : (varintBytesFrom 9 s.ops.valueIn).length = varintLen s.ops.valueIn := varintBytes_length _
  rw [hlen]
  rfl

/-! ## A command's meaning from its entry -/

theorem decodeCommand_space {op : BitVec 3} {i : Instr} (h : decodeCommand op = some i) : i.space = .command := by
  unfold decodeCommand at h
  split_ifs at h <;> cases h <;> rfl

/-- Where the entry of a command leaves the core: the command has failed before any write, MAX_ENCODED_LEN is done, or the first
loop of another command starts. -/
theorem enter_next {i : Instr} {s u : State} (hi : i.space = .command) (h : enter i s = .next u) :
    (∃ c, u = failClean c s) ∨ u = maxEncodedLen s ∨ u = startPut s ∨ u = startVarint .uvarint s ∨ u = startEncode s ∨
      u = startDecode s := by
  cases i with
  | maxEncodedLen => cases h; exact .inr (.inl rfl)
  | putUvarint =>
    simp only [enter, putEntry] at h
    split_ifs at h <;> cases h
    · exact .inl ⟨_, rfl⟩
    · exact .inl ⟨_, rfl⟩
    · exact .inr (.inr (.inl rfl))
  | uvarint =>
    simp only [enter, enterUvarint] at h
    split_ifs at h <;> cases h
    · exact .inl ⟨_, rfl⟩
    · exact .inr (.inr (.inr (.inl rfl)))
  | encode =>
    simp only [enter, enterEncode] at h
    split_ifs at h <;> cases h
    · exact .inl ⟨_, rfl⟩
    · exact .inl ⟨_, rfl⟩
    · exact .inr (.inr (.inr (.inr (.inl rfl))))
  | decode =>
    simp only [enter, enterDecode] at h
    split_ifs at h <;> cases h
    · exact .inl ⟨_, rfl⟩
    · exact .inr (.inr (.inr (.inr (.inr rfl))))
  | _ => cases hi

theorem enter_host {i : Instr} {s u : State} (hi : i.space = .command) (h : enter i s = .next u) : u.host = s.host := by
  rcases enter_next hi h with ⟨c, rfl⟩ | rfl | rfl | rfl | rfl | rfl <;> rfl

theorem enter_not_issued {i : Instr} {s u : State} (hi : i.space = .command) (h : enter i s = .next u) :
    u.activity ≠ .issued := by
  rcases enter_next hi h with ⟨c, rfl⟩ | rfl | rfl | rfl | rfl | rfl <;> exact nofun

/-- The entry of a command does not look at the activity it finds (R34). -/
theorem enter_withActivity {i : Instr} (hi : i.space = .command) (s : State) (a : Activity) :
    enter i { s with activity := a } = enter i s := by
  cases i with
  | maxEncodedLen => rfl
  | putUvarint => rfl
  | uvarint => rfl
  | encode => rfl
  | decode => rfl
  | _ => cases hi

theorem runToIdle_putEntry (s : State) : runToIdle 10 (putEntry startPut s) = .next (putUvarint s) := by
  unfold putUvarint putEntry
  split
  · exact runToIdle_idle rfl 10
  · split
    · exact runToIdle_idle rfl 10
    · exact runToIdle_startPut s

/-- A command either is refused at its entry or ends, and then its meaning is the run of what its entry answers to the end (R8,
R57, R317). -/
theorem exec_command_cases {i : Instr} {s : State} (hs : Sane s) (hi : i.space = .command) :
    (∃ r, enter i s = .refused r ∧ exec i s = .refused r) ∨
    ∃ u n t, enter i s = .next u ∧ Inv u ∧ runToIdle n u = .next t ∧ exec i s = .next t := by
  cases i with
  | maxEncodedLen => exact .inr ⟨_, 0, _, rfl, inv_maxEncodedLen hs, runToIdle_idle rfl 0, rfl⟩
  | putUvarint =>
    exact .inr ⟨_, 10, _, rfl, inv_putEntry hs fun hw hr => inv_startPut hs hw hr, runToIdle_putEntry s, rfl⟩
  | uvarint =>
    obtain ⟨u, he, hu, hstart⟩ := enterUvarint_cases hs
    have hend : ∃ t, runToIdle 11 u = .next t := by
      rcases hstart with ha | rfl
      · exact ⟨u, runToIdle_idle ha 11⟩
      · exact uvarint_ends s
    obtain ⟨t, ht⟩ := hend
    exact .inr ⟨u, 11, t, he, hu, ht, by rw [← ht]; exact congrArg (finish 11) he⟩
  | encode =>
    rcases enterEncode_cases hs with ⟨-, he⟩ | ⟨u, he, hu, hstart⟩
    · exact .inl ⟨_, he, congrArg (finish _) he⟩
    · have hend : ∃ t, runToIdle (s.ops.srcLen + 3) u = .next t := by
        rcases hstart with ha | ⟨rfl, -, -⟩
        · exact ⟨u, runToIdle_idle ha _⟩
        · exact encode_ends hu rfl
      obtain ⟨t, ht⟩ := hend
      exact .inr ⟨u, _, t, he, hu, ht, by rw [← ht]; exact congrArg (finish _) he⟩
  | decode =>
    rcases enterDecode_cases hs with ⟨-, he⟩ | ⟨u, he, hu, hstart⟩
    · exact .inl ⟨_, he, congrArg (finish _) he⟩
    · have hend : ∃ t, runToIdle (s.ops.srcLen + 2) u = .next t := by
        rcases hstart with ha | ⟨rfl, -⟩
        · exact ⟨u, runToIdle_idle ha _⟩
        · exact decode_ends hu rfl rfl
      obtain ⟨t, ht⟩ := hend
      exact .inr ⟨u, _, t, he, hu, ht, by rw [← ht]; exact congrArg (finish _) he⟩
  | _ => cases hi

/-! ## A launched command -/

/-- The first step of a launched command is its entry. -/
theorem step_launched {i : Instr} {s : State} (hq : s.host = []) (hd : decodeCommand s.ops.op = some i) :
    step { s with activity := .issued } = enter i s := by
  calc step { s with activity := .issued }
      = enterCommand (useWait { s with activity := .issued }) := step_issued rfl (not_reset_of_quiet hq)
    _ = enterCommand { s with activity := .issued } := congrArg enterCommand (useWait_quiet hq)
    _ = enter i { s with activity := .issued } := by simp only [enterCommand, hd]
    _ = enter i s := enter_withActivity (decodeCommand_space hd) s .issued

/-- A launched command that has come to an idle core has got there from what its entry answered. -/
theorem launched_to_idle_iff {i : Instr} {s t : State} (hq : s.host = []) (hd : decodeCommand s.ops.op = some i) :
    (t.activity = .idle ∧ ∃ k, StepsTo k { s with activity := .issued } t) ↔
      ∃ u, enter i s = .next u ∧ t.activity = .idle ∧ ∃ k, StepsTo k u t := by
  rw [← step_launched hq hd]
  constructor
  · rintro ⟨ha, _ | k, hk⟩
    · cases hk; cases ha
    · obtain ⟨u, hu, hk⟩ := hk
      exact ⟨u, hu, ha, k, hk⟩
  · rintro ⟨u, hu, ha, k, hk⟩
    exact ⟨ha, k + 1, u, hu, hk⟩

/-- Settles O42: the entry is the same in both forms, and past it a step is a micro-step, of which the meaning is an iterate. -/
theorem commandIsItsSteps : Obligations.CommandIsItsSteps := by
  intro s t i hs hq hd
  have hi := decodeCommand_space hd
  rw [launched_to_idle_iff hq hd, step_launched hq hd]
  rcases exec_command_cases hs hi with ⟨r, he, hx⟩ | ⟨u, n, e, he, hinv, hend, hx⟩
  · rw [he, hx]
    refine ⟨⟨nofun, ?_⟩, fun _ h => h⟩
    rintro ⟨u, hu, -⟩
    cases hu
  · have hu : Underway u := ⟨hinv, (enter_host hi he).trans hq, enter_not_issued hi he⟩
    rw [he, hx]
    simp only [Host.Outcome.next.injEq, exists_eq_left']
    exact ⟨hu.runToIdle_iff_stepsTo hend t, nofun⟩

end Sys2Proof.Machine
end

section
/-! A command as its entry and its run to the end, in every state (R8), and what every step keeps: the invariant, the operand
registers, the parameters and the host's moves. -/

namespace Sys2Proof.Machine

/-! ## A command is its entry, run to the end -/

/-- The micro-steps a command is allowed behind its entry, for a source of `n` bytes. -/
def turnsOf (i : Instr) (n : Nat) : Nat :=
  match i with
  | .uvarint => 11
  | .encode => n + 3
  | .decode => n + 2
  | _ => 10

/-- What a command means is what its entry answers, run to the end (R8); in every state, with the invariant or without. -/
theorem exec_eq_finish {i : Instr} (hi : i.space = .command) (s : State) :
    exec i s = finish (turnsOf i s.ops.srcLen) (enter i s) := by
  cases i with
  | maxEncodedLen => exact (runToIdle_idle (s := maxEncodedLen s) rfl 10).symm
  | putUvarint => exact (runToIdle_putEntry s).symm
  | uvarint => rfl
  | encode => rfl
  | decode => rfl
  | _ => cases hi

/-- A command that answers a next state has entered, and run from there to its end. -/
theorem exec_command_run {i : Instr} {s t : State} (hi : i.space = .command) (h : exec i s = .next t) :
    ∃ u n, enter i s = .next u ∧ runToIdle n u = .next t := by
  rw [exec_eq_finish hi] at h
  obtain ⟨u, hu, ht⟩ := finish_next h
  exact ⟨u, _, hu, ht⟩

/-- What a command's entry establishes and every micro-step keeps holds when the command is done. -/
theorem exec_command_induct {P : State → Prop} {i : Instr} {s t : State} (hi : i.space = .command)
    (h : exec i s = .next t) (hstart : ∀ u, enter i s = .next u → P u)
    (hstep : ∀ u, P u → u.activity ≠ .idle → P (microStep u)) : P t := by
  obtain ⟨u, n, hu, ht⟩ := exec_command_run hi h
  exact runToIdle_induct hstep (hstart u hu) ht

/-! ## The invariant -/

/-- The entry of a command of a sane state establishes the invariant. -/
theorem inv_enter {i : Instr} {s u : State} (hs : Sane s) (hi : i.space = .command) (h : enter i s = .next u) : Inv u := by
  rcases exec_command_cases hs hi with ⟨r, hr, -⟩ | ⟨v, n, t, hv, hinv, -, -⟩
  · rw [hr] at h; cases h
  · rw [hv] at h; cases h; exact hinv

/-- A command of a sane state ends in a state with the invariant. -/
theorem inv_exec_command {i : Instr} {s t : State} (hs : Sane s) (hi : i.space = .command) (h : exec i s = .next t) :
    Inv t :=
  exec_command_induct hi h (fun _ hu => inv_enter hs hi hu) fun _ hu _ => inv_microStep hu

theorem inv_issueCommand {s t : State} (hs : Sane s) (h : issueCommand s = .next t) : Inv t := by
  unfold issueCommand at h
  split at h
  · rename_i hd; exact inv_exec_command hs (decodeCommand_space hd) h
  · cases h; exact inv_badOpcode hs

theorem sane_writeReg {s : State} (h : Sane s) (r : Reg) (v : Value) : Sane (writeReg r v s) :=
  { h with ops := writeOperand_fit h.ops r v }

theorem sane_hostWriteMem {s t : State} {a : Nat} {b : Byte} (h : Sane s) (ht : hostWriteMem a b s = .next t) : Sane t := by
  unfold hostWriteMem at ht
  split at ht
  · rename_i ha
    cases ht
    exact { h with mem := writeByte_wf h.mem, memFits := writeByte_within h.memFits ha }
  · cases ht

theorem hostWriteMem_activity {s t : State} {a : Nat} {b : Byte} (ht : hostWriteMem a b s = .next t) :
    t.activity = s.activity := by
  unfold hostWriteMem at ht
  split at ht <;> cases ht
  rfl

/-- A reset keeps the invariant, from an idle core and from inside a command (R310). -/
theorem inv_reset_move {s : State} (h : Inv s) (rest : List HostMove) : Inv (resetCore { s with host := rest }) := by
  have h' : Inv { s with host := rest } := inv_host h rfl
  exact inv_resetCore h'.sane (writeLimit_inMemory h')

/-- Each move of the host keeps the invariant. -/
theorem inv_step_idle {s t : State} (h : Inv s) (ha : s.activity = .idle) (ht : step s = .next t) : Inv t := by
  have hrest (rest : List HostMove) : Sane { s with host := rest } := (inv_host h rfl).sane
  cases hh : s.host with
  | nil => rw [step_noMove ha hh] at ht; cases ht; exact h
  | cons m rest =>
    cases m with
    | writeReg r v =>
      rw [step_writeReg ha hh] at ht; cases ht
      exact inv_of_idle (sane_writeReg (hrest rest) r v) ha
    | writeMem a b =>
      rw [step_writeMem ha hh] at ht
      exact inv_of_idle (sane_hostWriteMem (hrest rest) ht) ((hostWriteMem_activity ht).trans ha)
    | issue => rw [step_issue ha hh] at ht; exact inv_issueCommand (hrest rest) ht
    | launch =>
      rw [step_launch ha hh] at ht; cases ht
      exact inv_of_issued { hrest rest with } rfl
    | wait => rw [step_wait ha hh] at ht; cases ht; exact inv_host h rfl
    | reset => rw [step_reset hh] at ht; cases ht; exact inv_reset_move h rest

/-- A step inside a command keeps the invariant: its entry, or one micro-step. -/
theorem inv_step_busy {s t : State} (h : Inv s) (ha : s.activity ≠ .idle) (hr : s.host.head? ≠ some .reset)
    (ht : step s = .next t) : Inv t := by
  have hu := inv_useWait h
  by_cases hi : s.activity = .issued
  · rw [step_issued hi hr] at ht
    rcases enterCommand_cases hu.sane with ⟨u, he, hinv⟩ | ⟨-, -, he⟩ <;> rw [he] at ht <;> cases ht
    exact hinv
  · rw [step_microStep h ha hi hr] at ht; cases ht
    exact inv_microStep hu

/-- Settles O49: a reset, a move of the host, the entry of a command and a micro-step each keep the invariant. -/
theorem stepKeepsTheInvariant : Obligations.StepKeepsTheInvariant := by
  intro s t h ht
  by_cases hr : s.host.head? = some .reset
  · obtain ⟨rest, hh⟩ := List.head?_eq_some_iff.1 hr
    rw [step_reset hh] at ht; cases ht
    exact inv_reset_move h rest
  · by_cases ha : s.activity = .idle
    · exact inv_step_idle h ha ht
    · exact inv_step_busy h ha hr ht

/-- Settles O50: every register and every entry is 0, and the core is idle. -/
theorem resetHasTheInvariant : Obligations.ResetHasTheInvariant := by
  have hpos := space_pos Config.default
  refine inv_of_idle ?_ rfl
  exact {
    cfg := rfl
    ops := ⟨hpos, hpos, hpos, hpos⟩
    resp := ⟨hpos, hpos, hpos⟩
    enc := ⟨hpos, hpos, hpos, hpos, hpos, hpos, Nat.two_pow_pos _, Nat.two_pow_pos _, Nat.two_pow_pos _, hpos, hpos, hpos⟩
    dec := ⟨hpos, hpos, hpos, hpos, Nat.two_pow_pos _, Nat.two_pow_pos _, hpos⟩
    vu := ⟨Nat.two_pow_pos _, Nat.two_pow_pos _⟩
    table := rfl
    tableFits := rfl
    mem := rfl
    memFits := rfl }

/-! ## Operand registers, parameters and the host's moves -/

/-- In every state a micro-step leaves operands, parameters and the host's moves alone; how far it writes the destination view is
bounded in states with the invariant only. -/
theorem exists_stays_microStep (s : State) : ∃ lim, Stays lim s (microStep s) := by
  rcases microStep_cases s with ⟨-, -, -, -, -, hm⟩ | ⟨i, -, -, -, -, -, -, hm⟩ | ⟨-, hm, -⟩
  · rw [hm]
    exact ⟨_, stays_runItem _ fun _ => Nat.le_refl _⟩
  · rw [hm]
    exact ⟨_, (stays_fetchElement _ s).trans (stays_runItem i fun _ => Nat.le_refl _)⟩
  · rw [hm]
    unfold sequencerStep
    split
    · exact ⟨0, Stays.refl _ _⟩
    · exact ⟨0, Stays.refl _ _⟩
    · exact ⟨_, stays_putByte (Nat.lt_succ_self _)⟩
    · exact ⟨0, stays_varintLoopExit _ _⟩
    · exact ⟨_, stays_decodeFinal (Nat.le_refl _)⟩
    · exact ⟨_, stays_encodeOpen s⟩
    · exact ⟨_, stays_scanStep s⟩

/-- The registers and moves of R20 and R21 that only the host can change are the same. -/
structure SameHostSide (s t : State) : Prop where
  ops : t.ops = s.ops
  cfg : t.cfg = s.cfg
  host : t.host = s.host

theorem Stays.sameHostSide {lim : Nat} {s t : State} (h : Stays lim s t) : SameHostSide s t := ⟨h.ops, h.cfg, h.host⟩

theorem sameHostSide_microStep {s u : State} (h : SameHostSide s u) : SameHostSide s (microStep u) := by
  obtain ⟨lim, hst⟩ := exists_stays_microStep u
  exact ⟨hst.ops.trans h.ops, hst.cfg.trans h.cfg, hst.host.trans h.host⟩

theorem sameHostSide_enter {i : Instr} {s u : State} (hi : i.space = .command) (h : enter i s = .next u) :
    SameHostSide s u := by
  rcases enter_next hi h with ⟨c, rfl⟩ | rfl | rfl | rfl | rfl | rfl <;> exact ⟨rfl, rfl, rfl⟩

/-- Settles O55: a stream item by its frame, a command by the frame of its entry and of every micro-step. -/
theorem operandsAreNeverWritten : Obligations.OperandsAreNeverWritten := by
  intro s t i ht
  have hsame : SameHostSide s t := by
    cases hsp : i.space with
    | command =>
      exact exec_command_induct hsp ht (fun _ hu => sameHostSide_enter hsp hu) fun _ hu _ => sameHostSide_microStep hu
    | varint =>
      rw [exec_varint hsp] at ht; cases ht
      exact (stays_runItem i fun _ => Nat.le_refl _).sameHostSide
    | element =>
      rw [exec_element hsp, inBounds] at ht
      split at ht <;> cases ht
      exact (stays_runItem i fun _ => Nat.le_refl _).sameHostSide
  exact ⟨hsame.ops, hsame.cfg, hsame.host⟩

end Sys2Proof.Machine
end

section
/-! The host's side of the registers (R20 to R23, R35, R310): what a read answers after a write and after a reset. -/

namespace Sys2Proof.Machine

/-! ## What a register read answers -/

/-- A register read looks at the operand and the response registers only. -/
theorem readReg_congr {s t : State} (ho : t.ops = s.ops) (hr : t.resp = s.resp) (q : Reg) : readReg q t = readReg q s := by
  unfold readReg
  rw [ho, hr]

/-- With the response registers as after reset, each of the six reads 0 (R35). -/
theorem readReg_response_zero {t : State} (hr : t.resp = State.reset.resp) :
    ∀ r ∈ [Reg.status, Reg.cause, Reg.count, Reg.valueOut, Reg.errS, Reg.errD], readReg r t = 0 := by
  intro r hmem
  simp only [List.mem_cons, List.not_mem_nil, or_false] at hmem
  rcases hmem with rfl | rfl | rfl | rfl | rfl | rfl <;> simp only [readReg, hr] <;> rfl

/-- The constant registers are hardwired (R23). -/
theorem readReg_constants (s : State) :
    readReg .maxVarintLen16 s = 3 ∧ readReg .maxVarintLen32 s = 5 ∧ readReg .maxVarintLen64 s = 10 := ⟨rfl, rfl, rfl⟩

/-! ## A host write -/

/-- A write to a response register is ignored (R22). -/
theorem writeReg_response {r : Reg} (hr : r ∈ [Reg.status, Reg.cause, Reg.count, Reg.valueOut, Reg.errS, Reg.errD]) (v : Value)
    (s : State) : writeReg r v s = s := by
  simp only [List.mem_cons, List.not_mem_nil, or_false] at hr
  rcases hr with rfl | rfl | rfl | rfl | rfl | rfl <;> rfl

/-- A write to a constant register is ignored (R23). -/
theorem writeReg_constant {r : Reg} (hr : r ∈ [Reg.maxVarintLen16, Reg.maxVarintLen32, Reg.maxVarintLen64]) (v : Value)
    (s : State) : writeReg r v s = s := by
  simp only [List.mem_cons, List.not_mem_nil, or_false] at hr
  rcases hr with rfl | rfl | rfl <;> rfl

/-- A write to one register changes no other. -/
theorem readReg_writeReg_ne {q r : Reg} (h : q ≠ r) (v : Value) (s : State) : readReg q (writeReg r v s) = readReg q s := by
  cases r with
  | op => cases q with | op => exact absurd rfl h | _ => rfl
  | srcBase => cases q with | srcBase => exact absurd rfl h | _ => rfl
  | srcLen => cases q with | srcLen => exact absurd rfl h | _ => rfl
  | dstBase => cases q with | dstBase => exact absurd rfl h | _ => rfl
  | dstLen => cases q with | dstLen => exact absurd rfl h | _ => rfl
  | valueIn => cases q with | valueIn => exact absurd rfl h | _ => rfl
  | _ => exact readReg_congr rfl rfl q

theorem readReg_writeReg_op {v : Value} (h : v.toNat < 2 ^ 3) (s : State) : readReg .op (writeReg .op v s) = v := by
  refine BitVec.eq_of_toNat_eq ?_
  have hv := v.isLt
  simp only [readReg, writeReg, writeOperand, BitVec.toNat_setWidth]
  omega

/-- An AW-bit operand register reads back a value that fits it. -/
theorem readReg_writeReg_cursor {r : Reg} (hr : r ∈ [Reg.srcBase, Reg.srcLen, Reg.dstBase, Reg.dstLen]) {v : Value} {s : State}
    (h : v.toNat < s.cfg.space) : readReg r (writeReg r v s) = v := by
  have hv : BitVec.ofNat 64 (v.toNat % s.cfg.space) = v := by
    rw [Nat.mod_eq_of_lt h]
    exact BitVec.ofNat_toNat 64 v |>.trans (BitVec.setWidth_eq v)
  simp only [List.mem_cons, List.not_mem_nil, or_false] at hr
  rcases hr with rfl | rfl | rfl | rfl <;> exact hv

/-- Settles O13: the step is the register write, and each clause is one of the laws of a read after a write. -/
theorem hostWritesRegister : Obligations.HostWritesRegister := by
  intro s r v rest hs ha hh
  refine ⟨_, step_writeReg ha hh, rfl, fun q hq => ?_, fun hr => ?_, ?_, fun hr hv => ?_, ?_⟩
  · exact (readReg_writeReg_ne hq v _).trans (readReg_congr rfl rfl q)
  · rw [writeReg_response hr]
  · rintro rfl hv; exact readReg_writeReg_op hv _
  · exact readReg_writeReg_cursor hr hv
  · rintro rfl; rfl

/-- Settles O14: the read of a constant register does not look at the state, and a write to one is ignored. -/
theorem constantRegisters : Obligations.ConstantRegisters := by
  intro s
  obtain ⟨h16, h32, h64⟩ := readReg_constants s
  refine ⟨h16, h32, h64, fun r v rest hr ha hh => ?_⟩
  rw [step_writeReg ha hh, writeReg_constant hr]

/-! ## Reset -/

/-- Settles O12: the response registers of the reset state are 0. -/
theorem resetState : Obligations.ResetState := by
  obtain ⟨h16, h32, h64⟩ := readReg_constants State.reset
  exact ⟨readReg_response_zero rfl, h16, h32, h64, rfl⟩

/-- A reset opens the destination bytes below the write limit of the command it abandons, and no other byte (R276, R310). -/
theorem onlyDstWritten_reset (s : State) (rest : List HostMove) :
    OnlyDstWritten s (resetCore { s with host := rest }) (writeLimit s) :=
  fun _ ha => readByte_residue_outside ha

/-- With nothing written yet a reset leaves memory as it is. -/
theorem resetCore_mem_of_limit_zero {s : State} (rest : List HostMove) (h : writeLimit s = 0) :
    (resetCore { s with host := rest }).mem = s.mem := by
  show residue s.free s.ops.dstBase (writeLimit s) s.mem = s.mem
  rw [h, residue_zero]

/-- Settles O10: the step is the reset, and the clause of each activity is its write limit. -/
theorem resetMove : Obligations.ResetMove := by
  intro s rest h hh
  have hmem := resetCore_mem_of_limit_zero (s := s) rest
  have hdst := onlyDstWritten_reset s rest
  obtain ⟨h16, h32, h64⟩ := readReg_constants (resetCore { s with host := rest })
  refine ⟨_, step_reset hh, rfl, rfl, rfl, inv_reset_move h rest, readReg_response_zero rfl, h16, h32, h64,
    fun ha => hmem ?_, fun ha => hmem ?_, fun ha => ?_, fun u ha => hmem ?_, fun ha => ?_, fun ha => ?_, fun ha => ?_,
    fun hr => step_noMove rfl hr⟩
  · simp only [writeLimit, ha]
  · simp only [writeLimit, ha]
  · simpa only [writeLimit, ha] using hdst
  · simp only [writeLimit, ha]
  · simpa only [writeLimit, ha] using hdst
  · simpa only [writeLimit, ha] using hdst
  · simpa only [writeLimit, ha] using hdst

end Sys2Proof.Machine
end

section
/-! A step at an element (R214, R215): the header bytes at the source cursor are what the decoder is given, and the encoding of an
element decodes to it. -/

namespace Sys2Proof

/-! ## The encoding of an element decodes to it (R82 to R92) -/

/-- Neighbouring fields of a word, put together. -/
theorem fields_join {w lo mid len len' : Nat} (x : BitVec w) (h : mid = lo + len) :
    x.extractLsb' mid len' ++ x.extractLsb' lo len = x.extractLsb' lo (len' + len) :=
  BitVec.extractLsb'_append_extractLsb'_eq_extractLsb' h

theorem bytes2_whole (n : BitVec 16) : n.extractLsb' 8 8 ++ n.extractLsb' 0 8 = n :=
  (fields_join n rfl).trans BitVec.extractLsb'_eq_self

theorem bytes3_whole (n : BitVec 24) : n.extractLsb' 16 8 ++ n.extractLsb' 8 8 ++ n.extractLsb' 0 8 = n := by
  rw [fields_join n (show 16 = 8 + 8 from rfl)]
  exact (fields_join n rfl).trans BitVec.extractLsb'_eq_self

theorem bytes4_whole (n : BitVec 32) :
    n.extractLsb' 24 8 ++ n.extractLsb' 16 8 ++ n.extractLsb' 8 8 ++ n.extractLsb' 0 8 = n := by
  rw [fields_join n (show 24 = 16 + 8 from rfl), fields_join n (show 16 = 8 + 8 from rfl)]
  exact (fields_join n rfl).trans BitVec.extractLsb'_eq_self

theorem decodeElement_lit0 {n : BitVec 6} (h : n.toNat ≤ 59) (rest : List Byte) :
    decodeElement (encode (.lit0 n) ++ rest) = .ok (.lit0 n) rest := by
  have hkind : (n ++ 0#2 : Byte).extractLsb' 0 2 = 0#2 := BitVec.extractLsb'_append_eq_right
  have hfield : (n ++ 0#2 : Byte).extractLsb' 2 6 = n := BitVec.extractLsb'_append_eq_left
  simp only [encode, List.cons_append, List.nil_append, decodeElement, decodeLiteral]
  rw [if_pos hkind, hfield, if_pos (by omega)]

theorem decodeElement_copy1 (len4 : BitVec 3) (off : BitVec 11) (rest : List Byte) :
    decodeElement (encode (.copy1 len4 off) ++ rest) = .ok (.copy1 len4 off) rest := by
  generalize htag : (off.extractLsb' 8 3 ++ len4 ++ 1#2 : Byte) = tag
  have hkind : tag.extractLsb' 0 2 = 1#2 := by subst htag; exact BitVec.extractLsb'_append_eq_right
  have hlen : tag.extractLsb' 2 3 = len4 := by
    subst htag
    exact (BitVec.extractLsb'_append_eq_of_le (by omega)).trans BitVec.extractLsb'_append_eq_right
  have hoff : tag.extractLsb' 5 3 = off.extractLsb' 8 3 := by
    subst htag
    exact (BitVec.extractLsb'_append_eq_of_le (by omega)).trans BitVec.extractLsb'_append_eq_left
  have hwhole : off.extractLsb' 8 3 ++ off.extractLsb' 0 8 = off :=
    (fields_join off rfl).trans BitVec.extractLsb'_eq_self
  simp only [encode, htag, List.cons_append, List.nil_append, decodeElement, hkind, decodeCopy1, hlen, hoff, hwhole]
  rfl

theorem decodeElement_copy2 (len1 : BitVec 6) (off : BitVec 16) (rest : List Byte) :
    decodeElement (encode (.copy2 len1 off) ++ rest) = .ok (.copy2 len1 off) rest := by
  have hkind : (len1 ++ 2#2 : Byte).extractLsb' 0 2 = 2#2 := BitVec.extractLsb'_append_eq_right
  have hlen : (len1 ++ 2#2 : Byte).extractLsb' 2 6 = len1 := BitVec.extractLsb'_append_eq_left
  simp only [encode, List.cons_append, List.nil_append, decodeElement, decodeCopy2]
  rw [hkind, hlen, bytes2_whole]
  rfl

theorem decodeElement_copy4 (u : BitVec 6) (rest : List Byte) :
    decodeElement (encode (.copy4 u) ++ rest) = .ok (.copy4 u) rest := by
  have hkind : (u ++ 3#2 : Byte).extractLsb' 0 2 = 3#2 := BitVec.extractLsb'_append_eq_right
  have hfield : (u ++ 3#2 : Byte).extractLsb' 2 6 = u := BitVec.extractLsb'_append_eq_left
  simp only [encode, List.cons_append, List.nil_append, decodeElement]
  rw [hkind, hfield]
  rfl

/-- The encoding of a well-formed element decodes to it, with what follows left over. -/
theorem decodeElement_encode {i : Instr} (hs : i.space = .element) (hw : i.wf = true) (rest : List Byte) :
    decodeElement (encode i ++ rest) = .ok i rest := by
  cases i with
  | lit0 n => exact decodeElement_lit0 (of_decide_eq_true hw) rest
  | lit1 n => rfl
  | lit2 n => exact congrArg (fun m => Decoded.ok (.lit2 m) rest) (bytes2_whole n)
  | lit3 n => exact congrArg (fun m => Decoded.ok (.lit3 m) rest) (bytes3_whole n)
  | lit4 n => exact congrArg (fun m => Decoded.ok (.lit4 m) rest) (bytes4_whole n)
  | copy1 len4 off => exact decodeElement_copy1 len4 off rest
  | copy2 len1 off => exact decodeElement_copy2 len1 off rest
  | copy4 u => exact decodeElement_copy4 u rest
  | _ => cases hs

theorem headerBytes_pos (i : Instr) : 1 ≤ headerBytes i := by cases i <;> exact Nat.succ_pos _

theorem headerBytes_le (i : Instr) : headerBytes i ≤ 5 := by cases i <;> simp only [headerBytes] <;> omega

namespace Machine

/-! ## The header at the source cursor -/

theorem elementHeader_length (s : State) : (elementHeader s).length = 5 := rfl

theorem elementHeader_getElem {s : State} {j : Nat} (h : j < (elementHeader s).length) :
    (elementHeader s)[j] = headerByte s j := by
  rw [elementHeader_length] at h
  interval_cases j <;> rfl

/-- As far as the stream goes, the header is the bytes of the source view at the cursor. -/
theorem elementHeader_take {s : State} {n : Nat} (h5 : n ≤ 5) (hL : s.dec.s + n ≤ s.dec.L) :
    (elementHeader s).take n = readBytes s.mem (s.ops.srcBase + s.dec.s) n := by
  refine List.ext_getElem (by simp only [List.length_take, elementHeader_length, readBytes_length]; omega) fun j h1 h2 => ?_
  rw [readBytes_length] at h2
  rw [List.getElem_take, elementHeader_getElem, readBytes_getElem, headerByte, if_pos (by omega), src, Nat.add_assoc]

/-- Where the encoding of an element stands at the cursor, the fetched header decodes to it. -/
theorem decode_elementHeader_of_encode {s : State} {i : Instr} (hs : i.space = .element) (hw : i.wf = true)
    (hL : s.dec.s + headerBytes i ≤ s.dec.L)
    (hb : readBytes s.mem (s.ops.srcBase + s.dec.s) (headerBytes i) = encode i) :
    ∃ rest, decode .element (elementHeader s) = .ok i rest := by
  have hcut : elementHeader s = encode i ++ (elementHeader s).drop (headerBytes i) := by
    rw [← hb, ← elementHeader_take (headerBytes_le i) hL, List.take_append_drop]
  refine ⟨(elementHeader s).drop (headerBytes i), ?_⟩
  calc decode .element (elementHeader s) = decodeElement (elementHeader s) := rfl
    _ = decodeElement (encode i ++ (elementHeader s).drop (headerBytes i)) := congrArg decodeElement hcut
    _ = .ok i _ := decodeElement_encode hs hw _

/-- The state an element at the cursor runs in: a `wait` used up, and offset, tag byte and kind noted (R214). -/
theorem fetchElement_useWait (s : State) : fetchElement (useWait s) =
    { useWait s with dec := { s.dec with sEl := s.dec.s, tag := src s s.dec.s, kind := (src s s.dec.s).extractLsb' 0 2 } } := by
  rw [useWait_eq]
  rfl

theorem elementHeader_useWait (s : State) : elementHeader (useWait s) = elementHeader s := by
  rw [useWait_eq]
  rfl

/-- A step between two elements runs the element that the header at the cursor decodes to. -/
theorem step_element {s : State} {i : Instr} {rest : List Byte} (h : Inv s) (ha : s.activity = .elements)
    (hr : s.host.head? ≠ some .reset) (hL : s.dec.s < s.dec.L) (hd : decode .element (elementHeader s) = .ok i rest) :
    step s = exec i (fetchElement (useWait s)) := by
  refine step_fetched (p := (i, fetchElement (useWait s))) h (by simp [ha]) (by simp [ha]) hr ?_
  simp only [fetchItem, useWait_activity, ha, useWait_dec, hL, if_true, elementHeader_useWait, hd]

/-- Settles O8: a whole header decodes to its element, and any header's element runs in the state the fetch leaves. -/
theorem stepRunsTheElement : Obligations.StepRunsTheElement := by
  intro s i h ha hr hs
  rw [← fetchElement_useWait]
  refine ⟨fun hw hL hb => ?_, fun rest hL hd => step_element h ha hr hL hd⟩
  obtain ⟨rest, hd⟩ := decode_elementHeader_of_encode hs hw hL hb
  exact step_element h ha hr (by have := headerBytes_pos i; omega) hd

end Machine

end Sys2Proof
end

section
/-! What a command leaves in the response registers (R22, R272 to R274): the response of a success, or that of a failure, which
records cursors at an element and at the final check only. -/

namespace Sys2Proof.Machine

/-! ## The response of a command's end -/

/-- The causes whose failures record cursors (R273): those of an element and of the final check. -/
def cursorCauses : List Cause :=
  [.litExtraTruncated, .litLengthZero, .litExceedsDst, .litExceedsSrc, .copyPayloadTruncated, .copyOffsetBeforeStart,
    .copyExceedsDst, .finalLengthMismatch, .copy4Tag]

/-- A response that a command can leave: a success, or a failure that records cursors for the causes of R273 only. -/
def Recorded (r : Response) : Prop :=
  (∃ count v, r = okResponse count v) ∨
  ∃ c eS eD, r = failResponse c eS eD ∧ (c ∉ cursorCauses → eS = 0 ∧ eD = 0)

/-- If the command has ended in this state, its response is a proper one. -/
def EndsRecorded (s : State) : Prop := s.activity = .idle → Recorded s.resp

theorem endsRecorded_of_busy {s : State} (h : s.activity ≠ .idle) : EndsRecorded s := fun ha => absurd ha h

theorem endsRecorded_succeed (count : Nat) (v : Value) (s : State) : EndsRecorded (succeed count v s) :=
  fun _ => .inl ⟨count, v, rfl⟩

theorem endsRecorded_failClean (c : Cause) (s : State) : EndsRecorded (failClean c s) :=
  fun _ => .inr ⟨c, 0, 0, rfl, fun _ => ⟨rfl, rfl⟩⟩

theorem endsRecorded_fail {c : Cause} (hc : c ∈ cursorCauses) (eS eD limit : Nat) (s : State) :
    EndsRecorded (fail c eS eD limit s) :=
  fun _ => .inr ⟨c, eS, eD, rfl, fun h => absurd hc h⟩

theorem endsRecorded_failElement {c : Cause} (hc : c ∈ cursorCauses) (s : State) : EndsRecorded (failElement c s) :=
  endsRecorded_fail hc _ _ _ s

/-! ## Varint bytes and the bytes of PUT_UVARINT -/

theorem endsRecorded_putByte {s : State} (h : s.activity ≠ .idle) : EndsRecorded (putByte s) := by
  unfold putByte
  split
  · exact endsRecorded_of_busy h
  · exact endsRecorded_succeed _ _ _

theorem endsRecorded_varintLoopExit (s : State) : EndsRecorded (varintLoopExit s) := by
  unfold varintLoopExit varintIncomplete
  split
  · split <;> exact endsRecorded_failClean _ _
  · exact endsRecorded_failClean _ _

theorem endsRecorded_varintDone {s : State} (h : s.activity ≠ .idle) (v : Value) (k : Nat) :
    EndsRecorded (varintDone v k s) := by
  unfold varintDone
  split
  · exact endsRecorded_succeed _ _ _
  · unfold decodePrefix
    split
    · exact endsRecorded_failClean _ _
    · exact endsRecorded_of_busy nofun
  · exact endsRecorded_of_busy h

theorem endsRecorded_varintByte {s : State} (h : s.activity ≠ .idle) (b : Byte) :
    EndsRecorded (runItem (decodeVarintByte b) s) := by
  unfold decodeVarintByte
  split
  · exact endsRecorded_of_busy h
  · show EndsRecorded (varintLastItem _ s)
    unfold varintLastItem
    split
    · exact endsRecorded_failClean _ _
    · exact endsRecorded_varintDone (by exact h) _ _

/-! ## Elements -/

theorem endsRecorded_copyElement {s : State} (h : s.activity ≠ .idle) : EndsRecorded (copyElement s) := by
  unfold copyElement
  split
  · exact endsRecorded_failElement (by decide) _
  · split
    · exact endsRecorded_failElement (by decide) _
    · rw [copyReplay_eq]; exact endsRecorded_of_busy h

theorem endsRecorded_literalElement {s : State} (h : s.activity ≠ .idle) : EndsRecorded (literalElement s) := by
  unfold literalElement literalChecked
  split
  · exact endsRecorded_failElement (by decide) _
  · split
    · exact endsRecorded_failElement (by decide) _
    · split
      · exact endsRecorded_failElement (by decide) _
      · rw [replayLiteral_eq]; exact endsRecorded_of_busy h

theorem endsRecorded_literalForm {s : State} (h : s.activity ≠ .idle) (header : Nat) (x : BitVec 32) :
    EndsRecorded (literalForm header x s) := by
  unfold literalForm
  split
  · exact endsRecorded_failElement (by decide) _
  · exact endsRecorded_literalElement (by exact h)

theorem endsRecorded_element {i : Instr} {s : State} (hi : i.space = .element) (h : s.activity ≠ .idle) :
    EndsRecorded (runItem i s) := by
  cases i with
  | lit0 n => exact endsRecorded_literalElement (by exact h)
  | lit1 n => exact endsRecorded_literalForm h _ _
  | lit2 n => exact endsRecorded_literalForm h _ _
  | lit3 n => exact endsRecorded_literalForm h _ _
  | lit4 n => exact endsRecorded_literalForm h _ _
  | copy1 l o =>
    simp only [runItem, copy1Item]
    split
    · exact endsRecorded_failElement (by decide) _
    · exact endsRecorded_copyElement (by exact h)
  | copy2 l o =>
    simp only [runItem, copy2Item]
    split
    · exact endsRecorded_failElement (by decide) _
    · exact endsRecorded_copyElement (by exact h)
  | copy4 u => exact endsRecorded_failElement (by decide) _
  | _ => cases hi

theorem endsRecorded_decodeFinal (s : State) : EndsRecorded (decodeFinal s) := by
  unfold decodeFinal
  split
  · exact endsRecorded_fail (by decide) _ _ _ _
  · exact endsRecorded_succeed _ _ _

/-! ## Writing the stream -/

/-- What an operation that writes the stream can do to activity and responses (R189): nothing, or end the command in a failure
that records nothing. -/
def Emits (s t : State) : Prop :=
  (t.activity = s.activity ∧ t.resp = s.resp) ∨ (t.activity = .idle ∧ ∃ c, t.resp = failResponse c 0 0)

theorem Emits.refl (s : State) : Emits s s := .inl ⟨rfl, rfl⟩

theorem Emits.trans {s t u : State} (h : Emits s t) (h' : Emits t u) : Emits s u := by
  rcases h' with ⟨ha', hr'⟩ | h'
  · unfold Emits
    rw [ha', hr']
    exact h
  · exact .inr h'

theorem emits_failEncode (c : Cause) (s t : State) : Emits s (failEncode c t) := .inr ⟨rfl, c, rfl⟩

theorem emits_modEnc (f : EncRegs → EncRegs) (s : State) : Emits s (s.modEnc f) := .inl ⟨rfl, rfl⟩

theorem emits_unlessEnded {f : State → State} (hf : ∀ u, Emits u (f u)) (s : State) : Emits s (unlessEnded f s) := by
  unfold unlessEnded
  split
  · exact Emits.refl s
  · exact hf s

theorem emits_emitByte (s : State) (b : Byte) : Emits s (emitByte s b) := by
  unfold emitByte
  split
  · exact Emits.refl s
  · split
    · exact .inl ⟨rfl, rfl⟩
    · exact emits_failEncode _ _ _

theorem emits_emitBytes : ∀ (bs : List Byte) (s : State), Emits s (emitBytes s bs)
  | [], s => Emits.refl s
  | b :: bs, s => (emits_emitByte s b).trans (emits_emitBytes bs _)

theorem emits_emitSource : ∀ (len a : Nat) (s : State), Emits s (emitSource len a s)
  | 0, _, s => Emits.refl s
  | len + 1, a, s => (emits_emitByte s (src s a)).trans (emits_emitSource len (a + 1) _)

theorem emits_emitLiteral (a b : Nat) (s : State) : Emits s (emitLiteral a b s) := by
  unfold emitLiteral
  split
  · exact emits_failEncode _ _ _
  · exact (emits_emitBytes _ _).trans (emits_emitSource _ _ _)

theorem emits_flushLiteral (y : Nat) (s : State) : Emits s (flushLiteral y s) := by
  unfold flushLiteral
  split
  · exact Emits.refl s
  · exact emits_emitLiteral _ _ _

theorem emits_emitCopyLoop : ∀ (turns : Nat) (s : State), Emits s (emitCopyLoop turns s)
  | 0, s => Emits.refl s
  | turns + 1, s => by
    unfold emitCopyLoop
    split
    · exact Emits.refl s
    · exact ((emits_emitBytes _ s).trans (emits_unlessEnded (emits_modEnc _) _)).trans (emits_emitCopyLoop turns _)

theorem emits_extendOp (s : State) : Emits s (extendOp s) := by
  rw [extendOp_eq]; exact emits_modEnc _ _

theorem emits_takeMatch (s : State) : Emits s (takeMatch s) :=
  (emits_flushLiteral _ s).trans (emits_unlessEnded (fun u =>
    ((emits_extendOp u).trans (emits_emitCopyLoop _ _)).trans (emits_unlessEnded (emits_modEnc _) _)) _)

theorem emits_emitPrefix (s : State) : Emits s (emitPrefix s) := by
  unfold emitPrefix
  refine ((emits_modEnc _ s).trans (emits_emitBytes _ _)).trans (emits_unlessEnded (fun u => ?_) _)
  exact .inl ⟨rfl, rfl⟩

theorem Emits.endsRecorded {s t : State} (h : Emits s t) (hs : s.activity ≠ .idle) : EndsRecorded t := by
  rcases h with ⟨ha, -⟩ | ⟨-, c, hr⟩
  · exact endsRecorded_of_busy (by rw [ha]; exact hs)
  · exact fun _ => .inr ⟨c, 0, 0, hr, fun _ => ⟨rfl, rfl⟩⟩

/-! ## ENCODE -/

theorem endsRecorded_encodeFinish {s : State} (h : EndsRecorded s) : EndsRecorded (encodeFinish s) := by
  unfold encodeFinish unlessEnded
  split
  · exact h
  · exact endsRecorded_succeed _ _ _

theorem endsRecorded_encodeBody {s : State} (h : s.activity ≠ .idle) : EndsRecorded (encodeBody s) := by
  unfold encodeBody
  split
  · refine endsRecorded_encodeFinish ?_
    split
    · exact endsRecorded_of_busy h
    · exact (emits_emitLiteral _ _ s).endsRecorded h
  · exact endsRecorded_of_busy nofun

theorem endsRecorded_encodeOpen {s : State} (h : s.activity ≠ .idle) : EndsRecorded (encodeOpen s) := by
  unfold encodeOpen unlessEnded
  split
  · exact (emits_emitPrefix s).endsRecorded h
  · rename_i he
    exact endsRecorded_encodeBody fun ha => he (ended_iff.2 ha)

/-- The four operations before the outcome of a scan position change working registers and the table only. -/
theorem probed_activity (s : State) : (probed s).activity = s.activity := by
  unfold probed
  rw [candidateOp_eq]
  rfl

theorem endsRecorded_scanStep {s : State} (h : s.activity ≠ .idle) : EndsRecorded (scanStep s) := by
  unfold scanStep
  split
  · have hp : (probed s).activity ≠ .idle := by rw [probed_activity]; exact h
    rw [scanPosition_eq]
    split
    · exact (emits_takeMatch _).endsRecorded hp
    · exact endsRecorded_of_busy hp
  · exact endsRecorded_encodeFinish ((emits_flushLiteral _ s).endsRecorded h)

/-! ## Every command -/

theorem endsRecorded_microStep {s : State} (h : s.activity ≠ .idle) : EndsRecorded (microStep s) := by
  rcases microStep_cases s with ⟨-, -, -, -, -, hm⟩ | ⟨i, -, -, -, -, hi, -, hm⟩ | ⟨-, hm, -⟩
  · rw [hm]; exact endsRecorded_varintByte h _
  · rw [hm]; exact endsRecorded_element hi (by exact h)
  · rw [hm]
    unfold sequencerStep
    split
    · exact endsRecorded_of_busy h
    · exact endsRecorded_of_busy h
    · exact endsRecorded_putByte h
    · exact endsRecorded_varintLoopExit s
    · exact endsRecorded_decodeFinal s
    · exact endsRecorded_encodeOpen h
    · exact endsRecorded_scanStep h

theorem endsRecorded_enter {i : Instr} {s u : State} (hi : i.space = .command) (h : enter i s = .next u) : EndsRecorded u := by
  rcases enter_next hi h with ⟨c, rfl⟩ | rfl | rfl | rfl | rfl | rfl
  · exact endsRecorded_failClean c s
  · exact endsRecorded_succeed _ _ _
  all_goals exact endsRecorded_of_busy nofun

/-- What a command leaves in the response registers is a proper response. -/
theorem exec_command_recorded {i : Instr} {s t : State} (hi : i.space = .command) (h : exec i s = .next t) :
    Recorded t.resp := by
  obtain ⟨u, n, -, hu⟩ := exec_command_run hi h
  have hidle := (runToIdle_next hu).1
  exact exec_command_induct hi h (fun _ hu => endsRecorded_enter hi hu) (fun _ _ hb => endsRecorded_microStep hb) hidle

theorem Cause.status_ne_zero (c : Cause) : c.status ≠ 0 := by cases c <;> decide

/-- Settles O53: a command leaves a proper response, of a success or of a failure. -/
theorem responseRecord : Obligations.ResponseRecord := by
  intro s t i hi h
  rcases exec_command_recorded hi h with ⟨count, v, hr⟩ | ⟨c, eS, eD, hr, hcur⟩ <;> rw [hr]
  · exact ⟨fun _ => ⟨rfl, rfl, rfl⟩, fun h0 => absurd rfl h0⟩
  · exact ⟨fun h0 => absurd h0 c.status_ne_zero, fun _ => ⟨rfl, rfl, c, rfl, rfl, hcur⟩⟩

end Sys2Proof.Machine
end

section
/-! No register carries a value from one command to the next (R20, R34, R311). Inside a command two states may differ in the
registers that the command writes before it reads them; a micro-step keeps them so, and at the command's end they are one state. -/

namespace Sys2Proof.Machine

/-! ## The registers a command in progress does not read before it writes them -/

/-- PUT_UVARINT between two bytes: only the value that is left and the index are read (R121). -/
def carryPut (u s : State) : State :=
  { s with resp := u.resp, enc := u.enc, dec := u.dec, table := u.table, vu := { u.vu with v := s.vu.v, i := s.vu.i } }

/-- The varint loop between two bytes: of the decoder's registers DECODE reads the stream length only (R124, R211). -/
def carryVarint : VarintUser → State → State → State
  | .uvarint, u, s =>
    { s with resp := u.resp, enc := u.enc, dec := u.dec, table := u.table, vu := { s.vu with b := u.vu.b } }
  | .decode, u, s =>
    { s with
      resp := u.resp, enc := u.enc, table := u.table, vu := { s.vu with b := u.vu.b }, dec := { u.dec with L := s.dec.L } }

/-- DECODE between two elements: only the lengths and the two cursors are read (R214). -/
def carryElements (u s : State) : State :=
  { s with
    resp := u.resp, enc := u.enc, table := u.table, vu := u.vu
    dec := { u.dec with L := s.dec.L, s := s.dec.s, d := s.dec.d, dLen := s.dec.dLen } }

/-- ENCODE before its first byte: only the source length is read (R182). -/
def carryStart (u s : State) : State :=
  { s with resp := u.resp, dec := u.dec, table := u.table, vu := u.vu, enc := { u.enc with n := s.enc.n } }

/-- ENCODE between two scan positions: the cursors, the pending run, the table and its geometry are read (R184). -/
def carryScan (u s : State) : State :=
  { s with
    resp := u.resp, dec := u.dec, vu := u.vu
    enc := { u.enc with
      n := s.enc.n, s := s.enc.s, lit := s.enc.lit, d := s.enc.d, tableSize := s.enc.tableSize, shift := s.enc.shift } }

/-- `s`, with every register that the command in progress does not read before it writes it as it is in `u`. -/
def carry (u s : State) : State :=
  match s.activity with
  | .idle => s
  | .issued => s
  | .putBytes => carryPut u s
  | .varint user => carryVarint user u s
  | .elements => carryElements u s
  | .encodeStart => carryStart u s
  | .scan => carryScan u s

/-- The command in progress cannot tell `t` from `s`. -/
def Alike (s t : State) : Prop := carry t s = t

theorem Alike.refl (s : State) : Alike s s := by
  unfold Alike carry
  split
  case h_4 user _ => cases user <;> rfl
  all_goals rfl

theorem carry_activity (u s : State) : (carry u s).activity = s.activity := by
  unfold carry
  split
  case h_4 user _ => cases user <;> rfl
  all_goals rfl

theorem Alike.activity {s t : State} (h : Alike s t) : t.activity = s.activity := by
  rw [← carry_activity t s, h]

theorem alike_idle_iff {s t : State} (ha : s.activity = .idle) : Alike s t ↔ s = t := by
  unfold Alike carry; rw [ha]

theorem alike_issued_iff {s t : State} (ha : s.activity = .issued) : Alike s t ↔ s = t := by
  unfold Alike carry; rw [ha]

theorem alike_putBytes_iff {s t : State} (ha : s.activity = .putBytes) : Alike s t ↔ carryPut t s = t := by
  unfold Alike carry; rw [ha]

theorem alike_varint_iff {s t : State} {user : VarintUser} (ha : s.activity = .varint user) :
    Alike s t ↔ carryVarint user t s = t := by
  unfold Alike carry; rw [ha]

theorem alike_elements_iff {s t : State} (ha : s.activity = .elements) : Alike s t ↔ carryElements t s = t := by
  unfold Alike carry; rw [ha]

theorem alike_encodeStart_iff {s t : State} (ha : s.activity = .encodeStart) : Alike s t ↔ carryStart t s = t := by
  unfold Alike carry; rw [ha]

theorem alike_scan_iff {s t : State} (ha : s.activity = .scan) : Alike s t ↔ carryScan t s = t := by
  unfold Alike carry; rw [ha]

/-- Two states that take the same branch of a test are alike behind it when they are so on each. -/
theorem alike_ite {c : Prop} [Decidable c] {a b a' b' : State} (ha : c → Alike a a') (hb : ¬c → Alike b b') :
    Alike (if c then a else b) (if c then a' else b') := by
  split
  · exact ha ‹_›
  · exact hb ‹_›

/-! ## PUT_UVARINT and the varint loop -/

theorem alike_putByte {s : State} (ha : s.activity = .putBytes) (u : State) : Alike (putByte s) (putByte (carryPut u s)) := by
  unfold putByte
  exact alike_ite (fun _ => (alike_putBytes_iff (by exact ha)).2 rfl) fun _ => .refl _

/-- The micro-step of the varint loop (R124). -/
theorem microStep_varint {s : State} {user : VarintUser} (ha : s.activity = .varint user) :
    microStep s = if s.vu.i < s.ops.srcLen ∧ s.vu.i < 10 then runItem (decodeVarintByte (src s s.vu.i)) s
      else varintLoopExit s := by
  rcases microStep_cases s with ⟨_, -, hi, ht, -, hm⟩ | ⟨_, _, hel, -⟩ | ⟨-, hm, hact⟩
  · rw [hm, if_pos ⟨hi, ht⟩]
  · rw [hel] at ha; cases ha
  · have hexit : ¬(s.vu.i < s.ops.srcLen ∧ s.vu.i < 10) := by
      simp only [ha, reduceCtorEq, false_and, false_or, or_false] at hact
      obtain ⟨-, -, h⟩ := hact
      omega
    rw [hm, if_neg hexit]
    simp only [sequencerStep, ha]

theorem alike_varintContItem {s : State} {user : VarintUser} (ha : s.activity = .varint user) (u : State) (g : BitVec 7) :
    Alike (varintContItem g s) (varintContItem g (carryVarint user u s)) := by
  refine (alike_varint_iff (s := varintContItem g s) ha).2 ?_
  cases user <;> rfl

theorem alike_varintDone {s : State} {user : VarintUser} (ha : s.activity = .varint user) (u : State) (v : Value) (k : Nat) :
    Alike (varintDone v k s) (varintDone v k (carryVarint user u s)) := by
  have hact : (carryVarint user u s).activity = .varint user := by cases user <;> exact ha
  unfold varintDone
  rw [ha, hact]
  cases user with
  | uvarint => exact .refl _
  | decode => exact alike_ite (fun _ => .refl _) fun _ => (alike_elements_iff rfl).2 rfl

/-- The varint registers with the last group taken in (R124). -/
def lastGroup (g : BitVec 7) (s : State) : State :=
  s.modVu fun r => { r with v := r.v ||| (g.setWidth 64 <<< r.sh), b := 0#1 ++ g }

theorem lastGroup_carryVarint (user : VarintUser) (u s : State) (g : BitVec 7) : lastGroup g (carryVarint user u s) =
    carryVarint user (lastGroup g (carryVarint user u s)) (lastGroup g s) := by cases user <;> rfl

theorem varintLastItem_eq (g : BitVec 7) (s : State) : varintLastItem g s =
    if s.vu.i = 9 ∧ 1 < g.toNat then failClean .varint10thOverflow s
    else varintDone (lastGroup g s).vu.v (s.vu.i + 1) (lastGroup g s) := rfl

theorem alike_varintLastItem {s : State} {user : VarintUser} (ha : s.activity = .varint user) (u : State) (g : BitVec 7) :
    Alike (varintLastItem g s) (varintLastItem g (carryVarint user u s)) := by
  have hvu : (carryVarint user u s).vu.i = s.vu.i := by cases user <;> rfl
  have hv : (lastGroup g (carryVarint user u s)).vu.v = (lastGroup g s).vu.v := by cases user <;> rfl
  have hfail : failClean .varint10thOverflow (carryVarint user u s) = failClean .varint10thOverflow s := by
    cases user <;> rfl
  rw [varintLastItem_eq, varintLastItem_eq, hvu, hv, hfail, lastGroup_carryVarint]
  exact alike_ite (fun _ => .refl _) fun _ => alike_varintDone (by exact ha) _ _ _

theorem varintLoopExit_carryVarint {s : State} {user : VarintUser} (ha : s.activity = .varint user) (u : State) :
    varintLoopExit (carryVarint user u s) = varintLoopExit s := by
  have hact : (carryVarint user u s).activity = .varint user := by cases user <;> exact ha
  unfold varintLoopExit varintIncomplete
  rw [ha, hact]
  cases user <;> rfl

theorem alike_microStep_varint {s : State} {user : VarintUser} (ha : s.activity = .varint user) (u : State) :
    Alike (microStep s) (microStep (carryVarint user u s)) := by
  have hact : (carryVarint user u s).activity = .varint user := by cases user <;> exact ha
  have hread : (carryVarint user u s).vu.i = s.vu.i ∧ (carryVarint user u s).ops = s.ops ∧
      src (carryVarint user u s) s.vu.i = src s s.vu.i := by cases user <;> exact ⟨rfl, rfl, rfl⟩
  obtain ⟨hi, ho, hsrc⟩ := hread
  rw [microStep_varint ha, microStep_varint hact, hi, ho, hsrc, varintLoopExit_carryVarint ha]
  refine alike_ite (fun _ => ?_) fun _ => .refl _
  unfold decodeVarintByte
  split
  · exact alike_varintContItem ha u _
  · exact alike_varintLastItem ha u _

/-! ## DECODE between two elements -/

theorem replayLiteral_mem_of_same : ∀ (len sp dp : Nat) {s t : State}, t.ops = s.ops → t.mem = s.mem →
    (replayLiteral len sp dp t).mem = (replayLiteral len sp dp s).mem
  | 0, _, _, _, _, _, hm => hm
  | len + 1, sp, dp, s, t, ho, hm => by
    refine replayLiteral_mem_of_same len (sp + 1) (dp + 1) (s := dstW s dp (src s sp)) (t := dstW t dp (src t sp)) ho ?_
    simp only [dstW_mem, src, ho, hm]

theorem copyReplay_mem_of_same : ∀ (len : Nat) {s t : State}, t.ops = s.ops → t.mem = s.mem → t.dec.d = s.dec.d →
    t.dec.off = s.dec.off → (copyReplay len t).mem = (copyReplay len s).mem
  | 0, _, _, _, hm, _, _ => hm
  | len + 1, s, t, ho, hm, hd, hoff => by
    refine copyReplay_mem_of_same len (s := copyByte s) (t := copyByte t) ho ?_ ?_ hoff
    · simp only [copyByte, modDec_mem, dstW_mem, dst, ho, hm, hd, hoff]
    · rw [copyByte_d, copyByte_d, hd]

/-- DECODE with an element fetched (R214): the offset of its tag byte is read too. -/
def carryFetched (u s : State) : State :=
  { s with
    resp := u.resp, enc := u.enc, table := u.table, vu := u.vu
    dec := { u.dec with L := s.dec.L, s := s.dec.s, d := s.dec.d, dLen := s.dec.dLen, sEl := s.dec.sEl } }

theorem alike_literalMoves {s t : State} (ha : s.activity = .elements)
    (h : ((carryFetched t s).modDec fun r => { r with len := s.dec.len }) = t) :
    Alike ((replayLiteral s.dec.len s.dec.s s.dec.d s).modDec fun r => { r with s := r.s + r.len, d := r.d + r.len })
      ((replayLiteral t.dec.len t.dec.s t.dec.d t).modDec fun r => { r with s := r.s + r.len, d := r.d + r.len }) := by
  rw [← h]
  generalize ht : ((carryFetched t s).modDec fun r => { r with len := s.dec.len }) = t'
  have hmem := replayLiteral_mem_of_same t'.dec.len t'.dec.s t'.dec.d (s := s) (t := t') (by rw [← ht]; rfl) (by rw [← ht]; rfl)
  rw [replayLiteral_eq _ _ _ s, replayLiteral_eq _ _ _ t', hmem, ← ht]
  exact (alike_elements_iff (by exact ha)).2 (by rfl)

/-- A literal with its field and the source cursor set (R216 to R221). -/
theorem alike_literalElement {s : State} (ha : s.activity = .elements) (u : State) (header : Nat) (x : BitVec 32) :
    Alike (literalElement (s.modDec fun r => { r with x := x, s := r.s + header }))
      (literalElement ((carryFetched u s).modDec fun r => { r with x := x, s := r.s + header })) := by
  unfold literalElement literalChecked
  exact alike_ite (fun _ => .refl _) fun _ => alike_ite (fun _ => .refl _) fun _ => alike_ite (fun _ => .refl _) fun _ =>
    alike_literalMoves (by exact ha) (by rfl)

theorem alike_literalForm {s : State} (ha : s.activity = .elements) (u : State) (header : Nat) (x : BitVec 32) :
    Alike (literalForm header x s) (literalForm header x (carryFetched u s)) := by
  unfold literalForm
  exact alike_ite (fun _ => .refl _) fun _ => alike_literalElement ha u header x

theorem alike_copyMoves {s t : State} (ha : s.activity = .elements)
    (h : ((carryFetched t s).modDec fun r => { r with off := s.dec.off }) = t) (len : Nat) :
    Alike (copyReplay len s) (copyReplay len t) := by
  rw [← h]
  generalize ht : ((carryFetched t s).modDec fun r => { r with off := s.dec.off }) = t'
  have hmem := copyReplay_mem_of_same len (s := s) (t := t') (by rw [← ht]; rfl) (by rw [← ht]; rfl) (by rw [← ht]; rfl)
    (by rw [← ht]; rfl)
  rw [copyReplay_eq _ s, copyReplay_eq _ t', hmem, ← ht]
  exact (alike_elements_iff (by exact ha)).2 (by rfl)

/-- A copy with its operands and the source cursor set (R222, R223). -/
theorem alike_copyElement {s : State} (ha : s.activity = .elements) (u : State) (size len off : Nat) :
    Alike (copyElement (s.modDec fun r => { r with len := len, off := off, s := r.s + size }))
      (copyElement ((carryFetched u s).modDec fun r => { r with len := len, off := off, s := r.s + size })) := by
  unfold copyElement
  exact alike_ite (fun _ => .refl _) fun _ => alike_ite (fun _ => .refl _) fun _ => alike_copyMoves (by exact ha) (by rfl) len

theorem alike_runElement {i : Instr} {s : State} (hi : i.space = .element) (ha : s.activity = .elements) (u : State) :
    Alike (runItem i s) (runItem i (carryFetched u s)) := by
  cases i with
  | lit0 n => exact alike_literalElement ha u 1 _
  | lit1 n => exact alike_literalForm ha u _ _
  | lit2 n => exact alike_literalForm ha u _ _
  | lit3 n => exact alike_literalForm ha u _ _
  | lit4 n => exact alike_literalForm ha u _ _
  | copy1 l o => exact alike_ite (fun _ => .refl _) fun _ => alike_copyElement ha u 2 _ _
  | copy2 l o => exact alike_ite (fun _ => .refl _) fun _ => alike_copyElement ha u 3 _ _
  | copy4 n => exact .refl _
  | _ => cases hi

theorem microStep_element {s : State} {i : Instr} {rest : List Byte} (ha : s.activity = .elements) (hL : s.dec.s < s.dec.L)
    (hd : decode .element (elementHeader s) = .ok i rest) : microStep s = runItem i (fetchElement s) := by
  simp only [microStep, fetchItem, ha, hL, if_true, hd]

theorem microStep_lastElement {s : State} (ha : s.activity = .elements) (hL : ¬s.dec.s < s.dec.L) :
    microStep s = decodeFinal s := by
  simp only [microStep, fetchItem, ha, hL, if_false, sequencerStep]

theorem alike_microStep_elements {s : State} (ha : s.activity = .elements) (u : State) :
    Alike (microStep s) (microStep (carryElements u s)) := by
  by_cases hL : s.dec.s < s.dec.L
  · obtain ⟨i, rest, hd, hi⟩ := decode_elementHeader s
    rw [microStep_element ha hL hd, microStep_element (s := carryElements u s) ha hL hd]
    exact alike_runElement (s := fetchElement s) hi ha (fetchElement (carryElements u s))
  · rw [microStep_lastElement ha hL, microStep_lastElement (s := carryElements u s) ha hL]
    exact .refl _

end Sys2Proof.Machine
end

section
/-! No register carries a value from one command to the next: ENCODE, and every command. A change of registers that writing the
stream does not read goes through every writing operation unchanged, up to where the command ends. -/

namespace Sys2Proof.Machine

/-! ## Changes that writing the stream does not see -/

/-- `g` changes no register that writing the stream, a failure or a success reads (R186, R189, R274). -/
structure Aside (g : State → State) : Prop where
  busy : ∀ s, ended s = false → ended (g s) = false
  ops : ∀ s, (g s).ops = s.ops
  src : ∀ s a, src (g s) a = src s a
  cursor : ∀ s, (g s).enc.d = s.enc.d
  emitted : ∀ s b, emitted (g s) [b] = g (emitted s [b])
  fails : ∀ c s, failEncode c (g s) = failEncode c s
  succeeds : ∀ count s, succeed count 0 (g s) = succeed count 0 s

/-- An operation `f` after a change that the command may have ended before, when `g` becomes `g'` on the way. -/
theorem unlessEnded_unlessEnded {f g g' : State → State} {s : State} (hg : ended s = false → ended (g s) = false)
    (h : ended s = false → f (g s) = unlessEnded g' (f s)) :
    unlessEnded f (unlessEnded g s) = unlessEnded g' (unlessEnded f s) := by
  cases he : ended s with
  | true => simp only [unlessEnded_of_ended he]
  | false => rw [unlessEnded_of_running he, unlessEnded_of_running (hg he), unlessEnded_of_running (f := f) he, h he]

/-- The same, when `g` stays what it is. -/
theorem unlessEnded_comm {f g : State → State} {s : State} (hg : ended s = false → ended (g s) = false)
    (hf : ended s = false → ended (f s) = false) (h : f (g s) = g (f s)) :
    unlessEnded f (unlessEnded g s) = unlessEnded g (unlessEnded f s) :=
  unlessEnded_unlessEnded hg fun he => h.trans (unlessEnded_of_running (hf he)).symm

section
variable {g : State → State} (hg : Aside g)
include hg

theorem src_unlessEnded (s : State) (a : Nat) : src (unlessEnded g s) a = src s a := by
  unfold unlessEnded
  split
  · rfl
  · exact hg.src s a

theorem failEncode_unlessEnded (c : Cause) (s : State) : failEncode c (unlessEnded g s) = failEncode c s := by
  unfold unlessEnded
  split
  · rfl
  · exact hg.fails c s

theorem emitByte_unlessEnded (s : State) (b : Byte) : emitByte (unlessEnded g s) b = unlessEnded g (emitByte s b) := by
  cases he : ended s with
  | true =>
    have hs : emitByte s b = s := by simp only [emitByte, he, if_true]
    rw [unlessEnded_of_ended he, hs, unlessEnded_of_ended he]
  | false =>
    have hgs := hg.busy s he
    rw [unlessEnded_of_running he]
    by_cases hd : s.enc.d < s.ops.dstLen
    · have hd' : (g s).enc.d < (g s).ops.dstLen := by rw [hg.cursor, hg.ops]; exact hd
      rw [emitByte_fits (ended_eq_false.1 he) hd, emitByte_fits (ended_eq_false.1 hgs) hd', hg.emitted]
      exact (unlessEnded_of_running (s := emitted s [b]) he).symm
    · have hd' : ¬(g s).enc.d < (g s).ops.dstLen := by rw [hg.cursor, hg.ops]; exact hd
      simp only [emitByte, he, hgs, if_neg hd, if_neg hd', Bool.false_eq_true, if_false, hg.fails]
      exact (unlessEnded_of_ended rfl).symm

theorem emitBytes_unlessEnded : ∀ (bs : List Byte) (s : State),
    emitBytes (unlessEnded g s) bs = unlessEnded g (emitBytes s bs)
  | [], _ => rfl
  | b :: bs, s => by
    show emitBytes (emitByte (unlessEnded g s) b) bs = unlessEnded g (emitBytes (emitByte s b) bs)
    rw [emitByte_unlessEnded hg, emitBytes_unlessEnded bs]

theorem emitSource_unlessEnded : ∀ (len a : Nat) (s : State),
    emitSource len a (unlessEnded g s) = unlessEnded g (emitSource len a s)
  | 0, _, _ => rfl
  | len + 1, a, s => by
    simp only [emitSource]
    rw [src_unlessEnded hg, emitByte_unlessEnded hg, emitSource_unlessEnded len]

theorem emitLiteral_unlessEnded (a b : Nat) (s : State) :
    emitLiteral a b (unlessEnded g s) = unlessEnded g (emitLiteral a b s) := by
  unfold emitLiteral
  split
  · rw [failEncode_unlessEnded hg]
    exact (unlessEnded_of_ended rfl).symm
  · rw [emitBytes_unlessEnded hg, emitSource_unlessEnded hg]

theorem flushLiteral_unlessEnded {s : State} (hlit : (g s).enc.lit = s.enc.lit) (y : Nat) :
    flushLiteral y (unlessEnded g s) = unlessEnded g (flushLiteral y s) := by
  have hl : (unlessEnded g s).enc.lit = s.enc.lit := by
    unfold unlessEnded
    split
    · rfl
    · exact hlit
  unfold flushLiteral
  rw [hl, emitLiteral_unlessEnded hg]
  split <;> rfl

theorem encodeFinish_unlessEnded (s : State) : encodeFinish (unlessEnded g s) = encodeFinish s := by
  cases he : ended s with
  | true => rw [unlessEnded_of_ended he]
  | false =>
    unfold encodeFinish
    rw [unlessEnded_of_running he, unlessEnded_of_running he, unlessEnded_of_running (hg.busy s he), hg.cursor, hg.succeeds]

end

/-! ## The changes in question -/

/-- Other responses, decoder and varint registers: ENCODE reads none of them. -/
def besides (u s : State) : State := { s with resp := u.resp, dec := u.dec, vu := u.vu }

theorem aside_besides (u : State) : Aside (besides u) :=
  ⟨fun _ => id, fun _ => rfl, fun _ _ => rfl, fun _ => rfl, fun _ _ => rfl, fun _ _ => rfl, fun _ _ => rfl⟩

/-- The same, and the match registers, which EXTEND sets (R158). -/
def besidesMatch (u s : State) : State :=
  (besides u s).modEnc fun r => { r with s0 := u.enc.s0, moff := u.enc.moff, mlen := u.enc.mlen }

theorem aside_besidesMatch (u : State) : Aside (besidesMatch u) :=
  ⟨fun _ => id, fun _ => rfl, fun _ _ => rfl, fun _ => rfl, fun _ _ => rfl, fun _ _ => rfl, fun _ _ => rfl⟩

theorem aside_carryScan (u : State) : Aside (carryScan u) :=
  ⟨fun _ => id, fun _ => rfl, fun _ _ => rfl, fun _ => rfl, fun _ _ => rfl, fun _ _ => rfl, fun _ _ => rfl⟩

/-- ENCODE while the varint of its source length is written (R182): that length and the output cursor are read. -/
def carryPrefix (u s : State) : State :=
  { s with resp := u.resp, dec := u.dec, table := u.table, vu := u.vu, enc := { u.enc with n := s.enc.n, d := s.enc.d } }

theorem aside_carryPrefix (u : State) : Aside (carryPrefix u) :=
  ⟨fun _ => id, fun _ => rfl, fun _ _ => rfl, fun _ => rfl, fun _ _ => rfl, fun _ _ => rfl, fun _ _ => rfl⟩

/-! ## The start of ENCODE -/

theorem alike_encodeBody {s : State} (hb : ended s = false) (u : State) :
    Alike (encodeBody s) (encodeBody (carryPrefix u s)) := by
  unfold encodeBody
  refine alike_ite (fun _ => ?_) fun _ => (alike_scan_iff rfl).2 (by rfl)
  have hlit : emitLiteral 0 s.enc.n (carryPrefix u s) = unlessEnded (carryPrefix u) (emitLiteral 0 s.enc.n s) := by
    rw [← emitLiteral_unlessEnded (aside_carryPrefix u), unlessEnded_of_running hb]
  show Alike _ (encodeFinish (if s.enc.n = 0 then carryPrefix u s else emitLiteral 0 s.enc.n (carryPrefix u s)))
  split
  · rw [← unlessEnded_of_running (f := carryPrefix u) hb, encodeFinish_unlessEnded (aside_carryPrefix u)]
    exact .refl _
  · rw [hlit, encodeFinish_unlessEnded (aside_carryPrefix u)]
    exact .refl _

/-- The varint registers as the loop of R121 leaves them once ENCODE has written its source length. -/
def prefixDone (s : State) : State :=
  s.modVu fun r =>
    { r with
      v := BitVec.ofNat 64 s.enc.n >>> (7 * (varintLen (BitVec.ofNat 64 s.enc.n) - 1))
      i := varintLen (BitVec.ofNat 64 s.enc.n) - 1 }

/-- ENCODE with its output cursor at 0 and the varint of its source length written (R182). -/
def prefixBytes (s : State) : State :=
  emitBytes (s.modEnc fun r => { r with d := 0 }) (varintBytes (BitVec.ofNat 64 s.enc.n))

theorem encodeOpen_parts (s : State) : encodeOpen s = unlessEnded encodeBody (unlessEnded prefixDone (prefixBytes s)) := rfl

theorem prefixBytes_carryStart {s : State} (hb : ended s = false) (u : State) :
    prefixBytes (carryStart u s) = unlessEnded (carryPrefix u) (prefixBytes s) := by
  unfold prefixBytes
  rw [← emitBytes_unlessEnded (aside_carryPrefix u), unlessEnded_of_running (by exact hb)]
  rfl

theorem alike_encodeOpen {s : State} (ha : s.activity = .encodeStart) (u : State) :
    Alike (encodeOpen s) (encodeOpen (carryStart u s)) := by
  have hb : ended s = false := ended_eq_false.2 (by simp [ha])
  rw [encodeOpen_parts, encodeOpen_parts, prefixBytes_carryStart hb]
  cases he : ended (prefixBytes s) with
  | true => simp only [unlessEnded_of_ended he]; exact .refl _
  | false =>
    rw [unlessEnded_of_running (f := carryPrefix u) he, unlessEnded_of_running (f := prefixDone) he,
      unlessEnded_of_running (f := prefixDone) (by exact he), unlessEnded_of_running (by exact he),
      unlessEnded_of_running (by exact he)]
    exact alike_encodeBody (s := prefixDone (prefixBytes s)) he (prefixDone (carryPrefix u (prefixBytes s)))

/-! ## A scan position -/

/-- A change of the encoder's registers after one of the others, the command having ended or not. -/
theorem modEnc_besides (u : State) (f : EncRegs → EncRegs) (s : State) :
    unlessEnded (fun v => v.modEnc f) (unlessEnded (besides u) s) =
      unlessEnded (besides u) (unlessEnded (fun v => v.modEnc f) s) :=
  unlessEnded_comm (fun h => h) (fun h => h) rfl

theorem emitCopyLoop_besides (u : State) : ∀ (turns : Nat) (s : State),
    emitCopyLoop turns (unlessEnded (besides u) s) = unlessEnded (besides u) (emitCopyLoop turns s)
  | 0, _ => rfl
  | turns + 1, s => by
    cases he : ended s with
    | true => rw [unlessEnded_of_ended he, emitCopyLoop_ended (ended_iff.1 he), unlessEnded_of_ended he]
    | false =>
      have hbytes : emitBytes (besides u s) (chainBytes s.enc.moff s.enc.mlen) =
          unlessEnded (besides u) (emitBytes s (chainBytes s.enc.moff s.enc.mlen)) := by
        rw [← emitBytes_unlessEnded (aside_besides u), unlessEnded_of_running he]
      have henc : (besides u s).enc = s.enc := rfl
      have hend : ended (besides u s) = ended s := rfl
      rw [unlessEnded_of_running he, emitCopyLoop, emitCopyLoop, henc, hend, hbytes]
      split
      · rw [unlessEnded_of_running he]
      · rw [modEnc_besides, emitCopyLoop_besides u turns]

/-- The loop of EXTEND advances two states alike when they agree on the source and on its three registers (R158). -/
theorem extendLoop_together : ∀ (turns : Nat) {s t : State}, t.ops = s.ops → t.mem = s.mem → t.enc.n = s.enc.n →
    t.enc.s = s.enc.s → t.enc.t = s.enc.t → ∃ k,
      extendLoop turns s = (s.modEnc fun r => { r with s := r.s + k, t := r.t + k }) ∧
      extendLoop turns t = (t.modEnc fun r => { r with s := r.s + k, t := r.t + k })
  | 0, _, _, _, _, _, _, _ => ⟨0, rfl, rfl⟩
  | turns + 1, s, t, ho, hm, hn, hs, ht => by
    have hsrc (a : Nat) : src t a = src s a := by simp only [src, ho, hm]
    unfold extendLoop
    rw [hn, hs, ht, hsrc, hsrc]
    split
    · obtain ⟨k, h1, h2⟩ := extendLoop_together turns (s := s.modEnc fun r => { r with s := r.s + 1, t := r.t + 1 })
        (t := t.modEnc fun r => { r with s := r.s + 1, t := r.t + 1 }) ho hm hn (by simp only [modEnc_enc, hs])
        (by simp only [modEnc_enc, ht])
      refine ⟨k + 1, ?_, ?_⟩
      · rw [h1]; simp only [State.modEnc, Nat.add_assoc, Nat.add_comm 1 k]
      · rw [h2]; simp only [State.modEnc, Nat.add_assoc, Nat.add_comm 1 k]
    · exact ⟨0, rfl, rfl⟩

/-- EXTEND sets every match register, whatever they held (R158). -/
theorem extendOp_besidesMatch (u s : State) : extendOp (besidesMatch u s) = besides u (extendOp s) := by
  obtain ⟨k, h1, h2⟩ := extendLoop_together s.enc.n (s := s.modEnc fun r => { r with s0 := r.s, s := r.s + 4, t := r.t + 4 })
    (t := (besidesMatch u s).modEnc fun r => { r with s0 := r.s, s := r.s + 4, t := r.t + 4 }) rfl rfl rfl rfl rfl
  have hn : (besidesMatch u s).enc.n = s.enc.n := rfl
  unfold extendOp
  rw [hn, h1, h2]
  rfl

/-- The match arm behind the flush (R184). -/
def copyMatch (s : State) : State := unlessEnded afterMatch (emitCopy (extendOp s))

theorem copyMatch_besidesMatch {s : State} (hb : ended s = false) (u : State) :
    copyMatch (besidesMatch u s) = unlessEnded (besides u) (copyMatch s) := by
  have hbx : ended (extendOp s) = false := by rw [extendOp_eq]; exact hb
  have hcopy : emitCopy (besides u (extendOp s)) = unlessEnded (besides u) (emitCopy (extendOp s)) := by
    unfold emitCopy
    rw [← emitCopyLoop_besides, unlessEnded_of_running hbx]
    rfl
  unfold copyMatch
  rw [extendOp_besidesMatch, hcopy]
  exact modEnc_besides u (fun r => { r with lit := r.s }) _

theorem takeMatch_besidesMatch {s : State} (hb : ended s = false) (u : State) :
    takeMatch (besidesMatch u s) = unlessEnded (besides u) (takeMatch s) := by
  have hflush : flushLiteral s.enc.s (besidesMatch u s) = unlessEnded (besidesMatch u) (flushLiteral s.enc.s s) := by
    rw [← flushLiteral_unlessEnded (aside_besidesMatch u) (by rfl), unlessEnded_of_running hb]
  show unlessEnded copyMatch (flushLiteral s.enc.s (besidesMatch u s)) =
    unlessEnded (besides u) (unlessEnded copyMatch (flushLiteral s.enc.s s))
  rw [hflush]
  exact unlessEnded_unlessEnded (fun h => h) fun h => copyMatch_besidesMatch h u

/-- WINDOW, HASH, PROBE and CANDIDATE set what the rest of the position reads (R152 to R155): the candidate position only where
there is an entry, and then the match registers alone are as they were. -/
theorem probed_carryScan (u s : State) : carryScan (probed (carryScan u s)) (probed s) = probed (carryScan u s) ∧
    (probed (carryScan u s)).enc.e = (probed s).enc.e ∧
    ((probed s).enc.e ≠ 0 → besidesMatch u (probed s) = probed (carryScan u s)) := by
  have hq : (probeOp (hashOp (windowOp (carryScan u s)))).enc.e = (probeOp (hashOp (windowOp s))).enc.e := rfl
  unfold probed candidateOp
  rw [hq]
  by_cases he : (probeOp (hashOp (windowOp s))).enc.e = 0
  · simp only [if_pos he]
    exact ⟨rfl, rfl, fun h => absurd he h⟩
  · simp only [if_neg he]
    exact ⟨rfl, rfl, fun _ => rfl⟩

theorem isMatch_probed_carryScan (u s : State) : isMatch (probed (carryScan u s)) = isMatch (probed s) := by
  obtain ⟨-, he, hp⟩ := probed_carryScan u s
  by_cases h0 : (probed s).enc.e = 0
  · have hno (p : State) (h : p.enc.e = 0) : isMatch p = false := by simp [isMatch, h]
    rw [hno _ (he.trans h0), hno _ h0]
  · rw [← hp h0]
    rfl

theorem alike_besides {s : State} (h : s.activity = .scan ∨ s.activity = .idle) (u : State) :
    Alike s (unlessEnded (besides u) s) := by
  rcases h with h | h
  · rw [unlessEnded_of_running (by simp [ended, h])]
    exact (alike_scan_iff h).2 rfl
  · rw [unlessEnded_of_ended (ended_iff.2 h)]
    exact .refl s

theorem alike_scanPosition {s : State} (ha : s.activity = .scan) (u : State) :
    Alike (scanPosition s) (scanPosition (carryScan u s)) := by
  have hact : (probed s).activity = .scan := (probed_activity s).trans ha
  obtain ⟨hcarry, -, hmatch⟩ := probed_carryScan u s
  rw [scanPosition_eq, scanPosition_eq, isMatch_probed_carryScan]
  refine alike_ite (fun hm => ?_) fun _ => ?_
  · rw [← hmatch (isMatch_entry hm), takeMatch_besidesMatch (by simp [ended, hact])]
    refine alike_besides ?_ u
    rcases emits_takeMatch (probed s) with ⟨h, -⟩ | ⟨h, -⟩
    · exact .inl (h.trans hact)
    · exact .inr h
  · rw [← hcarry]
    exact (alike_scan_iff (by exact hact)).2 (by rfl)

theorem alike_scanStep {s : State} (ha : s.activity = .scan) (u : State) : Alike (scanStep s) (scanStep (carryScan u s)) := by
  refine alike_ite (fun _ => alike_scanPosition ha u) fun _ => ?_
  have hflush : flushLiteral s.enc.n (carryScan u s) = unlessEnded (carryScan u) (flushLiteral s.enc.n s) := by
    rw [← flushLiteral_unlessEnded (aside_carryScan u) (by rfl), unlessEnded_of_running (by simp [ended, ha])]
  show Alike _ (encodeFinish (flushLiteral s.enc.n (carryScan u s)))
  rw [hflush, encodeFinish_unlessEnded (aside_carryScan u)]
  exact .refl _

/-! ## Every command -/

/-- A micro-step keeps two states alike: what it reads is the same in both, and what it writes is too. -/
theorem alike_microStep {s t : State} (h : Alike s t) : Alike (microStep s) (microStep t) := by
  cases ha : s.activity with
  | idle => rw [(alike_idle_iff ha).1 h]; exact .refl _
  | issued => rw [(alike_issued_iff ha).1 h]; exact .refl _
  | putBytes =>
    rw [← (alike_putBytes_iff ha).1 h, microStep_putBytes ha, microStep_putBytes (by exact ha)]
    exact alike_putByte ha t
  | varint user =>
    rw [← (alike_varint_iff ha).1 h]
    exact alike_microStep_varint ha t
  | elements =>
    rw [← (alike_elements_iff ha).1 h]
    exact alike_microStep_elements ha t
  | encodeStart =>
    rw [← (alike_encodeStart_iff ha).1 h, microStep_encodeStart ha, microStep_encodeStart (by exact ha)]
    exact alike_encodeOpen ha t
  | scan =>
    rw [← (alike_scan_iff ha).1 h, microStep_scan ha, microStep_scan (by exact ha)]
    exact alike_scanStep ha t

/-- Run to the end, alike states come to the same state. -/
theorem runToIdle_alike : ∀ (n : Nat) {s t : State}, Alike s t → runToIdle n t = runToIdle n s
  | n, s, t, h => by
    by_cases ha : s.activity = .idle
    · rw [(alike_idle_iff ha).1 h]
    · have hs : ¬ended s = true := fun he => ha (ended_iff.1 he)
      have ht : ¬ended t = true := fun he => ha (h.activity.symm.trans (ended_iff.1 he))
      cases n with
      | zero => rw [runToIdle, runToIdle, if_neg hs, if_neg ht]
      | succ n => rw [runToIdle, runToIdle, if_neg hs, if_neg ht, runToIdle_alike n (alike_microStep h)]

/-- Two answers of an entry lead to the same outcome. -/
def SameFinish (o o' : Host.Outcome State Fault Refusal) : Prop := ∀ n, finish n o' = finish n o

theorem sameFinish_next {s t : State} (h : Alike s t) : SameFinish (.next s) (.next t) := fun n => runToIdle_alike n h

theorem sameFinish_ite {c : Prop} [Decidable c] {a b a' b' : Host.Outcome State Fault Refusal} (ha : c → SameFinish a a')
    (hb : ¬c → SameFinish b b') : SameFinish (if c then a else b) (if c then a' else b') := by
  split
  · exact ha ‹_›
  · exact hb ‹_›

/-- `s` between two commands, with the working registers, the table, the responses and the activity of `u`. -/
def between (u s : State) : State :=
  { s with resp := u.resp, enc := u.enc, dec := u.dec, vu := u.vu, table := u.table, activity := u.activity }

theorem between_self {s t : State} (hc : t.cfg = s.cfg) (ho : t.ops = s.ops) (hm : t.mem = s.mem) (hh : t.host = s.host)
    (hf : t.free = s.free) : between t s = t := by
  simp only [between, ← hc, ← ho, ← hm, ← hh, ← hf]

/-- The entry of a command reads parameters, operands and memory only, and sets what its first loop reads. -/
theorem sameFinish_enter {i : Instr} (hi : i.space = .command) (u s : State) :
    SameFinish (enter i s) (enter i (between u s)) := by
  cases i with
  | maxEncodedLen => exact sameFinish_next (.refl _)
  | putUvarint =>
    refine sameFinish_next (alike_ite (fun _ => .refl _) fun _ => alike_ite (fun _ => .refl _) fun _ => ?_)
    exact (alike_putBytes_iff rfl).2 (by rfl)
  | uvarint =>
    exact sameFinish_next (alike_ite (fun _ => .refl _) fun _ => (alike_varint_iff rfl).2 (by rfl))
  | encode =>
    exact sameFinish_ite (fun _ => sameFinish_next (.refl _)) fun _ => sameFinish_ite (fun _ _ => rfl) fun _ =>
      sameFinish_ite (fun _ => sameFinish_next (.refl _)) fun _ => sameFinish_next ((alike_encodeStart_iff rfl).2 (by rfl))
  | decode =>
    exact sameFinish_ite (fun _ => sameFinish_next (.refl _)) fun _ => sameFinish_ite (fun _ _ => rfl) fun _ =>
      sameFinish_next ((alike_varint_iff (user := .decode) rfl).2 (by rfl))
  | _ => cases hi

/-- Settles O57: the entry leaves two alike states, every micro-step keeps them alike, and at the end they are one. -/
theorem nothingCarriesOver : Obligations.NothingCarriesOver := by
  intro s s' i hi hc ho hm hh hf
  rw [exec_eq_finish hi, exec_eq_finish hi, ho, ← between_self hc ho hm hh hf]
  exact sameFinish_enter hi s' s _

end Sys2Proof.Machine
end

section
/-! What a command can answer (R57, R317), and its outcomes before any write: the entry checks of ENCODE and DECODE (R181, R210) and
the varint of DECODE's declared length (R211, R212). -/

namespace Sys2Proof.Machine

/-! ## A command that its entry ends or refuses -/

theorem exec_of_enter_idle {i : Instr} {s u : State} (hi : i.space = .command) (h : enter i s = .next u)
    (ha : u.activity = .idle) : exec i s = .next u := by
  rw [exec_eq_finish hi, h]
  exact runToIdle_idle ha _

theorem exec_of_enter_refused {i : Instr} {s : State} {r : Refusal} (hi : i.space = .command) (h : enter i s = .refused r) :
    exec i s = .refused r := by
  rw [exec_eq_finish hi, h]
  rfl

/-- Only ENCODE and DECODE are refused, and only over views that share an address (R57). -/
theorem enter_refused {i : Instr} {s : State} {r : Refusal} (hi : i.space = .command) (h : enter i s = .refused r) :
    (i = .encode ∨ i = .decode) ∧ viewsOverlap s = true ∧ r = .overlappingViews := by
  cases i with
  | maxEncodedLen => cases h
  | putUvarint => cases h
  | uvarint => cases h
  | encode =>
    simp only [enter, enterEncode] at h
    split_ifs at h
    cases h
    exact ⟨.inl rfl, ‹_›, rfl⟩
  | decode =>
    simp only [enter, enterDecode] at h
    split_ifs at h
    cases h
    exact ⟨.inr rfl, ‹_›, rfl⟩
  | _ => cases hi

/-- A command of a sane state ends with the core idle and the invariant kept, or is refused over views that share an address. -/
theorem exec_command_ends {i : Instr} {s : State} (hs : Sane s) (hi : i.space = .command) :
    (∃ t, exec i s = .next t ∧ t.activity = .idle ∧ Inv t) ∨
    ((i = .encode ∨ i = .decode) ∧ viewsOverlap s = true ∧ exec i s = .refused .overlappingViews) := by
  rcases exec_command_cases hs hi with ⟨r, he, hx⟩ | ⟨u, n, t, -, -, hend, hx⟩
  · obtain ⟨hcmd, hov, rfl⟩ := enter_refused hi he
    exact .inr ⟨hcmd, hov, hx⟩
  · exact .inl ⟨t, hx, (runToIdle_next hend).1, inv_exec_command hs hi hx⟩

/-- Settles O52: a command that its entry does not refuse runs to its end. -/
theorem commandsEnd : Obligations.CommandsEnd := fun _ _ => exec_command_ends

/-! ## The entry checks -/

theorem failsClean_failClean (c : Cause) (s : State) : FailsClean s (failClean c s) c := ⟨⟨rfl, rfl, rfl, rfl, rfl⟩, rfl⟩

/-- A view that wraps is found before anything else (R51, R181, R210). -/
theorem enter_wraps {i : Instr} {s : State} (hi : i = .encode ∨ i = .decode)
    (h : 2 ^ s.cfg.aw < s.ops.srcBase + s.ops.srcLen ∨ 2 ^ s.cfg.aw < s.ops.dstBase + s.ops.dstLen) :
    enter i s = .next (failClean .viewWraps s) := by
  have hw : (srcWraps s || dstWraps s) = true := by rwa [Bool.or_eq_true, srcWraps_iff, dstWraps_iff]
  rcases hi with rfl | rfl
  · exact if_pos hw
  · exact if_pos hw

/-- Views that exist and share an address are refused (R57). -/
theorem enter_overlaps {i : Instr} {s : State} (hi : i = .encode ∨ i = .decode)
    (hsrc : s.ops.srcBase + s.ops.srcLen ≤ 2 ^ s.cfg.aw) (hdst : s.ops.dstBase + s.ops.dstLen ≤ 2 ^ s.cfg.aw)
    (h : ∃ i j, i < s.ops.srcLen ∧ j < s.ops.dstLen ∧ s.ops.srcBase + i = s.ops.dstBase + j) :
    enter i s = .refused .overlappingViews := by
  have hw : ¬(srcWraps s || dstWraps s) = true := by rw [Bool.or_eq_true, srcWraps_iff, dstWraps_iff]; omega
  have ho := (viewsOverlap_iff s).2 h
  rcases hi with rfl | rfl
  · exact (if_neg hw).trans (if_pos ho)
  · exact (if_neg hw).trans (if_pos ho)

theorem ViewsGood.fit {s : State} (h : ViewsGood s) : ¬(srcWraps s || dstWraps s) = true := by simp [h.srcFits, h.dstFits]

theorem ViewsGood.apart {s : State} (h : ViewsGood s) : ¬viewsOverlap s = true := by simp [h.disjoint]

/-- ENCODE over good views with a destination below the bound (R181). -/
theorem enter_encode_noRoom {s : State} (hv : ViewsGood s) (h : s.ops.dstLen < maxEncodedLength s.ops.srcLen) :
    enter .encode s = .next (failClean .encDstLtMaxLen s) :=
  (if_neg hv.fit).trans ((if_neg hv.apart).trans (if_pos h))

theorem enter_decode_start {s : State} (hv : ViewsGood s) : enter .decode s = .next (startDecode s) :=
  (if_neg hv.fit).trans (if_neg hv.apart)

/-- Settles O23: each clause is one branch of the entry, and the first and the last end the command there. -/
theorem encodeEntryChecks : Obligations.EncodeEntryChecks := by
  intro s
  refine ⟨fun h => ?_, fun hsrc hdst h => ?_, fun hv h => ?_⟩
  · exact ⟨_, exec_of_enter_idle rfl (enter_wraps (.inl rfl) h) rfl, failsClean_failClean _ s⟩
  · exact exec_of_enter_refused rfl (enter_overlaps (.inl rfl) hsrc hdst h)
  · exact ⟨_, exec_of_enter_idle rfl (enter_encode_noRoom hv h) rfl, failsClean_failClean _ s⟩

/-! ## The varint of DECODE's declared length -/

/-- DECODE in its length varint after `k` continuation bytes (R124, R211). -/
def inPrefix (s : State) (v : Value) (b : Byte) (k : Nat) : State :=
  { startDecode s with vu := { v := v, sh := 7 * k, i := k, b := b } }

/-- The length varint up to byte `k`: DECODE has made `k` micro-steps, and the value is the sum of the groups while no bit can be lost. -/
theorem inPrefix_run {s : State} {k : Nat} (hk : k ≤ 10) (hin : k ≤ s.ops.srcLen) (hc : ∀ j, j < k → 128 ≤ (src s j).toNat) :
    ∃ v b, microStep^[k] (startDecode s) = inPrefix s v b k ∧ (k ≤ 9 → v.toNat = groupSum (src s) k) :=
  varint_run (s := startDecode s) rfl rfl rfl rfl hk hin hc

/-- A failure without a write inside the length varint is the answer of the whole command: what the varint has set is given up. -/
theorem exec_decode_prefixFails {s : State} {v : Value} {b : Byte} {k : Nat} {c : Cause} (hv : ViewsGood s)
    (hk : k ≤ s.ops.srcLen) (hrun : microStep^[k] (startDecode s) = inPrefix s v b k)
    (hfail : microStep (inPrefix s v b k) = failClean c s) : ∃ t, exec .decode s = .next t ∧ FailsClean s t c := by
  have hend : runToIdle (k + 1) (startDecode s) = .next (failClean c s) :=
    runToIdle_iff.2 ⟨rfl, by rw [Function.iterate_succ_apply', hrun, hfail]⟩
  refine ⟨_, ?_, failsClean_failClean c s⟩
  rw [exec_eq_finish rfl, enter_decode_start hv]
  exact runToIdle_mono hend (by simp only [turnsOf]; omega)

/-- The varint loop ends without a last byte: at the end of the view, or behind the tenth byte (R124, R211). -/
theorem exec_decode_prefixUnfinished {s : State} {k : Nat} (hv : ViewsGood s) (hk : k ≤ 10) (hin : k ≤ s.ops.srcLen)
    (hexit : s.ops.srcLen ≤ k ∨ 10 ≤ k) (hc : ∀ j, j < k → 128 ≤ (src s j).toNat) :
    ∃ t, exec .decode s = .next t ∧ FailsClean s t (if s.ops.srcLen ≤ k then .prefixIncomplete else .varintTooManyGroups) := by
  obtain ⟨v, b, hrun, -⟩ := inPrefix_run hk hin hc
  refine exec_decode_prefixFails hv hin hrun ?_
  calc microStep (inPrefix s v b k) = varintLoopExit (inPrefix s v b k) := varint_exit (s := startDecode s) rfl hexit
    _ = if s.ops.srcLen ≤ k then failClean .prefixIncomplete s else failClean .varintTooManyGroups s := rfl
    _ = failClean (if s.ops.srcLen ≤ k then .prefixIncomplete else .varintTooManyGroups) s := by split <;> rfl

/-- With the last byte of the length varint reached, a failure on it is the answer of the command. -/
theorem exec_decode_lastByteFails {s : State} {k : Nat} {c : Cause} (hv : ViewsGood s) (hk : k ≤ 9) (he : VarintEndsAt s k)
    (hfail : ∀ v b, v.toNat = groupSum (src s) k →
      varintLastItem ((src s k).extractLsb' 0 7) (inPrefix s v b k) = failClean c s) :
    ∃ t, exec .decode s = .next t ∧ FailsClean s t c := by
  have hin := he.inView
  obtain ⟨v, b, hrun, hval⟩ := inPrefix_run (by omega) (by omega) he.continued
  refine exec_decode_prefixFails hv (by omega) hrun ?_
  rw [← hfail v b (hval hk)]
  exact varint_last (s := startDecode s) rfl hk hin he.last

/-- A tenth byte above 1 (R124). -/
theorem exec_decode_overflows {s : State} (hv : ViewsGood s) (he : VarintEndsAt s 9) (h : 1 < (src s 9).toNat) :
    ∃ t, exec .decode s = .next t ∧ FailsClean s t .varint10thOverflow := by
  have hlast := he.last
  refine exec_decode_lastByteFails hv (Nat.le_refl _) he fun v b _ => ?_
  exact if_pos ⟨rfl, by rw [extract_group]; omega⟩

/-- A declared length above DST_LEN (R212). -/
theorem exec_decode_declaresTooMuch {s : State} {k : Nat} (hv : ViewsGood s) (hk : k ≤ 9) (he : VarintEndsAt s k)
    (h9 : k = 9 → (src s k).toNat ≤ 1) (h : s.ops.dstLen < groupSum (src s) (k + 1)) :
    ∃ t, exec .decode s = .next t ∧ FailsClean s t .decDstLtDeclared := by
  have hlast := he.last
  refine exec_decode_lastByteFails hv hk he fun v b hsum => ?_
  have hval := varint_value hsum hk hlast h9
  have hlegal : ¬(k = 9 ∧ 1 < ((src s k).extractLsb' 0 7).toNat) := by
    rintro ⟨hk9, h1⟩
    have := h9 hk9
    rw [extract_group] at h1
    omega
  exact (if_neg hlegal).trans (if_pos (lt_of_lt_of_eq h hval.symm))

/-- Settles O41: the entry's branches, and the ends of the varint loop that fail. -/
theorem decodeEntry : Obligations.DecodeEntry := by
  intro s
  refine ⟨fun h => ?_, fun hsrc hdst h => ?_, fun hv hlen hc => ?_, fun hv hlen hc => ?_, exec_decode_overflows,
    fun k hv hk he h9 h => exec_decode_declaresTooMuch hv hk he h9 h⟩
  · exact ⟨_, exec_of_enter_idle rfl (enter_wraps (.inr rfl) h) rfl, failsClean_failClean _ s⟩
  · exact exec_of_enter_refused rfl (enter_overlaps (.inr rfl) hsrc hdst h)
  · simpa using exec_decode_prefixUnfinished hv hlen (Nat.le_refl _) (.inl (Nat.le_refl _)) hc
  · have hover : ¬s.ops.srcLen ≤ 10 := by omega
    simpa [hover] using exec_decode_prefixUnfinished hv (Nat.le_refl 10) (by omega) (.inr (Nat.le_refl _)) hc

end Sys2Proof.Machine
end

section
/-! A step by the host's next move (R9, R50, R56, R61): the memory write, what a step inside a command does to the moves that wait, and
the only three ways for a step to stop. -/

namespace Sys2Proof.Machine

/-! ## A host write of memory -/

theorem step_writeMem_exists {s : State} {a : Nat} {b : Byte} {rest : List HostMove} (ha : s.activity = .idle)
    (hh : s.host = .writeMem a b :: rest) (h : a < s.cfg.space) :
    step s = .next { s with host := rest, mem := writeByte s.mem a b } := (step_writeMem ha hh).trans (if_pos h)

theorem step_writeMem_beyond {s : State} {a : Nat} {b : Byte} {rest : List HostMove} (ha : s.activity = .idle)
    (hh : s.host = .writeMem a b :: rest) (h : s.cfg.space ≤ a) : step s = .fault .addressOutsideMemory :=
  (step_writeMem ha hh).trans (if_neg (Nat.not_lt.2 h))

/-- Settles O15: the step is the write, if the address exists, and the clauses are the laws of a read after a write. -/
theorem hostWritesMemory : Obligations.HostWritesMemory := by
  intro s a b rest hs ha hh
  refine ⟨fun hlt => ⟨_, step_writeMem_exists ha hh hlt, rfl, readByte_writeByte_eq hs.mem, fun c hc => ?_⟩,
    step_writeMem_beyond ha hh⟩
  exact readByte_writeByte_ne hc

/-! ## The moves that wait during a command -/

theorem useWait_host_of_wait {s : State} {rest : List HostMove} (h : s.host = .wait :: rest) : (useWait s).host = rest := by
  simp only [useWait, h]

theorem useWait_of_no_wait {s : State} (h : s.host.head? ≠ some .wait) : useWait s = s := by
  unfold useWait
  split
  · rename_i heq
    simp [heq] at h
  · rfl

/-- The entry of a command changes working state and responses only. -/
theorem stays_enter {i : Instr} {s u : State} (hi : i.space = .command) (h : enter i s = .next u) (lim : Nat) :
    Stays lim s u := by
  rcases enter_next hi h with ⟨c, rfl⟩ | rfl | rfl | rfl | rfl | rfl <;> exact Stays.of_eq rfl rfl rfl rfl

theorem stays_enterCommand {s u : State} (h : enterCommand s = .next u) (lim : Nat) : Stays lim s u := by
  unfold enterCommand at h
  split at h
  · rename_i hd; exact stays_enter (decodeCommand_space hd) h lim
  · cases h; exact stays_failClean _ _ _

/-- A step inside a command uses up a `wait`; it changes nothing else on the host's side, and of memory only the destination view
(R20, R21, R52, R61). -/
theorem stays_step_busy {s t : State} (h : Inv s) (ha : s.activity ≠ .idle) (hr : s.host.head? ≠ some .reset)
    (ht : step s = .next t) : Stays s.ops.dstLen (useWait s) t := by
  rw [← useWait_ops s]
  by_cases hi : s.activity = .issued
  · rw [step_issued hi hr] at ht
    exact stays_enterCommand ht _
  · rw [step_microStep h ha hi hr] at ht
    cases ht
    exact stays_microStep (inv_useWait h)

/-- Settles O7: the two moves of an idle core by the step's equations, a step inside a command by what it leaves alone. -/
theorem launchAndWait : Obligations.LaunchAndWait := by
  refine ⟨fun s rest => step_launch, fun s rest => step_wait, fun s t h ha hr ht => ?_⟩
  have hsame := (stays_step_busy h ha hr ht).sameHostSide
  refine ⟨by rw [hsame.cfg, useWait_cfg], by rw [hsame.ops, useWait_ops], fun rest hw => ?_, fun hw => ?_⟩
  · rw [hsame.host, useWait_host_of_wait hw]
  · rw [hsame.host, useWait_of_no_wait hw]

/-! ## Where a step stops -/

theorem op_of_decodeCommand {op : BitVec 3} {i : Instr} (h : decodeCommand op = some i) (hi : i = .encode ∨ i = .decode) :
    op = 3 ∨ op = 4 := by
  unfold decodeCommand at h
  split_ifs at h with _ _ _ h3 h4
  · cases h; simp at hi
  · cases h; simp at hi
  · cases h; simp at hi
  · exact .inl h3
  · exact .inr h4

/-- An issued command ends, or is refused over views that share an address. -/
theorem issueCommand_cases {s : State} (hs : Sane s) : (∃ t, issueCommand s = .next t) ∨
    ((s.ops.op = 3 ∨ s.ops.op = 4) ∧ viewsOverlap s = true ∧ issueCommand s = .refused .overlappingViews) := by
  unfold issueCommand
  split
  · rename_i i hd
    rcases exec_command_ends hs (decodeCommand_space hd) with ⟨t, ht, -⟩ | ⟨hi, hov, hx⟩
    · exact .inl ⟨t, ht⟩
    · exact .inr ⟨op_of_decodeCommand hd hi, hov, hx⟩
  · exact .inl ⟨_, rfl⟩

/-- A step of an idle core that does not answer a next state: a write to an address that does not exist, or a refused issue. -/
theorem step_idle_cases {s : State} (h : Inv s) (ha : s.activity = .idle) : (∃ t, step s = .next t) ∨
    (∃ a b rest, s.host = .writeMem a b :: rest ∧ s.cfg.space ≤ a ∧ step s = .fault .addressOutsideMemory) ∨
    ((∃ rest, s.host = .issue :: rest) ∧ (s.ops.op = 3 ∨ s.ops.op = 4) ∧ viewsOverlap s = true ∧
      step s = .refused .overlappingViews) := by
  cases hh : s.host with
  | nil => exact .inl ⟨_, step_noMove ha hh⟩
  | cons m rest =>
    cases m with
    | writeReg r v => exact .inl ⟨_, step_writeReg ha hh⟩
    | writeMem a b =>
      rcases Nat.lt_or_ge a s.cfg.space with hlt | hge
      · exact .inl ⟨_, step_writeMem_exists ha hh hlt⟩
      · exact .inr (.inl ⟨a, b, rest, rfl, hge, step_writeMem_beyond ha hh hge⟩)
    | issue =>
      rw [step_issue ha hh]
      have hs : Sane { s with host := rest } := (inv_host h rfl).sane
      rcases issueCommand_cases hs with ht | ⟨hop, hov, hx⟩
      · exact .inl ht
      · exact .inr (.inr ⟨⟨rest, rfl⟩, hop, hov, hx⟩)
    | launch => exact .inl ⟨_, step_launch ha hh⟩
    | wait => exact .inl ⟨_, step_wait ha hh⟩
    | reset => exact .inl ⟨_, step_reset hh⟩

theorem viewsOverlap_useWait (s : State) : viewsOverlap (useWait s) = viewsOverlap s := by
  unfold viewsOverlap
  rw [useWait_ops]

/-- A step inside a command that does not answer a next state is the entry of ENCODE or DECODE over views that share an address. -/
theorem step_busy_cases {s : State} (h : Inv s) (ha : s.activity ≠ .idle) (hr : s.host.head? ≠ some .reset) :
    (∃ t, step s = .next t) ∨
    (s.activity = .issued ∧ (s.ops.op = 3 ∨ s.ops.op = 4) ∧ viewsOverlap s = true ∧ step s = .refused .overlappingViews) := by
  by_cases hi : s.activity = .issued
  · rw [step_issued hi hr]
    rcases enterCommand_cases (inv_useWait h).sane with ⟨u, hu, -⟩ | ⟨hop, hov, hx⟩
    · exact .inl ⟨u, hu⟩
    · rw [useWait_ops] at hop
      rw [viewsOverlap_useWait] at hov
      exact .inr ⟨hi, hop, hov, hx⟩
  · exact .inl ⟨_, step_microStep h ha hi hr⟩

/-- Settles O51: a reset is always taken, and an idle core and a command in progress stop in the cases named. -/
theorem stepAnswersNext : Obligations.StepAnswersNext := by
  intro s h
  by_cases hr : s.host.head? = some .reset
  · obtain ⟨rest, hh⟩ := List.head?_eq_some_iff.1 hr
    exact .inl ⟨_, step_reset hh⟩
  · by_cases ha : s.activity = .idle
    · rcases step_idle_cases h ha with ht | ⟨a, b, rest, hh, hge, hx⟩ | ⟨⟨rest, hh⟩, hstop⟩
      · exact .inl ht
      · exact .inr (.inl ⟨a, b, rest, ha, hh, hge, hx⟩)
      · exact .inr (.inr ⟨.inl ⟨rest, ha, hh⟩, hstop⟩)
    · rcases step_busy_cases h ha hr with ht | ⟨hi, hstop⟩
      · exact .inl ht
      · exact .inr (.inr ⟨.inr hi, hstop⟩)

end Sys2Proof.Machine
end

section
/-! What memory an instruction changes, in every state (R52, R276): none, or the destination view only. -/

namespace Sys2Proof.Machine

/-! ## Instructions that change no byte of memory -/

theorem varintDone_mem (v : Value) (k : Nat) (s : State) : (varintDone v k s).mem = s.mem := by
  unfold varintDone
  split
  · rfl
  · unfold decodePrefix
    split <;> rfl
  · rfl

theorem varintLastItem_mem (g : BitVec 7) (s : State) : (varintLastItem g s).mem = s.mem := by
  rw [varintLastItem_eq]
  split
  · rfl
  · exact varintDone_mem _ _ _

theorem varintItem_mem {i : Instr} (hi : i.space = .varint) (s : State) : (runItem i s).mem = s.mem := by
  cases i with
  | varintCont g => rfl
  | varintLast g => exact varintLastItem_mem g s
  | _ => cases hi

theorem varintLoopExit_mem (s : State) : (varintLoopExit s).mem = s.mem := by
  unfold varintLoopExit varintIncomplete
  split
  · split <;> rfl
  · rfl

theorem microStep_varint_mem {s : State} {user : VarintUser} (ha : s.activity = .varint user) :
    (microStep s).mem = s.mem := by
  rw [microStep_varint ha]
  split
  · exact varintItem_mem (decodeVarintByte_space _) s
  · exact varintLoopExit_mem s

theorem microStep_issued {s : State} (ha : s.activity = .issued) : microStep s = s := by
  simp [microStep, fetchItem, sequencerStep, ha]

/-- The memory of `s` is as it was and stays so: the core is idle, before its entry checks, or inside UVARINT. -/
def OnlyReads (s u : State) : Prop :=
  u.mem = s.mem ∧ (u.activity = .idle ∨ u.activity = .issued ∨ u.activity = .varint .uvarint)

theorem onlyReads_microStep {s u : State} (h : OnlyReads s u) : OnlyReads s (microStep u) := by
  obtain ⟨hm, ha | ha | ha⟩ := h
  · rw [microStep_idle ha]
    exact ⟨hm, .inl ha⟩
  · rw [microStep_issued ha]
    exact ⟨hm, .inr (.inl ha)⟩
  · refine ⟨(microStep_varint_mem ha).trans hm, ?_⟩
    rcases varint_progress ha with h' | ⟨-, -, h', -⟩ | ⟨-, h', -⟩
    · exact .inl h'
    · exact .inr (.inr h')
    · cases h'

theorem onlyReads_enter {i : Instr} {s u : State} (hi : i = .uvarint ∨ i = .maxEncodedLen) (h : enter i s = .next u) :
    OnlyReads s u := by
  rcases hi with rfl | rfl
  · simp only [enter, enterUvarint] at h
    cases h
    split
    · exact ⟨rfl, .inl rfl⟩
    · exact ⟨rfl, .inr (.inr rfl)⟩
  · cases h
    exact ⟨rfl, .inl rfl⟩

theorem exec_readingCommand_mem {i : Instr} {s t : State} (hi : i = .uvarint ∨ i = .maxEncodedLen) (h : exec i s = .next t) :
    t.mem = s.mem := by
  have hsp : i.space = .command := by rcases hi with rfl | rfl <;> rfl
  have hread : OnlyReads s t :=
    exec_command_induct hsp h (fun _ hu => onlyReads_enter hi hu) fun _ hu _ => onlyReads_microStep hu
  exact hread.1

/-! ## ENCODE writes the destination view only -/

/-- Inside an ENCODE, or behind it. -/
def Encoding (s : State) : Prop := s.activity = .idle ∨ s.activity = .encodeStart ∨ s.activity = .scan

theorem encodeFinish_activity (s : State) : (encodeFinish s).activity = .idle := by
  unfold encodeFinish unlessEnded
  split
  · exact ended_iff.1 ‹_›
  · rfl

theorem scanStep_activity {s : State} (ha : s.activity = .scan) :
    (scanStep s).activity = .idle ∨ (scanStep s).activity = .scan := by
  have hp : (probed s).activity = .scan := (probed_activity s).trans ha
  unfold scanStep
  split
  · rw [scanPosition_eq]
    split
    · rcases emits_takeMatch (probed s) with ⟨h, -⟩ | ⟨h, -⟩
      · exact .inr (h.trans hp)
      · exact .inl h
    · exact .inr hp
  · exact .inl (encodeFinish_activity _)

theorem encodeOpen_activity (s : State) : (encodeOpen s).activity = .idle ∨ (encodeOpen s).activity = .scan := by
  unfold encodeOpen unlessEnded
  split
  · exact .inl (ended_iff.1 ‹_›)
  · unfold encodeBody
    split
    · exact .inl (encodeFinish_activity _)
    · exact .inr rfl

theorem encoding_microStep {u : State} (h : Encoding u) :
    Encoding (microStep u) ∧ Stays u.ops.dstLen u (microStep u) := by
  rcases h with ha | ha | ha
  · rw [microStep_idle ha]
    exact ⟨.inl ha, Stays.refl _ _⟩
  · rw [microStep_encodeStart ha]
    exact ⟨(encodeOpen_activity u).imp id .inr, stays_encodeOpen u⟩
  · rw [microStep_scan ha]
    exact ⟨(scanStep_activity ha).imp id .inr, stays_scanStep u⟩

/-! ## DECODE writes the destination view only -/

/-- Inside a DECODE, or behind it; between two elements the declared length is inside the destination view (R212). -/
def Decoding (s : State) : Prop :=
  s.activity = .idle ∨ s.activity = .varint .decode ∨ (s.activity = .elements ∧ s.dec.dLen ≤ s.ops.dstLen)

theorem decoding_varintLastItem {s : State} (ha : s.activity = .varint .decode) (g : BitVec 7) :
    Decoding (varintLastItem g s) := by
  have hact : (lastGroup g s).activity = .varint .decode := ha
  rw [varintLastItem_eq]
  split
  · exact .inl rfl
  · unfold varintDone
    rw [hact]
    show Decoding (decodePrefix _ _ _)
    unfold decodePrefix
    split
    · exact .inl rfl
    · exact .inr (.inr ⟨rfl, Nat.not_lt.1 ‹_›⟩)

theorem varintLoopExit_activity (s : State) : (varintLoopExit s).activity = .idle := by
  unfold varintLoopExit varintIncomplete
  split
  · split <;> rfl
  · rfl

theorem decoding_microStep_varint {s : State} (ha : s.activity = .varint .decode) : Decoding (microStep s) := by
  rw [microStep_varint ha]
  split
  · unfold decodeVarintByte
    split
    · exact .inr (.inl ha)
    · exact decoding_varintLastItem ha _
  · exact .inl (varintLoopExit_activity s)

section
variable {s : State} (ha : s.activity = .elements) (hd : s.dec.dLen ≤ s.ops.dstLen)
include ha hd

theorem decoding_literalElement : Decoding (literalElement s) := by
  unfold literalElement literalChecked
  split
  · exact .inl rfl
  · split
    · exact .inl rfl
    · split
      · exact .inl rfl
      · rw [replayLiteral_eq]
        exact .inr (.inr ⟨ha, hd⟩)

theorem decoding_literalForm (header : Nat) (x : BitVec 32) : Decoding (literalForm header x s) := by
  unfold literalForm
  split
  · exact .inl rfl
  · exact decoding_literalElement (by exact ha) hd

theorem decoding_copyElement : Decoding (copyElement s) := by
  unfold copyElement
  split
  · exact .inl rfl
  · split
    · exact .inl rfl
    · rw [copyReplay_eq]
      exact .inr (.inr ⟨ha, hd⟩)

theorem decoding_element {i : Instr} (hi : i.space = .element) : Decoding (runItem i s) := by
  cases i with
  | lit0 n => exact decoding_literalElement (by exact ha) hd
  | lit1 n => exact decoding_literalForm ha hd _ _
  | lit2 n => exact decoding_literalForm ha hd _ _
  | lit3 n => exact decoding_literalForm ha hd _ _
  | lit4 n => exact decoding_literalForm ha hd _ _
  | copy1 l o =>
    simp only [runItem, copy1Item]
    split
    · exact .inl rfl
    · exact decoding_copyElement (by exact ha) hd
  | copy2 l o =>
    simp only [runItem, copy2Item]
    split
    · exact .inl rfl
    · exact decoding_copyElement (by exact ha) hd
  | copy4 u => exact .inl rfl
  | _ => cases hi

theorem decoding_microStep_elements : Decoding (microStep s) ∧ Stays s.ops.dstLen s (microStep s) := by
  by_cases hL : s.dec.s < s.dec.L
  · obtain ⟨i, rest, hi, hsp⟩ := decode_elementHeader s
    rw [microStep_element ha hL hi]
    exact ⟨decoding_element (s := fetchElement s) ha hd hsp, (stays_fetchElement _ s).trans (stays_runItem i fun _ => hd)⟩
  · rw [microStep_lastElement ha hL]
    refine ⟨.inl ?_, stays_decodeFinal hd⟩
    unfold decodeFinal
    split <;> rfl

end

theorem stays_microStep_varint {lim : Nat} {s : State} {user : VarintUser} (ha : s.activity = .varint user) :
    Stays lim s (microStep s) := by
  rw [microStep_varint ha]
  split
  · refine stays_runItem _ fun hsp => ?_
    rw [decodeVarintByte_space] at hsp
    cases hsp
  · exact stays_varintLoopExit _ _

theorem decoding_microStep {u : State} (h : Decoding u) : Decoding (microStep u) ∧ Stays u.ops.dstLen u (microStep u) := by
  rcases h with ha | ha | ⟨ha, hd⟩
  · rw [microStep_idle ha]
    exact ⟨.inl ha, Stays.refl _ _⟩
  · exact ⟨decoding_microStep_varint ha, stays_microStep_varint ha⟩
  · exact decoding_microStep_elements ha hd

/-! ## Every instruction -/

/-- A command writes the destination view only, when from its entry on every micro-step does. -/
theorem stays_exec_command {P : State → Prop} {i : Instr} {s t : State} (hi : i.space = .command) (h : exec i s = .next t)
    (hstart : ∀ u, enter i s = .next u → P u) (hstep : ∀ u, P u → P (microStep u) ∧ Stays u.ops.dstLen u (microStep u)) :
    Stays s.ops.dstLen s t := by
  have hend : P t ∧ Stays s.ops.dstLen s t := by
    refine exec_command_induct (P := fun u => P u ∧ Stays s.ops.dstLen s u) hi h (fun u hu => ?_) fun u hu _ => ?_
    · exact ⟨hstart u hu, stays_enter hi hu _⟩
    · obtain ⟨hp, hst⟩ := hstep u hu.1
      exact ⟨hp, hu.2.andThen hst⟩
  exact hend.2

theorem encoding_enter {s u : State} (h : enter .encode s = .next u) : Encoding u := by
  simp only [enter, enterEncode] at h
  split_ifs at h <;> cases h
  · exact .inl rfl
  · exact .inl rfl
  · exact .inr (.inl rfl)

theorem decoding_enter {s u : State} (h : enter .decode s = .next u) : Decoding u := by
  simp only [enter, enterDecode] at h
  split_ifs at h <;> cases h
  · exact .inl rfl
  · exact .inr (.inl rfl)

theorem stays_exec_element {i : Instr} {s t : State} (hi : i.space = .element) (h : exec i s = .next t) :
    Stays s.ops.dstLen s t := by
  rw [exec_element hi, inBounds] at h
  split at h <;> cases h
  rename_i hb
  simp only [decoderBounds, Bool.and_eq_true, decide_eq_true_eq] at hb
  exact stays_runItem i fun _ => hb.1.2

theorem onlyDstWritten_of_mem {s t : State} (h : t.mem = s.mem) (lim : Nat) : OnlyDstWritten s t lim := fun _ _ => by rw [h]

/-- The varint bytes, UVARINT and MAX_ENCODED_LEN change no byte of memory. -/
theorem exec_reading_mem {i : Instr} {s t : State} (hi : i.space = .varint ∨ i = .uvarint ∨ i = .maxEncodedLen)
    (h : exec i s = .next t) : t.mem = s.mem := by
  rcases hi with hsp | hi
  · rw [exec_varint hsp] at h
    cases h
    exact varintItem_mem hsp s
  · exact exec_readingCommand_mem hi h

/-- No instruction changes a byte outside the destination view, whatever state it runs in. -/
theorem onlyDstWritten_exec {i : Instr} {s t : State} (h : exec i s = .next t) : OnlyDstWritten s t s.ops.dstLen := by
  cases i with
  | varintCont g => exact onlyDstWritten_of_mem (exec_reading_mem (.inl rfl) h) _
  | varintLast g => exact onlyDstWritten_of_mem (exec_reading_mem (.inl rfl) h) _
  | maxEncodedLen => exact onlyDstWritten_of_mem (exec_reading_mem (.inr (.inr rfl)) h) _
  | uvarint => exact onlyDstWritten_of_mem (exec_reading_mem (.inr (.inl rfl)) h) _
  | putUvarint =>
    cases h
    exact (stays_putUvarint s (varintBytes_length _)).outside
  | encode => exact (stays_exec_command rfl h (fun _ => encoding_enter) fun _ => encoding_microStep).outside
  | decode => exact (stays_exec_command rfl h (fun _ => decoding_enter) fun _ => decoding_microStep).outside
  | _ => exact (stays_exec_element rfl h).outside

/-- Settles O56: each instruction by its frame. -/
theorem writesOnlyTheDestination : Obligations.WritesOnlyTheDestination :=
  fun _ _ _ h => ⟨onlyDstWritten_exec h, fun hi => exec_reading_mem hi h⟩

end Sys2Proof.Machine
end

section
/-! A reset inside a launched command (R310): what a command in progress has done so far, and what the reset leaves of it. -/

namespace Sys2Proof.Machine

/-- `u` is on the way of the command launched in `s`, or behind its end: memory has changed in the destination view only, and for a
command that writes nothing not at all. -/
structure OnTheWay (s u : State) : Prop where
  inv : Inv u
  cfg : u.cfg = s.cfg
  ops : u.ops = s.ops
  outside : OnlyDstWritten s u s.ops.dstLen
  reading : s.ops.op ≠ 1 → s.ops.op ≠ 3 → s.ops.op ≠ 4 → OnlyReads s u

theorem onTheWay_launch {s : State} (hs : Sane s) (moves : List HostMove) :
    OnTheWay s { s with host := moves, activity := .issued } where
  inv := inv_of_issued { hs with } rfl
  cfg := rfl
  ops := rfl
  outside := onlyDstWritten_of_mem rfl _
  reading _ _ _ := ⟨rfl, .inr (.inl rfl)⟩

/-! ## One step on the way -/

theorem onlyReads_enterCommand {s u : State} (h1 : s.ops.op ≠ 1) (h3 : s.ops.op ≠ 3) (h4 : s.ops.op ≠ 4)
    (h : enterCommand s = .next u) : OnlyReads s u := by
  unfold enterCommand decodeCommand at h
  split_ifs at h with _ hop1 _ hop3 hop4
  · exact onlyReads_enter (.inr rfl) h
  · exact absurd hop1 h1
  · exact onlyReads_enter (.inl rfl) h
  · exact absurd hop3 h3
  · exact absurd hop4 h4
  · cases h; exact ⟨rfl, .inl rfl⟩

/-- A step inside a command that writes nothing changes no byte of memory. -/
theorem onlyReads_step_busy {s u v : State} (h : Inv u) (hread : OnlyReads s u) (ha : u.activity ≠ .idle)
    (hr : u.host.head? ≠ some .reset) (h1 : u.ops.op ≠ 1) (h3 : u.ops.op ≠ 3) (h4 : u.ops.op ≠ 4) (hv : step u = .next v) :
    OnlyReads s v := by
  by_cases hi : u.activity = .issued
  · rw [step_issued hi hr] at hv
    obtain ⟨hm, hact⟩ := onlyReads_enterCommand (by rwa [useWait_ops]) (by rwa [useWait_ops]) (by rwa [useWait_ops]) hv
    exact ⟨hm.trans ((useWait_mem u).trans hread.1), hact⟩
  · rw [step_microStep h ha hi hr] at hv
    cases hv
    exact onlyReads_microStep (by unfold OnlyReads; rw [useWait_mem, useWait_activity]; exact hread)

theorem viewsOverlap_congr {s u : State} (h : u.ops = s.ops) : viewsOverlap u = viewsOverlap s := by
  unfold viewsOverlap
  rw [h]

/-- A command that is not refused goes on its way by every step that the host lets pass, or stays ended. -/
theorem step_onTheWay {s u : State} {moves : List HostMove} (h : OnTheWay s u) (hh : u.host = .wait :: moves)
    (hv : s.ops.op = 3 ∨ s.ops.op = 4 → viewsOverlap s = false) :
    ∃ v, step u = .next v ∧ v.host = moves ∧ OnTheWay s v := by
  by_cases ha : u.activity = .idle
  · exact ⟨_, step_wait ha hh, rfl, inv_host h.inv rfl, h.cfg, h.ops, h.outside, h.reading⟩
  · have hr : u.host.head? ≠ some .reset := by simp [hh]
    rcases step_busy_cases h.inv ha hr with ⟨v, hstep⟩ | ⟨-, hop, hov, -⟩
    · have hst := stays_step_busy h.inv ha hr hstep
      refine ⟨v, hstep, by rw [hst.host, useWait_host_of_wait hh], inv_step_busy h.inv ha hr hstep, ?_, ?_, fun a hout => ?_,
        fun h1 h3 h4 => ?_⟩
      · rw [hst.cfg, useWait_cfg, h.cfg]
      · rw [hst.ops, useWait_ops, h.ops]
      · rw [hst.outside a (by rwa [useWait_ops, h.ops]), useWait_mem]
        exact h.outside a hout
      · refine onlyReads_step_busy h.inv (h.reading h1 h3 h4) ha hr ?_ ?_ ?_ hstep
        · rwa [h.ops]
        · rwa [h.ops]
        · rwa [h.ops]
    · rw [viewsOverlap_congr h.ops] at hov
      rw [h.ops] at hop
      rw [hv hop] at hov
      cases hov

/-- After any number of steps the reset comes, wherever it finds the command. -/
theorem stepsTo_reset_onTheWay {s : State} {rest : List HostMove} (hv : s.ops.op = 3 ∨ s.ops.op = 4 → viewsOverlap s = false) :
    ∀ {k : Nat} {u : State}, OnTheWay s u → u.host = List.replicate k .wait ++ .reset :: rest →
      ∃ v, OnTheWay s v ∧ StepsTo (k + 1) u (resetCore { v with host := rest })
  | 0, u, h, hh => ⟨u, h, _, step_reset hh, rfl⟩
  | k + 1, u, h, hh => by
    obtain ⟨v, hstep, hvh, hon⟩ := step_onTheWay h (hh.trans rfl) hv
    obtain ⟨w, hw, hsteps⟩ := stepsTo_reset_onTheWay hv hon hvh
    exact ⟨w, hw, v, hstep, hsteps⟩

/-! ## What the reset leaves -/

/-- What a reset opens lies in the destination view (R276, R310). -/
theorem writeLimit_le_dstLen {s : State} (h : Inv s) : writeLimit s ≤ s.ops.dstLen := by
  unfold writeLimit
  split
  · exact Nat.zero_le _
  · exact Nat.zero_le _
  · rename_i ha; exact (h.putBytes ha).room
  · exact Nat.zero_le _
  · rename_i ha; exact (h.elements ha).declared
  · exact Nat.le_refl _
  · exact Nat.le_refl _

theorem writeLimit_of_onlyReads {s u : State} (h : OnlyReads s u) : writeLimit u = 0 := by
  rcases h.2 with ha | ha | ha <;> simp only [writeLimit, ha]

theorem onlyDstWritten_reset_onTheWay {s v : State} (h : OnTheWay s v) (rest : List HostMove) :
    OnlyDstWritten s (resetCore { v with host := rest }) s.ops.dstLen := fun a ha => by
  have hlim := writeLimit_le_dstLen h.inv
  rw [h.ops] at hlim
  rw [onlyDstWritten_reset v rest a (by rw [h.ops]; omega)]
  exact h.outside a ha

/-- Settles O11: the command stays on its way until the reset, which opens the destination view at most. -/
theorem resetAbandonsACommand : Obligations.ResetAbandonsACommand := by
  intro s k rest hs ha hh hv
  obtain ⟨v, hon, hsteps⟩ := stepsTo_reset_onTheWay hv (onTheWay_launch hs (List.replicate k .wait ++ .reset :: rest)) rfl
  refine ⟨_, ⟨_, step_launch ha hh, hsteps⟩, rfl, rfl, hon.cfg, inv_reset_move hon.inv rest, readReg_response_zero rfl,
    onlyDstWritten_reset_onTheWay hon rest, fun h1 h3 h4 => ?_⟩
  have hread := hon.reading h1 h3 h4
  rw [resetCore_mem_of_limit_zero rest (writeLimit_of_onlyReads hread)]
  exact hread.1

end Sys2Proof.Machine
end

section
/-! DECODE is offset independent (R54, R64): two decodings of the same bytes in views at different places go on in step, with the same
working registers, until both end with the same response. -/

namespace Sys2Proof.Machine

/-! ## The same bytes at another place -/

/-- What a write needs to be seen by the destination view and not by the source view: canonical memory and disjoint views (R57). -/
structure Placed (s : State) : Prop where
  wf : s.mem.wf = true
  apart : viewsOverlap s = false

/-- `u` and `u'` are inside the same DECODE with their views at different places: the views hold the same bytes and the registers
that DECODE reads are the same; its stream and its output stay in the views. -/
structure Moved (u u' : State) : Prop where
  here : Placed u
  there : Placed u'
  srcLen : u'.ops.srcLen = u.ops.srcLen
  dstLen : u'.ops.dstLen = u.ops.dstLen
  source : ∀ j, j < u.ops.srcLen → src u' j = src u j
  output : ∀ j, j < u.ops.dstLen → dst u' j = dst u j
  activity : u'.activity = u.activity
  dec : u'.dec = u.dec
  vu : u'.vu = u.vu
  stream : u.dec.L ≤ u.ops.srcLen
  decoding : u.activity = .varint .decode ∨ (u.activity = .elements ∧ u.dec.dLen ≤ u.ops.dstLen)

/-- Both have ended with the same response, and after a success with the same output. -/
structure SameAnswer (t t' : State) : Prop where
  ended : t.activity = .idle
  ended' : t'.activity = .idle
  resp : t.resp = t'.resp
  output : t.resp.status = 0 → ∀ j, j < t.resp.count → dst t j = dst t' j

/-- One micro-step further the two are still in step, or have ended alike. -/
def InStep (u u' : State) : Prop := Moved u u' ∨ SameAnswer u u'

theorem inStep_ite {c : Prop} [Decidable c] {a b a' b' : State} (ha : c → InStep a a') (hb : ¬c → InStep b b') :
    InStep (if c then a else b) (if c then a' else b') := by
  split
  · exact ha ‹_›
  · exact hb ‹_›

theorem inStep_fail {c : Cause} {eS eD eS' eD' lim lim' : Nat} (hS : eS = eS') (hD : eD = eD') (s s' : State) :
    InStep (fail c eS eD lim s) (fail c eS' eD' lim' s') := by
  subst hS hD
  exact .inr ⟨rfl, rfl, rfl, fun h => absurd h c.status_ne_zero⟩

section
variable {u u' : State} (h : Moved u u')
include h

theorem inStep_failElement (c : Cause) : InStep (failElement c u) (failElement c u') :=
  inStep_fail (by rw [h.dec]) (by rw [h.dec]) u u'

/-- A change of the decoder's registers that leaves the stream's end and the declared length. -/
theorem moved_modDec {f g : DecRegs → DecRegs} (hfg : g u.dec = f u.dec) (hL : (f u.dec).L = u.dec.L)
    (hdLen : (f u.dec).dLen = u.dec.dLen) : Moved (u.modDec f) (u'.modDec g) :=
  { h with
    here := ⟨h.here.wf, h.here.apart⟩
    there := ⟨h.there.wf, h.there.apart⟩
    dec := by simp only [modDec_dec, h.dec, hfg]
    stream := by simp only [modDec_dec, modDec_ops, hL]; exact h.stream
    decoding := by simp only [modDec_dec, modDec_ops, modDec_activity, hdLen]; exact h.decoding }

theorem moved_modVu (f : VarRegs → VarRegs) : Moved (u.modVu f) (u'.modVu f) :=
  { h with
    here := ⟨h.here.wf, h.here.apart⟩
    there := ⟨h.there.wf, h.there.apart⟩
    vu := by simp only [modVu_vu, h.vu] }

end

theorem placed_dstW {s : State} (h : Placed s) (i : Nat) (b : Byte) : Placed (dstW s i b) := ⟨writeByte_wf h.wf, h.apart⟩

theorem src_dstW_of_placed {s : State} (h : Placed s) {i j : Nat} (b : Byte) (hi : i < s.ops.dstLen) (hj : j < s.ops.srcLen) :
    src (dstW s i b) j = src s j := src_dstW (views_apart h.apart hj hi)

theorem dst_dstW_of_placed {s : State} (h : Placed s) (i j : Nat) (b : Byte) :
    dst (dstW s i b) j = if j = i then b else dst s j := by
  split
  · rename_i hj; rw [hj, dst_dstW_eq h.wf]
  · exact dst_dstW_ne ‹_›

/-- The same byte written at the same index of the destination views. -/
theorem moved_dstW {u u' : State} (h : Moved u u') {i : Nat} (b : Byte) (hi : i < u.ops.dstLen) :
    Moved (dstW u i b) (dstW u' i b) :=
  { h with
    here := placed_dstW h.here i b
    there := placed_dstW h.there i b
    source := fun j hj => by
      rw [src_dstW_of_placed h.there b (by rw [h.dstLen]; exact hi) (by rw [h.srcLen]; exact hj), src_dstW_of_placed h.here b hi hj]
      exact h.source j hj
    output := fun j hj => by rw [dst_dstW_of_placed h.there, dst_dstW_of_placed h.here, h.output j hj] }

/-! ## The byte moves -/

theorem moved_replayLiteral : ∀ {len sp dp : Nat} {u u' : State}, Moved u u' → sp + len ≤ u.ops.srcLen →
    dp + len ≤ u.ops.dstLen → Moved (replayLiteral len sp dp u) (replayLiteral len sp dp u')
  | 0, _, _, _, _, h, _, _ => h
  | len + 1, sp, dp, u, u', h, hs, hd => by
    unfold replayLiteral
    rw [h.source sp (by omega)]
    exact moved_replayLiteral (moved_dstW h _ (by omega)) (by rw [dstW_ops]; omega) (by rw [dstW_ops]; omega)

theorem moved_copyByte {u u' : State} (h : Moved u u') (hd : u.dec.d < u.ops.dstLen) : Moved (copyByte u) (copyByte u') := by
  unfold copyByte
  rw [h.dec, h.output _ (by omega)]
  exact moved_modDec (moved_dstW h _ hd) rfl rfl rfl

theorem moved_copyReplay : ∀ {len : Nat} {u u' : State}, Moved u u' → u.dec.d + len ≤ u.ops.dstLen →
    Moved (copyReplay len u) (copyReplay len u')
  | 0, _, _, h, _ => h
  | len + 1, u, u', h, hd => by
    have hd' : (copyByte u).dec.d + len ≤ u.ops.dstLen := by rw [copyByte_d]; omega
    exact moved_copyReplay (len := len) (moved_copyByte h (by omega)) hd'

/-! ## An element -/

section
variable {u u' : State} (h : Moved u u') (hd : u.dec.dLen ≤ u.ops.dstLen)
include h hd

theorem inStep_literalChecked (hpos : 0 < u.dec.len) : InStep (literalChecked u) (literalChecked u') := by
  unfold literalChecked
  rw [h.dec]
  refine inStep_ite (fun _ => inStep_failElement h _) fun _ => inStep_ite (fun _ => inStep_failElement h _) fun hroom =>
    inStep_ite (fun _ => inStep_failElement h _) fun hsrc => ?_
  have hL := h.stream
  exact .inl (moved_modDec (moved_replayLiteral h (by omega) (by omega)) rfl rfl rfl)

theorem inStep_literalElement : InStep (literalElement u) (literalElement u') :=
  inStep_literalChecked (moved_modDec h rfl rfl rfl) hd (Nat.succ_pos _)

theorem inStep_literalForm (header : Nat) (x : BitVec 32) : InStep (literalForm header x u) (literalForm header x u') := by
  unfold literalForm
  rw [h.dec]
  exact inStep_ite (fun _ => inStep_failElement h _) fun _ => inStep_literalElement (moved_modDec h rfl rfl rfl) hd

theorem inStep_copyElement : InStep (copyElement u) (copyElement u') := by
  unfold copyElement
  rw [h.dec]
  exact inStep_ite (fun _ => inStep_failElement h _) fun _ => inStep_ite (fun _ => inStep_failElement h _) fun hroom =>
    .inl (moved_copyReplay h (by omega))

theorem inStep_element {i : Instr} (hi : i.space = .element) : InStep (runItem i u) (runItem i u') := by
  cases i with
  | lit0 n => exact inStep_literalElement (moved_modDec h rfl rfl rfl) hd
  | lit1 n => exact inStep_literalForm h hd _ _
  | lit2 n => exact inStep_literalForm h hd _ _
  | lit3 n => exact inStep_literalForm h hd _ _
  | lit4 n => exact inStep_literalForm h hd _ _
  | copy1 l o =>
    simp only [runItem, copy1Item, h.dec]
    exact inStep_ite (fun _ => inStep_failElement h _) fun _ => inStep_copyElement (moved_modDec h rfl rfl rfl) hd
  | copy2 l o =>
    simp only [runItem, copy2Item, h.dec]
    exact inStep_ite (fun _ => inStep_failElement h _) fun _ => inStep_copyElement (moved_modDec h rfl rfl rfl) hd
  | copy4 n => exact inStep_failElement h _
  | _ => cases hi

theorem inStep_decodeFinal : InStep (decodeFinal u) (decodeFinal u') := by
  unfold decodeFinal
  rw [h.dec]
  refine inStep_ite (fun _ => inStep_fail h.srcLen.symm rfl _ _) fun hlen => .inr ⟨rfl, rfl, rfl, fun _ j hj => ?_⟩
  exact (h.output j (by
    have hj' : j < u.dec.d := hj
    omega)).symm

end

/-! ## A micro-step -/

section
variable {u u' : State} (h : Moved u u')
include h

theorem headerByte_moved (j : Nat) : headerByte u' j = headerByte u j := by
  have hL := h.stream
  unfold headerByte
  rw [h.dec]
  split
  · exact h.source _ (by omega)
  · rfl

theorem elementHeader_moved : elementHeader u' = elementHeader u := by
  simp only [elementHeader, headerByte_moved h]

theorem moved_fetchElement (hs : u.dec.s < u.dec.L) : Moved (fetchElement u) (fetchElement u') := by
  have hL := h.stream
  refine moved_modDec h ?_ rfl rfl
  rw [h.source _ (by omega)]

theorem inStep_microStep_elements (ha : u.activity = .elements) (hd : u.dec.dLen ≤ u.ops.dstLen) :
    InStep (microStep u) (microStep u') := by
  have ha' := h.activity.trans ha
  by_cases hs : u.dec.s < u.dec.L
  · obtain ⟨i, rest, hi, hsp⟩ := decode_elementHeader u
    rw [microStep_element ha hs hi,
      microStep_element ha' (by rw [h.dec]; exact hs) (by rw [elementHeader_moved h]; exact hi)]
    exact inStep_element (moved_fetchElement h hs) hd hsp
  · rw [microStep_lastElement ha hs, microStep_lastElement ha' (by rw [h.dec]; exact hs)]
    exact inStep_decodeFinal h hd

/-- With the declared length read (R212, R213) both fail, or both stand at their first element. -/
theorem inStep_decodePrefix (v : Value) (k : Nat) : InStep (decodePrefix v k u) (decodePrefix v k u') := by
  unfold decodePrefix
  rw [h.dstLen]
  refine inStep_ite (fun _ => inStep_fail rfl rfl _ _) fun hle => .inl ?_
  exact { h with
    here := ⟨h.here.wf, h.here.apart⟩
    there := ⟨h.there.wf, h.there.apart⟩
    activity := rfl
    dec := by simp only [modDec_dec]; exact congrArg (fun r : DecRegs => { r with dLen := v.toNat, s := k, d := 0 }) h.dec
    decoding := .inr ⟨rfl, Nat.not_lt.1 hle⟩ }

theorem inStep_varintLastItem (ha : u.activity = .varint .decode) (g : BitVec 7) :
    InStep (varintLastItem g u) (varintLastItem g u') := by
  have hl : Moved (lastGroup g u) (lastGroup g u') := moved_modVu h _
  have hact : (lastGroup g u).activity = .varint .decode := ha
  rw [varintLastItem_eq, varintLastItem_eq, h.vu, hl.vu]
  unfold varintDone
  rw [hl.activity, hact]
  exact inStep_ite (fun _ => inStep_fail rfl rfl _ _) fun _ => inStep_decodePrefix hl _ _

theorem inStep_varintLoopExit (ha : u.activity = .varint .decode) : InStep (varintLoopExit u) (varintLoopExit u') := by
  unfold varintLoopExit varintIncomplete
  rw [h.vu, h.srcLen, h.activity, ha]
  exact inStep_ite (fun _ => inStep_fail rfl rfl _ _) fun _ => inStep_fail rfl rfl _ _

theorem inStep_microStep_varint (ha : u.activity = .varint .decode) : InStep (microStep u) (microStep u') := by
  rw [microStep_varint ha, microStep_varint (h.activity.trans ha), h.vu, h.srcLen]
  refine inStep_ite (fun hin => ?_) fun _ => inStep_varintLoopExit h ha
  rw [h.source _ hin.1]
  unfold decodeVarintByte
  split
  · exact .inl (show Moved (varintContItem _ u) (varintContItem _ u') from moved_modVu h _)
  · exact inStep_varintLastItem h ha _

theorem inStep_microStep : InStep (microStep u) (microStep u') := by
  rcases h.decoding with ha | ⟨ha, hd⟩
  · exact inStep_microStep_varint h ha
  · exact inStep_microStep_elements h ha hd

theorem Moved.not_ended : ¬ended u = true ∧ ¬ended u' = true := by
  have hne : u.activity ≠ .idle := by
    rcases h.decoding with ha | ⟨ha, -⟩ <;> rw [ha] <;> exact nofun
  exact ⟨fun he => hne (ended_iff.1 he), fun he => hne (h.activity.symm.trans (ended_iff.1 he))⟩

end

/-! ## To the end -/

/-- Two decodings in step end alike. -/
theorem inStep_runToIdle : ∀ {n : Nat} {u u' t t' : State}, InStep u u' → runToIdle n u = .next t →
    runToIdle n u' = .next t' → SameAnswer t t'
  | n, u, u', t, t', .inr h, ht, ht' => by
    rw [runToIdle_idle h.ended] at ht
    rw [runToIdle_idle h.ended'] at ht'
    cases ht
    cases ht'
    exact h
  | 0, u, u', t, t', .inl h, ht, _ => by
    rw [runToIdle, if_neg h.not_ended.1] at ht
    cases ht
  | n + 1, u, u', t, t', .inl h, ht, ht' => by
    rw [runToIdle, if_neg h.not_ended.1] at ht
    rw [runToIdle, if_neg h.not_ended.2] at ht'
    exact inStep_runToIdle (inStep_microStep h) ht ht'

/-- DECODE over good views runs from its start, and, since no register carries over, as well from cleared registers. -/
theorem exec_decode_of_viewsGood {s : State} (h : ViewsGood s) :
    exec .decode s = runToIdle (s.ops.srcLen + 2) (startDecode (between State.reset s)) := by
  have hb : ViewsGood (between State.reset s) := ⟨h.srcExists, h.dstExists, h.disjoint⟩
  calc exec .decode s = exec .decode (between State.reset s) :=
        (nothingCarriesOver s (between State.reset s) .decode rfl rfl rfl rfl rfl rfl).symm
    _ = finish (s.ops.srcLen + 2) (enter .decode (between State.reset s)) := rfl
    _ = finish (s.ops.srcLen + 2) (.next (startDecode (between State.reset s))) := by rw [enter_decode_start hb]

theorem moved_start {s s' : State} (hm : s.mem.wf = true) (hm' : s'.mem.wf = true) (hv : ViewsGood s) (hv' : ViewsGood s')
    (hsrc : SameSource s s') (hlen : s.ops.dstLen = s'.ops.dstLen) (hdst : ∀ j, j < s.ops.dstLen → dst s j = dst s' j) :
    Moved (startDecode (between State.reset s)) (startDecode (between State.reset s')) where
  here := ⟨hm, hv.disjoint⟩
  there := ⟨hm', hv'.disjoint⟩
  srcLen := hsrc.1.symm
  dstLen := hlen.symm
  source j hj := (hsrc.2 j hj).symm
  output j hj := (hdst j hj).symm
  activity := rfl
  dec := congrArg (fun n => { State.reset.dec with L := n }) hsrc.1.symm
  vu := rfl
  stream := Nat.le_refl _
  decoding := .inl rfl

/-- Settles O58: the two decodings start in step, every micro-step keeps them so, and they end with the same answer. -/
theorem decodeIsOffsetIndependent : Obligations.DecodeIsOffsetIndependent := by
  intro s s' t t' hs hs' hv hv' hsrc hlen hdst ht ht'
  rw [exec_decode_of_viewsGood hv] at ht
  rw [exec_decode_of_viewsGood hv', ← hsrc.1] at ht'
  have hend : SameAnswer t t' := inStep_runToIdle (.inl (moved_start hs.mem hs'.mem hv hv' hsrc hlen hdst)) ht ht'
  exact ⟨hend.resp, hend.output⟩

end Sys2Proof.Machine
end

section
/-! Single instructions as bytes (R81 to R93, R99, R100): decoder and encoder undo each other, the tag byte gives the size of an
element's header, the operands are assembled from the bytes behind it, and OP selects the command that an issue runs. -/

namespace Sys2Proof.Machine

/-! ## Decoding an encoding -/

theorem decode_element (bytes : List Byte) : decode .element bytes = decodeElement bytes := by
  cases bytes with
  | nil => rfl
  | cons b rest => rfl

/-- The decoder of a varint byte undoes Format V (R81). -/
theorem decode_varint_encode {i : Instr} (hs : i.space = .varint) (rest : List Byte) :
    decode .varint (encode i ++ rest) = .ok i rest := by
  cases i with
  | varintCont g =>
    have hgroup : (1#1 ++ g : Byte).extractLsb' 0 7 = g := BitVec.extractLsb'_append_eq_right
    have hbit : 128 ≤ (1#1 ++ g : Byte).toNat := by rw [toNat_fields]; exact Nat.le_add_right 128 _
    exact congrArg (Decoded.ok · rest) ((decodeVarintByte_cont hbit).trans (congrArg Instr.varintCont hgroup))
  | varintLast g =>
    have hgroup : (0#1 ++ g : Byte).extractLsb' 0 7 = g := BitVec.extractLsb'_append_eq_right
    have hbit : (0#1 ++ g : Byte).toNat < 128 := by rw [toNat_fields]; simpa using g.isLt
    exact congrArg (Decoded.ok · rest) ((decodeVarintByte_last hbit).trans (congrArg Instr.varintLast hgroup))
  | _ => cases hs

theorem decode_command_encode {i : Instr} (hs : i.space = .command) (rest : List Byte) :
    decode .command (encode i ++ rest) = .ok i rest := by
  cases i with
  | maxEncodedLen => rfl
  | putUvarint => rfl
  | uvarint => rfl
  | encode => rfl
  | decode => rfl
  | _ => cases hs

/-- Settles O1: in each of the three places the decoder undoes the encoder. -/
theorem decodeOfEncode : Obligations.DecodeOfEncode := by
  intro i rest hw
  cases hs : i.space with
  | command => exact decode_command_encode hs rest
  | varint => exact decode_varint_encode hs rest
  | element => rw [decode_element, decodeElement_encode hs hw]

/-! ## What decodes is an encoding -/

/-- A byte is its upper field and its lower field. -/
theorem byte_fields (b : Byte) : b.extractLsb' 2 6 ++ b.extractLsb' 0 2 = b :=
  (fields_join b rfl).trans BitVec.extractLsb'_eq_self

theorem upper_field (tag : Byte) : (tag.extractLsb' 2 6).toNat = tag.toNat / 4 := by
  have := tag.isLt
  rw [toNat_field]
  omega

/-- The bytes are the encoding of this well-formed instruction of this place, and what follows it. -/
def Encodes (sp : Space) (bytes : List Byte) (i : Instr) (rest : List Byte) : Prop :=
  bytes = encode i ++ rest ∧ i.wf = true ∧ i.space = sp

theorem encodes_varintByte (b : Byte) (rest : List Byte) : Encodes .varint (b :: rest) (decodeVarintByte b) rest := by
  have hgroup := extract_group b
  by_cases h : 128 ≤ b.toNat
  · rw [decodeVarintByte_cont h]
    have hb : b = 1#1 ++ b.extractLsb' 0 7 := byte_eq (by rw [toNat_fields, hgroup, BitVec.toNat_ofNat]; omega)
    exact ⟨congrArg (· :: rest) hb, rfl, rfl⟩
  · rw [decodeVarintByte_last (Nat.not_le.1 h)]
    have hb : b = 0#1 ++ b.extractLsb' 0 7 := byte_eq (by rw [toNat_fields, hgroup, BitVec.toNat_ofNat]; omega)
    exact ⟨congrArg (· :: rest) hb, rfl, rfl⟩

theorem encode_of_decodeCommand {op : BitVec 3} {i : Instr} (h : decodeCommand op = some i) :
    encode i = [op.setWidth 8] ∧ i.wf = true ∧ i.space = .command := by
  unfold decodeCommand at h
  split_ifs at h with h0 h1 h2 h3 h4 <;> cases h
  · rw [h0]; exact ⟨rfl, rfl, rfl⟩
  · rw [h1]; exact ⟨rfl, rfl, rfl⟩
  · rw [h2]; exact ⟨rfl, rfl, rfl⟩
  · rw [h3]; exact ⟨rfl, rfl, rfl⟩
  · rw [h4]; exact ⟨rfl, rfl, rfl⟩

theorem encodes_command {b : Byte} {i : Instr} (hb : b.toNat < 8) (h : decodeCommand (b.extractLsb' 0 3) = some i)
    (rest : List Byte) : Encodes .command (b :: rest) i rest := by
  have hlow : b = (b.extractLsb' 0 3).setWidth 8 :=
    byte_eq (by rw [BitVec.toNat_setWidth_of_le (by omega), toNat_field]; omega)
  obtain ⟨he, hw, hs⟩ := encode_of_decodeCommand h
  exact ⟨by rw [he, ← hlow]; rfl, hw, hs⟩

/-- The byte of a word above its lowest one is a byte of the rest. -/
theorem extract_above {m : Nat} (x : BitVec m) (b : Byte) (lo : Nat) :
    (x ++ b).extractLsb' (lo + 8) 8 = x.extractLsb' lo 8 := BitVec.extractLsb'_append_eq_of_le (Nat.le_add_left 8 lo)

theorem encode_lit2 (b1 b2 : Byte) : encode (.lit2 (b2 ++ b1)) = [0xF4#8, b1, b2] := by
  rw [encode, BitVec.extractLsb'_append_eq_right, extract_above b2 b1 0, BitVec.extractLsb'_eq_self]

theorem encode_lit3 (b1 b2 b3 : Byte) : encode (.lit3 (b3 ++ b2 ++ b1)) = [0xF8#8, b1, b2, b3] := by
  rw [encode, BitVec.extractLsb'_append_eq_right, extract_above _ b1 0, extract_above _ b1 8, BitVec.extractLsb'_append_eq_right,
    extract_above b3 b2 0, BitVec.extractLsb'_eq_self]

theorem encode_lit4 (b1 b2 b3 b4 : Byte) : encode (.lit4 (b4 ++ b3 ++ b2 ++ b1)) = [0xFC#8, b1, b2, b3, b4] := by
  rw [encode, BitVec.extractLsb'_append_eq_right, extract_above _ b1 0, extract_above _ b1 8, extract_above _ b1 16,
    BitVec.extractLsb'_append_eq_right, extract_above _ b2 0, extract_above _ b2 8, BitVec.extractLsb'_append_eq_right,
    extract_above b4 b3 0, BitVec.extractLsb'_eq_self]

theorem encode_copy1 {tag : Byte} (b1 : Byte) (hk : tag.extractLsb' 0 2 = 1#2) :
    encode (.copy1 (tag.extractLsb' 2 3) (tag.extractLsb' 5 3 ++ b1)) = [tag, b1] := by
  have htag : tag.extractLsb' 5 3 ++ tag.extractLsb' 2 3 ++ 1#2 = tag := by
    rw [fields_join tag (show 5 = 2 + 3 from rfl), ← hk]
    exact byte_fields tag
  rw [encode, BitVec.extractLsb'_append_eq_left, BitVec.extractLsb'_append_eq_right, htag]

theorem encode_copy2 {tag : Byte} (b1 b2 : Byte) (hk : tag.extractLsb' 0 2 = 2#2) :
    encode (.copy2 (tag.extractLsb' 2 6) (b2 ++ b1)) = [tag, b1, b2] := by
  rw [encode, ← hk, byte_fields, BitVec.extractLsb'_append_eq_right, extract_above b2 b1 0, BitVec.extractLsb'_eq_self]

/-- The tag byte of a literal from its upper field (R83 to R87). -/
theorem literal_tag {tag : Byte} (hk : tag.extractLsb' 0 2 = 0#2) : tag.toNat = 4 * (tag.extractLsb' 2 6).toNat := by
  have hlow : (tag.extractLsb' 0 2).toNat = 0 := by rw [hk]; rfl
  rw [toNat_field] at hlow
  rw [upper_field]
  omega

theorem encodes_literal {tag : Byte} {rest left : List Byte} {i : Instr} (hk : tag.extractLsb' 0 2 = 0#2)
    (h : decodeLiteral (tag.extractLsb' 2 6) rest = .ok i left) : Encodes .element (tag :: rest) i left := by
  have htag := literal_tag hk
  have hu := (tag.extractLsb' 2 6).isLt
  unfold decodeLiteral at h
  split_ifs at h with h0 h1 h2 h3
  · cases h
    exact ⟨by rw [encode, ← hk, byte_fields]; rfl, decide_eq_true (by omega), rfl⟩
  · obtain rfl : tag = 0xF0#8 := byte_eq (by rw [htag, h1]; rfl)
    match rest, h with
    | b1 :: r, rfl => exact ⟨rfl, rfl, rfl⟩
  · obtain rfl : tag = 0xF4#8 := byte_eq (by rw [htag, h2]; rfl)
    match rest, h with
    | b1 :: b2 :: r, rfl => exact ⟨by rw [encode_lit2]; rfl, rfl, rfl⟩
  · obtain rfl : tag = 0xF8#8 := byte_eq (by rw [htag, h3]; rfl)
    match rest, h with
    | b1 :: b2 :: b3 :: r, rfl => exact ⟨by rw [encode_lit3]; rfl, rfl, rfl⟩
  · obtain rfl : tag = 0xFC#8 := byte_eq (by rw [htag, show (tag.extractLsb' 2 6).toNat = 63 by omega]; rfl)
    match rest, h with
    | b1 :: b2 :: b3 :: b4 :: r, rfl => exact ⟨by rw [encode_lit4]; rfl, rfl, rfl⟩

theorem encodes_element {bytes left : List Byte} {i : Instr} (h : decodeElement bytes = .ok i left) :
    Encodes .element bytes i left := by
  match bytes, h with
  | tag :: rest, h =>
    simp only [decodeElement] at h
    split_ifs at h with h0 h1 h2
    · exact encodes_literal h0 h
    · match rest, h with
      | b1 :: r, rfl => exact ⟨by rw [encode_copy1 b1 h1]; rfl, rfl, rfl⟩
    · match rest, h with
      | b1 :: b2 :: r, rfl => exact ⟨by rw [encode_copy2 b1 b2 h2]; rfl, rfl, rfl⟩
    · cases h
      have h3 : tag.extractLsb' 0 2 = 3#2 := by
        generalize tag.extractLsb' 0 2 = k at h0 h1 h2
        revert k
        decide
      exact ⟨by rw [encode, ← h3, byte_fields]; rfl, rfl, rfl⟩

/-- Settles O2: in each place the fields the decoder takes make up the bytes it has read. -/
theorem encodeOfDecode : Obligations.EncodeOfDecode := by
  intro sp bytes rest i h
  match sp, bytes, h with
  | .varint, b :: r, rfl => exact encodes_varintByte b r
  | .command, b :: r, h =>
    simp only [decode] at h
    split_ifs at h with hb
    split at h
    · cases h
      exact encodes_command hb ‹_› _
    · cases h
  | .element, b :: r, h => exact encodes_element h

/-! ## The size of a header -/

theorem kind_of_mod {tag : Byte} (k : BitVec 2) (h : tag.toNat % 4 = k.toNat) : tag.extractLsb' 0 2 = k :=
  BitVec.eq_of_toNat_eq (by rw [toNat_field, ← h, Nat.pow_zero, Nat.div_one]; rfl)

section
variable {tag : Byte} (rest : List Byte)

theorem decode_kind0 (h : tag.toNat % 4 = 0) :
    decode .element (tag :: rest) = decodeLiteral (tag.extractLsb' 2 6) rest := by
  simp only [decode, decodeElement, kind_of_mod 0#2 h, if_true]

theorem decode_kind1 (h : tag.toNat % 4 = 1) : decode .element (tag :: rest) = decodeCopy1 tag rest := by
  simp only [decode, decodeElement, kind_of_mod 1#2 h]
  rfl

theorem decode_kind2 (h : tag.toNat % 4 = 2) : decode .element (tag :: rest) = decodeCopy2 tag rest := by
  simp only [decode, decodeElement, kind_of_mod 2#2 h]
  rfl

theorem decode_kind3 (h : tag.toNat % 4 = 3) :
    decode .element (tag :: rest) = .ok (.copy4 (tag.extractLsb' 2 6)) rest := by
  simp only [decode, decodeElement, kind_of_mod 3#2 h]
  rfl

end

/-- What follows a tag byte is decoded to an element with a header of `size` bytes, or rejected where it is too short (R91). -/
def HasHeader (size : Nat) (after : List Byte → Decoded) : Prop :=
  ∀ rest : List Byte, (rest.length + 1 < size → after rest = .rejected .truncatedHeader) ∧
    (size ≤ rest.length + 1 →
      ∃ i, after rest = .ok i (rest.drop (size - 1)) ∧ headerBytes i = size ∧ i.space = .element)

theorem hasHeader_literal (u : BitVec 6) : HasHeader
    (if u.toNat < 60 then 1 else if u.toNat = 60 then 2 else if u.toNat = 61 then 3 else if u.toNat = 62 then 4 else 5)
    (decodeLiteral u) := by
  intro rest
  unfold decodeLiteral
  split_ifs
  · exact ⟨fun h => absurd h (by omega), fun _ => ⟨_, rfl, rfl, rfl⟩⟩
  · match rest with
    | b1 :: r => exact ⟨fun h => absurd h (by simp), fun _ => ⟨_, rfl, rfl, rfl⟩⟩
    | [] => exact ⟨fun _ => rfl, fun h => absurd h (by simp)⟩
  · match rest with
    | b1 :: b2 :: r => exact ⟨fun h => absurd h (by simp), fun _ => ⟨_, rfl, rfl, rfl⟩⟩
    | [] | [_] => exact ⟨fun _ => rfl, fun h => absurd h (by simp)⟩
  · match rest with
    | b1 :: b2 :: b3 :: r => exact ⟨fun h => absurd h (by simp), fun _ => ⟨_, rfl, rfl, rfl⟩⟩
    | [] | [_] | [_, _] => exact ⟨fun _ => rfl, fun h => absurd h (by simp)⟩
  · match rest with
    | b1 :: b2 :: b3 :: b4 :: r => exact ⟨fun h => absurd h (by simp), fun _ => ⟨_, rfl, rfl, rfl⟩⟩
    | [] | [_] | [_, _] | [_, _, _] => exact ⟨fun _ => rfl, fun h => absurd h (by simp)⟩

theorem hasHeader_copy1 (tag : Byte) : HasHeader 2 (decodeCopy1 tag)
  | b1 :: r => ⟨fun h => absurd h (by simp), fun _ => ⟨_, rfl, rfl, rfl⟩⟩
  | [] => ⟨fun _ => rfl, fun h => absurd h (by simp)⟩

theorem hasHeader_copy2 (tag : Byte) : HasHeader 3 (decodeCopy2 tag)
  | b1 :: b2 :: r => ⟨fun h => absurd h (by simp), fun _ => ⟨_, rfl, rfl, rfl⟩⟩
  | [] | [_] => ⟨fun _ => rfl, fun h => absurd h (by simp)⟩

/-- Settles O3: each of the four kinds has its header size, the literals by the upper field of the tag byte. -/
theorem headerSizeByTag : Obligations.HeaderSizeByTag := by
  intro tag rest u size
  have hk := Nat.mod_lt tag.toNat (show 0 < 4 by decide)
  by_cases h0 : tag.toNat % 4 = 0
  · have hsize : size = _ := if_pos h0
    have hlit := hasHeader_literal (tag.extractLsb' 2 6) rest
    rw [upper_field] at hlit
    rw [hsize, decode_kind0 rest h0]
    exact hlit
  · by_cases h1 : tag.toNat % 4 = 1
    · have hsize : size = 2 := (if_neg h0).trans (if_pos h1)
      rw [hsize, decode_kind1 rest h1]
      exact hasHeader_copy1 tag rest
    · by_cases h2 : tag.toNat % 4 = 2
      · have hsize : size = 3 := (if_neg h0).trans ((if_neg h1).trans (if_pos h2))
        rw [hsize, decode_kind2 rest h2]
        exact hasHeader_copy2 tag rest
      · have hsize : size = 1 := (if_neg h0).trans ((if_neg h1).trans (if_neg h2))
        rw [hsize, decode_kind3 rest (by omega)]
        exact ⟨fun h => absurd h (by omega), fun _ => ⟨_, rfl, rfl, rfl⟩⟩

/-! ## The operands -/

theorem literalLen_setWidth {w : Nat} (hw : w ≤ 32) (n : BitVec w) : literalLen (n.setWidth 32) = n.toNat + 1 := by
  rw [literalLen, BitVec.toNat_setWidth_of_le hw]

/-- Settles O4: the elements' fields as numbers. -/
theorem operandAssembly : Obligations.OperandAssembly := by
  intro b0 b1 b2 b3 b4 rest
  refine ⟨fun h0 hu => ⟨b0.extractLsb' 2 6, ?_, upper_field b0, literalLen_setWidth (by omega) _⟩,
    ⟨b1, rfl, rfl, literalLen_setWidth (by omega) _⟩, ⟨b2 ++ b1, rfl, ?_, literalLen_setWidth (by omega) _⟩,
    ⟨b3 ++ b2 ++ b1, rfl, ?_, literalLen_setWidth (by omega) _⟩, ⟨b4 ++ b3 ++ b2 ++ b1, rfl, ?_, rfl⟩,
    fun h1 => ⟨b0.extractLsb' 2 3, b0.extractLsb' 5 3 ++ b1, ?_, ?_, ?_⟩,
    fun h2 => ⟨b0.extractLsb' 2 6, b2 ++ b1, ?_, ?_, ?_⟩⟩
  · exact (decode_kind0 rest h0).trans (if_pos (lt_of_eq_of_lt (upper_field b0) hu))
  · rw [toNat_fields]; omega
  · simp only [toNat_fields]; omega
  · simp only [toNat_fields]; omega
  · rw [decode_kind1 _ h1]; rfl
  · rw [copy1Len, toNat_field]; rfl
  · have := b0.isLt
    rw [toNat_fields, toNat_field]; omega
  · rw [decode_kind2 _ h2]; rfl
  · rw [copy2Len, upper_field]
  · rw [toNat_fields]; omega

/-- Settles O5: each word, decoded. -/
theorem sampleWordsDecode : Obligations.SampleWordsDecode := by
  unfold Obligations.SampleWordsDecode
  decide

/-! ## Issuing a command -/

theorem issueCommand_eq_exec {i : Instr} {s : State} (h : decodeCommand s.ops.op = some i) : issueCommand s = exec i s := by
  simp only [issueCommand, h]

theorem issueCommand_eq_badOpcode {s : State} (h : decodeCommand s.ops.op = none) : issueCommand s = .next (badOpcode s) := by
  simp only [issueCommand, h]

/-- 5, 6 and 7 select no command (R100). -/
theorem decodeCommand_none : ∀ {op : BitVec 3}, 5 ≤ op.toNat → decodeCommand op = none := by decide

/-- Settles O6: the step is the issue, and OP selects what is issued. -/
theorem issueRunsTheCommand : Obligations.IssueRunsTheCommand := by
  intro s rest ha hh s'
  have hsel : ∀ {i : Instr} (k : BitVec 3), decodeCommand k = some i → s.ops.op.toNat = k.toNat → step s = exec i s' := by
    intro i k hk hop
    rw [← BitVec.eq_of_toNat_eq hop] at hk
    exact (step_issue ha hh).trans (issueCommand_eq_exec hk)
  exact ⟨hsel 0 rfl, hsel 1 rfl, hsel 2 rfl, hsel 3 rfl, hsel 4 rfl, fun h5 =>
    ⟨_, (step_issue ha hh).trans (issueCommand_eq_badOpcode (decodeCommand_none h5)), failsClean_failClean .badOpcode s'⟩⟩

end Sys2Proof.Machine
end

section
/-! Runs of bytes in memory, and what the lines of a listing reproduce (R97, R98, R251, R253). -/

namespace Sys2Proof.Machine

/-! ## Runs of bytes -/

theorem readBytes_add : ∀ (n k : Nat) (m : Memory) (a : Nat),
    readBytes m a (n + k) = readBytes m a n ++ readBytes m (a + n) k
  | 0, k, m, a => by rw [Nat.zero_add]; rfl
  | n + 1, k, m, a => by
    rw [Nat.add_right_comm, show a + (n + 1) = a + 1 + n by omega]
    exact congrArg (readByte m a :: ·) (readBytes_add n k m (a + 1))

theorem readBytes_congr {m m' : Memory} {a a' n : Nat} (h : ∀ j, j < n → readByte m (a + j) = readByte m' (a' + j)) :
    readBytes m a n = readBytes m' a' n := by
  refine List.ext_getElem (by rw [readBytes_length, readBytes_length]) fun j h1 _ => ?_
  rw [readBytes_length] at h1
  rw [readBytes_getElem, readBytes_getElem, h j h1]

theorem readByte_of_readBytes {m : Memory} {a n j : Nat} {bs : List Byte} (h : readBytes m a n = bs) (hj : j < bs.length) :
    readByte m (a + j) = bs[j] := by
  subst h
  rw [readBytes_getElem]

theorem readBytes_writeBytes_same {m : Memory} (h : m.wf = true) (a : Nat) (bs : List Byte) :
    readBytes (writeBytes m a bs) a bs.length = bs := by
  refine List.ext_getElem (readBytes_length ..) fun j _ hj => ?_
  rw [readBytes_getElem, readByte_writeBytes h, dif_pos (by omega)]
  congr 1
  omega

/-- A run of bytes that is two lists in a row is each of them in its place. -/
theorem readBytes_split {m : Memory} {a : Nat} {xs ys : List Byte} (h : readBytes m a (xs ++ ys).length = xs ++ ys) :
    readBytes m a xs.length = xs ∧ readBytes m (a + xs.length) ys.length = ys := by
  rw [List.length_append, readBytes_add] at h
  exact List.append_inj h (readBytes_length ..)

/-! ## What a copy appends -/

theorem appendCopy_length (old : Nat → Byte) (off : Nat) : ∀ (n : Nat) (out : List Byte),
    (appendCopy old off n out).length = out.length + n
  | 0, _ => rfl
  | n + 1, out => by
    rw [appendCopy, appendCopy_length old off n, List.length_append, List.length_singleton]
    omega

theorem appendCopy_add (old : Nat → Byte) (off : Nat) : ∀ (m n : Nat) (out : List Byte),
    appendCopy old off (m + n) out = appendCopy old off n (appendCopy old off m out)
  | 0, n, out => by rw [Nat.zero_add]; rfl
  | m + 1, n, out => by
    rw [Nat.add_right_comm]
    exact appendCopy_add old off m n _

theorem copyTo_eq_some {old : Nat → Byte} {out out' : List Byte} {off n : Nat} (h : copyTo old out off n = some out') :
    off ≤ out.length ∧ out' = appendCopy old off n out := by
  unfold copyTo at h
  split_ifs at h with hoff
  exact ⟨hoff, (Option.some.inj h).symm⟩

/-! ## What the lines of a listing reproduce -/

theorem outputOf_cons (old : Nat → Byte) (l : Line) (ls : List Line) (out : List Byte) :
    outputOf old (l :: ls) out = (l.appendTo old out).bind (outputOf old ls) := by
  rw [outputOf]
  cases l.appendTo old out <;> rfl

/-- A line only appends. -/
theorem appendTo_length {old : Nat → Byte} {out out' : List Byte} {l : Line} (h : l.appendTo old out = some out') :
    out.length ≤ out'.length := by
  unfold Line.appendTo at h
  split_ifs at h with hlegal
  cases l with
  | len _ | lenPadded _ _ | copy4 _ | byte _ => cases h
  | lit0 bs | lit1 bs | lit2 bs | lit3 bs | lit4 bs | lit bs =>
    cases h
    rw [List.length_append]
    exact Nat.le_add_right _ _
  | lit4n n bs =>
    simp only at h
    split_ifs at h
    cases h
    rw [List.length_append]
    exact Nat.le_add_right _ _
  | copy1 off n | copy2 off n | copy off n =>
    rw [(copyTo_eq_some h).2, appendCopy_length]
    exact Nat.le_add_right _ _

theorem outputOf_length {old : Nat → Byte} : ∀ {lines : List Line} {out out' : List Byte},
    outputOf old lines out = some out' → out.length ≤ out'.length
  | [], _, _, h => by cases h; exact Nat.le_refl _
  | l :: ls, out, out', h => by
    rw [outputOf_cons] at h
    obtain ⟨mid, hl, hls⟩ := Option.bind_eq_some_iff.1 h
    exact (appendTo_length hl).trans (outputOf_length hls)

/-! ## The elements of a listing -/

theorem encode_length (i : Instr) : (encode i).length = headerBytes i := by cases i <;> rfl

theorem literalOf_header {i : Instr} {h : Nat} {x : BitVec 32} (hl : literalOf i = some (h, x)) :
    h = headerBytes i ∧ i.space = .element := by
  cases i with
  | lit0 n | lit1 n | lit2 n | lit3 n | lit4 n => cases hl; exact ⟨rfl, rfl⟩
  | _ => cases hl

theorem copyOf_header {i : Instr} {size len off : Nat} (hc : copyOf i = some (size, len, off)) :
    size = headerBytes i ∧ i.space = .element ∧ i.wf = true := by
  cases i with
  | copy1 len4 off | copy2 len1 off => cases hc; exact ⟨rfl, rfl, rfl⟩
  | _ => cases hc

/-- A length field of `w` bits holds the lengths from 1 to `2^w` (R92). -/
theorem literalLen_ofNat {w n : Nat} (hw : w ≤ 32) (h1 : 1 ≤ n) (hn : n ≤ 2 ^ w) :
    literalLen ((BitVec.ofNat w (n - 1)).setWidth 32) = n := by
  rw [literalLen_setWidth hw, BitVec.toNat_ofNat, Nat.mod_eq_of_lt (by omega)]
  omega

theorem copyOf_copy1Of {off n : Nat} (h4 : 4 ≤ n) (h11 : n ≤ 11) (hoff : off ≤ 2047) :
    copyOf (copy1Of off n) = some (2, n, off) := by
  have hn : 4 + (n - 4) % 2 ^ 3 = n := by omega
  have ho : off % 2 ^ 11 = off := by omega
  simp only [copy1Of, copyOf, Config.copy1MinLen, BitVec.toNat_ofNat, hn, ho]

theorem copyOf_copy2Of {off n : Nat} (h1 : 1 ≤ n) (h64 : n ≤ 64) (hoff : off < 2 ^ 16) :
    copyOf (copy2Of off n) = some (3, n, off) := by
  have hn : 1 + (n - 1) % 2 ^ 6 = n := by omega
  have ho : off % 2 ^ 16 = off := by omega
  simp only [copy2Of, copyOf, BitVec.toNat_ofNat, hn, ho]

/-- The last element of a chain is a copy of what remains (R187). -/
theorem copyOf_lastCopy {off n : Nat} (h1 : 1 ≤ n) (h64 : n ≤ 64) (hoff : off < 2 ^ 16) :
    ∃ size, copyOf (lastCopy off n) = some (size, n, off) := by
  unfold lastCopy
  split_ifs with h
  · exact ⟨2, copyOf_copy1Of h.1 h.2.1 h.2.2⟩
  · exact ⟨3, copyOf_copy2Of h1 h64 hoff⟩

/-- The shortest literal of length `n` (R98): it is well formed and its field gives the length. -/
theorem literalOf_shortestLiteral {n : Nat} (h1 : 1 ≤ n) (hn : n ≤ 2 ^ 32) :
    (shortestLiteral (n - 1)).wf = true ∧
    ∃ h x, literalOf (shortestLiteral (n - 1)) = some (h, x) ∧ literalLen x = n := by
  unfold shortestLiteral
  split_ifs with h60 h8 h16 h24
  · refine ⟨decide_eq_true ?_, _, _, rfl, literalLen_ofNat (by omega) h1 (by omega)⟩
    rw [BitVec.toNat_ofNat]
    omega
  · exact ⟨rfl, _, _, rfl, literalLen_ofNat (by omega) h1 (by omega)⟩
  · exact ⟨rfl, _, _, rfl, literalLen_ofNat (by omega) h1 (by omega)⟩
  · exact ⟨rfl, _, _, rfl, literalLen_ofNat (by omega) h1 (by omega)⟩
  · exact ⟨rfl, _, _, rfl, by simpa using literalLen_ofNat (w := 32) (Nat.le_refl _) h1 hn⟩

end Sys2Proof.Machine
end

section
/-! DECODE of a listing (R210 to R226): its length varint of up to ten bytes, its elements one after the other, and the end of
the stream. -/

namespace Sys2Proof.Machine

/-! ## The length varint -/

theorem or_bit7 : ∀ b : Byte, (b ||| 0x80#8).toNat = b.toNat % 128 + 128 := by decide

/-- Byte `j` of a varint of `k` bytes, padded or not (R81, R97): its group, and bit 7 on every byte but the last. -/
theorem paddedVarint_spec {v : Value} {k : Nat} (hk : varintLen v ≤ k) : (paddedVarint k v).length = k ∧
    ∀ j (hj : j < (paddedVarint k v).length), ((paddedVarint k v)[j]).toNat =
      v.toNat / 2 ^ (7 * j) % 128 + if j + 1 < k then 128 else 0 := by
  obtain ⟨hlen, hpos, -, hlt, -, hb⟩ := varintBytes_spec v
  unfold paddedVarint
  split_ifs with h
  · have hkv : varintLen v = k := by omega
    rw [hkv] at hlen hb
    exact ⟨hlen, hb⟩
  · refine ⟨by simp [hlen]; omega, fun j hj => ?_⟩
    have hzero : varintLen v ≤ j → v.toNat / 2 ^ (7 * j) = 0 := fun hj =>
      Nat.div_eq_of_lt (Nat.lt_of_lt_of_le hlt (Nat.pow_le_pow_right (by omega) (by omega)))
    rcases Nat.lt_or_ge j (varintLen v) with hj1 | hj1
    · rw [List.getElem_append_left (by simp [hlen]; omega), List.getElem_append_left (by simpa [hlen] using hj1),
        List.getElem_map, or_bit7, hb j (by omega), if_pos (by omega : j + 1 < k)]
      split <;> omega
    · rw [hzero hj1]
      rcases Nat.lt_or_ge (j + 1) k with hj2 | hj2
      · rw [if_pos hj2, List.getElem_append_left (by simp [hlen]; omega), List.getElem_append_right (by simpa [hlen] using hj1),
          List.getElem_replicate]
        rfl
      · rw [if_neg (Nat.not_lt.2 hj2), List.getElem_append_right (by simp [hlen]; omega), List.getElem_singleton]
        rfl

/-- The groups of a varint add up to its value (R124). -/
theorem groupSum_eq_mod {f : Nat → Byte} {n : Nat} : ∀ {k : Nat},
    (∀ j, j < k → (f j).toNat % 128 = n / 2 ^ (7 * j) % 128) → groupSum f k = n % 2 ^ (7 * k)
  | 0, _ => by simp [groupSum, Nat.mod_one]
  | k + 1, h => by
    rw [groupSum, groupSum_eq_mod fun j hj => h j (Nat.lt_succ_of_lt hj), h k (Nat.lt_succ_self k),
      show 7 * (k + 1) = 7 * k + 7 by omega, Nat.pow_add, Nat.mod_mul, Nat.mul_comm (_ % 128)]

/-- The length varint of DECODE read to its end, with room for the declared length (R211 to R213). -/
theorem decode_lengthVarint_read {s : State} {k : Nat} (hk : k ≤ 9) (he : VarintEndsAt s k)
    (h9 : k = 9 → (src s k).toNat ≤ 1) (hroom : groupSum (src s) (k + 1) ≤ s.ops.dstLen) :
    ∃ vu, microStep^[k + 1] (startDecode s) = { s with
      activity := .elements
      dec := { s.dec with L := s.ops.srcLen, dLen := groupSum (src s) (k + 1), s := k + 1, d := 0 }
      vu := vu } := by
  have hin := he.inView
  obtain ⟨v, b, hrun, hsum⟩ := inPrefix_run (by omega) (by omega) he.continued
  have hval := varint_value (hsum hk) hk he.last h9
  have hlegal : ¬(k = 9 ∧ 1 < ((src s k).extractLsb' 0 7).toNat) := by
    rintro ⟨hk9, h1⟩
    have := h9 hk9
    rw [extract_group] at h1
    omega
  have hfit : ¬s.ops.dstLen < (v ||| (((src s k).extractLsb' 0 7).setWidth 64 <<< (7 * k))).toNat := by
    rw [hval]
    exact Nat.not_lt.2 hroom
  rw [Function.iterate_succ_apply', hrun, ← hval]
  exact ⟨_, (varint_last (s := startDecode s) rfl hk hin he.last).trans ((if_neg hlegal).trans (if_neg hfit))⟩

/-! ## Between two elements -/

/-- DECODE of `s` between two elements: `out` has been reproduced of `total` bytes, `rest` is still to be read, and no byte but
those reproduced has changed. -/
structure Reproduced (s u : State) (total : Nat) (out rest : List Byte) : Prop where
  inv : Inv u
  activity : u.activity = .elements
  side : SameHostSide s u
  declared : u.dec.dLen = total
  left : u.dec.L = u.dec.s + rest.length
  ahead : readBytes u.mem (u.ops.srcBase + u.dec.s) rest.length = rest
  behind : readBytes u.mem u.ops.dstBase u.dec.d = out
  outside : OnlyDstWritten s u u.dec.d

/-- A source byte is at no address of the destination view. -/
theorem source_outside {s : State} (hv : viewsOverlap s = false) {i lo n : Nat} (hi : i < s.ops.srcLen)
    (hn : lo + n ≤ s.ops.dstLen) : s.ops.srcBase + i < s.ops.dstBase + lo ∨ s.ops.dstBase + lo + n ≤ s.ops.srcBase + i := by
  by_contra hin
  exact views_apart hv (j := s.ops.srcBase + i - s.ops.dstBase) hi (by omega) (by omega)

/-- An element that is done has appended what stands behind the old output cursor, and has read its own bytes. -/
theorem Reproduced.element {s u w : State} {total len : Nat} {out xs rest : List Byte} {dec : DecRegs} {f : Nat → Byte}
    (h : Reproduced s u total out (xs ++ rest)) (hw : w = { u with dec := w.dec }) (hwd : w.dec.d = u.dec.d)
    (hdone : ElementDone w (microStep u) dec len f) (hL : dec.L = u.dec.L) (hdLen : dec.dLen = u.dec.dLen)
    (hs : dec.s = u.dec.s + xs.length) (hd : dec.d = u.dec.d + len) :
    Reproduced s (microStep u) total (out ++ readBytes (microStep u).mem (u.ops.dstBase + u.dec.d) len) rest := by
  have hinv := inv_microStep h.inv
  have hops : (microStep u).ops = u.ops := (stays_microStep h.inv).ops
  have hdec := hdone.dec
  have hkeep : ∀ a, (a < u.ops.dstBase + u.dec.d ∨ u.ops.dstBase + u.dec.d + len ≤ a) →
      readByte (microStep u).mem a = readByte u.mem a := by
    have hout := hdone.outside
    rw [hwd, hw] at hout
    exact hout
  have hact : (microStep u).activity = .elements := by
    rw [hdone.rest, hw]
    exact h.activity
  have hleft := h.left
  rw [List.length_append] at hleft
  refine ⟨hinv, hact, sameHostSide_microStep h.side, ?_, ?_, ?_, ?_, ?_⟩
  · rw [hdec, hdLen, h.declared]
  · rw [hdec, hL, hs]
    omega
  · have hp := h.inv.elements h.activity
    have hp' := hinv.elements hact
    have hroom : u.dec.d + len ≤ u.ops.dstLen := by
      rw [← hd, ← hdec, ← hops]
      exact hp'.output.trans hp'.declared
    have hstream := hp.streamLength
    rw [hdec, hs, hops]
    refine Eq.trans (readBytes_congr fun j hj => hkeep _ ?_) (Nat.add_assoc .. ▸ (readBytes_split h.ahead).2)
    rw [Nat.add_assoc]
    exact source_outside hp.views.disjoint (by omega) hroom
  · rw [hdec, hd, hops, readBytes_add, ← h.behind]
    exact congrArg (· ++ _) (readBytes_congr fun j hj => hkeep _ (.inl (by omega)))
  · intro a ha
    rw [hdec, hd, ← h.side.ops] at ha
    rw [hkeep a (by omega), h.outside a (by rw [← h.side.ops]; omega)]

/-- The element whose encoding stands at the cursor is the one the micro-step runs. -/
theorem Reproduced.microStep_eq {s u : State} {total : Nat} {out rest : List Byte} {i : Instr}
    (h : Reproduced s u total out (encode i ++ rest)) (hi : i.space = .element) (hw : i.wf = true) :
    microStep u = runItem i (fetchElement u) ∧ u.dec.L = u.dec.s + headerBytes i + rest.length := by
  have hpos := headerBytes_pos i
  have hleft := h.left
  rw [List.length_append, encode_length, ← Nat.add_assoc] at hleft
  have hb := (readBytes_split h.ahead).1
  rw [encode_length] at hb
  obtain ⟨r, hd⟩ := decode_elementHeader_of_encode hi hw (by omega) hb
  exact ⟨microStep_element h.activity (by omega) hd, hleft⟩

/-! ## A literal -/

/-- DECODE at the first byte of a literal: the fetch, and the header with its field read (R216 to R220). -/
def atLiteral (header : Nat) (x : BitVec 32) (u : State) : State :=
  (fetchElement u).modDec fun r => { r with x := x, s := r.s + header }

theorem runItem_literal {i : Instr} {header : Nat} {x : BitVec 32} {u : State} (hl : literalOf i = some (header, x))
    (hs : u.dec.s + header ≤ u.dec.L) : runItem i (fetchElement u) = literalElement (atLiteral header x u) := by
  cases i with
  | lit0 n => cases hl; rfl
  | lit1 n | lit2 n | lit3 n | lit4 n => cases hl; exact if_neg (Nat.not_lt.2 hs)
  | _ => cases hl

/-- A literal shorter than `2^32` bytes, with its bytes behind its header, appends them (R221, R251). -/
theorem Reproduced.literal {s u : State} {total : Nat} {out bs rest : List Byte} {i : Instr} {header : Nat} {x : BitVec 32}
    (h : Reproduced s u total out (encode i ++ bs ++ rest)) (hw : i.wf = true) (hl : literalOf i = some (header, x))
    (hx : literalLen x = bs.length) (h32 : bs.length < 2 ^ 32) (hroom : out.length + bs.length ≤ total) :
    Reproduced s (microStep u) total (out ++ bs) rest := by
  obtain ⟨rfl, hi⟩ := literalOf_header hl
  have hp := h.inv.elements h.activity
  have hd : out.length = u.dec.d := by rw [← h.behind, readBytes_length]
  have hdLen := h.declared
  have hbytes := (readBytes_split (readBytes_split h.ahead).1).2
  rw [encode_length] at hbytes
  obtain ⟨hm, hL⟩ := (List.append_assoc .. ▸ h).microStep_eq hi hw
  rw [List.length_append] at hL
  rw [runItem_literal hl (by omega)] at hm
  have hlen : literalLen (atLiteral (headerBytes i) x u).dec.x = bs.length := hx
  have hdone := literalElement_done (s := atLiteral (headerBytes i) x u) h.inv.sane.mem hp.views.disjoint hp.streamLength.le
    hp.declared (by omega) (by rw [hlen]; show bs.length ≤ u.dec.dLen - u.dec.d; omega)
    (by rw [hlen]; show bs.length ≤ u.dec.L - (u.dec.s + headerBytes i); omega)
  rw [← hm, hlen] at hdone
  have hbehind : readBytes (microStep u).mem (u.ops.dstBase + u.dec.d) bs.length = bs := by
    refine Eq.trans (readBytes_congr fun j hj => ?_) hbytes
    have hmoved : dst (microStep u) (u.dec.d + j) = src u (u.dec.s + headerBytes i + j) := hdone.bytes j hj
    rw [dst, src, (stays_microStep h.inv).ops] at hmoved
    simpa only [Nat.add_assoc] using hmoved
  have hnext := h.element (w := atLiteral (headerBytes i) x u) (xs := encode i ++ bs) rfl rfl hdone rfl rfl
    (by rw [List.length_append, encode_length, ← Nat.add_assoc]; rfl) rfl
  rw [hbehind] at hnext
  exact hnext

/-! ## A copy -/

/-- DECODE at a copy with its operands read (R222, R223). -/
def atCopy (size len off : Nat) (u : State) : State :=
  (fetchElement u).modDec fun r => { r with len := len, off := off, s := r.s + size }

theorem runItem_copy {i : Instr} {size len off : Nat} {u : State} (hc : copyOf i = some (size, len, off))
    (hs : u.dec.s + size ≤ u.dec.L) : runItem i (fetchElement u) = copyElement (atCopy size len off u) := by
  cases i with
  | copy1 l o | copy2 l o => cases hc; exact if_neg (Nat.not_lt.2 hs)
  | _ => cases hc

/-- COPY_REPLAY appends byte by byte what the listing's copy appends (R253, R255): `old` is what the destination holds from the
output cursor on. -/
theorem readBytes_copyReplay {old : Nat → Byte} : ∀ {n : Nat} {u : State} {out : List Byte}, u.mem.wf = true →
    readBytes u.mem u.ops.dstBase u.dec.d = out → u.dec.off ≤ u.dec.d → (∀ i, u.dec.d ≤ i → dst u i = old i) →
    readBytes (copyReplay n u).mem u.ops.dstBase (u.dec.d + n) = appendCopy old u.dec.off n out
  | 0, _, _, _, hout, _, _ => hout
  | n + 1, u, out, hm, hout, hoff, hold => by
    have hlen : out.length = u.dec.d := by rw [← hout, readBytes_length]
    have hbyte : (if u.dec.off = 0 then old out.length else out.getD (out.length - u.dec.off) 0) =
        dst u (u.dec.d - u.dec.off) := by
      split_ifs with h0
      · rw [h0, hlen, Nat.sub_zero, hold _ (Nat.le_refl _)]
      · rw [hlen, List.getD_eq_getElem _ _ (by omega)]
        exact (readByte_of_readBytes hout (by omega)).symm
    have hnext : readBytes (copyByte u).mem u.ops.dstBase (u.dec.d + 1) = out ++ [dst u (u.dec.d - u.dec.off)] := by
      rw [readBytes_add]
      refine congrArg₂ (· ++ ·) (Eq.trans (readBytes_congr fun j hj => ?_) hout) ?_
      · exact readByte_writeByte_ne (by omega)
      · exact congrArg (fun b => [b]) (readByte_writeByte_eq hm)
    rw [appendCopy, hbyte, ← Nat.add_assoc, Nat.add_right_comm]
    refine readBytes_copyReplay (u := copyByte u) (writeByte_wf hm) hnext (Nat.le_succ_of_le hoff) fun i hi => ?_
    rw [copyByte_d] at hi
    rw [dst_copyByte hm, if_neg (by omega), hold i (by omega)]

/-- A copy whose offset is not before the start appends its bytes (R252 to R255). -/
theorem Reproduced.copy {s u : State} {total : Nat} {out rest : List Byte} {i : Instr} {size len off : Nat}
    (h : Reproduced s u total out (encode i ++ rest)) (hc : copyOf i = some (size, len, off)) (hoff : off ≤ out.length)
    (hroom : out.length + len ≤ total) : Reproduced s (microStep u) total (appendCopy (dst s) off len out) rest := by
  obtain ⟨rfl, hi, hw⟩ := copyOf_header hc
  have hd : out.length = u.dec.d := by rw [← h.behind, readBytes_length]
  have hdLen := h.declared
  obtain ⟨hm, hL⟩ := h.microStep_eq hi hw
  rw [runItem_copy hc (by omega)] at hm
  have hoff' : off ≤ u.dec.d := by omega
  have hroom' : u.dec.d + len ≤ u.dec.dLen := by omega
  have hdone := copyElement_done (s := atCopy (headerBytes i) len off u) h.inv.sane.mem hoff' hroom'
  have hreplay : microStep u = copyReplay len (atCopy (headerBytes i) len off u) :=
    hm.trans ((if_neg (Nat.not_lt.2 hoff')).trans (if_neg (Nat.not_lt.2 hroom')))
  rw [← hm] at hdone
  have hbehind : readBytes (microStep u).mem u.ops.dstBase (u.dec.d + len) = appendCopy (dst s) off len out := by
    rw [hreplay]
    refine readBytes_copyReplay (u := atCopy (headerBytes i) len off u) h.inv.sane.mem h.behind hoff' fun j hj => ?_
    show readByte u.mem (u.ops.dstBase + j) = readByte s.mem (s.ops.dstBase + j)
    rw [h.side.ops]
    exact h.outside _ (.inr (Nat.add_le_add_left hj _))
  have hnext := h.element (w := atCopy (headerBytes i) len off u) (xs := encode i) rfl rfl hdone rfl rfl
    (by rw [encode_length]; rfl) rfl
  have hout := hnext.behind
  rw [hdone.dec, (stays_microStep h.inv).ops] at hout
  rw [← hout] at hnext
  rw [← hbehind]
  exact hnext

/-! ## The lines of a listing -/

/-- After some micro-steps from `u`, DECODE of `s` stands between two elements with `out` reproduced and `rest` to be read. -/
def Reaches (s u : State) (total : Nat) (out rest : List Byte) : Prop := ∃ k, Reproduced s (microStep^[k] u) total out rest

theorem Reproduced.reaches {s u : State} {total : Nat} {out rest : List Byte} (h : Reproduced s u total out rest) :
    Reaches s u total out rest := ⟨0, h⟩

theorem reaches_microStep {s u : State} {total : Nat} {out rest : List Byte} (h : Reaches s (microStep u) total out rest) :
    Reaches s u total out rest := by
  obtain ⟨k, hk⟩ := h
  exact ⟨k + 1, by rwa [Function.iterate_succ_apply]⟩

theorem Reaches.trans {s u : State} {total : Nat} {out out' rest rest' : List Byte} (h : Reaches s u total out rest)
    (h' : ∀ {v}, Reproduced s v total out rest → Reaches s v total out' rest') : Reaches s u total out' rest' := by
  obtain ⟨k, hk⟩ := h
  obtain ⟨k', hk'⟩ := h' hk
  exact ⟨k' + k, by rwa [Function.iterate_add_apply]⟩

/-- A chain of copies of 64 bytes and a last one of the rest reproduces one copy of the whole length (R98, R187). -/
theorem Reproduced.chain {s : State} {total off r : Nat} {rest : List Byte} (h1 : 1 ≤ r) (h64 : r ≤ 64)
    (hoff : off < 2 ^ 16) : ∀ {q : Nat} {u : State} {out : List Byte},
    Reproduced s u total out (encodeAll (List.replicate q (copy2Of off 64) ++ [lastCopy off r]) ++ rest) →
    off ≤ out.length → out.length + (64 * q + r) ≤ total →
    Reaches s u total (appendCopy (dst s) off (64 * q + r) out) rest
  | 0, u, out, h, hin, hroom => by
    obtain ⟨size, hc⟩ := copyOf_lastCopy h1 h64 hoff
    rw [Nat.mul_zero, Nat.zero_add] at hroom ⊢
    rw [List.replicate_zero, List.nil_append, encodeAll, List.flatMap_singleton] at h
    exact reaches_microStep (h.copy hc hin hroom).reaches
  | q + 1, u, out, h, hin, hroom => by
    rw [List.replicate_succ, List.cons_append, encodeAll, List.flatMap_cons, List.append_assoc] at h
    have hnext := h.copy (copyOf_copy2Of (by omega) (Nat.le_refl _) hoff) hin (by omega)
    have hlen := appendCopy_length (dst s) off 64 out
    rw [show 64 * (q + 1) + r = 64 + (64 * q + r) by omega, appendCopy_add]
    exact reaches_microStep (hnext.chain h1 h64 hoff (by omega) (by omega))

/-- A literal line whose element is `i` (R97). -/
theorem Reproduced.literalLine {s u : State} {total : Nat} {out out' bs rest : List Byte} {i : Instr} {header : Nat}
    {x : BitVec 32} (h : Reproduced s u total out (encode i ++ bs ++ rest)) (hw : i.wf = true)
    (hl : literalOf i = some (header, x)) (hx : literalLen x = bs.length) (h32 : bs.length < 2 ^ 32)
    (hout : out ++ bs = out') (hroom : out'.length ≤ total) : Reaches s u total out' rest := by
  subst hout
  rw [List.length_append] at hroom
  exact reaches_microStep (h.literal hw hl hx h32 hroom).reaches

/-- A copy line that is one element (R97). -/
theorem Reproduced.copyLine {s u : State} {total : Nat} {out out' rest : List Byte} {i : Instr} {size len off : Nat}
    (h : Reproduced s u total out (encode i ++ rest)) (hc : copyOf i = some (size, len, off))
    (hout : copyTo (dst s) out off len = some out') (hroom : out'.length ≤ total) : Reaches s u total out' rest := by
  obtain ⟨hin, rfl⟩ := copyTo_eq_some hout
  rw [appendCopy_length] at hroom
  exact reaches_microStep (h.copy hc hin hroom).reaches

/-- A literal of fewer than `2^32` bytes, as far as its form leaves that open. -/
def Line.short (l : Line) : Prop := ∀ bs, l = .lit bs ∨ l = .lit4 bs ∨ (∃ n, l = .lit4n n bs) → bs.length < 2 ^ 32

/-- A line that reproduces bytes is decoded to them. -/
theorem Reproduced.line {s u : State} {total : Nat} {out out' rest : List Byte} {l : Line}
    (h : Reproduced s u total out (l.bytes ++ rest)) (hl : l.appendTo (dst s) out = some out') (hshort : l.short)
    (hroom : out'.length ≤ total) : Reaches s u total out' rest := by
  unfold Line.appendTo at hl
  split_ifs at hl with hlegal
  cases l with
  | len _ | lenPadded _ _ | copy4 _ | byte _ => cases hl
  | lit0 bs =>
    simp only [Line.legal, Bool.and_eq_true, decide_eq_true_eq] at hlegal
    refine h.literalLine (decide_eq_true ?_) rfl (literalLen_ofNat (by omega) hlegal.1 (by omega)) (by omega)
      (Option.some.inj hl) hroom
    rw [BitVec.toNat_ofNat]
    omega
  | lit1 bs | lit2 bs | lit3 bs =>
    simp only [Line.legal, Bool.and_eq_true, decide_eq_true_eq] at hlegal
    exact h.literalLine rfl rfl (literalLen_ofNat (by omega) hlegal.1 hlegal.2) (by omega) (Option.some.inj hl) hroom
  | lit4 bs =>
    simp only [Line.legal, Bool.and_eq_true, decide_eq_true_eq] at hlegal
    refine h.literalLine rfl rfl ?_ (hshort bs (.inr (.inl rfl))) (Option.some.inj hl) hroom
    simpa using literalLen_ofNat (w := 32) (Nat.le_refl _) hlegal.1 hlegal.2
  | lit4n n bs =>
    simp only at hl
    split_ifs at hl with hn
    exact h.literalLine rfl rfl hn (hshort bs (.inr (.inr ⟨n, rfl⟩))) (Option.some.inj hl) hroom
  | lit bs =>
    simp only [Line.legal, Bool.and_eq_true, decide_eq_true_eq] at hlegal
    obtain ⟨hw, header, x, hx, hlen⟩ := literalOf_shortestLiteral hlegal.1 hlegal.2
    exact h.literalLine hw hx hlen (hshort bs (.inl rfl)) (Option.some.inj hl) hroom
  | copy1 off n =>
    simp only [Line.legal, Bool.and_eq_true, decide_eq_true_eq] at hlegal
    exact h.copyLine (copyOf_copy1Of hlegal.1.1 hlegal.1.2 hlegal.2) hl hroom
  | copy2 off n =>
    simp only [Line.legal, Bool.and_eq_true, decide_eq_true_eq] at hlegal
    exact h.copyLine (copyOf_copy2Of hlegal.1.1 hlegal.1.2 hlegal.2) hl hroom
  | copy off n =>
    simp only [Line.legal, Bool.and_eq_true, decide_eq_true_eq] at hlegal
    obtain ⟨hin, rfl⟩ := copyTo_eq_some hl
    obtain ⟨q, r, hq, h1, h64, hn⟩ : ∃ q r, (n - 1) / 64 = q ∧ 1 ≤ r ∧ r ≤ 64 ∧ n = 64 * q + r :=
      ⟨_, n - 64 * ((n - 1) / 64), rfl, by omega, by omega, by omega⟩
    rw [Line.bytes, copyElements_eq, hq, show n - 64 * q = r by omega] at h
    rw [appendCopy_length] at hroom
    rw [hn] at hroom ⊢
    exact h.chain h1 h64 hlegal.2 hin hroom

/-- All the lines of a listing are decoded, one after the other. -/
theorem Reproduced.lines {s : State} {total : Nat} : ∀ {lines : List Line} {u : State} {out out' : List Byte},
    Reproduced s u total out (listingBytes lines) → outputOf (dst s) lines out = some out' → (∀ l ∈ lines, l.short) →
    out'.length ≤ total → Reaches s u total out' []
  | [], _, _, _, h, hl, _, _ => by
    cases hl
    exact h.reaches
  | l :: ls, u, out, out', h, hl, hshort, hroom => by
    rw [outputOf_cons] at hl
    obtain ⟨mid, hmid, hls⟩ := Option.bind_eq_some_iff.1 hl
    rw [List.forall_mem_cons] at hshort
    exact (h.line hmid hshort.1 ((outputOf_length hls).trans hroom)).trans fun h' => h'.lines hls hshort.2 hroom

/-! ## The whole stream -/

/-- With the whole stream read and the declared length reproduced, the micro-step is the end of the command (R225). -/
theorem Reproduced.microStep_final {s u : State} {out : List Byte} (h : Reproduced s u out.length out []) :
    microStep u = succeed out.length 0 u := by
  have hleft := h.left
  have hd : u.dec.d = out.length := by rw [← readBytes_length (n := u.dec.d), h.behind]
  have hsame : ¬u.dec.d ≠ u.dec.dLen := by rw [hd, h.declared]; exact fun hne => hne rfl
  rw [microStep_lastElement h.activity (by rw [hleft]; exact Nat.lt_irrefl _), decodeFinal, if_neg hsame, hd]

theorem space_le {c : Config} (h : c.valid = true) : c.space ≤ 2 ^ 62 := by
  simp only [Config.valid, Bool.and_eq_true, decide_eq_true_eq] at h
  exact Nat.pow_le_pow_right (by omega) h.1.2

/-- A stream of a varint and a listing, its length declared by the varint: behind the varint DECODE stands before the listing. -/
theorem reproduced_start {s : State} {k total : Nat} {rest : List Byte} (hs : Sane s) (hv : ViewsGood s)
    (htotal : total ≤ s.ops.dstLen) (hk : varintLen (BitVec.ofNat 64 total) ≤ k) (h10 : k ≤ 10)
    (hsrc : SourceIs s (paddedVarint k (BitVec.ofNat 64 total) ++ rest)) :
    Reproduced s (microStep^[k] (startDecode s)) total [] rest := by
  have hdst := hs.ops.dstLen
  have haw : s.cfg.space ≤ 2 ^ 62 := space_le hs.cfg
  have hval : (BitVec.ofNat 64 total).toNat = total := by
    rw [BitVec.toNat_ofNat]
    exact Nat.mod_eq_of_lt (by omega)
  obtain ⟨-, hpos, -, hlt, -, -⟩ := varintBytes_spec (BitVec.ofNat 64 total)
  obtain ⟨hlen, hbyte⟩ := paddedVarint_spec hk
  obtain ⟨k, rfl⟩ : ∃ k', k = k' + 1 := ⟨k - 1, by omega⟩
  have hsrcLen : s.ops.srcLen = (paddedVarint (k + 1) (BitVec.ofNat 64 total) ++ rest).length := by
    rw [← hsrc, readBytes_length]
  rw [SourceIs, hsrcLen] at hsrc
  obtain ⟨hvarint, hrest⟩ := readBytes_split hsrc
  rw [List.length_append, hlen] at hsrcLen
  have hgroup : ∀ j, j < k + 1 → (src s j).toNat = total / 2 ^ (7 * j) % 128 + if j + 1 < k + 1 then 128 else 0 := by
    intro j hj
    rw [src, readByte_of_readBytes hvarint (lt_of_lt_of_eq hj hlen.symm), hbyte, hval]
  have hend : VarintEndsAt s k := by
    refine ⟨by omega, fun j hj => ?_, ?_⟩
    · rw [hgroup j (by omega), if_pos (by omega)]
      omega
    · rw [hgroup k (by omega), if_neg (by omega)]
      omega
  have hsum : groupSum (src s) (k + 1) = total := by
    rw [groupSum_eq_mod (n := total) fun j hj => by rw [hgroup j hj]; split <;> omega]
    rw [hval] at hlt
    exact Nat.mod_eq_of_lt (hlt.trans_le (Nat.pow_le_pow_right (by omega) (by omega)))
  have h9 : k = 9 → (src s k).toNat ≤ 1 := by
    rintro rfl
    rw [hgroup 9 (by omega), if_neg (by omega), Nat.div_eq_of_lt (by omega)]
    omega
  obtain ⟨vu, hrun⟩ := decode_lengthVarint_read (by omega) hend h9 (by rw [hsum]; exact htotal)
  have hinv := inv_iterate_microStep (inv_startDecode hs hv) (k + 1)
  rw [hlen] at hrest
  rw [hrun, hsum] at *
  exact ⟨hinv, rfl, ⟨rfl, rfl, rfl⟩, rfl, hsrcLen, hrest, rfl, fun _ _ => rfl⟩

/-- Settles O48: the varint brings DECODE to the listing, each line is decoded to the bytes it stands for, and the end of the
stream answers their number. -/
theorem decodeOfAListing : Obligations.DecodeOfAListing := by
  intro s k lines out hs hv hout hshort hroom hlegal hsrc
  simp only [Line.legal, Bool.and_eq_true, decide_eq_true_eq] at hlegal
  obtain ⟨j, hj⟩ := Reaches.trans ⟨k, reproduced_start hs hv hroom hlegal.1 hlegal.2 hsrc⟩ fun h =>
    h.lines hout hshort (Nat.le_refl _)
  have hend : runToIdle (j + 1) (startDecode s) = .next (succeed out.length 0 (microStep^[j] (startDecode s))) :=
    runToIdle_iff.2 ⟨rfl, by rw [Function.iterate_succ_apply', hj.microStep_final]⟩
  obtain ⟨t, ht⟩ := decode_ends (inv_startDecode hs hv) rfl rfl
  have hexec : exec .decode s = .next t := by
    rw [exec_eq_finish rfl, enter_decode_start hv]
    exact ht
  rw [runToIdle_unique ht hend] at hexec
  have hd : (microStep^[j] (startDecode s)).dec.d = out.length := by rw [← hj.behind, readBytes_length]
  have hout := hj.outside
  have hbehind := hj.behind
  rw [hd] at hout hbehind
  refine ⟨_, hexec, ⟨rfl, hj.side.ops, hj.side.cfg, hj.side.host, rfl⟩, fun i hi => ?_, hout⟩
  exact readByte_of_readBytes hbehind hi

end Sys2Proof.Machine
end

section
/-! What ENCODE writes (R182 to R191): the varint of the source length and a listing of literals and copies, kept from one scan
position to the next. -/

namespace Sys2Proof.Machine

/-! ## Listings that reproduce the source -/

/-- A line that is a literal of the shortest form. -/
def Line.isLiteral (l : Line) : Prop := ∃ x, l = .lit x

/-- A listing of literals and copies as ENCODE may write it (R191): it reproduces `out`, its offsets and lengths are in their
bounds, and no two literals follow each other. -/
structure IsListing (maxOffset : Nat) (lines : List Line) (out : List Byte) : Prop where
  output : ∀ old, outputOf old lines [] = some out
  shape : ∀ l ∈ lines, l.isLiteral ∨ ∃ off n, l = .copy off n ∧ 1 ≤ off ∧ off ≤ maxOffset ∧ 4 ≤ n
  apart : lines.IsChain fun a b => ¬(a.isLiteral ∧ b.isLiteral)

/-- The listing does not end in a literal, so a literal may follow. -/
def EndsInCopy (lines : List Line) : Prop := ∀ l ∈ lines.getLast?, ¬l.isLiteral

theorem outputOf_append (old : Nat → Byte) : ∀ (ls ls' : List Line) (out : List Byte),
    outputOf old (ls ++ ls') out = (outputOf old ls out).bind (outputOf old ls')
  | [], _, _ => rfl
  | l :: ls, ls', out => by
    rw [List.cons_append, outputOf_cons, outputOf_cons, Option.bind_assoc]
    exact congrArg _ (funext fun mid => outputOf_append old ls ls' mid)

theorem isListing_nil (maxOffset : Nat) : IsListing maxOffset [] [] := ⟨fun _ => rfl, nofun, .nil⟩

theorem IsListing.snoc {maxOffset : Nat} {lines : List Line} {l : Line} {out out' : List Byte}
    (h : IsListing maxOffset lines out) (hl : ∀ old, l.appendTo old out = some out')
    (hshape : l.isLiteral ∨ ∃ off n, l = .copy off n ∧ 1 ≤ off ∧ off ≤ maxOffset ∧ 4 ≤ n)
    (hapart : EndsInCopy lines ∨ ¬l.isLiteral) : IsListing maxOffset (lines ++ [l]) out' where
  output old := by rw [outputOf_append, h.output old, Option.bind_some, outputOf_cons, hl old]; rfl
  shape := List.forall_mem_append.2 ⟨h.shape, List.forall_mem_singleton.2 hshape⟩
  apart := by
    refine List.isChain_append.2 ⟨h.apart, .singleton l, fun a ha b hb => ?_⟩
    obtain rfl : l = b := by simpa using hb
    rintro ⟨h1, h2⟩
    exact hapart.elim (fun he => he a ha h1) (· h2)

theorem IsListing.literal {maxOffset : Nat} {lines : List Line} {out x : List Byte} (h : IsListing maxOffset lines out)
    (he : EndsInCopy lines) (h1 : 1 ≤ x.length) (h32 : x.length ≤ 2 ^ 32) :
    IsListing maxOffset (lines ++ [Line.lit x]) (out ++ x) := by
  have hlegal : (Line.lit x).legal = true := by
    simp only [Line.legal, Bool.and_eq_true, decide_eq_true_eq]
    exact ⟨h1, h32⟩
  exact h.snoc (fun _ => if_pos hlegal) (.inl ⟨x, rfl⟩) (.inl he)

theorem IsListing.copy {maxOffset : Nat} {lines : List Line} {out out' : List Byte} {off n : Nat}
    (h : IsListing maxOffset lines out) (hmax : maxOffset < 2 ^ 16) (h1 : 1 ≤ off) (hoff : off ≤ maxOffset)
    (hin : off ≤ out.length) (h4 : 4 ≤ n) (hout : ∀ old, appendCopy old off n out = out') :
    IsListing maxOffset (lines ++ [Line.copy off n]) out' := by
  refine h.snoc (fun old => ?_) (.inr ⟨off, n, rfl, h1, hoff, h4⟩) (.inr nofun)
  have hlegal : (Line.copy off n).legal = true := by
    simp only [Line.legal, Bool.and_eq_true, decide_eq_true_eq]
    omega
  rw [← hout old]
  exact (if_pos hlegal).trans (if_pos hin)

theorem endsInCopy_copy (lines : List Line) (off n : Nat) : EndsInCopy (lines ++ [Line.copy off n]) := by
  intro l hl
  obtain rfl : Line.copy off n = l := by simpa using hl
  exact nofun

/-- Over bytes that repeat those `off` places before them a copy goes on with the same bytes (R253). -/
theorem appendCopy_take {old : Nat → Byte} {bs : List Byte} {off : Nat} (h1 : 1 ≤ off) : ∀ {n p : Nat}, off ≤ p →
    p + n ≤ bs.length → (∀ j, j < n → bs[p + j]? = bs[p - off + j]?) →
    appendCopy old off n (bs.take p) = bs.take (p + n)
  | 0, _, _, _, _ => rfl
  | n + 1, p, hp, hn, heq => by
    have hlen : (bs.take p).length = p := List.length_take_of_le (by omega)
    have hbyte : (bs.take p).getD (p - off) 0 = bs[p] := by
      have h0 := heq 0 (by omega)
      rw [Nat.add_zero, Nat.add_zero, List.getElem?_eq_getElem (by omega), List.getElem?_eq_getElem (by omega)] at h0
      rw [List.getD_eq_getElem _ _ (by omega), List.getElem_take, ← Option.some.inj h0]
    rw [appendCopy, if_neg (by omega), hlen, hbyte, List.take_append_getElem,
      appendCopy_take h1 (by omega) (by omega) fun j hj => ?_]
    · congr 1
      omega
    · have := heq (j + 1) (by omega)
      rwa [← Nat.add_assoc, Nat.add_right_comm, show p - off + (j + 1) = p + 1 - off + j by omega] at this

/-! ## What has been written -/

/-- ENCODE of `s`, whose source is `bs`, on its way: the stream so far is the varint and `lines`, which reproduce `out`. -/
structure Listed (s u : State) (bs : List Byte) (lines : List Line) (out : List Byte) : Prop where
  side : SameHostSide s u
  views : viewsOverlap u = false
  wf : u.mem.wf = true
  room : u.enc.d ≤ u.ops.dstLen
  source : SourceIs u bs
  stream : readBytes u.mem u.ops.dstBase u.enc.d = listingBytes (.len (BitVec.ofNat 64 bs.length) :: lines)
  listing : IsListing s.cfg.encMaxOffset lines out

/-- The registers but the output cursor do not matter. -/
theorem Listed.congr {s u v : State} {bs out : List Byte} {lines : List Line} (h : Listed s u bs lines out)
    (hops : v.ops = u.ops) (hcfg : v.cfg = u.cfg) (hhost : v.host = u.host) (hmem : v.mem = u.mem)
    (hd : v.enc.d = u.enc.d) : Listed s v bs lines out where
  side := ⟨hops.trans h.side.ops, hcfg.trans h.side.cfg, hhost.trans h.side.host⟩
  views := (viewsOverlap_congr hops).trans h.views
  wf := by rw [hmem]; exact h.wf
  room := by rw [hops, hd]; exact h.room
  source := by
    have hsrc := h.source
    rwa [SourceIs, ← hmem, ← hops] at hsrc
  stream := by rw [hmem, hops, hd]; exact h.stream
  listing := h.listing

/-- One more line, when there is room for its bytes. -/
theorem Listed.snoc {s u : State} {bs out out' : List Byte} {lines : List Line} {l : Line} (h : Listed s u bs lines out)
    (hfit : u.enc.d + l.bytes.length ≤ u.ops.dstLen) (hl : IsListing s.cfg.encMaxOffset (lines ++ [l]) out') :
    Listed s (emitted u l.bytes) bs (lines ++ [l]) out' where
  side := ⟨h.side.ops, h.side.cfg, h.side.host⟩
  views := h.views
  wf := writeBytes_wf h.wf
  room := hfit
  source := Eq.trans (readBytes_congr fun _ hj => src_emitted h.views hfit hj) h.source
  stream := by
    have hold : readBytes (emitted u l.bytes).mem u.ops.dstBase u.enc.d = readBytes u.mem u.ops.dstBase u.enc.d :=
      readBytes_congr fun j hj => readByte_writeBytes_outside (.inl (by omega))
    have hnew : readBytes (emitted u l.bytes).mem (u.ops.dstBase + u.enc.d) l.bytes.length = l.bytes :=
      readBytes_writeBytes_same h.wf _ _
    rw [emitted_enc, emitted_ops, readBytes_add, hold, hnew, h.stream]
    simp only [listingBytes, List.flatMap_cons, List.flatMap_append, List.flatMap_nil, List.append_nil, List.append_assoc]
  listing := hl

theorem Listed.length_source {s u : State} {bs out : List Byte} {lines : List Line} (h : Listed s u bs lines out) :
    bs.length = u.ops.srcLen := by rw [← h.source, readBytes_length]

/-- The source bytes from `a` to `b - 1`. -/
def sourceSlice (u : State) (a b : Nat) : List Byte := readBytes u.mem (u.ops.srcBase + a) (b - a)

theorem sourceSlice_length (u : State) (a b : Nat) : (sourceSlice u a b).length = b - a := readBytes_length ..

theorem take_source {u : State} {bs : List Byte} (h : SourceIs u bs) {k : Nat} (hk : k ≤ u.ops.srcLen) :
    bs.take k = readBytes u.mem u.ops.srcBase k := by
  rw [← h, show u.ops.srcLen = k + (u.ops.srcLen - k) by omega, readBytes_add, List.take_left' (readBytes_length ..)]

theorem take_append_slice {u : State} {bs : List Byte} (h : SourceIs u bs) {a b : Nat} (hab : a ≤ b) (hb : b ≤ u.ops.srcLen) :
    bs.take a ++ sourceSlice u a b = bs.take b := by
  rw [take_source h (by omega), take_source h hb, sourceSlice, ← readBytes_add, Nat.add_sub_cancel' hab]

theorem source_getElem? {u : State} {bs : List Byte} (h : SourceIs u bs) {i : Nat} (hi : i < u.ops.srcLen) :
    bs[i]? = some (src u i) := by
  have hlen : i < bs.length := by rw [← h, readBytes_length]; exact hi
  rw [List.getElem?_eq_getElem hlen, src, readByte_of_readBytes h hlen]

/-- Two states whose source views hold the same bytes. -/
theorem src_eq_of_source {u v : State} {bs : List Byte} (hu : SourceIs u bs) (hv : SourceIs v bs) {i : Nat}
    (hi : i < u.ops.srcLen) : src v i = src u i := by
  have hlen : v.ops.srcLen = u.ops.srcLen := by
    rw [← readBytes_length (n := v.ops.srcLen), hv, ← hu, readBytes_length]
  exact Option.some.inj ((source_getElem? hv (hlen ▸ hi)).symm.trans (source_getElem? hu hi))

/-- The bytes EMIT_LITERAL writes are a literal line over the source bytes (R98, R186). -/
theorem literalElementBytes_eq {u : State} {a b : Nat} (hlen : b - a - 1 < 2 ^ 32) :
    literalElementBytes u a b = (Line.lit (sourceSlice u a b)).bytes := by
  rw [Line.bytes, sourceSlice_length, ← literalHeader_eq hlen]
  rfl

/-- EMIT_LITERAL ends the command or appends a literal line over its source bytes (R186). -/
theorem Listed.literal {s u : State} {bs : List Byte} {lines : List Line} {a b : Nat}
    (h : Listed s u bs lines (bs.take a)) (he : EndsInCopy lines) (ha : u.activity ≠ .idle) (hab : a < b)
    (hb : b ≤ u.ops.srcLen) : (emitLiteral a b u).activity = .idle ∨
      (emitLiteral a b u = emitted u (Line.lit (sourceSlice u a b)).bytes ∧
        Listed s (emitLiteral a b u) bs (lines ++ [Line.lit (sourceSlice u a b)]) (bs.take b)) := by
  by_cases hlen : b - a - 1 < 2 ^ 32
  · rw [emitLiteral_eq h.views (by omega) hb h.room hlen, literalElementBytes_eq hlen]
    by_cases hfit : u.enc.d + (Line.lit (sourceSlice u a b)).bytes.length ≤ u.ops.dstLen
    · rw [emitBytes_fits ha hfit]
      have hx := sourceSlice_length u a b
      rw [← take_append_slice h.source (Nat.le_of_lt hab) hb]
      exact .inr ⟨rfl, h.snoc hfit (h.listing.literal he (by rw [hx]; omega) (by rw [hx]; omega))⟩
    · exact .inl (by rw [emitBytes_over ha h.room (by omega)]; rfl)
  · exact .inl (by rw [emitLiteral_tooLong (by omega)]; rfl)

/-- The flush ends the command or brings the listing up to source position `y` (R185). -/
theorem Listed.flush {s u : State} {bs : List Byte} {lines : List Line} {y : Nat}
    (h : Listed s u bs lines (bs.take u.enc.lit)) (he : EndsInCopy lines) (ha : u.activity ≠ .idle) (hlit : u.enc.lit ≤ y)
    (hy : y ≤ u.ops.srcLen) : (flushLiteral y u).activity = .idle ∨
      ∃ x lines', flushLiteral y u = emitted u x ∧ Listed s (flushLiteral y u) bs lines' (bs.take y) := by
  unfold flushLiteral
  split_ifs with heq
  · exact .inr ⟨[], lines, rfl, heq ▸ h⟩
  · exact (h.literal he ha (by omega) hy).imp id fun ⟨h1, h2⟩ => ⟨_, _, h1, h2⟩

/-- A chain that does not fit ends the command (R187, R189). -/
theorem emitCopyLoop_over : ∀ {turns : Nat} {s : State}, s.activity ≠ .idle → s.enc.d ≤ s.ops.dstLen →
    s.enc.mlen ≤ turns → s.ops.dstLen < s.enc.d + (copyChain s.enc.moff turns s.enc.mlen).length →
    (emitCopyLoop turns s).activity = .idle
  | 0, s, _, hd, _, hover => absurd hover (by simpa [copyChain] using hd)
  | turns + 1, s, ha, hd, hm, hover => by
    have hz : s.enc.mlen ≠ 0 := by
      intro hz
      simp only [copyChain, hz, if_true, List.length_nil] at hover
      omega
    have hpos := chainLen_pos (off := s.enc.moff) (len := s.enc.mlen) (by omega)
    simp only [copyChain, if_neg hz, List.length_append] at hover
    unfold emitCopyLoop
    rw [if_neg (by simp [ended, ha, hz])]
    by_cases hfit : s.enc.d + (chainBytes s.enc.moff s.enc.mlen).length ≤ s.ops.dstLen
    · rw [emitBytes_fits ha hfit, unlessEnded_of_running (by simp [ended, ha])]
      refine emitCopyLoop_over ha hfit ?_ ?_
      · simp only [modEnc_enc, emitted_enc]
        omega
      · simp only [modEnc_enc, modEnc_ops, emitted_enc, emitted_ops]
        omega
    · have hend : (emitBytes s (chainBytes s.enc.moff s.enc.mlen)).activity = .idle := by
        rw [emitBytes_over ha hd (by omega)]
        rfl
      rw [unlessEnded_of_ended (ended_iff.2 hend), emitCopyLoop_ended hend, hend]

/-- EMIT_COPY ends the command or appends a copy line (R98, R187). -/
theorem Listed.copy {s u : State} {bs out out' : List Byte} {lines : List Line} (h : Listed s u bs lines out)
    (ha : u.activity ≠ .idle) (h1 : 1 ≤ u.enc.mlen) (hoff : u.enc.moff < 2 ^ 16)
    (hl : IsListing s.cfg.encMaxOffset (lines ++ [Line.copy u.enc.moff u.enc.mlen]) out') :
    (emitCopy u).activity = .idle ∨
      (emitCopy u = (emitted u (Line.copy u.enc.moff u.enc.mlen).bytes).modEnc (fun r => { r with mlen := 0 }) ∧
        Listed s (emitCopy u) bs (lines ++ [Line.copy u.enc.moff u.enc.mlen]) out') := by
  have hchain : copyChain u.enc.moff u.enc.mlen u.enc.mlen = (Line.copy u.enc.moff u.enc.mlen).bytes :=
    copyChain_eq hoff h1 (Nat.le_refl _)
  by_cases hfit : u.enc.d + (Line.copy u.enc.moff u.enc.mlen).bytes.length ≤ u.ops.dstLen
  · have hdone : emitCopy u = _ := emitCopyLoop_fits ha (Nat.le_refl _) (by rw [hchain]; exact hfit)
    rw [hchain] at hdone
    rw [hdone]
    exact .inr ⟨rfl, (h.snoc hfit hl).congr rfl rfl rfl rfl rfl⟩
  · exact .inl (emitCopyLoop_over ha h.room (Nat.le_refl _) (by rw [hchain]; omega))

/-! ## A scan position -/

/-- All of the source before the pending literal run is written, and a literal may follow. -/
def Pending (s u : State) (bs : List Byte) : Prop :=
  ∃ lines, Listed s u bs lines (bs.take u.enc.lit) ∧ EndsInCopy lines

theorem candidateOp_d (u : State) : (candidateOp u).enc.d = u.enc.d := by
  unfold candidateOp
  split
  · rfl
  · rfl

/-- Up to the outcome of a scan position nothing that has been written changes (R152 to R155). -/
theorem Listed.after_probed {s u : State} {bs out : List Byte} {lines : List Line} (h : Listed s u bs lines out) :
    Listed s (probed u) bs lines out := by
  have hd : (probed u).enc.d = u.enc.d := candidateOp_d _
  have heq : probed u = (probeOp (hashOp (windowOp u))).modEnc fun _ => (probed u).enc := candidateOp_eq _
  have h1 : Listed s (probeOp (hashOp (windowOp u))) bs lines out := h.congr rfl rfl rfl rfl rfl
  rw [heq]
  exact h1.congr rfl rfl rfl rfl hd

/-- What makes a match (R155): near enough, and the four bytes agree. -/
theorem isMatch_spec {p : State} (h : isMatch p = true) : p.enc.s - p.enc.t ≤ p.cfg.encMaxOffset ∧
    ∀ j, j < 4 → src p (p.enc.s + j) = src p (p.enc.t + j) := by
  simp only [isMatch, Bool.and_eq_true, decide_eq_true_eq] at h
  obtain ⟨⟨⟨⟨⟨-, hoff⟩, h0⟩, h1⟩, h2⟩, h3⟩ := h
  refine ⟨hoff, fun j hj => ?_⟩
  interval_cases j
  · exact h0.symm
  · exact h1.symm
  · exact h2.symm
  · exact h3.symm

/-- EXTEND from a match (R158): offset and length, and the bytes that the match repeats. -/
theorem extendOp_match {u : State} (hs : u.enc.s + 4 ≤ u.enc.n) (ht : u.enc.t < u.enc.s)
    (heq : ∀ j, j < 4 → src u (u.enc.s + j) = src u (u.enc.t + j)) : (extendOp u).enc.d = u.enc.d ∧
      (extendOp u).enc.moff = u.enc.s - u.enc.t ∧ 4 ≤ (extendOp u).enc.mlen ∧
      (extendOp u).enc.s = u.enc.s + (extendOp u).enc.mlen ∧ (extendOp u).enc.s ≤ u.enc.n ∧
      ∀ j, j < (extendOp u).enc.mlen → src u (u.enc.s + j) = src u (u.enc.t + j) := by
  obtain ⟨k, hk, hext, hmore, -⟩ := extendOp_spec hs
  rw [hext]
  simp only [modEnc_enc]
  refine ⟨trivial, by omega, by omega, by omega, by omega, fun j hj => ?_⟩
  rcases Nat.lt_or_ge j 4 with h4 | h4
  · exact heq j h4
  · have := hmore (j - 4) (by omega)
    rwa [show u.enc.s + 4 + (j - 4) = u.enc.s + j by omega, show u.enc.t + 4 + (j - 4) = u.enc.t + j by omega] at this

/-- The listing of a match (R191 c to e): a copy over the source bytes that the match repeats. -/
theorem IsListing.copyOfMatch {maxOffset : Nat} {lines : List Line} {bs : List Byte} {u : State} {pos t n : Nat}
    (h : IsListing maxOffset lines (bs.take pos)) (hmax : maxOffset < 2 ^ 16) (hsrc : SourceIs u bs) (ht : t < pos)
    (hoff : pos - t ≤ maxOffset) (h4 : 4 ≤ n) (hn : pos + n ≤ u.ops.srcLen)
    (heq : ∀ j, j < n → src u (pos + j) = src u (t + j)) :
    IsListing maxOffset (lines ++ [Line.copy (pos - t) n]) (bs.take (pos + n)) := by
  have hlen : bs.length = u.ops.srcLen := by rw [← hsrc, readBytes_length]
  refine h.copy hmax (by omega) hoff (by rw [List.length_take]; omega) h4 fun old =>
    appendCopy_take (by omega) (by omega) (by omega) fun j hj => ?_
  rw [source_getElem? hsrc (by omega), source_getElem? hsrc (by omega), show pos - (pos - t) + j = t + j by omega, heq j hj]

/-- A match at the scan position, with everything before the position written: EXTEND, EMIT_COPY and AFTER_MATCH end the command
or append the match's copy, and the next run starts behind it (R159, R184). -/
theorem Listed.after_copyMatch {s u : State} {bs : List Byte} {lines : List Line} (h : Listed s u bs lines (bs.take u.enc.s))
    (hmax : s.cfg.encMaxOffset < 2 ^ 16) (ha : u.activity ≠ .idle) (hs : u.enc.s + 4 ≤ u.enc.n) (hn : u.enc.n = u.ops.srcLen)
    (ht : u.enc.t < u.enc.s) (hoff : u.enc.s - u.enc.t ≤ s.cfg.encMaxOffset)
    (heq : ∀ j, j < 4 → src u (u.enc.s + j) = src u (u.enc.t + j)) : (copyMatch u).activity = .idle ∨
      Pending s (copyMatch u) bs := by
  obtain ⟨hd, hmoff, h4, hpos, hin, hrep⟩ := extendOp_match hs ht heq
  have hl := h.listing.copyOfMatch hmax h.source ht hoff h4 (by omega) hrep
  rw [← hmoff, ← hpos] at hl
  have hext : Listed s (extendOp u) bs lines (bs.take u.enc.s) := by
    rw [extendOp_eq] at hd ⊢
    exact h.congr rfl rfl rfl rfl hd
  have ha' : (extendOp u).activity ≠ .idle := by rw [extendOp_eq]; exact ha
  unfold copyMatch
  rcases hext.copy ha' (by omega) (by omega) hl with hend | ⟨hdone, hnext⟩
  · exact .inl (by rw [unlessEnded_of_ended (ended_iff.2 hend), hend])
  · have hrun : ended (emitCopy (extendOp u)) = false := by rw [hdone]; exact ended_eq_false.2 ha'
    have hlit : (afterMatch (emitCopy (extendOp u))).enc.lit = (extendOp u).enc.s := by rw [hdone]; rfl
    rw [unlessEnded_of_running hrun, Pending, hlit]
    exact .inr ⟨_, hnext.congr rfl rfl rfl rfl rfl, endsInCopy_copy _ _ _⟩

/-- The match arm ends the command or appends the pending literal and the copy (R184, R185). -/
theorem Listed.after_takeMatch {s p : State} {bs : List Byte} {lines : List Line} (h : Listed s p bs lines (bs.take p.enc.lit))
    (hmax : s.cfg.encMaxOffset < 2 ^ 16) (he : EndsInCopy lines) (ha : p.activity ≠ .idle) (hm : isMatch p = true)
    (hlit : p.enc.lit ≤ p.enc.s) (ht : p.enc.t < p.enc.s) (hs : p.enc.s + 4 ≤ p.enc.n) (hn : p.enc.n = p.ops.srcLen) :
    (takeMatch p).activity = .idle ∨ Pending s (takeMatch p) bs := by
  obtain ⟨hoff, heq⟩ := isMatch_spec hm
  rw [h.side.cfg] at hoff
  rw [show takeMatch p = unlessEnded copyMatch (flushLiteral p.enc.s p) from rfl]
  rcases h.flush he ha hlit (by omega) with hend | ⟨x, mid, hflush, hnext⟩
  · exact .inl (by rw [unlessEnded_of_ended (ended_iff.2 hend), hend])
  · rw [hflush] at hnext ⊢
    rw [unlessEnded_of_running (by simp [ended, ha])]
    refine hnext.after_copyMatch hmax ha hs hn ht hoff fun j hj => ?_
    show src (emitted p x) (p.enc.s + j) = src (emitted p x) (p.enc.t + j)
    rw [src_eq_of_source h.source hnext.source (by omega), src_eq_of_source h.source hnext.source (by omega)]
    exact heq j hj

/-! ## From the start to the end -/

/-- ENCODE of `s` between two scan positions. -/
structure Scanning (s u : State) (bs : List Byte) : Prop where
  inv : Inv u
  activity : u.activity = .scan
  pending : Pending s u bs

/-- The destination view holds a finished stream for `bs` and COUNT is its length. -/
def Encoded (s t : State) (bs : List Byte) : Prop :=
  ∃ lines, t.resp.count = (listingBytes (.len (BitVec.ofNat 64 bs.length) :: lines)).length ∧
    readBytes t.mem t.ops.dstBase t.resp.count = listingBytes (.len (BitVec.ofNat 64 bs.length) :: lines) ∧
    IsListing s.cfg.encMaxOffset lines bs

/-- ENCODE has ended, and a success has left a finished stream. -/
def EncodeEnded (s t : State) (bs : List Byte) : Prop := t.activity = .idle ∧ (t.resp.status = 0 → Encoded s t bs)

theorem Emits.encodeEnded {s u t : State} {bs : List Byte} (h : Emits u t) (hu : u.activity ≠ .idle) (ht : t.activity = .idle) :
    EncodeEnded s t bs := by
  refine ⟨ht, fun h0 => ?_⟩
  rcases h with ⟨ha, -⟩ | ⟨-, c, hr⟩
  · exact absurd (ha.symm.trans ht) hu
  · rw [hr] at h0
    exact absurd h0 c.status_ne_zero

/-- Completion of a listing of the whole source (R189). -/
theorem Listed.finish {s u : State} {bs : List Byte} {lines : List Line} (h : Listed s u bs lines bs)
    (ha : u.activity ≠ .idle) : EncodeEnded s (encodeFinish u) bs := by
  have hd : u.enc.d = (listingBytes (.len (BitVec.ofNat 64 bs.length) :: lines)).length := by
    rw [← h.stream, readBytes_length]
  rw [encodeFinish, unlessEnded_of_running (by simp [ended, ha])]
  exact ⟨rfl, fun _ => ⟨lines, hd, h.stream, h.listing⟩⟩

/-- What follows a literal that is the last one of the source. -/
theorem finish_or_ended {s u t : State} {bs : List Byte} (hu : u.activity ≠ .idle) (hemits : Emits u t)
    (h : t.activity = .idle ∨ ∃ lines, Listed s t bs lines bs) : EncodeEnded s (encodeFinish t) bs := by
  by_cases ht : t.activity = .idle
  · rw [encodeFinish_ended ht]
    exact hemits.encodeEnded hu ht
  · obtain ⟨lines, hl⟩ := h.resolve_left ht
    exact hl.finish ht

/-- A step of the scan goes on with the scan or ends ENCODE (R184, R188). -/
theorem Scanning.step {s u : State} {bs : List Byte} (h : Scanning s u bs) (hmax : s.cfg.encMaxOffset < 2 ^ 16) :
    Scanning s (microStep u) bs ∨ EncodeEnded s (microStep u) bs := by
  have ha := h.activity
  have hp := h.inv.scan ha
  have hn := hp.sourceLength
  have hrun := hp.run
  have hscan := hp.scan
  have hinv := inv_microStep h.inv
  have hne : u.activity ≠ .idle := by rw [ha]; decide
  obtain ⟨lines, hl, he⟩ := h.pending
  rw [microStep_scan ha] at hinv ⊢
  unfold scanStep at hinv ⊢
  split_ifs at hinv ⊢ with hs
  · have hprobed := probed_spec h.inv ha hs
    have hlp := hl.after_probed
    have hap : (probed u).activity ≠ .idle := by rw [hprobed.activity]; decide
    rw [scanPosition_eq] at hinv ⊢
    rw [← hprobed.lit] at hlp
    have hpos := hprobed.pos
    split_ifs at hinv ⊢ with hm
    · obtain ⟨-, ht⟩ := hprobed.candidate (isMatch_entry hm)
      have hgo := hlp.after_takeMatch hmax he hap hm hprobed.mid.run (by omega) (by have := hprobed.n; omega)
        hprobed.mid.sourceLength
      rcases (inv_takeMatch hprobed hs (isMatch_entry hm)).2 with hend | ⟨hact, -⟩
      · exact .inr ((emits_takeMatch _).encodeEnded hap hend)
      · exact .inl ⟨hinv, hact, hgo.resolve_left (by rw [hact]; decide)⟩
    · exact .inl ⟨hinv, hprobed.activity, lines, hlp.congr rfl rfl rfl rfl rfl, he⟩
  · right
    refine finish_or_ended hne (emits_flushLiteral _ _) ?_
    have hall : bs.take u.enc.n = bs := List.take_of_length_le (by rw [hl.length_source, hn])
    rcases hl.flush he hne (by omega) hn.le with hend | ⟨x, lines', -, hfull⟩
    · exact .inl hend
    · rw [hall] at hfull
      exact .inr ⟨lines', hfull⟩

/-- Behind the varint of the source length nothing of the source is written (R182). -/
theorem listed_afterPrefix {s : State} {bs : List Byte} (hs : Sane s) (hv : ViewsGood s) (hsrc : SourceIs s bs)
    (hroom : 10 ≤ s.ops.dstLen) : Listed s (afterPrefix s) bs [] [] := by
  have hlen : bs.length = s.ops.srcLen := by rw [← hsrc, readBytes_length]
  have hle := varintLen_le (BitVec.ofNat 64 s.ops.srcLen)
  have hbytes : (varintBytes (BitVec.ofNat 64 s.ops.srcLen)).length = varintLen (BitVec.ofNat 64 s.ops.srcLen) :=
    varintBytes_length _
  rw [afterPrefix_eq hroom]
  refine ⟨⟨rfl, rfl, rfl⟩, hv.disjoint, writeBytes_wf hs.mem, by simp only; omega, ?_, ?_, isListing_nil _⟩
  · refine Eq.trans (readBytes_congr fun j hj => readByte_writeBytes_outside ?_) hsrc
    exact source_outside (lo := 0) hv.disjoint hj (by omega)
  · rw [listingBytes, List.flatMap_singleton, Line.bytes, hlen]
    simp only
    rw [← hbytes]
    exact readBytes_writeBytes_same hs.mem _ _

/-- ENCODE's opening ends a short source, and brings any other to the scan (R182 to R184). -/
theorem encodeOpen_scanning {s : State} {bs : List Byte} (hs : Sane s) (hv : ViewsGood s) (hsrc : SourceIs s bs)
    (hroom : maxEncodedLength s.ops.srcLen ≤ s.ops.dstLen) :
    Scanning s (encodeOpen (startEncode s)) bs ∨ EncodeEnded s (encodeOpen (startEncode s)) bs := by
  have h32 := maxEncodedLength_ge s.ops.srcLen
  have hinv := (inv_encodeOpen_start hs hv hroom).1
  have hl := listed_afterPrefix hs hv hsrc (by omega)
  have hA := afterPrefix_eq (s := s) (by omega)
  have hn : (afterPrefix s).enc.n = s.ops.srcLen := by rw [hA]
  have hne : (afterPrefix s).activity ≠ .idle := by rw [hA]; exact nofun
  have hlen : bs.length = s.ops.srcLen := by rw [← hsrc, readBytes_length]
  rw [encodeOpen_eq s (by omega)] at hinv ⊢
  by_cases hshort : s.ops.srcLen ≤ Config.shortInput
  · right
    rw [encodeBody, hn, if_pos hshort]
    split_ifs with h0
    · obtain rfl : bs = [] := List.eq_nil_of_length_eq_zero (hlen.trans h0)
      exact hl.finish hne
    · refine finish_or_ended hne (emits_emitLiteral _ _ _) ?_
      have hlit := hl.literal (a := 0) (b := s.ops.srcLen) nofun hne (by omega) (by rw [hl.side.ops])
      rw [← hlen, List.take_length, hlen] at hlit
      exact hlit.imp id fun h => ⟨_, h.2⟩
  · obtain ⟨k, -, -, -, -, hlong⟩ := encodeBody_long (s := s) (by omega) (by omega)
    rw [hlong] at hinv ⊢
    exact .inl ⟨hinv, rfl, [], hl.congr rfl rfl rfl rfl rfl, nofun⟩

/-- ENCODE of `s` past its entry: at its opening, in the scan, or ended. -/
def EncodeUnderway (s u : State) (bs : List Byte) : Prop :=
  (u = startEncode s ∧ maxEncodedLength s.ops.srcLen ≤ s.ops.dstLen) ∨ Scanning s u bs ∨ EncodeEnded s u bs

theorem encodeEnded_failClean (c : Cause) (s : State) (bs : List Byte) : EncodeEnded s (failClean c s) bs :=
  ⟨rfl, fun h0 => absurd h0 c.status_ne_zero⟩

theorem encodeUnderway_enter {s u : State} {bs : List Byte} (h : enter .encode s = .next u) : EncodeUnderway s u bs := by
  simp only [enter, enterEncode] at h
  split_ifs at h with hw ho hr <;> cases h
  · exact .inr (.inr (encodeEnded_failClean _ s bs))
  · exact .inr (.inr (encodeEnded_failClean _ s bs))
  · exact .inl ⟨rfl, Nat.not_lt.1 hr⟩

theorem encMaxOffset_lt {c : Config} (h : c.valid = true) : c.encMaxOffset < 2 ^ 16 := by
  simp only [Config.valid, Bool.and_eq_true, Bool.or_eq_true, decide_eq_true_eq] at h
  omega

theorem encodeUnderway_microStep {s u : State} {bs : List Byte} (hs : Sane s) (hv : ViewsGood s) (hsrc : SourceIs s bs)
    (h : EncodeUnderway s u bs) (hu : u.activity ≠ .idle) : EncodeUnderway s (microStep u) bs := by
  rcases h with ⟨rfl, hroom⟩ | h | h
  · rw [microStep_encodeStart rfl]
    exact .inr (encodeOpen_scanning hs hv hsrc hroom)
  · exact .inr (h.step (encMaxOffset_lt hs.cfg))
  · exact absurd h.1 hu

/-- A successful ENCODE has left a finished stream (R190, R191). -/
theorem encoded_of_success {s t : State} {bs : List Byte} (hs : Sane s) (hv : ViewsGood s) (hsrc : SourceIs s bs)
    (hexec : exec .encode s = .next t) (hstatus : t.resp.status = 0) : Encoded s t bs := by
  obtain ⟨u, n, hu, hrun⟩ := exec_command_run rfl hexec
  have hidle := (runToIdle_next hrun).1
  rcases runToIdle_induct (fun _ h => encodeUnderway_microStep hs hv hsrc h) (encodeUnderway_enter hu) hrun with
    ⟨rfl, -⟩ | h | h
  · cases hidle
  · rw [h.activity] at hidle
    cases hidle
  · exact h.2 hstatus

/-- Settles O28: the opening and every step of the scan keep what has been written a listing of the source up to the pending run,
and the last flush makes it a listing of the whole source. -/
theorem encodeWritesAListing : Obligations.EncodeWritesAListing := by
  intro s t bs hs hv hsrc hexec hstatus
  obtain ⟨lines, hcount, hstream, hl⟩ := encoded_of_success hs hv hsrc hexec hstatus
  refine ⟨lines, _, rfl, hcount, fun j hj => readByte_of_readBytes hstream hj, hl.output, hl.shape, ?_⟩
  intro before x y after heq
  exact List.isChain_iff_forall_rel_of_append_cons_cons.1 hl.apart heq ⟨⟨x, rfl⟩, ⟨y, rfl⟩⟩

end Sys2Proof.Machine
end

section
/-! The varint unit (R121 to R127): the bytes of a varint, one byte of the loop of VarintDecode as an instruction, every outcome of
PUT_UVARINT and UVARINT, and that UVARINT reads back what PUT_UVARINT has written. -/

namespace Sys2Proof.Machine

/-! ## The bytes of a varint (R121) -/

theorem varintLen_pred_lt (v : Value) : varintLen v - 1 < (varintBytes v).length := by
  have hpos := varintLen_pos v
  rw [varintBytes_length]
  omega

/-- The last byte is the highest group, with bit 7 clear. -/
theorem varintBytes_last (v : Value) :
    ((varintBytes v)[varintLen v - 1]'(varintLen_pred_lt v)).toNat = v.toNat / 2 ^ (7 * (varintLen v - 1)) := by
  obtain ⟨-, hpos, -, hlt, -, hb⟩ := varintBytes_spec v
  have htop : v.toNat / 2 ^ (7 * (varintLen v - 1)) < 128 := by
    rw [Nat.div_lt_iff_lt_mul (by positivity), show 128 = 2 ^ 7 from rfl, ← Nat.pow_add]
    exact lt_of_lt_of_eq hlt (by congr 1; omega)
  rw [hb, Nat.mod_eq_of_lt htop, if_neg (by omega), Nat.add_zero]

/-- The shortest form has no zero byte at its end, except for 0. -/
theorem varintBytes_last_pos {v : Value} (hv : v ≠ 0) : 0 < v.toNat / 2 ^ (7 * (varintLen v - 1)) := by
  refine Nat.div_pos ?_ (by positivity)
  obtain ⟨-, -, -, -, hge, -⟩ := varintBytes_spec v
  rcases hge with h1 | hge
  · rw [h1]
    exact Nat.pos_of_ne_zero fun h0 => hv (BitVec.eq_of_toNat_eq h0)
  · exact hge

theorem varintBytes_getLast?_ne_zero {v : Value} (hv : v ≠ 0) : (varintBytes v).getLast? ≠ some 0 := by
  rw [List.getLast?_eq_getElem?, varintBytes_length, List.getElem?_eq_getElem (varintLen_pred_lt v)]
  intro h0
  have hlast := varintBytes_last v
  rw [Option.some.inj h0] at hlast
  exact (varintBytes_last_pos hv).ne hlast

/-- A tenth byte holds bit 63 alone, which is set. -/
theorem varintBytes_tenth {v : Value} (h : varintLen v = 10) : (varintBytes v)[9]? = some 1 := by
  have hin := varintLen_pred_lt v
  have hlast := varintBytes_last v
  have hv := v.isLt
  obtain ⟨-, -, -, -, hge, -⟩ := varintBytes_spec v
  simp only [h] at hin hlast hge
  rw [List.getElem?_eq_getElem hin]
  exact congrArg some (BitVec.eq_of_toNat_eq (hlast.trans (show _ = 1 by omega)))

/-- Settles O16: the clauses on the number of bytes by the bounds of `varintLen`, those on the last byte by its closed form. -/
theorem varintBytesShape : Obligations.VarintBytesShape := by
  intro v
  obtain ⟨hlen, -, -, -, -, hb⟩ := varintBytes_spec v
  refine ⟨hlen, fun h => ?_, fun k h2 h9 hge hlt => ?_, fun h => ?_, fun j hj => ?_, varintBytes_getLast?_ne_zero, ?_,
    varintBytes_tenth⟩
  · exact varintLen_of_bounds (k := 0) h (.inl rfl) (by omega)
  · obtain ⟨k, rfl⟩ : ∃ k', k = k' + 1 := ⟨k - 1, by omega⟩
    exact varintLen_of_bounds hlt (.inr hge) (by omega)
  · exact varintLen_of_bounds (k := 9) (v.isLt.trans (by decide)) (.inr h) (Nat.le_refl 9)
  · rw [hb j hj]
    simp only [Nat.lt_sub_iff_add_lt]
    rfl
  · rintro rfl
    rfl

/-! ## One byte of the loop (R124) -/

theorem commandEnds_succeed (count : Nat) (v : Value) (s : State) : CommandEnds s (succeed count v s) (okResponse count v) :=
  ⟨rfl, rfl, rfl, rfl, rfl⟩

/-- Settles O20: the new varint registers, field by field. -/
theorem varintContEffect : Obligations.VarintContEffect := fun s g =>
  ⟨varintContItem g s, rfl, rfl, rfl, rfl, rfl, toNat_fields 1#1 g⟩

theorem varintLastItem_overflows {s : State} {g : BitVec 7} (h9 : s.vu.i = 9) (hg : 1 < g.toNat) :
    varintLastItem g s = failClean .varint10thOverflow s := if_pos ⟨h9, hg⟩

theorem varintLastItem_legal {s : State} {g : BitVec 7} (h : s.vu.i ≠ 9 ∨ g.toNat ≤ 1) :
    varintLastItem g s = varintDone (s.vu.v ||| (g.setWidth 64 <<< s.vu.sh)) (s.vu.i + 1) (lastGroup g s) := by
  rw [varintLastItem_eq, if_neg (by omega)]
  rfl

/-- The last byte of UVARINT's varint answers it (R123). -/
theorem varintLastItem_uvarint {s : State} {g : BitVec 7} (h : s.vu.i ≠ 9 ∨ g.toNat ≤ 1) (ha : s.activity = .varint .uvarint) :
    varintLastItem g s = succeed (s.vu.i + 1) (s.vu.v ||| (g.setWidth 64 <<< s.vu.sh)) s := by
  have ha' : (lastGroup g s).activity = .varint .uvarint := ha
  rw [varintLastItem_legal h, varintDone, ha']
  rfl

/-- The last byte of DECODE's length varint leads on to the compare with DST_LEN (R211, R212). -/
theorem varintLastItem_decode {s : State} {g : BitVec 7} (h : s.vu.i ≠ 9 ∨ g.toNat ≤ 1) (ha : s.activity = .varint .decode) :
    varintLastItem g s = decodePrefix (s.vu.v ||| (g.setWidth 64 <<< s.vu.sh)) (s.vu.i + 1) (lastGroup g s) := by
  have ha' : (lastGroup g s).activity = .varint .decode := ha
  rw [varintLastItem_legal h, varintDone, ha']

/-- Settles O21: the overflow, and what each user of the varint makes of its last byte. -/
theorem varintLastEffect : Obligations.VarintLastEffect := by
  rintro s g v rfl
  refine ⟨fun h9 hg => ?_, fun hlegal => ⟨fun ha => ?_, fun ha hover => ?_, fun ha hfit => ?_⟩⟩
  · exact ⟨_, congrArg Host.Outcome.next (varintLastItem_overflows h9 hg), failsClean_failClean _ s⟩
  · exact ⟨_, congrArg Host.Outcome.next (varintLastItem_uvarint hlegal ha), commandEnds_succeed _ _ s, rfl⟩
  · exact ⟨_, congrArg Host.Outcome.next ((varintLastItem_decode hlegal ha).trans (if_pos hover)), failsClean_failClean _ s⟩
  · exact ⟨_, congrArg Host.Outcome.next ((varintLastItem_decode hlegal ha).trans (if_neg (Nat.not_lt.2 hfit))), rfl⟩

/-- Settles O9: the byte that the decoder is given is the one the sequencer fetches. -/
theorem stepRunsTheVarintByte : Obligations.StepRunsTheVarintByte := by
  intro s u i rest h ha hr hin hten hd
  have hi : decodeVarintByte (src s s.vu.i) = i := by cases hd; rfl
  have hsrc : src (useWait s) s.vu.i = src s s.vu.i := by rw [src, useWait_mem, useWait_ops]; rfl
  refine step_fetched (p := (i, useWait s)) h (by simp [ha]) (by simp [ha]) hr ?_
  simp only [fetchItem, useWait_activity, ha, useWait_vu, useWait_ops, hin, hten, and_self, if_true, hsrc, hi]

/-! ## PUT_UVARINT (R122) -/

theorem exec_putUvarint_wraps {s : State} (h : 2 ^ s.cfg.aw < s.ops.dstBase + s.ops.dstLen) :
    exec .putUvarint s = .next (failClean .viewWraps s) :=
  congrArg Host.Outcome.next (if_pos ((dstWraps_iff s).2 h))

theorem exec_putUvarint_noRoom {s : State} (h : s.ops.dstBase + s.ops.dstLen ≤ 2 ^ s.cfg.aw)
    (hroom : s.ops.dstLen < varintLen s.ops.valueIn) : exec .putUvarint s = .next (failClean .putDstTooSmall s) :=
  congrArg Host.Outcome.next
    ((if_neg (mt (dstWraps_iff s).1 (Nat.not_lt.2 h))).trans (if_pos hroom))

theorem exec_putUvarint_fits {s : State} (h : s.ops.dstBase + s.ops.dstLen ≤ 2 ^ s.cfg.aw)
    (hroom : varintLen s.ops.valueIn ≤ s.ops.dstLen) : exec .putUvarint s = .next (putAll s) :=
  congrArg Host.Outcome.next
    ((if_neg (mt (dstWraps_iff s).1 (Nat.not_lt.2 h))).trans (if_neg (Nat.not_lt.2 hroom)))

/-- The bytes of the varint, read back where PUT_UVARINT has written them. -/
theorem readBytes_putAll {s : State} (h : s.mem.wf = true) :
    readBytes (putAll s).mem s.ops.dstBase (varintLen s.ops.valueIn) = varintBytes s.ops.valueIn := by
  rw [← varintBytes_length]
  exact readBytes_writeBytes_same h _ _

theorem commandEnds_putAll (s : State) : CommandEnds s (putAll s) (okResponse (varintLen s.ops.valueIn) 0) :=
  ⟨rfl, rfl, rfl, rfl, rfl⟩

/-- Settles O17: the two checks, then the write of the whole varint. -/
theorem putUvarintOutcome : Obligations.PutUvarintOutcome := by
  intro s hm
  refine ⟨fun h => ⟨_, exec_putUvarint_wraps h, failsClean_failClean _ s⟩,
    fun h hroom => ⟨_, exec_putUvarint_noRoom h hroom, failsClean_failClean _ s⟩,
    fun h hroom => ⟨_, exec_putUvarint_fits h hroom, commandEnds_putAll s, ?_, ?_⟩⟩
  · exact fun j hj => readByte_of_readBytes (readBytes_putAll hm) hj
  · exact fun a ha => readByte_writeBytes_outside (by rwa [varintBytes_length])

/-! ## UVARINT (R123, R124) -/

theorem enter_uvarint_start {s : State} (h : s.ops.srcBase + s.ops.srcLen ≤ 2 ^ s.cfg.aw) :
    enter .uvarint s = .next (startVarint .uvarint s) :=
  congrArg Host.Outcome.next (if_neg (mt (srcWraps_iff s).1 (Nat.not_lt.2 h)))

theorem exec_uvarint_wraps {s : State} (h : 2 ^ s.cfg.aw < s.ops.srcBase + s.ops.srcLen) :
    exec .uvarint s = .next (failClean .viewWraps s) :=
  exec_of_enter_idle rfl (congrArg Host.Outcome.next (if_pos ((srcWraps_iff s).2 h))) rfl

/-- UVARINT after `k` continuation bytes (R124). -/
def inUvarint (s : State) (v : Value) (b : Byte) (k : Nat) : State :=
  { startVarint .uvarint s with vu := { v := v, sh := 7 * k, i := k, b := b } }

/-- Behind `k` continuation bytes, a micro-step that ends the command gives its answer; the value gathered is the sum of the groups
while no bit can be lost. -/
theorem exec_uvarint_run {s : State} {k : Nat} (h : s.ops.srcBase + s.ops.srcLen ≤ 2 ^ s.cfg.aw) (hk : k ≤ 10)
    (hin : k ≤ s.ops.srcLen) (hc : ∀ j, j < k → 128 ≤ (src s j).toNat) :
    ∃ v b, (k ≤ 9 → v.toNat = groupSum (src s) k) ∧
      ∀ t, microStep (inUvarint s v b k) = t → t.activity = .idle → exec .uvarint s = .next t := by
  obtain ⟨v, b, hrun, hsum⟩ := varint_run (s := startVarint .uvarint s) rfl rfl rfl rfl hk hin hc
  refine ⟨v, b, hsum, fun t ht hidle => ?_⟩
  have hend : runToIdle (k + 1) (startVarint .uvarint s) = .next t :=
    runToIdle_iff.2 ⟨hidle, by rw [Function.iterate_succ_apply', hrun]; exact ht.symm⟩
  rw [exec_eq_finish rfl, enter_uvarint_start h]
  exact runToIdle_mono hend (Nat.succ_le_succ hk)

/-- The loop ends without a last byte: at the end of the view, or behind the tenth byte. -/
theorem exec_uvarint_unfinished {s : State} {k : Nat} (h : s.ops.srcBase + s.ops.srcLen ≤ 2 ^ s.cfg.aw) (hk : k ≤ 10)
    (hin : k ≤ s.ops.srcLen) (hexit : s.ops.srcLen ≤ k ∨ 10 ≤ k) (hc : ∀ j, j < k → 128 ≤ (src s j).toNat) :
    ∃ t, exec .uvarint s = .next t ∧ FailsClean s t (if s.ops.srcLen ≤ k then .varintIncomplete else .varintTooManyGroups) := by
  obtain ⟨v, b, -, hanswer⟩ := exec_uvarint_run h hk hin hc
  refine ⟨_, hanswer _ ?_ rfl, failsClean_failClean _ s⟩
  calc microStep (inUvarint s v b k) = varintLoopExit (inUvarint s v b k) :=
        varint_exit (s := startVarint .uvarint s) rfl hexit
    _ = if s.ops.srcLen ≤ k then failClean .varintIncomplete s else failClean .varintTooManyGroups s := rfl
    _ = failClean (if s.ops.srcLen ≤ k then .varintIncomplete else .varintTooManyGroups) s := by split <;> rfl

/-- A varint that ends at byte `k`: its last byte gives the answer. -/
theorem exec_uvarint_last {s : State} {k : Nat} (h : s.ops.srcBase + s.ops.srcLen ≤ 2 ^ s.cfg.aw) (hk : k ≤ 9)
    (he : VarintEndsAt s k) : ∃ v b, v.toNat = groupSum (src s) k ∧
      ∀ t, varintLastItem ((src s k).extractLsb' 0 7) (inUvarint s v b k) = t → t.activity = .idle →
        exec .uvarint s = .next t := by
  have hin := he.inView
  obtain ⟨v, b, hsum, hanswer⟩ := exec_uvarint_run h (by omega) (by omega) he.continued
  exact ⟨v, b, hsum hk, fun t ht => hanswer t ((varint_last (s := startVarint .uvarint s) rfl hk hin he.last).trans ht)⟩

/-- A tenth byte above 1. -/
theorem exec_uvarint_overflows {s : State} (h : s.ops.srcBase + s.ops.srcLen ≤ 2 ^ s.cfg.aw) (he : VarintEndsAt s 9)
    (hten : 1 < (src s 9).toNat) : ∃ t, exec .uvarint s = .next t ∧ FailsClean s t .varint10thOverflow := by
  obtain ⟨v, b, -, hanswer⟩ := exec_uvarint_last h (Nat.le_refl 9) he
  have hgroup : 1 < ((src s 9).extractLsb' 0 7).toNat := by rwa [extract_group, Nat.mod_eq_of_lt he.last]
  exact ⟨_, hanswer _ (varintLastItem_overflows rfl hgroup) rfl, failsClean_failClean _ s⟩

/-- A varint whose groups fit 64 bits is answered, with the number of its bytes. -/
theorem exec_uvarint_reads {s : State} {k : Nat} (h : s.ops.srcBase + s.ops.srcLen ≤ 2 ^ s.cfg.aw) (hk : k ≤ 9)
    (he : VarintEndsAt s k) (h9 : k = 9 → (src s k).toNat ≤ 1) :
    ∃ t v, exec .uvarint s = .next t ∧ CommandEnds s t (okResponse (k + 1) v) ∧ v.toNat = groupSum (src s) (k + 1) ∧
      t.mem = s.mem := by
  obtain ⟨v, b, hsum, hanswer⟩ := exec_uvarint_last h hk he
  have hlegal : k ≠ 9 ∨ ((src s k).extractLsb' 0 7).toNat ≤ 1 := by
    rw [extract_group, Nat.mod_eq_of_lt he.last]
    exact Decidable.not_or_of_imp h9
  exact ⟨_, _, hanswer _ (varintLastItem_uvarint (s := inUvarint s v b k) hlegal rfl) rfl, commandEnds_succeed _ _ s,
    varint_value hsum hk he.last h9, rfl⟩

/-- Settles O18: the view check, the two ends of the loop, and the two outcomes of a last byte. -/
theorem uvarintOutcome : Obligations.UvarintOutcome := by
  intro s
  refine ⟨fun h => ?_, fun h => ⟨fun k hk he h9 => exec_uvarint_reads h hk he h9, exec_uvarint_overflows h,
    fun hlen hc => ?_, fun hlen hc => ?_⟩⟩
  · exact ⟨_, exec_uvarint_wraps h, failsClean_failClean _ s⟩
  · simpa using exec_uvarint_unfinished h hlen (Nat.le_refl _) (.inl (Nat.le_refl _)) hc
  · have hover : ¬s.ops.srcLen ≤ 10 := by omega
    simpa [hover] using exec_uvarint_unfinished h (Nat.le_refl 10) (by omega) (.inr (Nat.le_refl _)) hc

/-! ## The round trip (R127) -/

/-- A view that starts with the bytes of `v` holds a varint that ends at the last of them; a tenth byte is at most 1. -/
theorem varintEndsAt_of_bytes {s : State} {v : Value} (hin : varintLen v ≤ s.ops.srcLen)
    (hsrc : ∀ j (hj : j < (varintBytes v).length), src s j = (varintBytes v)[j]) :
    VarintEndsAt s (varintLen v - 1) ∧ (varintLen v - 1 = 9 → (src s (varintLen v - 1)).toNat ≤ 1) := by
  obtain ⟨hlen, hpos, -, hlt, -, hb⟩ := varintBytes_spec v
  refine ⟨⟨by omega, fun j hj => ?_, ?_⟩, fun h9 => ?_⟩
  · rw [hsrc j (by omega), hb, if_pos (by omega)]
    exact Nat.le_add_left _ _
  · rw [hsrc _ (by omega), hb, if_neg (by omega)]
    exact Nat.mod_lt _ (by omega)
  · have hten := varintBytes_tenth (v := v) (by omega)
    rw [List.getElem?_eq_getElem (by omega)] at hten
    rw [h9, hsrc 9 (by omega), Option.some.inj hten]
    decide

/-- UVARINT of a view that starts with the bytes of `v`. -/
theorem exec_uvarint_of_bytes {s : State} {v : Value} (h : s.ops.srcBase + s.ops.srcLen ≤ 2 ^ s.cfg.aw)
    (hin : varintLen v ≤ s.ops.srcLen) (hbytes : readBytes s.mem s.ops.srcBase (varintLen v) = varintBytes v) :
    ∃ t, exec .uvarint s = .next t ∧ CommandEnds s t (okResponse (varintLen v) v) ∧ t.mem = s.mem := by
  have hsrc : ∀ j (hj : j < (varintBytes v).length), src s j = (varintBytes v)[j] :=
    fun j hj => readByte_of_readBytes hbytes hj
  obtain ⟨hend, h9⟩ := varintEndsAt_of_bytes hin hsrc
  have hle := varintLen_le v
  obtain ⟨t, w, hexec, hends, hval, hmem⟩ := exec_uvarint_reads h (by omega) hend h9
  rw [Nat.sub_add_cancel (varintLen_pos v)] at hends hval
  obtain rfl : w = v := BitVec.eq_of_toNat_eq (hval.trans (groupSum_varintBytes hsrc))
  exact ⟨t, hexec, hends, hmem⟩

theorem failClean_status_ne_zero (c : Cause) (s : State) : (failClean c s).resp.status ≠ 0 := c.status_ne_zero

/-- A PUT_UVARINT that leaves STATUS 0 has written the whole varint. -/
theorem putUvarint_of_success {s t : State} (hexec : exec .putUvarint s = .next t) (hstatus : t.resp.status = 0) :
    t = putAll s := by
  obtain rfl : putUvarint s = t := Host.Outcome.next.inj hexec
  simp only [putUvarint, putEntry] at hstatus ⊢
  split_ifs at hstatus ⊢
  · exact absurd hstatus (failClean_status_ne_zero _ s)
  · exact absurd hstatus (failClean_status_ne_zero _ s)
  · rfl

/-- Settles O19: the bytes of `v` end where its varint does, their groups add up to `v`, and PUT_UVARINT leaves just these bytes. -/
theorem varintRoundTrip : Obligations.VarintRoundTrip := by
  refine ⟨fun s v => exec_uvarint_of_bytes, fun s t u hm hexec hstatus hmem hcfg hbase hcount hfits => ?_⟩
  obtain rfl := putUvarint_of_success hexec hstatus
  obtain ⟨w, hw, hends, -⟩ := exec_uvarint_of_bytes hfits hcount (by rw [hmem, hbase]; exact readBytes_putAll hm)
  exact ⟨w, hw, hends⟩

end Sys2Proof.Machine
end

section
/-! The match finder, operation by operation (R150 to R158): what each sets, and that it changes nothing else. -/

namespace Sys2Proof.Machine

/-! ## Table, window and hash (R150 to R154) -/

/-- Settles O31: the loop of TABLE_SETUP stops at the smallest power of two in its range. -/
theorem tableSetupGeometry : Obligations.TableSetupGeometry := tableSetup_spec

/-- The window is little-endian (R152, R53). -/
theorem windowAt_toNat (s : State) (p : Nat) : (windowAt s p).toNat = (src s p).toNat + (src s (p + 1)).toNat * 2 ^ 8
    + (src s (p + 2)).toNat * 2 ^ 16 + (src s (p + 3)).toNat * 2 ^ 24 := by
  simp only [windowAt, toNat_fields]
  omega

/-- The hash in numbers (R153). -/
theorem hashOf_eq (w : BitVec 32) (shift : Nat) : hashOf w shift = w.toNat * 0x1e35a7bd % 2 ^ 32 / 2 ^ shift := by
  rw [hashOf, BitVec.toNat_ushiftRight, Nat.shiftRight_eq_div_pow, BitVec.toNat_mul]
  rfl

/-- Settles O32: window and hash in numbers, and the bound on the hash. -/
theorem windowAndHash : Obligations.WindowAndHash := fun s hshift =>
  ⟨_, rfl, rfl, windowAt_toNat s s.enc.s, hashOf_eq _ _, hashOf_lt hshift⟩

/-- Settles O33: the laws of a table entry after a write to it and to another. -/
theorem probeReadsThenReplaces : Obligations.ProbeReadsThenReplaces := fun s hwf =>
  ⟨probeOp s, rfl, rfl, (tableGet_tableSet hwf).trans (if_pos rfl), fun _ hne => tableGet_tableSet_ne hne⟩

/-! ## The candidate (R155) -/

theorem candidateOp_of_noEntry {s : State} (h : s.enc.e = 0) : candidateOp s = s := if_pos h

theorem candidateOp_of_entry {s : State} (h : s.enc.e ≠ 0) : candidateOp s = s.modEnc fun r => { r with t := r.e - 1 } :=
  if_neg h

theorem isMatch_of_noEntry {s : State} (h : s.enc.e = 0) : isMatch s = false := by simp [isMatch, h]

/-- What makes a match, in full. -/
theorem isMatch_iff {s : State} : isMatch s = true ↔ s.enc.e ≠ 0 ∧ s.enc.s - s.enc.t ≤ s.cfg.encMaxOffset ∧
    ∀ j, j < 4 → src s (s.enc.t + j) = src s (s.enc.s + j) := by
  refine ⟨fun h => ⟨isMatch_entry h, (isMatch_spec h).1, fun j hj => ((isMatch_spec h).2 j hj).symm⟩, ?_⟩
  rintro ⟨hentry, hoff, heq⟩
  simp only [isMatch, Bool.and_eq_true, decide_eq_true_eq]
  exact ⟨⟨⟨⟨⟨hentry, hoff⟩, heq 0 (by omega)⟩, heq 1 (by omega)⟩, heq 2 (by omega)⟩, heq 3 (by omega)⟩

/-- Settles O34: the two branches of CANDIDATE; in a scan every entry is at most the position, so the candidate is before it. -/
theorem candidateTest : Obligations.CandidateTest := by
  refine ⟨fun s hnone => ?_, fun s hentry => ⟨_, rfl, candidateOp_of_entry hentry, ?_⟩, ?_⟩
  · rw [candidateOp_of_noEntry hnone]
    exact ⟨rfl, isMatch_of_noEntry hnone⟩
  · rw [candidateOp_of_entry hentry, isMatch_iff]
    exact and_iff_right hentry
  · rintro s p hinv ha hs rfl hentry
    exact ((probed_spec hinv ha hs).candidate hentry).2

/-! ## The extension of a match (R158) -/

/-- Settles O35: the loop's end gives the length, and the four bytes together with those of the loop are the equal ones. -/
theorem extendIsLongest : Obligations.ExtendIsLongest := by
  intro s ht hs heq
  obtain ⟨-, -, h4, -, -, hrep⟩ := extendOp_match hs ht heq
  obtain ⟨k, hle, hext, -, hend⟩ := extendOp_spec hs
  simp only [Nat.add_assoc, Nat.add_sub_add_right, Nat.add_sub_cancel_left] at hle hext hend
  have hmlen : (extendOp s).enc.mlen = 4 + k := by rw [hext]; rfl
  rw [hmlen] at h4 hrep
  exact ⟨4 + k, h4, hle, hext, hrep, hend⟩

end Sys2Proof.Machine
end

section
/-! A step of the scan of ENCODE (R156 to R159, R184 to R189): what a position without a match, a position with one, and the end
of the scan write, when it fits, and the failure of a pending run that is too long for a literal. -/

namespace Sys2Proof.Machine

/-! ## A step of the scan -/

/-- In the scan a step of the machine is a step of the scan. -/
theorem step_scan {s : State} (h : Inv s) (ha : s.activity = .scan) (hr : s.host.head? ≠ some .reset) :
    step s = .next (scanStep (useWait s)) := by
  rw [step_microStep h (by simp [ha]) (by simp [ha]) hr, microStep_scan (by rw [useWait_activity, ha])]

/-- WINDOW, HASH, PROBE and CANDIDATE change the encoder's registers and the table only (R152 to R155). -/
theorem probed_eq (s : State) : probed s = { s with enc := (probed s).enc, table := (probed s).table } := by
  unfold probed
  rw [candidateOp_eq]
  rfl

@[simp] theorem probed_cfg (s : State) : (probed s).cfg = s.cfg := by rw [probed_eq]
@[simp] theorem probed_ops (s : State) : (probed s).ops = s.ops := by rw [probed_eq]
@[simp] theorem probed_resp (s : State) : (probed s).resp = s.resp := by rw [probed_eq]
@[simp] theorem probed_dec (s : State) : (probed s).dec = s.dec := by rw [probed_eq]
@[simp] theorem probed_mem (s : State) : (probed s).mem = s.mem := by rw [probed_eq]
@[simp] theorem probed_d (s : State) : (probed s).enc.d = s.enc.d := candidateOp_d _

/-- The four operations of a scan position behind a wait of the host, which no register of the encoder sees. -/
theorem probed_useWait_spec {s : State} (h : Inv s) (ha : s.activity = .scan) (hs : s.enc.s + 3 < s.enc.n) :
    Probed s (probed (useWait s)) := by
  have henc := useWait_enc s
  obtain ⟨hmid, hact, hpos, hlit, hn, hcand⟩ :=
    probed_spec (inv_useWait h) (by rw [useWait_activity, ha]) (by rw [henc]; exact hs)
  rw [henc] at hmid hpos hlit hn hcand
  exact ⟨hmid, hact, hpos, hlit, hn, hcand⟩

/-- A step at a scan position takes the match or goes on without (R184). -/
theorem step_scanPosition {s : State} (h : Inv s) (ha : s.activity = .scan) (hr : s.host.head? ≠ some .reset)
    (hs : s.enc.s + 3 < s.enc.n) : step s = .next
      (if isMatch (probed (useWait s)) then takeMatch (probed (useWait s)) else noMatch (probed (useWait s))) := by
  rw [step_scan h ha hr, scanStep, useWait_enc, if_pos hs, scanPosition_eq]

/-- Settles O38: NO_MATCH behind the four operations, none of which writes memory or moves a cursor. -/
theorem scanWithoutMatch : Obligations.ScanWithoutMatch := by
  rintro s p hinv ha hr hs rfl hm
  have hprobed := probed_useWait_spec hinv ha hs
  refine ⟨noMatch (probed (useWait s)), ?_, ?_, hprobed.lit, ?_, ?_, hprobed.activity⟩
  · rw [step_scanPosition hinv ha hr hs, if_neg (by rw [probed, hm]; exact nofun)]
  · rw [← hprobed.pos]
    rfl
  · show (probed (useWait s)).enc.d = s.enc.d
    simp
  · show (probed (useWait s)).mem = s.mem
    simp

/-! ## The bytes of a step -/

/-- Bytes put into memory at the output cursor, and the cursor moved behind them. -/
theorem written_of_mem {s t : State} {bs : List Byte} (hwf : s.mem.wf = true) (hops : t.ops = s.ops)
    (hd : t.enc.d = s.enc.d + bs.length) (hmem : t.mem = writeBytes s.mem (s.ops.dstBase + s.enc.d) bs) : Written s t bs where
  cursor := hd
  bytes j hj := by
    rw [dst, hops, hmem, ← Nat.add_assoc]
    exact readByte_of_readBytes (readBytes_writeBytes_same hwf _ _) hj
  outside a ha := by
    rw [hmem]
    exact readByte_writeBytes_outside ha

/-- What the flush of the pending run up to source position `y` writes (R185, R186). -/
def pendingBytes (s : State) (y : Nat) : List Byte :=
  if s.enc.lit = y then []
  else encode (shortestLiteral (y - s.enc.lit - 1)) ++ readBytes s.mem (s.ops.srcBase + s.enc.lit) (y - s.enc.lit)

/-- Of the registers the start of the run alone matters. -/
theorem pendingBytes_congr {s t : State} (hlit : t.enc.lit = s.enc.lit) (hmem : t.mem = s.mem) (hops : t.ops = s.ops)
    (y : Nat) : pendingBytes t y = pendingBytes s y := by
  unfold pendingBytes
  rw [hlit, hmem, hops]

theorem flushLiteral_fits {s : State} {y : Nat} (ha : s.activity ≠ .idle) (hv : viewsOverlap s = false) (hrun : s.enc.lit ≤ y)
    (hy : y ≤ s.ops.srcLen) (h32 : y - s.enc.lit ≤ 2 ^ 32) (hfit : s.enc.d + (pendingBytes s y).length ≤ s.ops.dstLen) :
    flushLiteral y s = emitted s (pendingBytes s y) := by
  unfold flushLiteral
  unfold pendingBytes at hfit ⊢
  split_ifs at hfit ⊢ with hempty
  · rfl
  · have hm : y - s.enc.lit - 1 < 2 ^ 32 := by omega
    rw [emitLiteral_eq hv hrun hy (by omega) hm, literalElementBytes, literalHeader_eq hm, emitBytes_fits ha hfit]

theorem flushLiteral_tooLong {s : State} {y : Nat} (h : 2 ^ 32 < y - s.enc.lit) :
    flushLiteral y s = failEncode .sourceTooLong s := by
  rw [flushLiteral, if_neg (by omega), emitLiteral_tooLong (by omega)]

/-- EXTEND reads source bytes only, so what has been written before it does not matter (R57, R158). -/
theorem extendLoop_emitted {bs : List Byte} : ∀ (turns : Nat) {s : State}, viewsOverlap s = false →
    s.enc.d + bs.length ≤ s.ops.dstLen → s.enc.n ≤ s.ops.srcLen → s.enc.t ≤ s.enc.s →
    extendLoop turns (emitted s bs) = emitted (extendLoop turns s) bs
  | 0, _, _, _, _, _ => rfl
  | turns + 1, s, hv, hfit, hn, ht => by
    have hgo : (s.enc.s < s.enc.n ∧ src (emitted s bs) s.enc.s = src (emitted s bs) s.enc.t) ↔
        (s.enc.s < s.enc.n ∧ src s s.enc.s = src s s.enc.t) :=
      and_congr_right fun hs => by rw [src_emitted hv hfit (by omega), src_emitted hv hfit (by omega)]
    rw [extendLoop, extendLoop, apply_ite (emitted · bs)]
    exact if_congr hgo (extendLoop_emitted turns (s := s.modEnc fun r => { r with s := r.s + 1, t := r.t + 1 }) hv hfit hn
      (Nat.succ_le_succ ht)) rfl

theorem extendOp_emitted {bs : List Byte} {s : State} (hv : viewsOverlap s = false)
    (hfit : s.enc.d + bs.length ≤ s.ops.dstLen) (hn : s.enc.n ≤ s.ops.srcLen) (ht : s.enc.t ≤ s.enc.s) :
    extendOp (emitted s bs) = emitted (extendOp s) bs := by
  have hloop := extendLoop_emitted s.enc.n (s := s.modEnc fun r => { r with s0 := r.s, s := r.s + 4, t := r.t + 4 }) hv hfit hn
    (Nat.add_le_add_right ht 4)
  exact congrArg (State.modEnc fun r => { r with moff := r.s - r.t, mlen := r.s - r.s0 }) hloop

@[simp] theorem extendOp_ops (s : State) : (extendOp s).ops = s.ops := by rw [extendOp_eq]; rfl
@[simp] theorem extendOp_resp (s : State) : (extendOp s).resp = s.resp := by rw [extendOp_eq]; rfl
@[simp] theorem extendOp_dec (s : State) : (extendOp s).dec = s.dec := by rw [extendOp_eq]; rfl
@[simp] theorem extendOp_table (s : State) : (extendOp s).table = s.table := by rw [extendOp_eq]; rfl
@[simp] theorem extendOp_mem (s : State) : (extendOp s).mem = s.mem := by rw [extendOp_eq]; rfl
@[simp] theorem extendOp_activity (s : State) : (extendOp s).activity = s.activity := by rw [extendOp_eq]; rfl

/-- EXTEND from the match of a scan position (R155, R158): the cursor stays, and offset and length are in their bounds. -/
theorem Probed.extendOp_bounds {s p : State} (h : Probed s p) (hs : s.enc.s + 3 < s.enc.n) (hm : isMatch p = true) :
    (extendOp p).enc.d = p.enc.d ∧ (extendOp p).enc.moff < 2 ^ 16 ∧ 4 ≤ (extendOp p).enc.mlen ∧
      (extendOp p).enc.s = p.enc.s + (extendOp p).enc.mlen := by
  have ht := (h.candidate (isMatch_entry hm)).2
  have hmax := encMaxOffset_lt h.mid.sane.cfg
  obtain ⟨hnear, heq⟩ := isMatch_spec hm
  rw [← h.pos] at hs ht
  rw [← h.n] at hs
  obtain ⟨hd, hmoff, h4, hpos, -, -⟩ := extendOp_match hs ht heq
  exact ⟨hd, by omega, h4, hpos⟩

/-- The chain of the match at the scan position (R187). -/
def matchBytes (s : State) : List Byte := encodeAll (copyElements (extendOp s).enc.moff (extendOp s).enc.mlen)

/-- A match behind the flush, when its chain fits: the chain is written, and the next run starts behind the match (R159, R187). -/
theorem copyMatch_fits {s : State} (ha : s.activity ≠ .idle) (h1 : 1 ≤ (extendOp s).enc.mlen)
    (hoff : (extendOp s).enc.moff < 2 ^ 16) (hfit : (extendOp s).enc.d + (matchBytes s).length ≤ s.ops.dstLen) :
    copyMatch s = (emitted (extendOp s) (matchBytes s)).modEnc fun r => { r with mlen := 0, lit := r.s } := by
  have hact : (extendOp s).activity ≠ .idle := by rw [extendOp_activity]; exact ha
  have hchain : copyChain (extendOp s).enc.moff (extendOp s).enc.mlen (extendOp s).enc.mlen = matchBytes s :=
    copyChain_eq hoff h1 (Nat.le_refl _)
  have hcopy := emitCopyLoop_fits hact (Nat.le_refl _) (by rw [hchain, extendOp_ops]; exact hfit)
  rw [copyMatch, emitCopy, hcopy, hchain, unlessEnded_of_running (by exact ended_eq_false.2 hact)]
  rfl

/-- The match arm when its bytes fit: the pending literal and the chain, in this order (R184, R185). -/
theorem takeMatch_fits {s p : State} (h : Probed s p) (hs : s.enc.s + 3 < s.enc.n) (hm : isMatch p = true)
    (h32 : p.enc.s - p.enc.lit ≤ 2 ^ 32)
    (hfit : p.enc.d + (pendingBytes p p.enc.s ++ matchBytes p).length ≤ p.ops.dstLen) :
    takeMatch p = (emitted (extendOp p) (pendingBytes p p.enc.s ++ matchBytes p)).modEnc
      fun r => { r with mlen := 0, lit := r.s } := by
  have ha : p.activity ≠ .idle := by rw [h.activity]; decide
  have hn := h.mid.sourceLength
  have hscan := h.mid.scan
  have ht := (h.candidate (isMatch_entry hm)).2
  rw [← h.pos] at ht
  rw [List.length_append] at hfit
  obtain ⟨hd, hmoff, h4, -⟩ := h.extendOp_bounds hs hm
  have hflush := flushLiteral_fits ha h.mid.views.disjoint h.mid.run (by omega) h32 (by omega)
  have hext := extendOp_emitted (bs := pendingBytes p p.enc.s) h.mid.views.disjoint (by omega) hn.le ht.le
  have hmatch : matchBytes (emitted p (pendingBytes p p.enc.s)) = matchBytes p := by rw [matchBytes, hext]; rfl
  have hcopy := copyMatch_fits (s := emitted p (pendingBytes p p.enc.s)) ha
  rw [hmatch, hext] at hcopy
  simp only [emitted_enc, emitted_ops] at hcopy
  calc takeMatch p = unlessEnded copyMatch (flushLiteral p.enc.s p) := rfl
    _ = copyMatch (emitted p (pendingBytes p p.enc.s)) := by
      rw [hflush, unlessEnded_of_running (by exact ended_eq_false.2 ha)]
    _ = _ := by rw [hcopy (by omega) (by omega) (by omega), emitted_append]

/-- The match arm behind a pending run that is too long (R185, R186). -/
theorem takeMatch_tooLong {p : State} (h : 2 ^ 32 < p.enc.s - p.enc.lit) : takeMatch p = failEncode .sourceTooLong p :=
  calc takeMatch p = unlessEnded copyMatch (flushLiteral p.enc.s p) := rfl
    _ = failEncode .sourceTooLong p := by rw [flushLiteral_tooLong h, unlessEnded_of_ended rfl]

theorem encodeFinish_running {s : State} (ha : s.activity ≠ .idle) : encodeFinish s = succeed s.enc.d 0 s :=
  unlessEnded_of_running (ended_eq_false.2 ha)

/-! ## The outcomes of a step -/

/-- A command that has ended keeps what every operation keeps. -/
theorem Stays.commandEnds {lim : Nat} {s t : State} {r : Response} (h : Stays lim s t) (hr : t.resp = r)
    (ha : t.activity = .idle) : CommandEnds s t r := ⟨hr, h.ops, h.cfg, h.host, ha⟩

/-- A step of the scan that fails for a pending run that is too long (R186). -/
theorem scanStep_tooLong {s u : State} (h : scanStep (useWait s) = failEncode .sourceTooLong u) :
    CommandEnds (useWait s) (scanStep (useWait s)) (failResponse .sourceTooLong 0 0) ∧
      OnlyDstWritten s (scanStep (useWait s)) s.ops.dstLen := by
  have hstays := stays_scanStep (useWait s)
  refine ⟨hstays.commandEnds (by rw [h]; rfl) (by rw [h]; rfl), ?_⟩
  have hout := hstays.outside
  rwa [OnlyDstWritten, useWait_ops, useWait_mem] at hout

/-- Settles O39: the flush and the chain are one run of bytes, since EXTEND reads only the source; a run that is too long fails in
the flush. -/
theorem scanWithMatch : Obligations.ScanWithMatch := by
  rintro s p hinv ha hr hs rfl hm
  have h := probed_useWait_spec hinv ha hs
  have hstep : step s = .next (takeMatch (probed (useWait s))) := by
    rw [step_scanPosition hinv ha hr hs, if_pos (by exact hm)]
  refine ⟨?_, fun hlong => ?_⟩
  · intro h32 bs hbs hfit
    obtain rfl : bs = pendingBytes s s.enc.s ++ matchBytes (probed (useWait s)) := hbs
    have hpending : pendingBytes (probed (useWait s)) (probed (useWait s)).enc.s = pendingBytes s s.enc.s := by
      rw [h.pos, pendingBytes_congr h.lit (by simp) (by simp)]
    obtain ⟨hd, -, -, hpos⟩ := h.extendOp_bounds hs hm
    have hcursor : (extendOp (probed (useWait s))).enc.d = s.enc.d := by rw [hd, probed_d, useWait_enc]
    have htake := takeMatch_fits h hs hm (by rw [h.pos, h.lit]; exact h32)
      (by rw [hpending, probed_d, probed_ops, useWait_enc, useWait_ops]; exact hfit)
    rw [hpending] at htake
    rw [h.pos] at hpos
    rw [htake] at hstep
    exact ⟨_, hstep, written_of_mem hinv.sane.mem (by simp) (by simp [hcursor]) (by simp [hcursor]), hpos, rfl,
      extendOp_table _, by simpa using h.activity, by simp, by simp, by simp⟩
  · have hfail := takeMatch_tooLong (p := probed (useWait s)) (by rw [h.pos, h.lit]; exact hlong)
    rw [hfail] at hstep
    have hscan := Host.Outcome.next.inj ((step_scan hinv ha hr).symm.trans hstep)
    exact ⟨_, step_scan hinv ha hr, scanStep_tooLong hscan⟩

/-- Settles O40: the flush of the last run, then completion. -/
theorem scanEnds : Obligations.ScanEnds := by
  intro s hinv ha hr hs
  have hp := hinv.scan ha
  have hrun := hp.run
  have hscan := hp.scan
  have hsrc := hp.sourceLength
  have hstep := step_scan hinv ha hr
  have hend : scanStep (useWait s) = encodeFinish (flushLiteral s.enc.n (useWait s)) := by
    rw [scanStep, useWait_enc, if_neg (Nat.not_lt.2 hs)]
  refine ⟨?_, fun hlong => ?_⟩
  · intro h32 bs hbs hfit
    obtain rfl : bs = pendingBytes s s.enc.n := hbs
    have hpending : pendingBytes (useWait s) s.enc.n = pendingBytes s s.enc.n :=
      pendingBytes_congr (by simp) (by simp) (by simp) _
    have hflush := flushLiteral_fits (s := useWait s) (y := s.enc.n) (by simp [ha])
      ((viewsOverlap_useWait s).trans hp.views.disjoint) (by rw [useWait_enc]; omega) (by rw [useWait_ops]; exact hsrc.le)
      (by rw [useWait_enc]; exact h32) (by rw [hpending, useWait_enc, useWait_ops]; exact hfit)
    have hdone := encodeFinish_running (s := emitted (useWait s) (pendingBytes s s.enc.n)) (by simp [ha])
    rw [emitted_enc, useWait_enc] at hdone
    have hwritten : Written s (emitted (useWait s) (pendingBytes s s.enc.n)) (pendingBytes s s.enc.n) :=
      written_of_mem hinv.sane.mem (by simp) (by simp) (by simp)
    rw [hend, hflush, hpending, hdone] at hstep
    exact ⟨_, hstep, ⟨rfl, rfl, rfl, rfl, rfl⟩, hwritten.bytes, hwritten.outside⟩
  · have hfail := flushLiteral_tooLong (s := useWait s) (y := s.enc.n) (by rw [useWait_enc]; exact hlong)
    rw [hfail, encodeFinish_ended rfl] at hend
    exact ⟨_, hstep, scanStep_tooLong hend⟩

end Sys2Proof.Machine
end

section
/-! What the operations of ENCODE that write put into the destination view (R180, R186, R187), and the whole stream of a source of
four bytes or fewer (R182, R183). -/

namespace Sys2Proof.Machine

/-! ## MAX_ENCODED_LEN (R180) -/

/-- The bound of a source whose length fits its register fits 64 bits. -/
theorem maxEncodedLength_toNat {s : State} (hs : Sane s) : (BitVec.ofNat 64 (maxEncodedLength s.ops.srcLen)).toNat =
    32 + s.ops.srcLen + s.ops.srcLen / 6 := by
  have hlen := hs.ops.srcLen
  have haw := space_le hs.cfg
  rw [BitVec.toNat_ofNat]
  exact Nat.mod_eq_of_lt (by simp only [maxEncodedLength, Config.maxLenConst, Config.maxLenDiv]; omega)

/-- Settles O22: MAX_ENCODED_LEN succeeds with the bound, which 64 bits hold. -/
theorem maxEncodedLenResult : Obligations.MaxEncodedLenResult := fun s hs =>
  ⟨maxEncodedLen s, _, rfl, commandEnds_succeed _ _ s, maxEncodedLength_toNat hs, rfl⟩

/-! ## EMIT_LITERAL and EMIT_COPY (R186, R187) -/

/-- EMIT_LITERAL writes the shortest literal of its source bytes, when that fits (R186). -/
theorem emitLiteral_fits {s : State} {a b : Nat} (ha : s.activity ≠ .idle) (hv : viewsOverlap s = false) (hab : a < b)
    (hb : b ≤ s.ops.srcLen) (h32 : b - a ≤ 2 ^ 32)
    (hfit : s.enc.d + (encode (shortestLiteral (b - a - 1)) ++ readBytes s.mem (s.ops.srcBase + a) (b - a)).length ≤
      s.ops.dstLen) :
    emitLiteral a b s = emitted s (encode (shortestLiteral (b - a - 1)) ++ readBytes s.mem (s.ops.srcBase + a) (b - a)) := by
  have hm : b - a - 1 < 2 ^ 32 := by omega
  rw [emitLiteral_eq hv hab.le hb (by omega) hm, literalElementBytes, literalHeader_eq hm, emitBytes_fits ha hfit]

/-- Settles O36: the literal is one run of bytes at the cursor; one that is too long fails before it writes. -/
theorem emitLiteralBytes : Obligations.EmitLiteralBytes := by
  intro s a b hwf ha hv hab hb
  refine ⟨?_, fun hlong => ?_⟩
  · rintro h32 bs rfl hfit
    exact ⟨_, emitLiteral_fits ha hv hab hb h32 hfit, written_of_mem hwf rfl rfl rfl, rfl⟩
  · exact ⟨_, emitLiteral_tooLong (by omega), (stays_failEncode _ s).commandEnds rfl rfl, (stays_failEncode _ s).outside⟩

/-- Settles O37: the loop of EMIT_COPY writes one run of bytes, the chain in its closed form. -/
theorem emitCopyChain : Obligations.EmitCopyChain := by
  rintro s bs hwf ha h1 hoff rfl hfit
  have hchain := copyChain_eq hoff h1 (Nat.le_refl _)
  have hcopy := emitCopyLoop_fits ha (Nat.le_refl _) (by rw [hchain]; exact hfit)
  rw [hchain] at hcopy
  exact ⟨_, hcopy, written_of_mem hwf rfl rfl rfl, rfl⟩

/-! ## ENCODE from its entry (R181, R182) -/

theorem enter_encode_start {s : State} (hv : ViewsGood s) (hroom : maxEncodedLength s.ops.srcLen ≤ s.ops.dstLen) :
    enter .encode s = .next (startEncode s) :=
  (if_neg hv.fit).trans ((if_neg hv.apart).trans (if_neg (Nat.not_lt.2 hroom)))

/-- Past its entry checks ENCODE writes the prefix, and goes on with the short stream or the scan. -/
theorem exec_encode_opened {s : State} (hv : ViewsGood s) (hroom : maxEncodedLength s.ops.srcLen ≤ s.ops.dstLen) :
    exec .encode s = runToIdle (s.ops.srcLen + 2) (encodeBody (afterPrefix s)) := by
  have h32 := maxEncodedLength_ge s.ops.srcLen
  calc exec .encode s = runToIdle (s.ops.srcLen + 3) (startEncode s) := by
        rw [exec_eq_finish rfl, enter_encode_start hv hroom]
        rfl
    _ = runToIdle (s.ops.srcLen + 2) (microStep (startEncode s)) := rfl
    _ = _ := by rw [microStep_encodeStart rfl, encodeOpen_eq s (by omega)]

/-- Bytes written behind the prefix make one run with it. -/
theorem emitted_afterPrefix_mem {s : State} (hroom : 10 ≤ s.ops.dstLen) (bs : List Byte) :
    (emitted (afterPrefix s) bs).mem =
      writeBytes s.mem s.ops.dstBase (varintBytes (BitVec.ofNat 64 s.ops.srcLen) ++ bs) := by
  rw [afterPrefix_eq hroom, writeBytes_append, varintBytes_length]
  rfl

/-! ## A source of four bytes or fewer (R183) -/

/-- What follows the prefix of a source of four bytes or fewer. -/
def shortLines (bs : List Byte) : List Line := if bs = [] then [] else [.lit bs]

theorem shortElement_bytes {s : State} {bs : List Byte} (hs : Sane s) (hv : ViewsGood s) (hsrc : SourceIs s bs)
    (hroom : 10 ≤ s.ops.dstLen) (hn : s.ops.srcLen ≤ 4) :
    (if s.ops.srcLen = 0 then [] else literalElementBytes (afterPrefix s) 0 s.ops.srcLen) = listingBytes (shortLines bs) := by
  have hlen : bs.length = s.ops.srcLen := by rw [← hsrc, readBytes_length]
  have hkept := (listed_afterPrefix hs hv hsrc hroom).source
  rw [SourceIs, show (afterPrefix s).ops = s.ops by rw [afterPrefix_eq hroom]] at hkept
  have hslice : sourceSlice (afterPrefix s) 0 s.ops.srcLen = bs := by
    rw [sourceSlice, show (afterPrefix s).ops = s.ops by rw [afterPrefix_eq hroom]]
    exact hkept
  by_cases h0 : bs = []
  · rw [shortLines, if_pos h0, if_pos (by rw [← hlen, h0]; rfl)]
    rfl
  · have hpos := List.length_pos_iff.2 h0
    rw [shortLines, if_neg h0, if_neg (by omega), literalElementBytes_eq (by omega), hslice, listingBytes, List.flatMap_singleton]

/-- Settles O24: behind its entry ENCODE of a short source is the prefix and one literal, in one run of bytes. -/
theorem encodeShortInput : Obligations.EncodeShortInput := by
  rintro s bs stream hs hv hroom hn hsrc rfl
  have hrun := exec_encode_opened hv hroom
  rw [encodeBody_short (by omega) hv.disjoint hn, shortElement_bytes hs hv hsrc (by omega) hn, runToIdle_idle rfl,
    ← varintBytes_length, ← List.length_append] at hrun
  have hmem := emitted_afterPrefix_mem (s := s) (by omega) (listingBytes (shortLines bs))
  have hside := (listed_afterPrefix hs hv hsrc (by omega)).side
  refine ⟨_, hrun, ⟨rfl, hside.ops, hside.cfg, hside.host, rfl⟩, fun j hj => ?_, fun a ha => ?_⟩
  · rw [dst, succeed_mem, succeed_ops, emitted_ops, hside.ops, hmem]
    exact readByte_of_readBytes (readBytes_writeBytes_same hs.mem _ _) hj
  · rw [succeed_mem, hmem]
    exact readByte_writeBytes_outside ha

end Sys2Proof.Machine
end

section
/-! The size bound of ENCODE (R189, R192): what the scan has written is at most ten bytes of prefix and 61 bytes for 60 of the source,
so everything it writes fits, and ENCODE fails only for a literal that is too long (R186). -/

namespace Sys2Proof.Machine

/-! ## How many bytes a literal and a chain take -/

theorem headerBytes_shortestLiteral_le (m : Nat) : headerBytes (shortestLiteral m) ≤ 1 + (m + 1) / 60 := by
  unfold shortestLiteral
  split_ifs <;> simp only [headerBytes] <;> omega

theorem pendingBytes_length_le {s : State} {y : Nat} (hrun : s.enc.lit ≤ y) :
    (pendingBytes s y).length ≤ (y - s.enc.lit) + (y - s.enc.lit) / 60 + 1 := by
  have hheader := headerBytes_shortestLiteral_le (y - s.enc.lit - 1)
  unfold pendingBytes
  split_ifs with hempty
  · exact Nat.zero_le _
  · rw [List.length_append, encode_length, readBytes_length]
    omega

theorem headerBytes_lastCopy_le (off r : Nat) : headerBytes (lastCopy off r) ≤ 3 := by
  unfold lastCopy
  split_ifs
  · exact Nat.le_succ 2
  · exact Nat.le_refl 3

/-- The chain of a match is shorter than the match: three bytes at most for every 64 (R187). -/
theorem copyElements_length_lt {off len : Nat} (h4 : 4 ≤ len) : (encodeAll (copyElements off len)).length < len := by
  have hlast := headerBytes_lastCopy_le off (len - 64 * ((len - 1) / 64))
  have hfull : headerBytes (copy2Of off 64) = 3 := rfl
  rw [copyElements_eq, encodeAll, List.flatMap_append, List.flatMap_singleton, List.length_append, List.length_flatMap,
    List.map_replicate, List.sum_replicate_nat, encode_length, encode_length, hfull]
  omega

/-! ## A step of the scan that has room -/

/-- A scan step when what it writes fits: a match behind its pending run, no match, or the end of the scan (R184 to R189). -/
def scanNext (u : State) : State :=
  if u.enc.s + 3 < u.enc.n then
    if isMatch (probed u) then
      if u.enc.s - u.enc.lit ≤ 2 ^ 32 then
        (emitted (extendOp (probed u)) (pendingBytes u u.enc.s ++ matchBytes (probed u))).modEnc
          fun r => { r with mlen := 0, lit := r.s }
      else failEncode .sourceTooLong (probed u)
    else noMatch (probed u)
  else if u.enc.n - u.enc.lit ≤ 2 ^ 32 then
    succeed (u.enc.d + (pendingBytes u u.enc.n).length) 0 (emitted u (pendingBytes u u.enc.n))
  else failEncode .sourceTooLong u

/-- The match of a scan position (R155, R158): the output cursor stays, and the match lies in the source. -/
theorem probed_match {u : State} (hinv : Inv u) (ha : u.activity = .scan) (hs : u.enc.s + 3 < u.enc.n)
    (hm : isMatch (probed u) = true) : (extendOp (probed u)).enc.d = u.enc.d ∧ 4 ≤ (extendOp (probed u)).enc.mlen ∧
      (extendOp (probed u)).enc.s = u.enc.s + (extendOp (probed u)).enc.mlen ∧ (extendOp (probed u)).enc.s ≤ u.enc.n := by
  have hp := probed_spec hinv ha hs
  have ht := (hp.candidate (isMatch_entry hm)).2
  obtain ⟨hd, -, h4, hpos, hin, -⟩ := extendOp_match (by rw [hp.pos, hp.n]; exact hs) (by rw [hp.pos]; exact ht)
    (isMatch_spec hm).2
  rw [hp.pos] at hpos
  rw [hp.n] at hin
  rw [probed_d] at hd
  exact ⟨hd, h4, hpos, hin⟩

/-- ENCODE of `s` between two scan positions: what is written keeps the bound for the source bytes it stands for, and no other byte
has changed. -/
structure Compact (s u : State) : Prop where
  inv : Inv u
  activity : u.activity = .scan
  side : SameHostSide s u
  size : u.enc.d ≤ 10 + u.enc.lit + u.enc.lit / 60
  outside : OnlyDstWritten s u u.enc.d

section
variable {s u : State} (h : Compact s u)
include h

/-- Up to source position `y` a pending literal takes at most a byte more than the bound. -/
theorem Compact.pending_le {y : Nat} (hy : u.enc.lit ≤ y) : u.enc.d + (pendingBytes u y).length ≤ 11 + y + y / 60 := by
  have hsize := h.size
  have hlen := pendingBytes_length_le hy
  omega

/-- The chain of a match makes up for the literal's header. -/
theorem Compact.match_le (hs : u.enc.s + 3 < u.enc.n) (hm : isMatch (probed u) = true) :
    u.enc.d + (pendingBytes u u.enc.s ++ matchBytes (probed u)).length ≤
      10 + (extendOp (probed u)).enc.s + (extendOp (probed u)).enc.s / 60 := by
  obtain ⟨-, h4, hpos, -⟩ := probed_match h.inv h.activity hs hm
  have hpending := h.pending_le (h.inv.scan h.activity).run
  have hchain : (matchBytes (probed u)).length < (extendOp (probed u)).enc.mlen := copyElements_length_lt h4
  rw [List.length_append]
  omega

/-- With the bound kept so far every write of the step fits. -/
theorem Compact.scanStep_eq : scanStep u = scanNext u := by
  have ha := h.activity
  have hne : u.activity ≠ .idle := by rw [ha]; decide
  have hp := h.inv.scan ha
  have hrun := hp.run
  have hscan := hp.scan
  have hroom := hp.room
  simp only [maxEncodedLength, Config.maxLenConst, Config.maxLenDiv] at hroom
  unfold scanStep scanNext
  split_ifs with hs hm h32 h32
  · have hprobed := probed_spec h.inv ha hs
    have hpending : pendingBytes (probed u) (probed u).enc.s = pendingBytes u u.enc.s := by
      rw [hprobed.pos, pendingBytes_congr hprobed.lit (probed_mem u) (probed_ops u)]
    have hfit := h.match_le hs hm
    obtain ⟨-, -, -, hin⟩ := probed_match h.inv ha hs hm
    rw [scanPosition_eq, if_pos hm, takeMatch_fits hprobed hs hm (by rw [hprobed.pos, hprobed.lit]; exact h32)
      (by rw [hpending, probed_d, probed_ops]; omega), hpending]
  · have hprobed := probed_spec h.inv ha hs
    rw [scanPosition_eq, if_pos hm, takeMatch_tooLong (by rw [hprobed.pos, hprobed.lit]; omega)]
  · rw [scanPosition_eq, if_neg hm]
  · have hfit := h.pending_le (hrun.trans hscan)
    rw [flushLiteral_fits hne hp.views.disjoint (hrun.trans hscan) hp.sourceLength.le h32 (by omega)]
    exact encodeFinish_running hne
  · rw [flushLiteral_tooLong (by omega), encodeFinish_ended rfl]

theorem Compact.microStep_eq : microStep u = scanNext u := (microStep_scan h.activity).trans h.scanStep_eq

/-- Bytes written at the cursor: no byte behind them has changed. -/
theorem Compact.outside_emitted {v : State} (hops : v.ops = u.ops) (hmem : v.mem = u.mem) (hd : v.enc.d = u.enc.d)
    (bs : List Byte) : OnlyDstWritten s (emitted v bs) (u.enc.d + bs.length) := by
  intro a hout
  rw [← h.side.ops] at hout
  rw [emitted_mem, readByte_writeBytes_outside (by rw [hops, hd]; omega), hmem]
  exact h.outside a (by rw [← h.side.ops]; omega)

end

/-! ## From the start of the scan to the end -/

/-- ENCODE of `s` has ended within the bound, or at a literal of more than `2^32` bytes (R186, R192). -/
def EndsBounded (s t : State) : Prop :=
  t.activity = .idle ∧
    ((t.resp = okResponse t.resp.count 0 ∧ t.resp.count ≤ 32 + s.ops.srcLen + s.ops.srcLen / 6 ∧
        OnlyDstWritten s t t.resp.count) ∨
      (2 ^ 32 < s.ops.srcLen ∧ t.resp = failResponse .sourceTooLong 0 0))

/-- A step of the scan keeps the bound, or ends within it. -/
theorem Compact.step {s u : State} (h : Compact s u) : Compact s (microStep u) ∨ EndsBounded s (microStep u) := by
  have ha := h.activity
  have hp := h.inv.scan ha
  have hn := hp.sourceLength
  have hscan := hp.scan
  have hinv := inv_microStep h.inv
  have hside := sameHostSide_microStep h.side
  rw [h.side.ops] at hn
  rw [h.microStep_eq] at hinv hside ⊢
  unfold scanNext at hinv hside ⊢
  split_ifs at hinv hside ⊢ with hs hm h32 h32
  · obtain ⟨hd, -⟩ := probed_match h.inv ha hs hm
    refine .inl ⟨hinv, (extendOp_activity _).trans ((probed_activity u).trans ha), hside, ?_, ?_⟩
    · rw [modEnc_enc, emitted_enc, hd]
      exact h.match_le hs hm
    · rw [modEnc_enc, emitted_enc, hd]
      exact h.outside_emitted (by simp) (by simp) hd _
  · exact .inr ⟨rfl, .inr ⟨by omega, rfl⟩⟩
  · have hprobed := probed_spec h.inv ha hs
    have hd : (noMatch (probed u)).enc.d = u.enc.d := probed_d u
    have hlit : (noMatch (probed u)).enc.lit = u.enc.lit := hprobed.lit
    have hmem : (noMatch (probed u)).mem = u.mem := probed_mem u
    refine .inl ⟨hinv, hprobed.activity, hside, ?_, fun a ha => ?_⟩
    · rw [hd, hlit]
      exact h.size
    · rw [hd] at ha
      rw [hmem]
      exact h.outside a ha
  · have hfit := h.pending_le (hp.run.trans hscan)
    refine .inr ⟨rfl, .inl ⟨rfl, ?_, h.outside_emitted rfl rfl rfl _⟩⟩
    rw [succeed_resp]
    simp only
    omega
  · exact .inr ⟨rfl, .inr ⟨by omega, rfl⟩⟩

/-- At the start of the scan the prefix alone is written (R182, R184). -/
theorem compact_start {s : State} (hs : Sane s) (hv : ViewsGood s) (hroom : maxEncodedLength s.ops.srcLen ≤ s.ops.dstLen)
    (hn : 4 < s.ops.srcLen) : Compact s (encodeBody (afterPrefix s)) := by
  have h32 := maxEncodedLength_ge s.ops.srcLen
  have hle := varintLen_le (BitVec.ofNat 64 s.ops.srcLen)
  have hinv := (inv_encodeOpen_start hs hv hroom).1
  rw [encodeOpen_eq s (by omega)] at hinv
  obtain ⟨k, -, -, -, -, hk⟩ := encodeBody_long (s := s) (by omega) hn
  rw [hk] at hinv ⊢
  rw [afterPrefix_eq (by omega)] at hinv ⊢
  exact ⟨hinv, rfl, ⟨rfl, rfl, rfl⟩, by simp only; omega, fun a ha => readByte_writeBytes_outside (by rwa [varintBytes_length])⟩

theorem compact_run {s u t : State} (h : Compact s u) {n : Nat} (hrun : runToIdle n u = .next t) : EndsBounded s t := by
  have hend := (runToIdle_next hrun).1
  refine (runToIdle_induct (P := fun v => Compact s v ∨ EndsBounded s v) (fun v hv hne => ?_) (.inl h) hrun).resolve_left ?_
  · exact hv.elim Compact.step fun hv => absurd hv.1 hne
  · intro ht
    rw [ht.activity] at hend
    cases hend

/-- The stream of four bytes or fewer is within the bound (R183, R192). -/
theorem listingBytes_short_length (n : Nat) {bs : List Byte} (h4 : bs.length ≤ 4) :
    (listingBytes (.len (BitVec.ofNat 64 n) :: shortLines bs)).length ≤ 32 + bs.length := by
  have hle := varintLen_le (BitVec.ofNat 64 n)
  have hheader := headerBytes_le (shortestLiteral (bs.length - 1))
  rw [listingBytes, List.flatMap_cons, List.length_append, Line.bytes, varintBytes_length, shortLines]
  split_ifs
  · rw [List.flatMap_nil, List.length_nil]
    omega
  · rw [List.flatMap_singleton, Line.bytes, List.length_append, encode_length]
    omega

/-- ENCODE past its entry checks ends within the bound or at a literal that is too long. -/
theorem endsBounded_exec {s t : State} (hs : Sane s) (hv : ViewsGood s)
    (hroom : maxEncodedLength s.ops.srcLen ≤ s.ops.dstLen) (hexec : exec .encode s = .next t) : EndsBounded s t := by
  by_cases hn : s.ops.srcLen ≤ 4
  · obtain ⟨t', ht', hends, -, hout⟩ := encodeShortInput s _ _ hs hv hroom hn rfl rfl
    rw [hexec] at ht'
    cases ht'
    have hlen := listingBytes_short_length s.ops.srcLen (bs := readBytes s.mem s.ops.srcBase s.ops.srcLen)
      (by rwa [readBytes_length])
    rw [readBytes_length] at hlen
    refine ⟨hends.idle, .inl ?_⟩
    rw [hends.resp]
    exact ⟨rfl, Nat.le_add_right_of_le hlen, hout⟩
  · rw [exec_encode_opened hv hroom] at hexec
    exact compact_run (compact_start hs hv hroom (by omega)) hexec

/-- Settles O26: every step of the scan keeps the bound, so no write is refused. -/
theorem encodeSucceedsWithinBound : Obligations.EncodeSucceedsWithinBound := by
  intro s hs hv hroom
  obtain ⟨t, ht, hidle, -⟩ | ⟨-, hov, -⟩ := exec_command_ends (i := .encode) hs rfl
  · obtain ⟨hops, hcfg, hhost⟩ := operandsAreNeverWritten s t .encode ht
    refine ⟨t, ht, ?_⟩
    obtain ⟨-, ⟨hresp, hcount, hout⟩ | ⟨hlong, hresp⟩⟩ := endsBounded_exec hs hv hroom ht
    · exact .inl ⟨⟨hresp, hops, hcfg, hhost, hidle⟩, hcount, hout⟩
    · exact .inr ⟨hlong, ⟨hresp, hops, hcfg, hhost, hidle⟩, onlyDstWritten_exec ht⟩
  · exact absurd hov hv.apart

/-- A success has passed the entry check of the destination (R181). -/
theorem room_of_success {s t : State} (hv : ViewsGood s) (hexec : exec .encode s = .next t) (hstatus : t.resp.status = 0) :
    maxEncodedLength s.ops.srcLen ≤ s.ops.dstLen := by
  by_contra hroom
  rw [exec_of_enter_idle rfl (enter_encode_noRoom hv (by omega)) rfl] at hexec
  cases hexec
  exact failClean_status_ne_zero _ _ hstatus

/-- Settles O25: a success is past the entry checks. -/
theorem encodeSizeBound : Obligations.EncodeSizeBound := by
  intro s t hs hv hexec hstatus
  obtain ⟨-, ⟨-, hcount, -⟩ | ⟨-, hresp⟩⟩ := endsBounded_exec hs hv (room_of_success hv hexec hstatus) hexec
  · exact hcount
  · rw [hresp] at hstatus
    exact absurd hstatus Cause.sourceTooLong.status_ne_zero

/-- Settles O27: the stream is a listing that starts with the prefix. -/
theorem encodeWritesPrefix : Obligations.EncodeWritesPrefix := by
  intro s t hs hv hexec hstatus j hj
  obtain ⟨lines, stream, rfl, -, hbytes, -⟩ := encodeWritesAListing s t _ hs hv rfl hexec hstatus
  have hstream := hbytes j
  simp only [listingBytes, List.flatMap_cons, Line.bytes, readBytes_length] at hstream
  rw [hstream (by rw [List.length_append]; omega), List.getElem_append_left hj]

end Sys2Proof.Machine
end

section
/-! The round trip (R194): DECODE of a stream of ENCODE, line by line to its end, or to a literal of exactly `2^32` bytes, whose length
the guard of the decoder takes for 0 (R221). -/

namespace Sys2Proof.Machine

/-! ## A literal of `2^32` bytes -/

/-- The element of a literal of `2^32` bytes, header FC FF FF FF FF (R87). -/
def longestLiteral : Instr := .lit4 0xFFFFFFFF#32

/-- Of the lines ENCODE writes only a literal can be too long for the decoder. -/
theorem IsListing.long_literal {maxOffset : Nat} {lines : List Line} {out : List Byte} (h : IsListing maxOffset lines out)
    {l : Line} (hl : l ∈ lines) (hlong : ¬l.short) : ∃ x, l = .lit x ∧ 2 ^ 32 ≤ x.length := by
  rcases h.shape l hl with ⟨x, rfl⟩ | ⟨off, n, rfl, -⟩
  · refine ⟨x, rfl, Nat.not_lt.1 fun hx => hlong fun bs hbs => ?_⟩
    rcases hbs with hbs | hbs | ⟨_, hbs⟩ <;> cases hbs
    exact hx
  · refine absurd (fun bs hbs => ?_) hlong
    rcases hbs with hbs | hbs | ⟨_, hbs⟩ <;> cases hbs

/-- A literal line that reproduces bytes, and no fewer than `2^32`, is the longest literal. -/
theorem appendTo_long {old : Nat → Byte} {out out' x : List Byte} (h : (Line.lit x).appendTo old out = some out')
    (hx : 2 ^ 32 ≤ x.length) : (Line.lit x).bytes = encode longestLiteral ++ x ∧ out'.length = out.length + 2 ^ 32 := by
  simp only [Line.appendTo, Line.legal, Bool.and_eq_true, decide_eq_true_eq] at h
  split_ifs at h with hlegal
  cases h
  have hlen : x.length = 2 ^ 32 := by omega
  rw [Line.bytes, List.length_append, hlen]
  exact ⟨rfl, rfl⟩

/-- Lines that reproduce bytes are decoded up to the first literal of `2^32` bytes among them. -/
theorem Reproduced.lines_to_long {s : State} {total : Nat} : ∀ {lines : List Line} {u : State} {out out' : List Byte},
    Reproduced s u total out (listingBytes lines) → outputOf (dst s) lines out = some out' → out'.length ≤ total →
    (∀ l ∈ lines, ¬l.short → ∃ x, l = .lit x ∧ 2 ^ 32 ≤ x.length) → (∃ l ∈ lines, ¬l.short) →
    ∃ mid rest, Reaches s u total mid (encode longestLiteral ++ rest) ∧ mid.length + 2 ^ 32 ≤ out'.length
  | [], _, _, _, _, _, _, _, hlong => by simp at hlong
  | l :: ls, u, out, out', h, hl, hroom, hshape, hlong => by
    rw [outputOf_cons] at hl
    obtain ⟨next, hnext, hls⟩ := Option.bind_eq_some_iff.1 hl
    have hgrow := outputOf_length hls
    rw [List.forall_mem_cons] at hshape
    by_cases hshort : l.short
    · obtain ⟨k, hk⟩ := h.line hnext hshort (hgrow.trans hroom)
      have hlong' := ((List.exists_mem_cons_iff ..).1 hlong).resolve_left (not_not_intro hshort)
      obtain ⟨mid, rest, ⟨j, hj⟩, hmid⟩ := hk.lines_to_long hls hroom hshape.2 hlong'
      exact ⟨mid, rest, ⟨j + k, by rwa [Function.iterate_add_apply]⟩, hmid⟩
    · obtain ⟨x, rfl, hx⟩ := hshape.1 hshort
      obtain ⟨hbytes, hlen⟩ := appendTo_long hnext hx
      rw [listingBytes, List.flatMap_cons, hbytes, List.append_assoc] at h
      exact ⟨out, _, h.reaches, hlen ▸ hgrow⟩

/-- At the longest literal DECODE fails with the cursors of its tag byte (R221, R273). -/
theorem Reproduced.longest_fails {s u : State} {total : Nat} {out rest : List Byte}
    (h : Reproduced s u total out (encode longestLiteral ++ rest)) : (microStep u).activity = .idle ∧
      (microStep u).resp = failResponse .litLengthZero u.dec.s u.dec.d := by
  obtain ⟨hm, hL⟩ := h.microStep_eq rfl rfl
  have hin : u.dec.s + 5 ≤ u.dec.L := by simp only [longestLiteral, headerBytes] at hL; omega
  have hzero : literalLen32 0xFFFFFFFF#32 = 0 := by decide
  rw [hm, longestLiteral, runItem_literal rfl hin, literalElement, literalChecked, if_pos (by exact hzero)]
  exact ⟨rfl, rfl⟩

/-- Between two elements the source bytes still to be read stand where they stood before the command (R57). -/
theorem Reproduced.ahead_before {s u : State} {total : Nat} {out xs rest : List Byte} (h : Reproduced s u total out (xs ++ rest)) :
    u.dec.s + xs.length ≤ s.ops.srcLen ∧ readBytes s.mem (s.ops.srcBase + u.dec.s) xs.length = xs := by
  have hp := h.inv.elements h.activity
  have hleft := h.left
  have hstream := hp.streamLength
  rw [List.length_append] at hleft
  rw [← h.side.ops]
  refine ⟨by omega, Eq.trans (readBytes_congr fun j hj => ?_) (readBytes_split h.ahead).1⟩
  refine (h.outside _ ?_).symm
  rw [← h.side.ops, Nat.add_assoc]
  exact source_outside (lo := 0) hp.views.disjoint (by omega) (by have := hp.output; have := hp.declared; omega)

/-! ## DECODE of the stream -/

/-- DECODE over good views ends where its micro-steps end. -/
theorem exec_decode_of_iterate {s : State} (hs : Sane s) (hv : ViewsGood s) {k : Nat}
    (ha : (microStep^[k] (startDecode s)).activity = .idle) : exec .decode s = .next (microStep^[k] (startDecode s)) := by
  obtain ⟨t, ht⟩ := decode_ends (inv_startDecode hs hv) rfl rfl
  rw [exec_eq_finish rfl, enter_decode_start hv, ← runToIdle_unique ht (runToIdle_iff.2 ⟨ha, rfl⟩)]
  exact ht

/-- A DECODE that gets to the longest literal fails there, with what it has reproduced counted in ERR_D. -/
theorem exec_decode_longest {s : State} {total : Nat} {out rest : List Byte} (hs : Sane s) (hv : ViewsGood s)
    (h : Reaches s (startDecode s) total out (encode longestLiteral ++ rest)) :
    ∃ w errS, exec .decode s = .next w ∧ CommandEnds s w (failResponse .litLengthZero errS out.length) ∧
      errS + 5 ≤ s.ops.srcLen ∧ readBytes s.mem (s.ops.srcBase + errS) 5 = [0xFC, 0xFF, 0xFF, 0xFF, 0xFF] := by
  obtain ⟨k, hk⟩ := h
  obtain ⟨hidle, hresp⟩ := hk.longest_fails
  obtain ⟨hin, hheader⟩ := hk.ahead_before
  rw [← Function.iterate_succ_apply' microStep] at hidle hresp
  have hexec := exec_decode_of_iterate hs hv hidle
  obtain ⟨hops, hcfg, hhost⟩ := operandsAreNeverWritten s _ .decode hexec
  have hd := congrArg List.length hk.behind
  rw [readBytes_length] at hd
  exact ⟨_, _, hexec, ⟨hd ▸ hresp, hops, hcfg, hhost, hidle⟩, hin, hheader⟩

/-- A stream of ENCODE at another place is the source of the DECODE there. -/
theorem Encoded.sourceIs {s t u : State} {bs : List Byte} (h : Encoded s t bs) (hlen : u.ops.srcLen = t.resp.count)
    (hsame : ∀ j, j < t.resp.count → src u j = dst t j) : ∃ lines, IsListing s.cfg.encMaxOffset lines bs ∧
      SourceIs u (paddedVarint (varintLen (BitVec.ofNat 64 bs.length)) (BitVec.ofNat 64 bs.length) ++ listingBytes lines) := by
  obtain ⟨lines, -, hstream, hl⟩ := h
  refine ⟨lines, hl, ?_⟩
  rw [SourceIs, hlen, paddedVarint, if_pos (Nat.le_refl _)]
  exact Eq.trans (readBytes_congr hsame) hstream

/-- Settles O29: with no literal of `2^32` bytes the stream is a listing that DECODE reproduces; else DECODE gets to the first such
literal and fails there. -/
theorem encodeDecodeRoundTrip : Obligations.EncodeDecodeRoundTrip := by
  intro s t u hs hv hexec hstatus hsu hvu hlen hsame hroom
  obtain ⟨lines, hl, hsrc⟩ := (encoded_of_success hs hv rfl hexec hstatus).sourceIs hlen hsame
  have hbs : (readBytes s.mem s.ops.srcBase s.ops.srcLen).length = s.ops.srcLen := readBytes_length ..
  have h10 := varintLen_le (BitVec.ofNat 64 (readBytes s.mem s.ops.srcBase s.ops.srcLen).length)
  by_cases hshort : ∀ l ∈ lines, l.short
  · obtain ⟨w, hw, hends, hbytes, hout⟩ := decodeOfAListing u _ lines _ hsu hvu (hl.output _) hshort (by omega)
      (by simp only [Line.legal, Bool.and_eq_true, decide_eq_true_eq]; exact ⟨Nat.le_refl _, h10⟩) hsrc
    rw [hbs] at hends hout
    refine ⟨w, hw, .inl ⟨hends, fun j hj => ?_, hout⟩⟩
    rw [hbytes j (by omega), readBytes_getElem, src]
  · push Not at hshort
    have hstart := reproduced_start hsu hvu (hbs.le.trans hroom) (Nat.le_refl _) h10 hsrc
    obtain ⟨mid, rest, ⟨k, hk⟩, hmid⟩ := hstart.lines_to_long (hl.output _) (Nat.le_refl _) (fun _ => hl.long_literal) hshort
    rw [← Function.iterate_add_apply] at hk
    obtain ⟨w, errS, hw, hends, hin, hheader⟩ := exec_decode_longest hsu hvu ⟨_, hk⟩
    exact ⟨w, hw, .inr ⟨errS, mid.length, hends, hbs ▸ hmid, hin, hheader⟩⟩

end Sys2Proof.Machine
end

section
/-! ENCODE is a function of the source bytes and ENC_MAX_OFFSET (R193): two encodings of the same source go on in parallel, with the
same registers, table and stream, wherever their views lie. -/

namespace Sys2Proof.Machine

/-! ## The match finder on the same source (R152 to R158) -/

/-- Two states inside an ENCODE that agree on the encoder's registers, the table, the source bytes and ENC_MAX_OFFSET. -/
structure Twins (u u' : State) : Prop where
  enc : u'.enc = u.enc
  table : u'.table = u.table
  source : SameSource u u'
  maxOffset : u'.cfg.encMaxOffset = u.cfg.encMaxOffset

theorem Twins.src_eq {u u' : State} (h : Twins u u') {i : Nat} (hi : i < u.ops.srcLen) : src u' i = src u i :=
  (h.source.2 i hi).symm

theorem twins_modEnc {u u' : State} (h : Twins u u') (f : EncRegs → EncRegs) : Twins (u.modEnc f) (u'.modEnc f) :=
  ⟨congrArg f h.enc, h.table, h.source, h.maxOffset⟩

theorem twins_extendLoop : ∀ (turns : Nat) {u u' : State}, Twins u u' → u.enc.n ≤ u.ops.srcLen → u.enc.t ≤ u.enc.s →
    Twins (extendLoop turns u) (extendLoop turns u')
  | 0, _, _, h, _, _ => h
  | turns + 1, u, u', h, hn, ht => by
    have hgo : (u'.enc.s < u'.enc.n ∧ src u' u'.enc.s = src u' u'.enc.t) ↔
        (u.enc.s < u.enc.n ∧ src u u.enc.s = src u u.enc.t) := by
      rw [h.enc]
      exact and_congr_right fun hs => by rw [h.src_eq (by omega), h.src_eq (by omega)]
    rw [extendLoop, extendLoop, if_congr hgo rfl rfl]
    split_ifs
    · exact twins_extendLoop turns (twins_modEnc h _) hn (Nat.succ_le_succ ht)
    · exact h

section
variable {u u' : State} (h : Twins u u')
include h

theorem twins_windowOp (hs : u.enc.s + 3 < u.ops.srcLen) : Twins (windowOp u) (windowOp u') := by
  have hw : windowAt u' u'.enc.s = windowAt u u.enc.s := by
    rw [h.enc, windowAt, windowAt, h.src_eq (by omega), h.src_eq (by omega), h.src_eq (by omega), h.src_eq (by omega)]
  refine ⟨?_, h.table, h.source, h.maxOffset⟩
  rw [windowOp, windowOp, modEnc_enc, modEnc_enc, hw, h.enc]

theorem twins_probeOp : Twins (probeOp u) (probeOp u') where
  enc := by simp only [probeOp, h.enc, h.table]
  table := by simp only [probeOp, h.enc, h.table]
  source := h.source
  maxOffset := h.maxOffset

theorem twins_candidateOp : Twins (candidateOp u) (candidateOp u') := by
  unfold candidateOp
  rw [h.enc]
  split_ifs
  · exact h
  · exact twins_modEnc h _

theorem twins_probed (hs : u.enc.s + 3 < u.ops.srcLen) : Twins (probed u) (probed u') :=
  twins_candidateOp (twins_probeOp (twins_modEnc (twins_windowOp h hs) _))

theorem Twins.isMatch_eq (hs : u.enc.s + 3 < u.ops.srcLen) (ht : u.enc.e ≠ 0 → u.enc.t < u.enc.s) :
    isMatch u' = isMatch u := by
  rw [Bool.eq_iff_iff, isMatch_iff, isMatch_iff, h.enc, h.maxOffset]
  refine and_congr_right fun he => and_congr_right fun _ => forall₂_congr fun j hj => ?_
  have hbefore := ht he
  rw [h.src_eq (by omega), h.src_eq (by omega)]

theorem twins_extendOp (hn : u.enc.n ≤ u.ops.srcLen) (ht : u.enc.t ≤ u.enc.s) : Twins (extendOp u) (extendOp u') := by
  have hstart := twins_modEnc h fun r => { r with s0 := r.s, s := r.s + 4, t := r.t + 4 }
  rw [extendOp, extendOp, h.enc]
  exact twins_modEnc (twins_extendLoop u.enc.n hstart hn (Nat.add_le_add_right ht 4)) _

theorem Twins.pendingBytes_eq {y : Nat} (hy : y ≤ u.ops.srcLen) : pendingBytes u' y = pendingBytes u y := by
  have hbytes : readBytes u'.mem (u'.ops.srcBase + u.enc.lit) (y - u.enc.lit) =
      readBytes u.mem (u.ops.srcBase + u.enc.lit) (y - u.enc.lit) := by
    refine readBytes_congr fun j hj => ?_
    rw [Nat.add_assoc, Nat.add_assoc]
    exact h.src_eq (by omega)
  rw [pendingBytes, pendingBytes, h.enc, hbytes]

theorem Twins.matchBytes_eq (hn : u.enc.n ≤ u.ops.srcLen) (ht : u.enc.t ≤ u.enc.s) : matchBytes u' = matchBytes u := by
  rw [matchBytes, matchBytes, (twins_extendOp h hn ht).enc]

end

/-! ## The stream -/

/-- The stream written so far. -/
def streamOf (u : State) : List Byte := readBytes u.mem u.ops.dstBase u.enc.d

theorem streamOf_congr {u v : State} (hmem : v.mem = u.mem) (hops : v.ops = u.ops) (hd : v.enc.d = u.enc.d) :
    streamOf v = streamOf u := by
  rw [streamOf, hmem, hops, hd, streamOf]

/-- Bytes written at the cursor of a state with the stream of `u` go on with it. -/
theorem streamOf_emitted {u v : State} (hwf : u.mem.wf = true) (hmem : v.mem = u.mem) (hops : v.ops = u.ops)
    (hd : v.enc.d = u.enc.d) (bs : List Byte) : streamOf (emitted v bs) = streamOf u ++ bs := by
  have hold : readBytes (emitted v bs).mem v.ops.dstBase v.enc.d = streamOf v :=
    readBytes_congr fun j hj => readByte_writeBytes_outside (.inl (by omega))
  rw [← streamOf_congr hmem hops hd, streamOf, emitted_ops, emitted_enc, readBytes_add, hold]
  exact congrArg (_ ++ ·) (readBytes_writeBytes_same (by rw [hmem]; exact hwf) _ _)

theorem dst_eq_of_streamOf {u u' : State} (h : streamOf u' = streamOf u) {j : Nat} (hj : j < u.enc.d) : dst u j = dst u' j := by
  have hlen : j < (streamOf u).length := by rwa [streamOf, readBytes_length]
  exact (readByte_of_readBytes rfl hlen).trans (readByte_of_readBytes h hlen).symm

/-! ## Two encodings in parallel -/

/-- The encodings of `s` and `s'` between the same two scan positions. -/
structure Parallel (s s' u u' : State) : Prop where
  compact : Compact s u
  compact' : Compact s' u'
  enc : u'.enc = u.enc
  table : u'.table = u.table
  stream : streamOf u' = streamOf u

/-- The source bytes are those from before the command (R57). -/
theorem Compact.src_eq {s u : State} (h : Compact s u) {i : Nat} (hi : i < s.ops.srcLen) : src u i = src s i := by
  have hp := h.inv.scan h.activity
  have hw := hp.written
  rw [h.side.ops] at hw
  rw [src, h.side.ops]
  refine h.outside _ (source_outside (lo := 0) ?_ hi (by omega))
  exact (viewsOverlap_congr h.side.ops).symm.trans hp.views.disjoint

/-- A scan step that does not end the command keeps the bound. -/
theorem Compact.goes_on {s u v : State} (h : Compact s u) (hv : microStep u = v) (ha : v.activity = u.activity) :
    Compact s v := by
  rw [← hv] at ha ⊢
  refine h.step.resolve_right fun hend => ?_
  rw [hend.1, h.activity] at ha
  cases ha

theorem Parallel.twins {s s' u u' : State} (h : Parallel s s' u u') (hsrc : SameSource s s')
    (hmax : s.cfg.encMaxOffset = s'.cfg.encMaxOffset) : Twins u u' := by
  refine ⟨h.enc, h.table, ⟨?_, fun j hj => ?_⟩, ?_⟩
  · rw [h.compact.side.ops, h.compact'.side.ops, hsrc.1]
  · rw [h.compact.side.ops] at hj
    rw [h.compact.src_eq hj, h.compact'.src_eq (hsrc.1 ▸ hj), hsrc.2 j hj]
  · rw [h.compact.side.cfg, h.compact'.side.cfg, hmax]

theorem sameAnswer_failEncode (c : Cause) (u u' : State) : SameAnswer (failEncode c u) (failEncode c u') :=
  ⟨rfl, rfl, rfl, fun h => absurd h c.status_ne_zero⟩

section
variable {s s' u u' : State} (h : Parallel s s' u u') (hT : Twins u u')
include h hT

/-- At a scan position the two take the same match, find none, or fail alike (R184 to R187). -/
theorem Parallel.step_position (hs : u.enc.s + 3 < u.enc.n) :
    Parallel s s' (microStep u) (microStep u') ∨ SameAnswer (microStep u) (microStep u') := by
  have ha := h.compact.activity
  have hp := h.compact.inv.scan ha
  have hn := hp.sourceLength
  have hscan := hp.scan
  have hprobed := probed_spec h.compact.inv ha hs
  have hpos := hprobed.pos
  have hcand : (probed u).enc.e ≠ 0 → (probed u).enc.t < (probed u).enc.s := fun he => hpos ▸ (hprobed.candidate he).2
  have hP := twins_probed hT (by omega)
  have hu := h.compact.microStep_eq
  have hu' := h.compact'.microStep_eq
  unfold scanNext at hu hu'
  rw [if_pos hs] at hu
  rw [h.enc, if_pos hs, hP.isMatch_eq (by rw [hpos, probed_ops]; omega) hcand] at hu'
  split_ifs at hu hu' with hm h32
  · have hPn := hprobed.mid.sourceLength.le
    have ht := (hcand (isMatch_entry hm)).le
    have hE := twins_extendOp hP hPn ht
    have hd := (probed_match h.compact.inv ha hs hm).1
    have hd' : (extendOp (probed u')).enc.d = u'.enc.d := by rw [hE.enc, hd, h.enc]
    rw [hT.pendingBytes_eq (by omega), hP.matchBytes_eq hPn ht] at hu'
    have hgo := h.compact.goes_on hu (by simp [probed_activity])
    have hgo' := h.compact'.goes_on hu' (by simp [probed_activity])
    rw [hu, hu']
    refine .inl ⟨hgo, hgo', ?_, hE.table, ?_⟩
    · rw [modEnc_enc, modEnc_enc, emitted_enc, emitted_enc, hE.enc]
    · show streamOf (emitted (extendOp (probed u')) _) = streamOf (emitted (extendOp (probed u)) _)
      rw [streamOf_emitted h.compact.inv.sane.mem (by simp) (by simp) hd,
        streamOf_emitted h.compact'.inv.sane.mem (by simp) (by simp) hd', h.stream]
  · rw [hu, hu']
    exact .inr (sameAnswer_failEncode _ _ _)
  · have hgo := h.compact.goes_on hu (probed_activity u)
    have hgo' := h.compact'.goes_on hu' (probed_activity u')
    rw [hu, hu']
    refine .inl ⟨hgo, hgo', (twins_modEnc hP _).enc, hP.table, ?_⟩
    calc streamOf (noMatch (probed u')) = streamOf u' := streamOf_congr (probed_mem u') (probed_ops u') (probed_d u')
      _ = streamOf u := h.stream
      _ = streamOf (noMatch (probed u)) := (streamOf_congr (probed_mem u) (probed_ops u) (probed_d u)).symm

/-- At the end of the scan the two answer the same stream, or fail alike (R188, R189). -/
theorem Parallel.step_end (hs : ¬u.enc.s + 3 < u.enc.n) : SameAnswer (microStep u) (microStep u') := by
  have hu := h.compact.microStep_eq
  have hu' := h.compact'.microStep_eq
  unfold scanNext at hu hu'
  rw [if_neg hs] at hu
  rw [h.enc, if_neg hs, hT.pendingBytes_eq (h.compact.inv.scan h.compact.activity).sourceLength.le] at hu'
  rw [hu, hu']
  split_ifs with h32
  · refine ⟨rfl, rfl, rfl, fun _ j hj => ?_⟩
    refine dst_eq_of_streamOf (u := emitted u _) (u' := emitted u' _) ?_ hj
    rw [streamOf_emitted h.compact.inv.sane.mem rfl rfl rfl, streamOf_emitted h.compact'.inv.sane.mem rfl rfl rfl, h.stream]
  · exact sameAnswer_failEncode _ _ _

end

/-- Two encodings of the same source in parallel end alike. -/
theorem Parallel.runToIdle {s s' u u' t t' : State} (h : Parallel s s' u u') (hsrc : SameSource s s')
    (hmax : s.cfg.encMaxOffset = s'.cfg.encMaxOffset) {n : Nat} (ht : runToIdle n u = .next t)
    (ht' : runToIdle n u' = .next t') : SameAnswer t t' := by
  have hall : ∀ k, Parallel s s' (microStep^[k] u) (microStep^[k] u') ∨ SameAnswer (microStep^[k] u) (microStep^[k] u') := by
    intro k
    induction k with
    | zero => exact .inl h
    | succ k ih =>
      rw [Function.iterate_succ_apply', Function.iterate_succ_apply']
      rcases ih with hk | hk
      · have hT := hk.twins hsrc hmax
        by_cases hs : (microStep^[k] u).enc.s + 3 < (microStep^[k] u).enc.n
        · exact hk.step_position hT hs
        · exact .inr (hk.step_end hT hs)
      · rw [microStep_idle hk.ended, microStep_idle hk.ended']
        exact .inr hk
  obtain ⟨hidle, rfl⟩ := runToIdle_iff.1 ht
  obtain ⟨-, rfl⟩ := runToIdle_iff.1 ht'
  refine (hall n).resolve_left fun hn => ?_
  rw [hn.compact.activity] at hidle
  cases hidle

/-! ## From the command's start -/

/-- Of the registers the encoder holds at its start only the source length counts, when the others are the same (R182, R184). -/
theorem encodeBody_enc {u u' : State} (h : u'.enc = u.enc) (hn : 4 < u.enc.n) :
    (encodeBody u').enc = (encodeBody u).enc ∧ (encodeBody u').table = (encodeBody u).table := by
  have hlong : ¬u.enc.n ≤ Config.shortInput := Nat.not_le.2 hn
  rw [encodeBody, encodeBody, h, if_neg hlong, if_neg hlong]
  simp only [tableClear, tableSetup, modEnc_enc, modEnc_table, State.setActivity, h, and_self]

/-- At the start of the scan the stream is the prefix (R182). -/
theorem streamOf_start {s : State} (hs : Sane s) (hv : ViewsGood s) (hroom : 10 ≤ s.ops.dstLen) (hn : 4 < s.ops.srcLen) :
    streamOf (encodeBody (afterPrefix s)) = varintBytes (BitVec.ofNat 64 s.ops.srcLen) := by
  obtain ⟨k, -, -, -, -, hk⟩ := encodeBody_long hroom hn
  have hstream := (listed_afterPrefix hs hv rfl hroom).stream
  rw [readBytes_length, listingBytes, List.flatMap_singleton] at hstream
  rw [hk]
  exact hstream

theorem parallel_start {s s' : State} (hs : Sane s) (hs' : Sane s') (hv : ViewsGood s) (hv' : ViewsGood s')
    (hroom : maxEncodedLength s.ops.srcLen ≤ s.ops.dstLen) (hroom' : maxEncodedLength s'.ops.srcLen ≤ s'.ops.dstLen)
    (hlen : s.ops.srcLen = s'.ops.srcLen) (henc : s'.enc = s.enc) (hn : 4 < s.ops.srcLen) :
    Parallel s s' (encodeBody (afterPrefix s)) (encodeBody (afterPrefix s')) := by
  have h32 := maxEncodedLength_ge s.ops.srcLen
  have h32' := maxEncodedLength_ge s'.ops.srcLen
  have hsame : (afterPrefix s').enc = (afterPrefix s).enc := by
    rw [afterPrefix_eq (by omega), afterPrefix_eq (by omega), ← hlen, henc]
  obtain ⟨hbody, htable⟩ := encodeBody_enc hsame (by rw [afterPrefix_eq (by omega)]; exact hn)
  refine ⟨compact_start hs hv hroom hn, compact_start hs' hv' hroom' (hlen ▸ hn), hbody, htable, ?_⟩
  rw [streamOf_start hs hv (by omega) hn, streamOf_start hs' hv' (by omega) (hlen ▸ hn), hlen]

/-- With cleared encoder registers, which an ENCODE does not look at. -/
def cleared (s : State) : State := { s with enc := State.reset.enc }

theorem exec_encode_cleared (s : State) : exec .encode (cleared s) = exec .encode s :=
  nothingCarriesOver s (cleared s) .encode rfl rfl rfl rfl rfl rfl

theorem sane_cleared {s : State} (h : Sane s) : Sane (cleared s) :=
  have hpos := space_pos s.cfg
  { h with enc := ⟨hpos, hpos, hpos, hpos, hpos, hpos, Nat.two_pow_pos _, Nat.two_pow_pos _, Nat.two_pow_pos _, hpos, hpos, hpos⟩ }

theorem viewsGood_cleared {s : State} (h : ViewsGood s) : ViewsGood (cleared s) := ⟨h.srcExists, h.dstExists, h.disjoint⟩

/-- Settles O30: a short source has one stream; two encodings of a longer one start in parallel, from cleared registers, and end
alike. -/
theorem encodeIsAFunctionOfTheSource : Obligations.EncodeIsAFunctionOfTheSource := by
  intro s s' t t' hs hs' hv hv' hroom hroom' hmax hsrc ht ht'
  by_cases hn : s.ops.srcLen ≤ 4
  · have hsrc' : SourceIs s' (readBytes s.mem s.ops.srcBase s.ops.srcLen) := by
      rw [SourceIs, ← hsrc.1]
      exact readBytes_congr fun j hj => (hsrc.2 j hj).symm
    obtain ⟨w, hw, hends, hbytes, -⟩ := encodeShortInput s _ _ hs hv hroom hn rfl rfl
    obtain ⟨w', hw', hends', hbytes', -⟩ := encodeShortInput s' _ _ hs' hv' hroom' (hsrc.1 ▸ hn) hsrc' rfl
    rw [ht] at hw
    rw [ht'] at hw'
    cases hw
    cases hw'
    rw [← hsrc.1] at hends' hbytes'
    rw [hends.resp, hends'.resp]
    exact ⟨rfl, fun j hj => (hbytes j hj).trans (hbytes' j hj).symm⟩
  · have hstart := parallel_start (sane_cleared hs) (sane_cleared hs') (viewsGood_cleared hv) (viewsGood_cleared hv') hroom hroom'
      hsrc.1 rfl (Nat.not_le.1 hn)
    have hrecord := (responseRecord s t .encode rfl ht).2
    rw [← exec_encode_cleared, exec_encode_opened (viewsGood_cleared hv) hroom] at ht
    rw [← exec_encode_cleared, exec_encode_opened (viewsGood_cleared hv') hroom'] at ht'
    have hend := hstart.runToIdle hsrc hmax ht (by rw [← ht', show (cleared s).ops.srcLen = _ from hsrc.1]; rfl)
    refine ⟨hend.resp, fun j hj => ?_⟩
    by_cases h0 : t.resp.status = 0
    · exact hend.output h0 j hj
    · rw [(hrecord h0).1] at hj
      cases hj

end Sys2Proof.Machine
end

section
/-! The tag interpreter (R214 to R226): the ends of an element that fails, a literal by the branches of its tests, the end of the
stream, and DECODE of one literal. -/

namespace Sys2Proof.Machine

/-! ## Failures -/

theorem commandEnds_fail (c : Cause) (eS eD limit : Nat) (s : State) :
    CommandEnds s (fail c eS eD limit s) (failResponse c eS eD) := ⟨rfl, rfl, rfl, rfl, rfl⟩

theorem onlyDstWritten_fail (c : Cause) (eS eD limit : Nat) (s : State) : OnlyDstWritten s (fail c eS eD limit s) limit :=
  fun _ ha => readByte_residue_outside ha

/-- An element that fails behind a change of the decoder's registers: the failure records the place of the tag byte and the
output cursor, which the change has kept (R273). -/
theorem elementFails_modDec {f : DecRegs → DecRegs} {s : State} (c : Cause) (hsEl : (f s.dec).sEl = s.dec.sEl)
    (hd : (f s.dec).d = s.dec.d) (hdLen : (f s.dec).dLen = s.dec.dLen) : ElementFails s (failElement c (s.modDec f)) c where
  ends := ⟨by rw [failElement_resp, modDec_dec, hsEl, hd]; rfl, rfl, rfl, rfl, rfl⟩
  outside := fun _ ha => readByte_residue_outside (by rwa [modDec_dec, hdLen])

theorem elementFails_failElement (c : Cause) (s : State) : ElementFails s (failElement c s) c :=
  elementFails_modDec (f := id) c rfl rfl rfl

/-- Settles O45: COPY4 is this failure, and inside DECODE the element's accesses stay in the views. -/
theorem copy4AlwaysFails : Obligations.Copy4AlwaysFails := fun s _ hinv ha =>
  ⟨_, exec_inBounds rfl hinv ha, elementFails_failElement .copy4Tag s⟩

/-! ## A literal -/

/-- The five forms are one: LIT0 needs no test of its header, since the tag byte is in the view (R216). -/
theorem runItem_eq_literalForm {i : Instr} {header : Nat} {x : BitVec 32} {s : State} (hl : literalOf i = some (header, x))
    (hs : s.dec.s < s.dec.L) : runItem i s = literalForm header x s := by
  cases i with
  | lit0 n => cases hl; exact (if_neg (Nat.not_lt.2 hs)).symm
  | lit1 n | lit2 n | lit3 n | lit4 n => cases hl; rfl
  | _ => cases hl

theorem exec_literal {i : Instr} {header : Nat} {x : BitVec 32} {s : State} (hinv : Inv s) (ha : s.activity = .elements)
    (hs : s.dec.s < s.dec.L) (hl : literalOf i = some (header, x)) : exec i s = .next (literalForm header x s) := by
  rw [exec_inBounds (literalOf_header hl).2 hinv ha, runItem_eq_literalForm hl hs]

/-- The length guard compares 32 bits, so it finds the length `2^32` and no other (R221). -/
theorem literalLen32_eq_zero_iff (x : BitVec 32) : literalLen32 x = 0 ↔ literalLen x = 2 ^ 32 := by
  have hx := x.isLt
  simp only [literalLen32, literalLen]
  omega

/-- A literal whose header is in the view, at its three length tests: `x` and `len` are set, and the source cursor stands on the
first literal byte (R221). -/
def atLengthTests (header : Nat) (x : BitVec 32) (s : State) : State :=
  s.modDec fun r => { r with x := x, len := literalLen x, s := r.s + header }

section
variable {header : Nat} {x : BitVec 32} {s : State}

theorem literalForm_truncated (hs : s.dec.L < s.dec.s + header) :
    ElementFails s (literalForm header x s) .litExtraTruncated := by
  rw [literalForm, if_pos hs]
  exact elementFails_failElement ..

theorem literalForm_whole (hs : s.dec.s + header ≤ s.dec.L) :
    literalForm header x s = literalChecked (atLengthTests header x s) := if_neg (Nat.not_lt.2 hs)

theorem literalForm_fails {c : Cause} (hs : s.dec.s + header ≤ s.dec.L)
    (hc : literalChecked (atLengthTests header x s) = failElement c (atLengthTests header x s)) :
    ElementFails s (literalForm header x s) c := by
  rw [literalForm_whole hs, hc]
  exact elementFails_modDec c rfl rfl rfl

theorem literalForm_lengthZero (hs : s.dec.s + header ≤ s.dec.L) (hlen : literalLen x = 2 ^ 32) :
    ElementFails s (literalForm header x s) .litLengthZero :=
  literalForm_fails hs (if_pos ((literalLen32_eq_zero_iff x).2 hlen))

theorem literalForm_exceedsDst (hs : s.dec.s + header ≤ s.dec.L) (hlen : literalLen x < 2 ^ 32)
    (hdst : s.dec.dLen - s.dec.d < literalLen x) : ElementFails s (literalForm header x s) .litExceedsDst :=
  have hguard := mt (literalLen32_eq_zero_iff x).1 hlen.ne
  literalForm_fails hs ((if_neg hguard).trans (if_pos hdst))

theorem literalForm_exceedsSrc (hs : s.dec.s + header ≤ s.dec.L) (hlen : literalLen x < 2 ^ 32)
    (hdst : literalLen x ≤ s.dec.dLen - s.dec.d) (hsrc : s.dec.L - (s.dec.s + header) < literalLen x) :
    ElementFails s (literalForm header x s) .litExceedsSrc :=
  have hguard := mt (literalLen32_eq_zero_iff x).1 hlen.ne
  literalForm_fails hs ((if_neg hguard).trans ((if_neg (Nat.not_lt.2 hdst)).trans (if_pos hsrc)))

/-- A literal that passes its tests moves its bytes and both cursors (R221, R251). -/
theorem literalForm_done (hinv : Inv s) (ha : s.activity = .elements) (hs : s.dec.s + header ≤ s.dec.L)
    (hlen : literalLen x < 2 ^ 32) (hdst : literalLen x ≤ s.dec.dLen - s.dec.d)
    (hsrc : literalLen x ≤ s.dec.L - (s.dec.s + header)) :
    ElementDone s (literalForm header x s)
      { s.dec with x := x, len := literalLen x, s := s.dec.s + header + literalLen x, d := s.dec.d + literalLen x }
      (literalLen x) (fun j => src s (s.dec.s + header + j)) := by
  have hp := hinv.elements ha
  obtain ⟨hdec, hbytes, houtside, hrest⟩ := literalElement_done (s := s.modDec fun r => { r with x := x, s := r.s + header })
    hinv.sane.mem hp.views.disjoint hp.streamLength.le hp.declared hlen hdst hsrc
  rw [literalForm, if_neg (Nat.not_lt.2 hs)]
  exact ⟨hdec, hbytes, houtside, hrest⟩

end

/-- Settles O43: the five forms are one, and the clauses are the branches of its tests. -/
theorem literalOutcome : Obligations.LiteralOutcome := by
  rintro s i header _ x hinv ha hs hl rfl
  have hexec := exec_literal hinv ha hs hl
  exact ⟨fun h => ⟨_, hexec, literalForm_truncated h⟩,
    fun h hlen => ⟨_, hexec, literalForm_lengthZero h hlen⟩,
    fun h hlen hdst => ⟨_, hexec, literalForm_exceedsDst h hlen hdst⟩,
    fun h hlen hdst hsrc => ⟨_, hexec, literalForm_exceedsSrc h hlen hdst hsrc⟩,
    fun h hlen hdst hsrc => ⟨_, hexec, literalForm_done hinv ha h hlen hdst hsrc⟩⟩

/-! ## The end of the stream -/

/-- Behind the last element a step is the final check, in the state that has let a wait pass (R225). -/
theorem step_final {s : State} (hinv : Inv s) (ha : s.activity = .elements) (hr : s.host.head? ≠ some .reset)
    (hend : s.dec.s = s.dec.L) : step s = .next (decodeFinal (useWait s)) := by
  rw [step_microStep hinv (by rw [ha]; decide) (by rw [ha]; decide) hr,
    microStep_lastElement (by rw [useWait_activity, ha]) (by rw [useWait_dec, hend]; exact Nat.lt_irrefl _)]

/-- Settles O46: the step is the final check, whose two branches are the two clauses. -/
theorem finalLengthCheck : Obligations.FinalLengthCheck := by
  intro s hinv ha hr hend
  have hstep := step_final hinv ha hr hend
  rw [decodeFinal, useWait_dec, useWait_ops] at hstep
  refine ⟨fun h => ?_, fun h => ?_⟩
  · rw [if_neg (not_not_intro h)] at hstep
    exact ⟨_, hstep, commandEnds_succeed .., useWait_mem s⟩
  · rw [if_pos h] at hstep
    have houtside := onlyDstWritten_fail .finalLengthMismatch s.ops.srcLen s.dec.d s.dec.dLen (useWait s)
    rw [OnlyDstWritten, useWait_ops, useWait_mem] at houtside
    exact ⟨_, hstep, commandEnds_fail .., houtside⟩

/-! ## One literal -/

/-- `LEN v` is the unpadded varint (R97). -/
theorem bytes_lenPadded (v : Value) : (Line.lenPadded (varintLen v) v).bytes = (Line.len v).bytes :=
  if_pos (Nat.le_refl _)

/-- A literal line reproduces its bytes. -/
theorem outputOf_literal {old : Nat → Byte} {bs : List Byte} (hne : bs ≠ []) (hlen : bs.length < 2 ^ 32) :
    outputOf old [.lit bs] [] = some bs := by
  have hlegal : (Line.lit bs).legal = true := by
    have hpos := List.length_pos_of_ne_nil hne
    simp only [Line.legal, Bool.and_eq_true, decide_eq_true_eq]
    omega
  simp only [outputOf, Line.appendTo, hlegal, if_true, List.nil_append]

/-- Settles O47: the stream is the listing of no line or of one literal, behind an unpadded varint. -/
theorem decodeOfOneLiteral : Obligations.DecodeOfOneLiteral := by
  intro s bs hs hv hlen hroom hsrc
  rw [listingBytes, List.flatMap_cons, ← bytes_lenPadded] at hsrc
  refine decodeOfAListing s _ _ bs hs hv ?_ ?_ hroom ?_ hsrc
  · split_ifs with hnil
    · rw [hnil, outputOf]
    · exact outputOf_literal hnil hlen
  · intro l hl
    split_ifs at hl with hnil
    · cases hl
    · rw [List.mem_singleton.1 hl]
      rintro _ (h | h | ⟨_, h⟩) <;> cases h
      exact hlen
  · simp only [Line.legal, Bool.and_eq_true, decide_eq_true_eq]
    exact ⟨Nat.le_refl _, varintLen_le _⟩

end Sys2Proof.Machine
end

section
/-! The replay engine (R252 to R255): a copy by the branches of its tests. -/

namespace Sys2Proof.Machine

/-- A copy whose bytes are in the view, at its offset test: `len` and `off` are set, and the source cursor stands behind the
element (R222, R223). -/
def atOffsetTest (size len off : Nat) (s : State) : State :=
  s.modDec fun r => { r with len := len, off := off, s := r.s + size }

section
variable {i : Instr} {size len off : Nat} {s : State} (hc : copyOf i = some (size, len, off))
include hc

/-- COPY1 and COPY2 are one: the payload test, then the replay engine. -/
theorem runItem_eq_payloadTest : runItem i s =
    if s.dec.L < s.dec.s + size then failElement .copyPayloadTruncated s else copyElement (atOffsetTest size len off s) := by
  cases i with
  | copy1 len4 o | copy2 len1 o => cases hc; rfl
  | _ => cases hc

theorem exec_copy (hinv : Inv s) (ha : s.activity = .elements) : exec i s = .next (runItem i s) :=
  exec_inBounds (copyOf_header hc).2.1 hinv ha

theorem runItem_copyTruncated (hs : s.dec.L < s.dec.s + size) : ElementFails s (runItem i s) .copyPayloadTruncated := by
  rw [runItem_eq_payloadTest hc, if_pos hs]
  exact elementFails_failElement ..

theorem runItem_copyWhole (hs : s.dec.s + size ≤ s.dec.L) : runItem i s = copyElement (atOffsetTest size len off s) :=
  (runItem_eq_payloadTest hc).trans (if_neg (Nat.not_lt.2 hs))

theorem runItem_copyFails {c : Cause} (hs : s.dec.s + size ≤ s.dec.L)
    (hfail : copyElement (atOffsetTest size len off s) = failElement c (atOffsetTest size len off s)) :
    ElementFails s (runItem i s) c := by
  rw [runItem_copyWhole hc hs, hfail]
  exact elementFails_modDec c rfl rfl rfl

theorem runItem_copyBeforeStart (hs : s.dec.s + size ≤ s.dec.L) (hoff : s.dec.d < off) :
    ElementFails s (runItem i s) .copyOffsetBeforeStart := runItem_copyFails hc hs (if_pos hoff)

theorem runItem_copyExceedsDst (hs : s.dec.s + size ≤ s.dec.L) (hoff : off ≤ s.dec.d) (hroom : s.dec.dLen < s.dec.d + len) :
    ElementFails s (runItem i s) .copyExceedsDst :=
  runItem_copyFails hc hs ((if_neg (Nat.not_lt.2 hoff)).trans (if_pos hroom))

/-- A copy that passes its tests repeats the bytes before the cursor, or with offset 0 writes each byte back where it stood
(R253 to R255). -/
theorem runItem_copyDone (hinv : Inv s) (hs : s.dec.s + size ≤ s.dec.L) (hoff : off ≤ s.dec.d)
    (hroom : s.dec.d + len ≤ s.dec.dLen) :
    ElementDone s (runItem i s) { s.dec with len := len, off := off, s := s.dec.s + size, d := s.dec.d + len } len
      (fun j => if off = 0 then dst s (s.dec.d + j) else dst s (s.dec.d - off + j % off)) := by
  obtain ⟨hdec, hbytes, houtside, hrest⟩ := copyElement_done (s := atOffsetTest size len off s) hinv.sane.mem hoff hroom
  rw [runItem_copyWhole hc hs]
  exact ⟨hdec, hbytes, houtside, hrest⟩

end

/-- Settles O44: COPY1 and COPY2 are one, and the clauses are the branches of its tests. -/
theorem copyOutcome : Obligations.CopyOutcome := by
  intro s i size len off hinv ha _ hc
  have hexec := exec_copy hc hinv ha
  exact ⟨fun hs => ⟨_, hexec, runItem_copyTruncated hc hs⟩,
    fun hs hoff => ⟨_, hexec, runItem_copyBeforeStart hc hs hoff⟩,
    fun hs hoff hroom => ⟨_, hexec, runItem_copyExceedsDst hc hs hoff hroom⟩,
    fun hs hoff hroom => ⟨_, hexec, runItem_copyDone hc hinv hs hoff hroom⟩⟩

end Sys2Proof.Machine
end

section
/-! The codes of the causes (R271, R272). -/

namespace Sys2Proof.Machine

/-- The causes in the order of the rows of R272. -/
def Cause.rows : List Cause :=
  [.encDstLtMaxLen, .decDstLtDeclared, .putDstTooSmall, .encDstOverrun,
    .prefixIncomplete, .litExtraTruncated, .litLengthZero, .litExceedsDst, .litExceedsSrc, .copyPayloadTruncated,
    .copyOffsetBeforeStart, .copyExceedsDst, .finalLengthMismatch,
    .copy4Tag, .sourceTooLong, .varintTooManyGroups, .varint10thOverflow, .varintIncomplete, .badOpcode, .viewWraps]

theorem Cause.mem_rows (c : Cause) : c ∈ rows := by cases c <;> decide

theorem Cause.nodup_map_code_rows : (rows.map code).Nodup := by decide

theorem Cause.code_injective : Function.Injective code := fun c c' =>
  List.inj_on_of_nodup_map nodup_map_code_rows c.mem_rows c'.mem_rows

theorem Cause.status_toNat (c : Cause) : c.status.toNat = c.code.toNat / 16 := by cases c <;> rfl

/-- No class has number 0, so no code has high nibble 0. -/
theorem Cause.code_ne_zero (c : Cause) : c.code ≠ 0 := by
  intro h0
  have hstatus : c.status.toNat = 0 := by rw [c.status_toNat, h0]; rfl
  exact c.status_ne_zero (BitVec.eq_of_toNat_eq hstatus)

/-- Settles O54: each code has its class for high nibble, and the codes of R272's rows differ pairwise. -/
theorem causeDeterminesClass : Obligations.CauseDeterminesClass :=
  ⟨fun c => ⟨c.status_toNat, c.code_ne_zero, c.status_ne_zero⟩, fun _ _ h => Cause.code_injective h⟩

end Sys2Proof.Machine
end
